-- ==== Sys2Proof/Word.lean ====
section
/-! DEFINITION. The word types of the machine (`00_scope.md` R7, R9): bytes, 16-bit addresses. -/

namespace Sys2Proof

/-- One byte: the width of A, X, Y, S and of every bus access (`00_scope.md` R7). -/
abbrev Byte := BitVec 8

/-- A CPU bus address, and the width of PC (`00_scope.md` R7). -/
abbrev Word := BitVec 16

end Sys2Proof
end

