-- ==== Sys2Proof/Syntax.lean ====
section
/-! DEFINITION. The instructions: one constructor for each mnemonic of spec/opcode_table.json, applied to the
addressing mode, so that each row of the table is one constructor with one mode (JAM and UNK rows: with the
opcode byte itself). An `Instr` is what `decode(opc)` returns for the opcode byte (`30_encoding.md` R123): the
operand bytes are no part of it, because the machine reads them from the bus on later cycles
(`40_cycle_engine.md` R132, R140-R159); `Encoded` in Decode.lean joins the two. -/

namespace Sys2Proof

/-- Addressing modes with a memory operand (`30_encoding.md` R114-R119). -/
inductive MemMode where
  | zp | zpx | zpy | abs | absx | absy | indx | indy
deriving DecidableEq, Repr

/-- Modes of the read class: immediate, or a memory mode (`30_encoding.md` R113-R119, R122). -/
inductive ReadMode where
  | imm
  | mem (m : MemMode)
deriving DecidableEq, Repr

/-- Modes of the read-modify-write class (`40_cycle_engine.md` R136, column M). -/
inductive RmwMode where
  | zp | zpx | abs | absx
deriving DecidableEq, Repr

/-- Modes of the shifts and rotates: accumulator, or a read-modify-write memory mode
(`43_shift_rotate.md` R250-R253). -/
inductive ShiftMode where
  | acc
  | mem (m : RmwMode)
deriving DecidableEq, Repr

/-- The two forms of JMP (`44_control.md` R262, R263). -/
inductive JumpMode where
  | abs | ind
deriving DecidableEq, Repr

/-- The instructions, by the rule that defines each. -/
inductive Instr where
  -- `41_load_store_transfer.md`
  | lda (m : ReadMode) | ldx (m : ReadMode) | ldy (m : ReadMode)
  | sta (m : MemMode) | stx (m : MemMode) | sty (m : MemMode)
  | tax | tay | txa | tya | tsx | txs
  -- `42_arith_logic.md`
  | adc (m : ReadMode) | sbc (m : ReadMode)
  | and (m : ReadMode) | ora (m : ReadMode) | eor (m : ReadMode) | bit (m : MemMode)
  | cmp (m : ReadMode) | cpx (m : ReadMode) | cpy (m : ReadMode)
  | inc (m : RmwMode) | dec (m : RmwMode) | inx | iny | dex | dey
  -- `43_shift_rotate.md`
  | asl (m : ShiftMode) | lsr (m : ShiftMode) | rol (m : ShiftMode) | ror (m : ShiftMode)
  -- `44_control.md`
  | bcc | bcs | beq | bmi | bne | bpl | bvc | bvs
  | jmp (m : JumpMode) | jsr | rts | rti | brk
  -- `45_stack_flags_misc.md`
  | pha | php | pla | plp
  | clc | sec | cli | sei | clv | cld | sed
  | nop
  /-- A halting opcode; `op` is which of the twelve (R296). -/
  | jam (op : Byte)
  /-- An unknown opcode; `op` is which of the ninety-three (R297). -/
  | unk (op : Byte)
deriving DecidableEq, Repr

end Sys2Proof
end

