-- ==== Sys2Proof/WellFormed.lean ====
section
/-! DEFINITION. Which modes each instruction has (the encodings lines of files 41 to 45), and which opcode bytes
are JAM or UNK (`30_encoding.md` R124, R125). -/

namespace Sys2Proof

/-- The twelve halting opcodes (`30_encoding.md` R124). -/
def jamOpcodes : List Nat :=
  [0x02, 0x12, 0x22, 0x32, 0x42, 0x52, 0x62, 0x72, 0x92, 0xB2, 0xD2, 0xF2]

/-- The ninety-three opcodes that decode to the unknown variant (`30_encoding.md` R125, the list of its table). -/
def unkOpcodes : List Nat :=
  [0x1A, 0x3A, 0x5A, 0x7A, 0xDA, 0xFA] ++ [0x80, 0x82, 0x89, 0xC2, 0xE2] ++ [0x04, 0x44, 0x64]
  ++ [0x14, 0x34, 0x54, 0x74, 0xD4, 0xF4] ++ [0x0C] ++ [0x1C, 0x3C, 0x5C, 0x7C, 0xDC, 0xFC]
  ++ [0x03, 0x07, 0x0F, 0x13, 0x17, 0x1B, 0x1F] ++ [0x23, 0x27, 0x2F, 0x33, 0x37, 0x3B, 0x3F]
  ++ [0x43, 0x47, 0x4F, 0x53, 0x57, 0x5B, 0x5F] ++ [0x63, 0x67, 0x6F, 0x73, 0x77, 0x7B, 0x7F]
  ++ [0xC3, 0xC7, 0xCF, 0xD3, 0xD7, 0xDB, 0xDF] ++ [0xE3, 0xE7, 0xEF, 0xF3, 0xF7, 0xFB, 0xFF]
  ++ [0x83, 0x87, 0x8F, 0x97] ++ [0xA3, 0xA7, 0xAF, 0xB3, 0xB7, 0xBF] ++ [0xAB] ++ [0x0B, 0x2B]
  ++ [0x4B] ++ [0x6B] ++ [0x8B] ++ [0xCB] ++ [0xEB] ++ [0x93, 0x9F] ++ [0x9C] ++ [0x9E] ++ [0x9B] ++ [0xBB]

/-- The eight-mode set of LDA ADC SBC AND ORA EOR CMP (`41_load_store_transfer.md` R201). -/
def ReadMode.full : ReadMode → Bool
  | .imm => true
  | .mem m => decide (m ≠ .zpy)

/-- The modes of LDX: imm, zp, zp,Y, abs, abs,Y (`41_load_store_transfer.md` R202). -/
def ReadMode.ofLdx : ReadMode → Bool
  | .imm => true
  | .mem m => m ∈ [MemMode.zp, .zpy, .abs, .absy]

/-- The modes of LDY: imm, zp, zp,X, abs, abs,X (`41_load_store_transfer.md` R203). -/
def ReadMode.ofLdy : ReadMode → Bool
  | .imm => true
  | .mem m => m ∈ [MemMode.zp, .zpx, .abs, .absx]

/-- The modes of CPX and CPY: imm, zp, abs (`42_arith_logic.md` R228, R229). -/
def ReadMode.ofCompareIndex : ReadMode → Bool
  | .imm => true
  | .mem m => m ∈ [MemMode.zp, .abs]

/-- An instruction is well formed when its mode is one of those the spec gives it, and a JAM or UNK opcode byte
is one of those it lists. -/
def Instr.wellFormed : Instr → Bool
  | .lda m | .adc m | .sbc m | .and m | .ora m | .eor m | .cmp m => m.full
  | .ldx m => m.ofLdx
  | .ldy m => m.ofLdy
  | .cpx m | .cpy m => m.ofCompareIndex
  | .bit m => m ∈ [MemMode.zp, .abs]
  | .sta m => decide (m ≠ .zpy)
  | .stx m => m ∈ [MemMode.zp, .zpy, .abs]
  | .sty m => m ∈ [MemMode.zp, .zpx, .abs]
  | .jam op => op.toNat ∈ jamOpcodes
  | .unk op => op.toNat ∈ unkOpcodes
  | .inc _ | .dec _ | .asl _ | .lsr _ | .rol _ | .ror _ | .jmp _ => true
  | .tax | .tay | .txa | .tya | .tsx | .txs | .inx | .iny | .dex | .dey => true
  | .bcc | .bcs | .beq | .bmi | .bne | .bpl | .bvc | .bvs | .jsr | .rts | .rti | .brk => true
  | .pha | .php | .pla | .plp | .clc | .sec | .cli | .sei | .clv | .cld | .sed | .nop => true

end Sys2Proof
end

