-- ==== Sys2Proof/Decode.lean ====
section
/-! DEFINITION. Decoding and encoding (`30_encoding.md`): the opcode map R123, the operand bytes of R111 and R127,
and the encoder, written from the encodings lines of files 41 to 45 and not from the map. -/

namespace Sys2Proof

/-- The official opcodes, row by row of the map of `30_encoding.md` R123. -/
def officialOpcodes : List (Nat × Instr) :=
  [ (0x00, .brk), (0x01, .ora (.mem .indx)), (0x05, .ora (.mem .zp)), (0x06, .asl (.mem .zp)), (0x08, .php),
     (0x09, .ora .imm), (0x0A, .asl .acc), (0x0D, .ora (.mem .abs)), (0x0E, .asl (.mem .abs)) ]
  ++ [ (0x10, .bpl), (0x11, .ora (.mem .indy)), (0x15, .ora (.mem .zpx)), (0x16, .asl (.mem .zpx)), (0x18, .clc),
     (0x19, .ora (.mem .absy)), (0x1D, .ora (.mem .absx)), (0x1E, .asl (.mem .absx)) ]
  ++ [ (0x20, .jsr), (0x21, .and (.mem .indx)), (0x24, .bit .zp), (0x25, .and (.mem .zp)), (0x26, .rol (.mem .zp)),
     (0x28, .plp), (0x29, .and .imm), (0x2A, .rol .acc), (0x2C, .bit .abs), (0x2D, .and (.mem .abs)),
     (0x2E, .rol (.mem .abs)) ]
  ++ [ (0x30, .bmi), (0x31, .and (.mem .indy)), (0x35, .and (.mem .zpx)), (0x36, .rol (.mem .zpx)), (0x38, .sec),
     (0x39, .and (.mem .absy)), (0x3D, .and (.mem .absx)), (0x3E, .rol (.mem .absx)) ]
  ++ [ (0x40, .rti), (0x41, .eor (.mem .indx)), (0x45, .eor (.mem .zp)), (0x46, .lsr (.mem .zp)), (0x48, .pha),
     (0x49, .eor .imm), (0x4A, .lsr .acc), (0x4C, .jmp .abs), (0x4D, .eor (.mem .abs)), (0x4E, .lsr (.mem .abs)) ]
  ++ [ (0x50, .bvc), (0x51, .eor (.mem .indy)), (0x55, .eor (.mem .zpx)), (0x56, .lsr (.mem .zpx)), (0x58, .cli),
     (0x59, .eor (.mem .absy)), (0x5D, .eor (.mem .absx)), (0x5E, .lsr (.mem .absx)) ]
  ++ [ (0x60, .rts), (0x61, .adc (.mem .indx)), (0x65, .adc (.mem .zp)), (0x66, .ror (.mem .zp)), (0x68, .pla),
     (0x69, .adc .imm), (0x6A, .ror .acc), (0x6C, .jmp .ind), (0x6D, .adc (.mem .abs)), (0x6E, .ror (.mem .abs)) ]
  ++ [ (0x70, .bvs), (0x71, .adc (.mem .indy)), (0x75, .adc (.mem .zpx)), (0x76, .ror (.mem .zpx)), (0x78, .sei),
     (0x79, .adc (.mem .absy)), (0x7D, .adc (.mem .absx)), (0x7E, .ror (.mem .absx)) ]
  ++ [ (0x81, .sta .indx), (0x84, .sty .zp), (0x85, .sta .zp), (0x86, .stx .zp), (0x88, .dey),
     (0x8A, .txa), (0x8C, .sty .abs), (0x8D, .sta .abs), (0x8E, .stx .abs) ]
  ++ [ (0x90, .bcc), (0x91, .sta .indy), (0x94, .sty .zpx), (0x95, .sta .zpx), (0x96, .stx .zpy),
     (0x98, .tya), (0x99, .sta .absy), (0x9A, .txs), (0x9D, .sta .absx) ]
  ++ [ (0xA0, .ldy .imm), (0xA1, .lda (.mem .indx)), (0xA2, .ldx .imm), (0xA4, .ldy (.mem .zp)), (0xA5, .lda (.mem .zp)),
     (0xA6, .ldx (.mem .zp)), (0xA8, .tay), (0xA9, .lda .imm), (0xAA, .tax), (0xAC, .ldy (.mem .abs)),
     (0xAD, .lda (.mem .abs)), (0xAE, .ldx (.mem .abs)) ]
  ++ [ (0xB0, .bcs), (0xB1, .lda (.mem .indy)), (0xB4, .ldy (.mem .zpx)), (0xB5, .lda (.mem .zpx)), (0xB6, .ldx (.mem .zpy)),
     (0xB8, .clv), (0xB9, .lda (.mem .absy)), (0xBA, .tsx), (0xBC, .ldy (.mem .absx)), (0xBD, .lda (.mem .absx)),
     (0xBE, .ldx (.mem .absy)) ]
  ++ [ (0xC0, .cpy .imm), (0xC1, .cmp (.mem .indx)), (0xC4, .cpy (.mem .zp)), (0xC5, .cmp (.mem .zp)), (0xC6, .dec .zp),
     (0xC8, .iny), (0xC9, .cmp .imm), (0xCA, .dex), (0xCC, .cpy (.mem .abs)), (0xCD, .cmp (.mem .abs)),
     (0xCE, .dec .abs) ]
  ++ [ (0xD0, .bne), (0xD1, .cmp (.mem .indy)), (0xD5, .cmp (.mem .zpx)), (0xD6, .dec .zpx), (0xD8, .cld),
     (0xD9, .cmp (.mem .absy)), (0xDD, .cmp (.mem .absx)), (0xDE, .dec .absx) ]
  ++ [ (0xE0, .cpx .imm), (0xE1, .sbc (.mem .indx)), (0xE4, .cpx (.mem .zp)), (0xE5, .sbc (.mem .zp)), (0xE6, .inc .zp),
     (0xE8, .inx), (0xE9, .sbc .imm), (0xEA, .nop), (0xEC, .cpx (.mem .abs)), (0xED, .sbc (.mem .abs)),
     (0xEE, .inc .abs) ]
  ++ [ (0xF0, .beq), (0xF1, .sbc (.mem .indy)), (0xF5, .sbc (.mem .zpx)), (0xF6, .inc .zpx), (0xF8, .sed),
     (0xF9, .sbc (.mem .absy)), (0xFD, .sbc (.mem .absx)), (0xFE, .inc .absx) ]

/-- The first entry of a row list with this opcode. -/
def lookupOpcode (op : Nat) : List (Nat × Instr) → Option Instr
  | [] => none
  | (o, i) :: rest => if o = op then some i else lookupOpcode op rest

/-- `decode(opc)` of `30_encoding.md` R123: total over the 256 opcode bytes. Every byte is official, JAM or UNK
(R126); no encoding traps (R125). -/
def decodeOpcode (op : Byte) : Instr :=
  match lookupOpcode op.toNat officialOpcodes with
  | some i => i
  | none => if op.toNat ∈ jamOpcodes then .jam op else .unk op

/-- How many operand bytes follow the opcode in a memory mode (`30_encoding.md` R127). -/
def MemMode.operandBytes : MemMode → Nat
  | .zp | .zpx | .zpy | .indx | .indy => 1
  | .abs | .absx | .absy => 2

def ReadMode.operandBytes : ReadMode → Nat
  | .imm => 1
  | .mem m => m.operandBytes

/-- The read-modify-write modes are memory modes. -/
def RmwMode.toMem : RmwMode → MemMode
  | .zp => .zp
  | .zpx => .zpx
  | .abs => .abs
  | .absx => .absx

def ShiftMode.operandBytes : ShiftMode → Nat
  | .acc => 0
  | .mem m => m.toMem.operandBytes

/-- How many operand bytes follow the opcode (`30_encoding.md` R127). BRK is one byte long; the padding byte it
skips is not an operand (`44_control.md` R267). Of an UNK opcode only the opcode byte is fetched
(`45_stack_flags_misc.md` R297). -/
def Instr.operandBytes : Instr → Nat
  | .lda m | .ldx m | .ldy m | .adc m | .sbc m | .and m | .ora m | .eor m | .cmp m | .cpx m | .cpy m => m.operandBytes
  | .sta m | .stx m | .sty m | .bit m => m.operandBytes
  | .inc m | .dec m => m.toMem.operandBytes
  | .asl m | .lsr m | .rol m | .ror m => m.operandBytes
  | .bcc | .bcs | .beq | .bmi | .bne | .bpl | .bvc | .bvs => 1
  | .jmp _ | .jsr => 2
  | .tax | .tay | .txa | .tya | .tsx | .txs | .inx | .iny | .dex | .dey => 0
  | .rts | .rti | .brk | .pha | .php | .pla | .plp => 0
  | .clc | .sec | .cli | .sei | .clv | .cld | .sed | .nop => 0
  | .jam _ | .unk _ => 0

/-- The length of an instruction in bytes (`30_encoding.md` R127). -/
def Instr.length (i : Instr) : Nat := 1 + i.operandBytes

/-- The operand bytes of one instruction as they stand in memory, first byte first (`30_encoding.md` R111). -/
inductive Operand where
  | none
  | one (b1 : Byte)
  | two (b1 b2 : Byte)
deriving DecidableEq, Repr

def Operand.bytes : Operand → List Byte
  | .none => []
  | .one b1 => [b1]
  | .two b1 b2 => [b1, b2]

/-- One instruction with its operand bytes: what stands in memory at an instruction's address. -/
structure Encoded where
  instr : Instr
  operand : Operand
deriving DecidableEq, Repr

/-- Well formed: the instruction is, and it has as many operand bytes as its mode takes. -/
def Encoded.wellFormed (e : Encoded) : Bool :=
  e.instr.wellFormed && decide (e.operand.bytes.length = e.instr.operandBytes)

/-- Why a byte list is no instruction. -/
inductive DecodeError where
  /-- there is no opcode byte -/
  | empty
  /-- the operand bytes of this instruction are missing -/
  | truncated (i : Instr)
deriving DecidableEq, Repr

/-- Decode the instruction at the front of a byte list and give the bytes after it. Total: every list gives an
instruction or an error by name. -/
def decode : List Byte → Except DecodeError (Encoded × List Byte)
  | [] => .error .empty
  | op :: rest =>
    let i := decodeOpcode op
    match i.operandBytes, rest with
    | 0, _ => .ok (⟨i, .none⟩, rest)
    | 1, b1 :: rest' => .ok (⟨i, .one b1⟩, rest')
    | 2, b1 :: b2 :: rest' => .ok (⟨i, .two b1 b2⟩, rest')
    | _, _ => .error (.truncated i)

/-- The instruction the decoder reads from an instruction whose bits are `w` (bit 0 the least significant bit of
the first byte), the bits above `nbits` being 0: the three bytes as they stand in memory. -/
def decodeTableWord (nbits w : Nat) : Option Instr :=
  let v := w % 2 ^ nbits
  match decode [BitVec.ofNat 8 v, BitVec.ofNat 8 (v / 256), BitVec.ofNat 8 (v / 65536)] with
  | .ok (e, _) => some e.instr
  | .error _ => none

/-! ## The encoder -/

/-- Opcode of an instruction of the LDA ADC SBC AND ORA EOR CMP STA shape, from its opcode in (zp,X) mode
(the encodings lines of `41_load_store_transfer.md` R201, R204 and `42_arith_logic.md` R220-R224, R227). -/
def encodeAlu (base : Nat) : MemMode → Option Nat
  | .indx => some base
  | .zp => some (base + 0x04)
  | .abs => some (base + 0x0C)
  | .indy => some (base + 0x10)
  | .zpx => some (base + 0x14)
  | .absy => some (base + 0x18)
  | .absx => some (base + 0x1C)
  | .zpy => none

def encodeAluRead (base : Nat) : ReadMode → Option Nat
  | .imm => some (base + 0x08)
  | .mem m => encodeAlu base m

/-- Opcode of a read-modify-write form, from its zero-page opcode (`42_arith_logic.md` R237, R238,
`43_shift_rotate.md` R250-R253). -/
def encodeRmw (zp : Nat) : RmwMode → Nat
  | .zp => zp
  | .abs => zp + 0x08
  | .zpx => zp + 0x10
  | .absx => zp + 0x18

def encodeShift (acc : Nat) : ShiftMode → Nat
  | .acc => acc
  | .mem m => encodeRmw (acc - 0x04) m

/-- The opcode byte of an instruction, `none` for a mode it does not have. -/
def Instr.opcodeNat : Instr → Option Nat
  | .lda m => encodeAluRead 0xA1 m
  | .ldx .imm => some 0xA2
  | .ldx (.mem .zp) => some 0xA6
  | .ldx (.mem .zpy) => some 0xB6
  | .ldx (.mem .abs) => some 0xAE
  | .ldx (.mem .absy) => some 0xBE
  | .ldx (.mem _) => none
  | .ldy .imm => some 0xA0
  | .ldy (.mem .zp) => some 0xA4
  | .ldy (.mem .zpx) => some 0xB4
  | .ldy (.mem .abs) => some 0xAC
  | .ldy (.mem .absx) => some 0xBC
  | .ldy (.mem _) => none
  | .sta m => encodeAlu 0x81 m
  | .stx .zp => some 0x86
  | .stx .zpy => some 0x96
  | .stx .abs => some 0x8E
  | .stx _ => none
  | .sty .zp => some 0x84
  | .sty .zpx => some 0x94
  | .sty .abs => some 0x8C
  | .sty _ => none
  | .tax => some 0xAA
  | .tay => some 0xA8
  | .txa => some 0x8A
  | .tya => some 0x98
  | .tsx => some 0xBA
  | .txs => some 0x9A
  | .adc m => encodeAluRead 0x61 m
  | .sbc m => encodeAluRead 0xE1 m
  | .and m => encodeAluRead 0x21 m
  | .ora m => encodeAluRead 0x01 m
  | .eor m => encodeAluRead 0x41 m
  | .bit .zp => some 0x24
  | .bit .abs => some 0x2C
  | .bit _ => none
  | .cmp m => encodeAluRead 0xC1 m
  | .cpx .imm => some 0xE0
  | .cpx (.mem .zp) => some 0xE4
  | .cpx (.mem .abs) => some 0xEC
  | .cpx (.mem _) => none
  | .cpy .imm => some 0xC0
  | .cpy (.mem .zp) => some 0xC4
  | .cpy (.mem .abs) => some 0xCC
  | .cpy (.mem _) => none
  | .inc m => some (encodeRmw 0xE6 m)
  | .dec m => some (encodeRmw 0xC6 m)
  | .inx => some 0xE8
  | .iny => some 0xC8
  | .dex => some 0xCA
  | .dey => some 0x88
  | .asl m => some (encodeShift 0x0A m)
  | .lsr m => some (encodeShift 0x4A m)
  | .rol m => some (encodeShift 0x2A m)
  | .ror m => some (encodeShift 0x6A m)
  | .bcc => some 0x90
  | .bcs => some 0xB0
  | .beq => some 0xF0
  | .bmi => some 0x30
  | .bne => some 0xD0
  | .bpl => some 0x10
  | .bvc => some 0x50
  | .bvs => some 0x70
  | .jmp .abs => some 0x4C
  | .jmp .ind => some 0x6C
  | .jsr => some 0x20
  | .rts => some 0x60
  | .rti => some 0x40
  | .brk => some 0x00
  | .pha => some 0x48
  | .php => some 0x08
  | .pla => some 0x68
  | .plp => some 0x28
  | .clc => some 0x18
  | .sec => some 0x38
  | .cli => some 0x58
  | .sei => some 0x78
  | .clv => some 0xB8
  | .cld => some 0xD8
  | .sed => some 0xF8
  | .nop => some 0xEA
  | .jam op => if op.toNat ∈ jamOpcodes then some op.toNat else none
  | .unk op => if op.toNat ∈ unkOpcodes then some op.toNat else none

/-- The opcode byte of an instruction, `none` for a mode it does not have. -/
def encodeOpcode (i : Instr) : Option Byte := i.opcodeNat.map (BitVec.ofNat 8)

/-- The bytes of a well-formed instruction: the opcode, then its operand bytes (`30_encoding.md` R110, R111). -/
def encode (e : Encoded) : Option (List Byte) :=
  (encodeOpcode e.instr).map (· :: e.operand.bytes)

end Sys2Proof
end

