-- ==== Sys2Proof/Config.lean ====
section
/-! DEFINITION. The parameters of `00_scope.md` R8 that a console fixes once and no step changes.
The others live elsewhere: P_LINES and P_ORDER are the driver's part of State, P_CART and P_MIRRORING are the
inserted cartridge, and the power-up draws and P_PPU_POWERUP_RST are arguments of State.powerUp. The supplied function of P_UNK reads
the CPU, so its two uninterpreted constants stand beside that, in State.lean. -/

namespace Sys2Proof

/-! ## P_UNK (`45_stack_flags_misc.md` R297, log 10) -/

/-- `P_UNK`: unknown opcodes are refused, or run a supplied cycle function (`00_scope.md` R8). -/
inductive UnkParam where
  | refuse | supplied
deriving DecidableEq, Repr

/-- What follows a cycle of a supplied function: the next cycle, the boundary, or the jam (`40_cycle_engine.md` R130, R159). -/
inductive UnkNext where
  | onward | final | jam
deriving DecidableEq, Repr, Inhabited

/-- One cycle of a supplied function: its bus access (`out` as in a row of a cycle table), whether it is a poll point, and what
follows it. -/
structure UnkCycle where
  addr : Word
  /-- `none`: a read; `some v`: a write of `v` -/
  out : Option Byte
  poll : Bool
  next : UnkNext
deriving DecidableEq, Repr, Inhabited

/-! ## The record -/

/-- `P_BCD`, `P_PALETTE_READ_MASK` and `P_UNK` with the spec's defaults (`00_scope.md` R8). -/
structure Config where
  /-- `P_BCD`: ADC and SBC honour the D flag (`42_arith_logic.md` R226). -/
  bcd : Bool := false
  /-- `P_PALETTE_READ_MASK`: applied to palette reads (`46_ppu.md` R321). -/
  paletteReadMask : Byte := 0xFF#8
  /-- `P_UNK`: what an unknown opcode does after its T0 fetch (`45_stack_flags_misc.md` R297). -/
  unk : UnkParam := .refuse
deriving DecidableEq, Repr

end Sys2Proof
end

