-- ==== Sys2Proof/Machine/State.lean ====
section
/-! DEFINITION. The state of the console: CPU, PPU, buses, memories, cartridge (`10_state.md`), the reasons a step
can stop, and the values at power-up (`10_state.md` R48-R50). Plain data throughout. The supplied function of P_UNK, which reads the CPU,
is declared beside it. -/

namespace Sys2Proof.Machine

/-! ## CPU -/

/-- The status register: a record of eight one-bit fields (`10_state.md` R23). -/
structure Flags where
  c : Bool
  z : Bool
  i : Bool
  d : Bool
  b : Bool
  u : Bool
  v : Bool
  n : Bool
deriving DecidableEq, Repr, Inhabited

/-- The register file a program sees (`10_state.md` R20-R23). -/
structure Regs where
  a : Byte
  x : Byte
  y : Byte
  s : Byte
  pc : Word
  p : Flags
deriving DecidableEq, Repr, Inhabited

/-- The states of an interrupt tracker and of the PPU's reset tracker (`10_state.md` R27, R38). -/
inductive Tracker where
  | clear | detected | pending | committed | serviced
deriving DecidableEq, Repr, Inhabited

/-- Which sequence the CPU began at the last boundary (`10_state.md` R28, `kind`). -/
inductive SeqKind where
  | fetch | irq | nmi | rst
deriving DecidableEq, Repr, Inhabited

/-- The hidden engine state of the CPU, field by field the table of `10_state.md` R28. -/
structure Engine where
  /-- index of the current cycle in the current sequence: 0 to 6, and beyond 6 only in a longer supplied sequence (log 10) -/
  t : Nat
  opc : Byte
  kind : SeqKind
  adl : Byte
  adh : Byte
  adc : Bool
  ptr : Byte
  lat : Byte
  off : Byte
  tgt : Word
  val : Byte
  vec : Word
  addrbus : Word
  databus : Byte
  presync : Bool
  imask : Bool
  jammed : Bool
  dflt : Bool
deriving DecidableEq, Repr, Inhabited

/-- The three interrupt trackers (`10_state.md` R27). -/
structure Trackers where
  irq : Tracker
  nmi : Tracker
  rst : Tracker
deriving DecidableEq, Repr, Inhabited

structure Cpu where
  regs : Regs
  eng : Engine
  trk : Trackers
deriving DecidableEq, Repr, Inhabited

end Sys2Proof.Machine

namespace Sys2Proof

/-- The supplied cycle function of P_UNK (`00_scope.md` R8): the cycle of this index of this opcode, from the CPU at its start. A free
value (log 10): "nothing in this spec constrains it beyond the T0 fetch" (`45_stack_flags_misc.md` R297). -/
opaque Config.unkCycle : Byte → Nat → Machine.Cpu → UnkCycle

/-- What that cycle makes of the CPU, from the CPU as its bus access leaves it. A free value (log 10). -/
opaque Config.unkEffect : Byte → Nat → Machine.Cpu → Machine.Cpu

end Sys2Proof

namespace Sys2Proof.Machine

/-- The input lines as the driver last drove them, `true` when high (`10_state.md` R26). `rstN` is also the
PPU's `prst_n` (`60_exceptions.md` R350). `nmiExtN` is the driver's NMI-from-elsewhere (`00_scope.md` R8); the
CPU's `nmi_n` is this and the PPU's output together. -/
structure Lines where
  irqN : Bool
  nmiExtN : Bool
  rstN : Bool
deriving DecidableEq, Repr

/-- What the driver does for one CPU cycle (`P_LINES`, `P_ORDER`; `00_scope.md` R8): the line levels it sets before the cycle, and the PPU
dots it runs after it, each given by the level of the reset line as that dot runs. The default is three dots with the line as in the
cycle. -/
structure DriverCycle where
  irqN : Bool := true
  nmiExtN : Bool := true
  rstN : Bool := true
  dots : List Bool := [rstN, rstN, rstN]
deriving DecidableEq, Repr

/-! ## Memories and buses -/

/-- A memory as a list of cells: addresses strictly rising, no cell holding the byte an unlisted address reads as. -/
abbrev Memory := List Host.Cell

/-- The bus devices in scope (`20_memory.md` R91, R93, R96, R99, R101, R102), named; their contents are State's
own fields (the context a device points to is not its own, R75). The last two stand for a foreign device whose
callback breaks the rule of `70_reset_and_hazards.md` R410. -/
inductive Device where
  | ram | ppuRegs | vram | prg | chr
  /-- a device whose callback calls the bus that is calling it -/
  | reentrant
  /-- a device whose callback swaps a binding -/
  | rebinder
deriving DecidableEq, Repr

/-- An AddressBus: its width, the first address of each partition in order, and the binding of each partition
(`10_state.md` R46, `20_memory.md` R70). -/
structure Bus where
  bitwidth : Nat
  starts : List Nat
  bindings : List (Option Device)
deriving DecidableEq, Repr

/-- Nametable mirroring, `P_MIRRORING` (`20_memory.md` R96). -/
inductive Mirroring where
  | horizontal | vertical
deriving DecidableEq, Repr

/-- The inserted cartridge, less its contents (`P_CART`; `20_memory.md` R98-R102). -/
inductive CartKind where
  | absent
  /-- a raw image of `size` bytes at $8000 (R102) -/
  | rawImage (size : Nat)
  /-- iNES mapper 000: 32 KiB or 16 KiB of PRG ROM (R99), CHR RAM or CHR ROM (R101) -/
  | nrom (prg32 : Bool) (chrRam : Bool)
deriving DecidableEq, Repr

/-- The bindings that the inserted cartridge displaced when it was connected, to be swapped back when it is disconnected
(`20_memory.md` R98); `none` where it connected nothing. -/
structure Displaced where
  /-- what was bound to the CPU partition at $8000 -/
  prg : Option (Option Device)
  /-- what was bound to the video partition at $0000 -/
  chr : Option (Option Device)
deriving DecidableEq, Repr

/-! ## PPU -/

/-- PPUCTRL (`10_state.md` R31). -/
structure PpuCtrl where
  nn : BitVec 2
  i : Bool
  s : Bool
  b : Bool
  h : Bool
  v : Bool
deriving DecidableEq, Repr

/-- PPUMASK (`10_state.md` R32). -/
structure PpuMask where
  g : Bool
  bm : Bool
  sm : Bool
  b : Bool
  s : Bool
  er : Bool
  eg : Bool
  eb : Bool
deriving DecidableEq, Repr

/-- PPUSTATUS (`10_state.md` R33). -/
structure PpuStatus where
  v : Bool
  s : Bool
  o : Bool
deriving DecidableEq, Repr

/-- The deferred PPUDATA access (`10_state.md` R39). -/
inductive Pend where
  | none | read | write
deriving DecidableEq, Repr

/-- The PPU (`10_state.md` R31-R43). -/
structure Ppu where
  ctrl : PpuCtrl
  mask : PpuMask
  status : PpuStatus
  oamaddr : Byte
  oam : Memory
  v : BitVec 15
  t : BitVec 15
  x : BitVec 3
  w : Bool
  rbuf : Byte
  line : Nat
  dot : Nat
  odd : Bool
  prst : Tracker
  pend : Pend
  pdata : Byte
  ale : Bool
  vaddr : BitVec 14
  iolatch : Byte
  pal : Memory
  vsupp : Bool
  bflt : Bool
deriving DecidableEq, Repr

/-! ## The console -/

structure State where
  config : Config
  cpu : Cpu
  lines : Lines
  ppu : Ppu
  /-- the CPU's internal RAM, 2 KiB (`20_memory.md` R91) -/
  ram : Memory
  /-- nametable VRAM, 2 KiB (`20_memory.md` R96) -/
  vram : Memory
  cart : CartKind
  displaced : Displaced
  mirroring : Mirroring
  /-- the cartridge's PRG ROM (`20_memory.md` R99, R102) -/
  prg : Memory
  /-- the cartridge's CHR ROM or CHR RAM (`20_memory.md` R101) -/
  chr : Memory
  cpuBus : Bus
  videoBus : Bus
  /-- the dots the driver runs before the next CPU cycle, each given by the level of the reset line as it runs; none after the first
  CPU cycle (`P_ORDER`, log 16) -/
  early : List Bool
  /-- what the driver does in the coming CPU cycles; when it ends, the lines keep their levels and three dots
  follow each cycle -/
  driver : List DriverCycle
deriving DecidableEq, Repr

/-- The hardware has no synchronous exception and no trap (`60_exceptions.md` R375): nothing raises a fault. A
failed access is the flags `dflt` and `bflt` in State (`20_memory.md` R81), and a jammed CPU is a state it stays
in (`45_stack_flags_misc.md` R296). Safe: an outcome that cannot occur proves nothing false. -/
inductive Fault where
deriving DecidableEq, Repr

/-- The refusals: the model has no meaning for what comes next (`00_scope.md` R11). All are safe: the model stops
where the hardware may go on. -/
inductive Refusal where
  /-- raised by an arm of `exec` whose instruction has no meaning yet; none is left -/
  | notModelled (mnemonic : String)
  /-- UNK_OPCODE: raised by the meaning of an unknown opcode with P_UNK at its default, after its T0 fetch; `pc` and `dflt` are what that
  fetch left in the state that is marked refused (`45_stack_flags_misc.md` R297) -/
  | unkOpcode (op : Byte) (pc : Word) (dflt : Bool)
  /-- PPUDATA_OVERLAP: raised by an access to $2007 while a deferred access is pending (`46_ppu.md` R315) -/
  | ppudataOverlap
  /-- NESTED_BUS_CALL: raised by an access that reaches a device which calls its own bus (`70_reset_and_hazards.md` R410) -/
  | nestedBusCall
  /-- MIDCYCLE_SWAP: raised by an access that reaches a device which swaps a binding (`70_reset_and_hazards.md` R410) -/
  | midcycleSwap
  /-- UNIMPLEMENTED_MAPPER: raised by inserting such a cartridge, never by a step (`20_memory.md` R100) -/
  | unimplementedMapper (number : Nat)
  /-- BAD_BUS_CONSTRUCTION: raised by constructing such a bus, never by a step (`20_memory.md` R71) -/
  | badBusConstruction
  /-- raised by inserting a cartridge whose contents do not fit its kind, never by a step (the loader that would
  refuse such a file is out of scope, `00_scope.md` R4) -/
  | badCartridgeImage
deriving DecidableEq, Repr

/-! ## Power-up -/

/-- The draws of power-up (`00_scope.md` R8: P_POWERUP_CPU, P_POWERUP_DATABUS, P_POWERUP_RAM, P_PPU_POWERUP_RST;
`10_state.md` R48-R50), and the parameters of Config. The defaults are the model's choice where the spec says "any value"
(DESIGN CHOICE, logs 4 and 5). -/
structure Draws where
  config : Config := {}
  a : Byte := 0#8
  x : Byte := 0#8
  y : Byte := 0#8
  s : Byte := 0#8
  pc : Word := 0#16
  c : Bool := false
  z : Bool := false
  i : Bool := false
  d : Bool := false
  v : Bool := false
  n : Bool := false
  databus : Byte := 0#8
  statusV : Bool := false
  statusO : Bool := false
  prst : Tracker := .serviced
  ram : Memory := []
  vram : Memory := []
  oam : Memory := []
  pal : Memory := []
deriving DecidableEq, Repr

/-- The CPU at power-up (`10_state.md` R48). -/
def Cpu.powerUp (d : Draws) : Cpu where
  regs := { a := d.a, x := d.x, y := d.y, s := d.s, pc := d.pc,
            p := { c := d.c, z := d.z, i := d.i, d := d.d, b := false, u := true, v := d.v, n := d.n } }
  eng := { t := 0, opc := 0#8, kind := .fetch, adl := 0#8, adh := 0#8, adc := false, ptr := 0#8, lat := 0#8,
           off := 0#8, tgt := 0#16, val := 0#8, vec := 0#16, addrbus := 0#16, databus := d.databus,
           presync := true, imask := true, jammed := false, dflt := false }
  trk := { irq := .clear, nmi := .clear, rst := .committed }

/-- The PPU at power-up (`10_state.md` R49). `pdata` has no value there: 0 (DESIGN CHOICE, log 4). -/
def Ppu.powerUp (d : Draws) : Ppu where
  ctrl := { nn := 0#2, i := false, s := false, b := false, h := false, v := false }
  mask := { g := false, bm := false, sm := false, b := false, s := false, er := false, eg := false, eb := false }
  status := { v := d.statusV, s := false, o := d.statusO }
  oamaddr := 0#8
  oam := d.oam
  v := 0#15
  t := 0#15
  x := 0#3
  w := false
  rbuf := 0#8
  line := 0
  dot := 0
  odd := false
  prst := d.prst
  pend := .none
  pdata := 0#8
  ale := false
  vaddr := 0#14
  iolatch := 0#8
  pal := d.pal
  vsupp := false
  bflt := false

/-- The CPU bus as the console is constructed, without a cartridge: `new(16, 4, $2000, $4000, $8000)` with RAM and
the PPU registers bound (`20_memory.md` R90, R92). -/
def Bus.cpuConsole : Bus where
  bitwidth := 16
  starts := [0x0000, 0x2000, 0x4000, 0x8000]
  bindings := [some .ram, some .ppuRegs, none, none]

/-- The video bus as the console is constructed, without a cartridge: `new(14, 2, $2000)` with the VRAM bound
(`20_memory.md` R95, R92). -/
def Bus.videoConsole : Bus where
  bitwidth := 14
  starts := [0x0000, 0x2000]
  bindings := [none, some .vram]

/-- The console at power-up, before a cartridge is inserted (`10_state.md` R48-R50). -/
def State.powerUp (d : Draws) : State where
  config := d.config
  cpu := Cpu.powerUp d
  lines := { irqN := true, nmiExtN := true, rstN := true }
  ppu := Ppu.powerUp d
  ram := d.ram
  vram := d.vram
  cart := .absent
  displaced := { prg := none, chr := none }
  mirroring := .vertical
  prg := []
  chr := []
  cpuBus := Bus.cpuConsole
  videoBus := Bus.videoConsole
  early := []
  driver := []

/-- The machine right after reset: power-up with the draws the log names (`70_reset_and_hazards.md` R390, R391:
its first cycles run the reset sequence). -/
def State.reset : State := State.powerUp {}

end Sys2Proof.Machine
end

