-- ==== Sys2Proof/Machine/Bits.lean ====
section
/-! DEFINITION. Bit fields, byte order and extension (`00_scope.md` R9, `20_memory.md` R89). -/

namespace Sys2Proof.Machine

/-- `lo(w)` (`00_scope.md` R9). -/
def lo (w : Word) : Byte := w.setWidth 8

/-- `hi(w)` (`00_scope.md` R9). -/
def hi (w : Word) : Byte := (w >>> 8).setWidth 8

/-- `h:l`, the high byte first (`00_scope.md` R9). -/
def join (h l : Byte) : Word := (h.setWidth 16 <<< 8) ||| l.setWidth 16

/-- `zext_16(b)` (`00_scope.md` R9). -/
def zext16 (b : Byte) : Word := b.setWidth 16

/-- `sext_8(b)` as a 16-bit value (`00_scope.md` R9). -/
def sext16 (b : Byte) : Word := b.signExtend 16

/-- `v[i]` (`00_scope.md` R9). -/
def bit (v : Byte) (i : Nat) : Bool := v.getLsbD i

/-- A one-bit field at position `i` of a byte. -/
def bitAt (i : Nat) (v : Bool) : Byte := if v then 1#8 <<< i else 0#8

/-- Carry out of an 8-bit addition, the ninth bit of the sum. -/
def carryOut (a b : Byte) : Bool := (a.setWidth 9 + b.setWidth 9).getLsbD 8

/-- The page-1 address `$0100 | S` (`10_state.md` R21). -/
def stackAddr (s : Byte) : Word := 0x0100#16 ||| zext16 s

end Sys2Proof.Machine
end

