-- ==== Sys2Proof/Machine/Flags.lean ====
section
/-! DEFINITION. The status byte (`10_state.md` R23, R24, `45_stack_flags_misc.md` R283) and every result and flag computation of the
instructions (`42_arith_logic.md`, `43_shift_rotate.md`; conventions `41_load_store_transfer.md` R200). -/

namespace Sys2Proof.Machine

/-! ## The status byte -/

/-- `pack(P)` (`10_state.md` R23). -/
def Flags.pack (p : Flags) : Byte :=
  bitAt 0 p.c ||| bitAt 1 p.z ||| bitAt 2 p.i ||| bitAt 3 p.d ||| bitAt 4 p.b ||| bitAt 5 p.u ||| bitAt 6 p.v
    ||| bitAt 7 p.n

/-- `unpack(b)` (`10_state.md` R23). -/
def Flags.unpack (b : Byte) : Flags where
  c := bit b 0
  z := bit b 1
  i := bit b 2
  d := bit b 3
  b := bit b 4
  u := bit b 5
  v := bit b 6
  n := bit b 7

/-- `pulled(b)`: bits 4 and 5 of a pulled byte are ignored (`45_stack_flags_misc.md` R283). -/
def Flags.pulled (b : Byte) : Flags := { Flags.unpack b with b := false, u := true }

/-- The byte PHP and BRK push (`10_state.md` R24). -/
def Flags.pushedByInstruction (p : Flags) : Byte := p.pack ||| 0x30#8

/-- The byte the IRQ and NMI sequences push (`10_state.md` R24). -/
def Flags.pushedByInterrupt (p : Flags) : Byte := (p.pack &&& ~~~0x10#8) ||| 0x20#8

/-! ## Results -/

/-- `setNZ(r)` (`41_load_store_transfer.md` R200). -/
def setNZ (r : Byte) (p : Flags) : Flags := { p with z := decide (r = 0#8), n := bit r 7 }

/-- ADC in binary (`42_arith_logic.md` R220). -/
def adcBinary (a v : Byte) (p : Flags) : Byte × Flags :=
  let s : BitVec 9 := a.setWidth 9 + v.setWidth 9 + (if p.c then 1#9 else 0#9)
  let r : Byte := s.setWidth 8
  (r, setNZ r { p with c := s.getLsbD 8, v := bit (~~~(a ^^^ v) &&& (a ^^^ r)) 7 })

/-- SBC in binary (`42_arith_logic.md` R221). -/
def sbcBinary (a v : Byte) (p : Flags) : Byte × Flags :=
  let s : BitVec 9 := a.setWidth 9 + (v ^^^ 0xFF#8).setWidth 9 + (if p.c then 1#9 else 0#9)
  let r : Byte := s.setWidth 8
  (r, setNZ r { p with c := s.getLsbD 8, v := bit ((a ^^^ v) &&& (a ^^^ r)) 7 })

/-- A nibble of a byte as a byte: bits 3:0. -/
def nibbleLo (b : Byte) : Byte := b &&& 0x0F#8

/-- Bits 7:4. -/
def nibbleHi (b : Byte) : Byte := b >>> 4

/-- ADC in decimal (`42_arith_logic.md` R226). The nibble sums stay below 38, so a byte holds each. -/
def adcDecimal (a v : Byte) (p : Flags) : Byte × Flags :=
  let cin : Byte := if p.c then 1#8 else 0#8
  let lo0 := nibbleLo a + nibbleLo v + cin
  let lo := if 9#8 < lo0 then lo0 + 6#8 else lo0
  let hi0 := nibbleHi a + nibbleHi v + (if 0x0F#8 < lo then 1#8 else 0#8)
  let hi := if 9#8 < hi0 then hi0 + 6#8 else hi0
  ((hi <<< 4) ||| nibbleLo lo,
   { p with
     z := decide (a + v + cin = 0#8)
     n := bit (hi0 <<< 4) 7
     v := bit (~~~(a ^^^ v) &&& (a ^^^ (hi0 <<< 4))) 7
     c := decide (0x0F#8 < hi) })

/-- SBC in decimal (`42_arith_logic.md` R226): the flags of the binary subtraction, the nibbles in two's
complement. -/
def sbcDecimal (a v : Byte) (p : Flags) : Byte × Flags :=
  let lo0 := nibbleLo a - nibbleLo v - (if p.c then 0#8 else 1#8)
  let hi0 := nibbleHi a - nibbleHi v
  let lo := if bit lo0 4 then lo0 - 6#8 else lo0
  let hi1 := if bit lo0 4 then hi0 - 1#8 else hi0
  let hi := if bit hi1 4 then hi1 - 6#8 else hi1
  ((hi <<< 4) ||| nibbleLo lo, (sbcBinary a v p).2)

/-- ADC: decimal exactly when `P_BCD` is true and D is set (`42_arith_logic.md` R220, R226). -/
def adcResult (bcd : Bool) (a v : Byte) (p : Flags) : Byte × Flags :=
  if bcd && p.d then adcDecimal a v p else adcBinary a v p

/-- SBC: decimal exactly when `P_BCD` is true and D is set (`42_arith_logic.md` R221, R226). -/
def sbcResult (bcd : Bool) (a v : Byte) (p : Flags) : Byte × Flags :=
  if bcd && p.d then sbcDecimal a v p else sbcBinary a v p

/-- `compare(r, v)` (`42_arith_logic.md` R230). -/
def compareFlags (r v : Byte) (p : Flags) : Flags := setNZ (r - v) { p with c := decide (v ≤ r) }

/-- The flags of BIT (`42_arith_logic.md` R225). -/
def bitFlags (a v : Byte) (p : Flags) : Flags := { p with z := decide (a &&& v = 0#8), v := bit v 6, n := bit v 7 }

/-- ASL (`43_shift_rotate.md` R250). -/
def aslResult (x : Byte) (p : Flags) : Byte × Flags :=
  let r := x <<< 1
  (r, setNZ r { p with c := bit x 7 })

/-- LSR (`43_shift_rotate.md` R251). -/
def lsrResult (x : Byte) (p : Flags) : Byte × Flags :=
  let r := x >>> 1
  (r, setNZ r { p with c := bit x 0 })

/-- ROL (`43_shift_rotate.md` R252). -/
def rolResult (x : Byte) (p : Flags) : Byte × Flags :=
  let r := (x <<< 1) ||| bitAt 0 p.c
  (r, setNZ r { p with c := bit x 7 })

/-- ROR (`43_shift_rotate.md` R253). -/
def rorResult (x : Byte) (p : Flags) : Byte × Flags :=
  let r := (x >>> 1) ||| bitAt 7 p.c
  (r, setNZ r { p with c := bit x 0 })

/-- INC on memory (`42_arith_logic.md` R237). -/
def incResult (x : Byte) (p : Flags) : Byte × Flags := (x + 1#8, setNZ (x + 1#8) p)

/-- DEC on memory (`42_arith_logic.md` R238). -/
def decResult (x : Byte) (p : Flags) : Byte × Flags := (x - 1#8, setNZ (x - 1#8) p)

end Sys2Proof.Machine
end

