-- ==== Sys2Proof/Machine/Mem.lean ====
section
/-! DEFINITION. Reading and writing one byte of a memory, and the canonical form of memories. -/

namespace Sys2Proof.Machine

/-- What an address that no cell lists reads as: 0 (DESIGN CHOICE, log 5; the spec draws these contents,
`10_state.md` R50). -/
def Memory.unlisted : Byte := 0#8

/-- The byte at an address. -/
def Memory.read : Memory → Nat → Byte
  | [], _ => Memory.unlisted
  | (k, x) :: rest, a => if a = k then x else Memory.read rest a

/-- Store a byte. Storing the byte an unlisted address reads as removes the cell. -/
def Memory.write : Memory → Nat → Byte → Memory
  | [], a, b => if b = Memory.unlisted then [] else [(a, b)]
  | (k, x) :: rest, a, b =>
    if a < k then (if b = Memory.unlisted then (k, x) :: rest else (a, b) :: (k, x) :: rest)
    else if a = k then (if b = Memory.unlisted then rest else (a, b) :: rest)
    else (k, x) :: Memory.write rest a b

/-- The cells from address `low` on: strictly rising, below `bound`, none holding the unlisted byte. -/
def Memory.wfFrom (bound : Nat) : Nat → Memory → Bool
  | _, [] => true
  | low, (k, x) :: rest =>
    decide (low ≤ k) && decide (k < bound) && decide (x ≠ Memory.unlisted) && Memory.wfFrom bound (k + 1) rest

/-- The canonical form of a memory of `bound` bytes. -/
def Memory.wf (bound : Nat) (m : Memory) : Bool := Memory.wfFrom bound 0 m

end Sys2Proof.Machine
end

