-- ==== Sys2Proof/Machine/Ppu.lean ====
section
/-! DEFINITION. The PPU's register file, its palette, its dot counter, its reset tracker and its NMI output
(`46_ppu.md`, `70_reset_and_hazards.md` R395, R396): everything of the PPU that does not use the video bus. The
deferred access itself is in Video.lean. -/

namespace Sys2Proof.Machine

/-- The outcome of an operation that the spec may refuse. -/
abbrev Res (α : Type) := Host.Outcome α Fault Refusal

/-- Go on with a result, or stop as it stopped. -/
def Res.bind {α β : Type} (r : Res α) (k : α → Res β) : Res β :=
  match r with
  | .next a => k a
  | .fault e => .fault e
  | .refused e => .refused e

/-! ## Byte images (`10_state.md` R31-R33) -/

def PpuCtrl.pack (c : PpuCtrl) : Byte :=
  c.nn.setWidth 8 ||| bitAt 2 c.i ||| bitAt 3 c.s ||| bitAt 4 c.b ||| bitAt 5 c.h ||| bitAt 7 c.v

/-- The fields a PPUCTRL write stores; bit 6 is not stored (`46_ppu.md` R302). -/
def PpuCtrl.unpack (d : Byte) : PpuCtrl where
  nn := d.setWidth 2
  i := bit d 2
  s := bit d 3
  b := bit d 4
  h := bit d 5
  v := bit d 7

def PpuMask.pack (m : PpuMask) : Byte :=
  bitAt 0 m.g ||| bitAt 1 m.bm ||| bitAt 2 m.sm ||| bitAt 3 m.b ||| bitAt 4 m.s ||| bitAt 5 m.er ||| bitAt 6 m.eg
    ||| bitAt 7 m.eb

/-- The fields a PPUMASK write stores (`46_ppu.md` R303). -/
def PpuMask.unpack (d : Byte) : PpuMask where
  g := bit d 0
  bm := bit d 1
  sm := bit d 2
  b := bit d 3
  s := bit d 4
  er := bit d 5
  eg := bit d 6
  eb := bit d 7

/-- The byte of the three flags at their positions (`10_state.md` R33). Bits 4 to 0 are 0 here: a PPUSTATUS read fills them from the I/O
latch (`46_ppu.md` R304), and the snapshot's byte image leaves them 0 (DESIGN CHOICE, log 19). -/
def PpuStatus.pack (s : PpuStatus) : Byte := bitAt 7 s.v ||| bitAt 6 s.s ||| bitAt 5 s.o

/-! ## Palette (`46_ppu.md` R320, R321) -/

/-- `mask_palette`, 32 palette addresses to 28 cells (`46_ppu.md` R320). -/
def maskPalette (a : BitVec 5) : BitVec 5 :=
  if a.getLsbD 4 then
    if a &&& 3#5 = 0#5 then a &&& 0x0F#5
    else a - (((a >>> 2) &&& 3#5) + 1#5)
  else a

/-- The palette cell of a PPU address: only bits 4:0 select it (`46_ppu.md` R321). -/
def paletteCell (v : BitVec 15) : Nat := (maskPalette (v.setWidth 5)).toNat

/-- `v[13:8] == $3F`, the palette range $3F00-$3FFF (`46_ppu.md` R309). -/
def inPalette (v : BitVec 15) : Bool := decide ((v >>> 8) &&& 0x3F#15 = 0x3F#15)

/-! ## Rendering windows (`46_ppu.md` R332) -/

def Ppu.renderingEnabled (p : Ppu) : Bool := p.mask.b || p.mask.s

def Ppu.renderingActive (p : Ppu) : Bool := p.renderingEnabled && (decide (p.line ≤ 239) || decide (p.line = 261))

/-! ## NMI output (`46_ppu.md` R336) -/

/-- `ppu_nmi_n`: low exactly while the enable bit and the vblank flag are both 1. -/
def Ppu.nmiN (p : Ppu) : Bool := !(p.ctrl.v && p.status.v)

/-! ## Register writes (`46_ppu.md` R301-R309) -/

/-- `t[11:10] <- d[1:0]` (R302). -/
def setNametable (t : BitVec 15) (d : Byte) : BitVec 15 := (t &&& ~~~0x0C00#15) ||| ((d.setWidth 15 &&& 3#15) <<< 10)

/-- `t[4:0] <- d[7:3]` (R307). -/
def setCoarseX (t : BitVec 15) (d : Byte) : BitVec 15 := (t &&& ~~~0x001F#15) ||| (d >>> 3).setWidth 15

/-- `t[14:12] <- d[2:0]; t[9:5] <- d[7:3]` (R307). -/
def setFineCoarseY (t : BitVec 15) (d : Byte) : BitVec 15 :=
  (t &&& ~~~0x73E0#15) ||| ((d.setWidth 15 &&& 7#15) <<< 12) ||| ((d >>> 3).setWidth 15 <<< 5)

/-- `t[13:8] <- d[5:0]; t[14] <- 0` (R308). -/
def setAddrHigh (t : BitVec 15) (d : Byte) : BitVec 15 := (t &&& 0x00FF#15) ||| ((d.setWidth 15 &&& 0x3F#15) <<< 8)

/-- `t[7:0] <- d` (R308). -/
def setAddrLow (t : BitVec 15) (d : Byte) : BitVec 15 := (t &&& ~~~0x00FF#15) ||| d.setWidth 15

/-- The write gate: $2000, $2001, $2005 and $2006 are ignored exactly while this is false (R340). -/
def Ppu.gateOpen (p : Ppu) : Bool := decide (p.prst = .clear)

def Ppu.writeCtrl (d : Byte) (p : Ppu) : Ppu :=
  if p.gateOpen then { p with ctrl := PpuCtrl.unpack d, t := setNametable p.t d } else p

def Ppu.writeMask (d : Byte) (p : Ppu) : Ppu :=
  if p.gateOpen then { p with mask := PpuMask.unpack d } else p

def Ppu.writeOamAddr (d : Byte) (p : Ppu) : Ppu := { p with oamaddr := d }

def Ppu.writeOamData (d : Byte) (p : Ppu) : Ppu :=
  if p.renderingActive then { p with oamaddr := p.oamaddr + 4#8 }
  else { p with oam := p.oam.write p.oamaddr.toNat d, oamaddr := p.oamaddr + 1#8 }

def Ppu.writeScroll (d : Byte) (p : Ppu) : Ppu :=
  if p.gateOpen then
    if p.w then { p with t := setFineCoarseY p.t d, w := false }
    else { p with t := setCoarseX p.t d, x := d.setWidth 3, w := true }
  else p

def Ppu.writeAddr (d : Byte) (p : Ppu) : Ppu :=
  if p.gateOpen then
    if p.w then { p with t := setAddrLow p.t d, v := setAddrLow p.t d, w := false }
    else { p with t := setAddrHigh p.t d, w := true }
  else p

/-- A PPUDATA write starts a deferred access; while one is pending it has no behaviour (R309, R315). -/
def Ppu.writeData (d : Byte) (p : Ppu) : Res Ppu :=
  match p.pend with
  | .none => .next { p with pend := .write, pdata := d, ale := false }
  | _ => .refused .ppudataOverlap

/-- `ppu_reg_write(r, d)`: every write first sets the I/O latch (R301). -/
def Ppu.regWrite (r : BitVec 3) (d : Byte) (p : Ppu) : Res Ppu :=
  let q := { p with iolatch := d }
  match r.toNat with
  | 0 => .next (q.writeCtrl d)
  | 1 => .next (q.writeMask d)
  | 2 => .next q
  | 3 => .next (q.writeOamAddr d)
  | 4 => .next (q.writeOamData d)
  | 5 => .next (q.writeScroll d)
  | 6 => .next (q.writeAddr d)
  | _ => q.writeData d

/-! ## Register reads (`46_ppu.md` R301, R304, R306, R309) -/

/-- The byte a PPUSTATUS read returns (R304). -/
def Ppu.statusByte (p : Ppu) : Byte := p.status.pack ||| (p.iolatch &&& 0x1F#8)

/-- PPUSTATUS: clears vblank and the write toggle; a read at the dot that would set vblank arms the suppression (R304). -/
def Ppu.readStatus (p : Ppu) : Byte × Ppu :=
  (p.statusByte,
   { p with
     vsupp := p.vsupp || (decide (p.line = 241) && decide (p.dot = 1))
     status := { p.status with v := false }
     w := false
     iolatch := p.statusByte })

def Ppu.readOamData (p : Ppu) : Byte × Ppu :=
  let r := p.oam.read p.oamaddr.toNat
  (r, { p with iolatch := r })

/-- The byte a PPUDATA read returns: the palette at once, else the read buffer (R309, R313). -/
def Ppu.dataByte (mask : Byte) (p : Ppu) : Byte :=
  if inPalette p.v then p.pal.read (paletteCell p.v) &&& mask else p.rbuf

/-- PPUDATA: starts a deferred access; while one is pending it has no behaviour (R309, R315). -/
def Ppu.readData (mask : Byte) (p : Ppu) : Res (Byte × Ppu) :=
  match p.pend with
  | .none => .next (p.dataByte mask, { p with pend := .read, ale := false, iolatch := p.dataByte mask })
  | _ => .refused .ppudataOverlap

/-- `ppu_reg_read(r)`: a write-only register returns the I/O latch and changes nothing (R301). -/
def Ppu.regRead (mask : Byte) (r : BitVec 3) (p : Ppu) : Res (Byte × Ppu) :=
  match r.toNat with
  | 2 => .next p.readStatus
  | 4 => .next p.readOamData
  | 7 => p.readData mask
  | _ => .next (p.iolatch, p)

/-! ## Dot counter and events (`46_ppu.md` R333, R334) -/

/-- The scanline after the dot, before it wraps (R333). -/
def Ppu.nextLine (p : Ppu) : Nat := if p.dot + 1 = 341 then p.line + 1 else p.line

/-- `advance()`, with the odd-frame skip of dot (261, 340) (R333). -/
def Ppu.advance (p : Ppu) : Ppu :=
  if p.line = 261 ∧ p.dot = 339 ∧ p.odd = true ∧ p.renderingEnabled = true then
    { p with line := 0, dot := 0, odd := !p.odd }
  else
    { p with
      dot := if p.dot + 1 = 341 then 0 else p.dot + 1
      line := if p.nextLine = 262 then 0 else p.nextLine
      odd := if p.nextLine = 262 then !p.odd else p.odd }

/-- The vblank set of dot (241, 1), unless a PPUSTATUS read suppressed it (R334). -/
def Ppu.vblankSet (p : Ppu) : Ppu :=
  if p.vsupp then { p with vsupp := false } else { p with status := { p.status with v := true } }

/-- The clear of the pre-render dot (261, 1), which also ends the write gate (R334, R340). -/
def Ppu.prerenderClear (p : Ppu) : Ppu :=
  { p with
    status := { v := false, s := false, o := false }
    prst := if p.prst = .serviced then .clear else p.prst }

/-- `dot_events()` (R334). -/
def Ppu.dotEvents (p : Ppu) : Ppu :=
  if p.line = 241 ∧ p.dot = 1 then p.vblankSet
  else if p.line = 261 ∧ p.dot = 1 then p.prerenderClear
  else p

/-! ## Reset (`70_reset_and_hazards.md` R395, R396) -/

/-- `reset_actions()` (R396). -/
def Ppu.resetActions (p : Ppu) : Ppu :=
  { p with
    ctrl := { nn := 0#2, i := false, s := false, b := false, h := false, v := false }
    mask := { g := false, bm := false, sm := false, b := false, s := false, er := false, eg := false, eb := false }
    w := false, t := 0#15, x := 0#3, rbuf := 0#8, odd := false, line := 0, dot := 0
    pend := .none, ale := false, vsupp := false, iolatch := 0#8 }

/-- The move of the tracker with the reset line, after the reset actions (R395). -/
def prstNext (rstN : Bool) (p : Tracker) : Tracker :=
  match rstN, p with
  | false, .clear => .detected
  | false, .serviced => .detected
  | false, .detected => .pending
  | true, .detected => .committed
  | true, .pending => .committed
  | _, q => q

/-- `prst_step()` (R395). -/
def Ppu.prstStep (rstN : Bool) (p : Ppu) : Ppu :=
  let q := if p.prst = .committed then { p.resetActions with prst := .serviced } else p
  { q with prst := prstNext rstN q.prst }

/-- Held in reset: the PPU does nothing else that dot (R330, R395). -/
def Tracker.holdsPpu : Tracker → Bool
  | .detected | .pending | .committed => true
  | .clear | .serviced => false

end Sys2Proof.Machine
end

