-- ==== Sys2Proof/Machine/Bus.lean ====
section
/-! DEFINITION. The AddressBus, the bus devices, and the CPU's bus accesses (`20_memory.md`). -/

namespace Sys2Proof.Machine

/-! ## The AddressBus (`20_memory.md` R70-R74) -/

/-- Strictly increasing, each from `low` to `top - 1`. -/
def boundariesOk (top : Nat) : Nat → List Nat → Bool
  | _, [] => true
  | low, b :: rest => decide (low ≤ b) && decide (b < top) && boundariesOk top (b + 1) rest

/-- `new(bitwidth, n, b_1, ..., b_{n-1})`: every partition starts unbound (R70); a construction that breaks a
precondition is refused (R71). -/
def Bus.new (bitwidth n : Nat) (boundaries : List Nat) : Res Bus :=
  if 0 < bitwidth ∧ bitwidth ≤ 16 ∧ n = boundaries.length + 1 ∧ boundariesOk (2 ^ bitwidth) 1 boundaries = true then
    .next { bitwidth := bitwidth, starts := 0 :: boundaries, bindings := List.replicate n none }
  else .refused .badBusConstruction

/-- The index of the last partition that starts at or below `a`. -/
def partIndex : List Nat → Nat → Nat
  | _ :: b :: rest, a => if a < b then 0 else partIndex (b :: rest) a + 1
  | _, _ => 0

/-- `part(a)`; an address out of range has none (R72). -/
def Bus.part (b : Bus) (a : Word) : Option Nat :=
  if a.toNat < 2 ^ b.bitwidth then some (partIndex b.starts a.toNat) else none

/-- The first address of partition `i` (R70). -/
def Bus.partStart (b : Bus) (i : Nat) : Nat := b.starts.getD i 0

/-- One past the last address of partition `i` (R70). -/
def Bus.partEnd (b : Bus) (i : Nat) : Nat := b.starts.getD (i + 1) (2 ^ b.bitwidth)

/-- The device bound to the partition of an address, if any. -/
def Bus.device (b : Bus) (a : Word) : Option Device :=
  match b.part a with
  | some i => b.bindings.getD i none
  | none => none

/-- `swap(a, new, &old)` (R74): the old binding and the changed bus, or `none` (false, nothing changed) when `a` is out
of range. -/
def Bus.swap (a : Word) (d : Option Device) (b : Bus) : Option (Option Device × Bus) :=
  match b.part a with
  | some i => some (b.bindings.getD i none, { b with bindings := b.bindings.set i d })
  | none => none

/-- `set(a, d)` is `swap(a, d, &ignored)` (R74); out of range it changes nothing. -/
def Bus.set (a : Word) (d : Option Device) (b : Bus) : Bus :=
  match b.swap a d with
  | some (_, b') => b'
  | none => b

/-! ## The devices -/

/-- The index of a RAM address (`20_memory.md` R91). -/
def ramIndex (a : Word) : Nat := (a &&& 0x07FF#16).toNat

/-- The horizontal-mirroring transform (`20_memory.md` R97). -/
def hmirrorAddr (a : Word) : Word := (a &&& ~~~0x0C00#16) ||| ((a &&& 0x0800#16) >>> 1)

/-- The index of a VRAM address (`20_memory.md` R96). -/
def vramIndex (m : Mirroring) (a : Word) : Nat :=
  ((match m with
    | .horizontal => hmirrorAddr a
    | .vertical => a) &&& 0x07FF#16).toNat

/-- The size of an NROM's PRG ROM (`20_memory.md` R99). -/
def prgSize (prg32 : Bool) : Nat := if prg32 then 32768 else 16384

/-- What the cartridge's PRG device answers to a read: nothing where it does not serve the address
(`20_memory.md` R99, R102). -/
def State.prgRead (s : State) (a : Word) : Option Byte :=
  match s.cart with
  | .absent => none
  | .rawImage size =>
    if 0x8000 ≤ a.toNat ∧ a.toNat - 0x8000 < size then some (s.prg.read (a.toNat - 0x8000)) else none
  | .nrom prg32 _ => some (s.prg.read (a.toNat % prgSize prg32))

/-- The index of a CHR address (`20_memory.md` R101). -/
def chrIndex (a : Word) : Nat := (a &&& 0x1FFF#16).toNat

/-- What the cartridge's CHR device answers to a read (`20_memory.md` R101); the raw image has none. -/
def State.chrRead (s : State) (a : Word) : Option Byte :=
  match s.cart with
  | .nrom _ _ => some (s.chr.read (chrIndex a))
  | _ => none

/-- A write to the CHR device: only CHR RAM has one (`20_memory.md` R101). -/
def State.chrWrite (s : State) (a : Word) (v : Byte) : Bool × State :=
  match s.cart with
  | .nrom _ true => (true, { s with chr := s.chr.write (chrIndex a) v })
  | _ => (false, s)

/-- The PPU register an address selects (`20_memory.md` R93). -/
def ppuReg (a : Word) : BitVec 3 := a.setWidth 3

/-- A device's `read(ctx, addr)` (`20_memory.md` R75, R76): the byte, or `none` for `ok = false`. -/
def Device.read (d : Device) (a : Word) (s : State) : Res (Option Byte × State) :=
  match d with
  | .ram => .next (some (s.ram.read (ramIndex a)), s)
  | .ppuRegs =>
    match s.ppu.regRead s.config.paletteReadMask (ppuReg a) with
    | .next (v, p) => .next (some v, { s with ppu := p })
    | .fault e => .fault e
    | .refused e => .refused e
  | .vram => .next (some (s.vram.read (vramIndex s.mirroring a)), s)
  | .prg => .next (s.prgRead a, s)
  | .chr => .next (s.chrRead a, s)
  | .reentrant => .refused .nestedBusCall
  | .rebinder => .refused .midcycleSwap

/-- A device's `write(ctx, addr, byte)` (`20_memory.md` R75, R76), with its `ok`. PRG ROM has none (R99, R102). -/
def Device.write (d : Device) (a : Word) (v : Byte) (s : State) : Res (Bool × State) :=
  match d with
  | .ram => .next (true, { s with ram := s.ram.write (ramIndex a) v })
  | .ppuRegs =>
    match s.ppu.regWrite (ppuReg a) v with
    | .next p => .next (true, { s with ppu := p })
    | .fault e => .fault e
    | .refused e => .refused e
  | .vram => .next (true, { s with vram := s.vram.write (vramIndex s.mirroring a) v })
  | .prg => .next (false, s)
  | .chr => .next (s.chrWrite a v)
  | .reentrant => .refused .nestedBusCall
  | .rebinder => .refused .midcycleSwap

/-- `bus.read(a)` (`20_memory.md` R77): `none` when nothing serves it. -/
def Bus.read (b : Bus) (a : Word) (s : State) : Res (Option Byte × State) :=
  match b.device a with
  | some d => d.read a s
  | none => .next (none, s)

/-- `bus.write(a, v)` (`20_memory.md` R78). -/
def Bus.write (b : Bus) (a : Word) (v : Byte) (s : State) : Res (Bool × State) :=
  match b.device a with
  | some d => d.write a v s
  | none => .next (false, s)

/-! ## Bus DMA (`20_memory.md` R79, R80) -/

/-- The bank a device offers to DMA: its size S, how many of its bytes exist, and its contents. RAM, PRG and CHR
have one; the PPU registers and the VRAM have none (R91, R93, R96, R99, R101, R102). -/
def Device.bank (d : Device) (s : State) : Option (Nat × Nat × Memory) :=
  match d, s.cart with
  | .ram, _ => some (2048, 2048, s.ram)
  | .prg, .rawImage size => some (32768, size, s.prg)
  | .prg, .nrom prg32 _ => some (prgSize prg32, prgSize prg32, s.prg)
  | .chr, .nrom _ _ => some (8192, 8192, s.chr)
  | _, _ => none

/-- The first `k` bytes of a memory from `off` on. -/
def Memory.slice (m : Memory) (off k : Nat) : List Byte := (List.range k).map (fun j => m.read (off + j))

/-- `dma(a, count, dest)`: the bytes copied; their number is what the call returns (R79, R80). It has no effect on the
state, and no engine uses it. -/
def Bus.dma (b : Bus) (a : Word) (count : Nat) (s : State) : List Byte :=
  match (b.device a).bind (fun d => d.bank s) with
  | some (size, held, m) => m.slice (a.toNat % size) (min count (min size held - a.toNat % size))
  | none => []

/-! ## The CPU's accesses (`20_memory.md` R85, R86) -/

/-- The CPU after one access: the address, the data latch, and whether no device served it. -/
def Cpu.onBus (a : Word) (v : Byte) (dflt : Bool) (c : Cpu) : Cpu :=
  { c with eng.addrbus := a, eng.databus := v, eng.dflt := dflt }

/-- `MemRead(a)`: an unserved read returns the data-bus latch as it was (open bus) and sets `dflt` (R85). -/
def memRead (a : Word) (s : State) : Res (Byte × State) :=
  match s.cpuBus.read a s with
  | .next (some v, s') => .next (v, { s' with cpu := s'.cpu.onBus a v false })
  | .next (none, s') => .next (s.cpu.eng.databus, { s' with cpu := s'.cpu.onBus a s.cpu.eng.databus true })
  | .fault e => .fault e
  | .refused e => .refused e

/-- `MemWrite(a, v)`: an unserved write changes no memory and sets `dflt` (R86). -/
def memWrite (a : Word) (v : Byte) (s : State) : Res State :=
  match s.cpuBus.write a v s with
  | .next (ok, s') => .next { s' with cpu := s'.cpu.onBus a v (!ok) }
  | .fault e => .fault e
  | .refused e => .refused e

end Sys2Proof.Machine
end

