-- ==== Sys2Proof/Machine/Video.lean ====
section
/-! DEFINITION. The PPU on its video bus: the deferred PPUDATA access and the dot (`20_memory.md` R88, `46_ppu.md`
R310-R313, R330). -/

namespace Sys2Proof.Machine

/-- `VRead(a)` (`20_memory.md` R88). -/
def vRead (a : BitVec 14) (s : State) : Res (Option Byte × State) :=
  match s.videoBus.read (a.setWidth 16) s with
  | .next (r, s') => .next (r, { s' with ppu := { s'.ppu with bflt := r.isNone } })
  | .fault e => .fault e
  | .refused e => .refused e

/-- `VWrite(a, v)` (`20_memory.md` R88). -/
def vWrite (a : BitVec 14) (v : Byte) (s : State) : Res State :=
  match s.videoBus.write (a.setWidth 16) v s with
  | .next (ok, s') => .next { s' with ppu := { s'.ppu with bflt := !ok } }
  | .fault e => .fault e
  | .refused e => .refused e

/-- The address the first dot of a deferred access latches: under a palette read it is the nametable byte below the
palette (`46_ppu.md` R310, R313). -/
def Ppu.latchAddr (p : Ppu) : BitVec 14 :=
  if p.pend = .read ∧ inPalette p.v = true then p.v.setWidth 14 &&& 0x2FFF#14 else p.v.setWidth 14

/-- The end of a deferred access: `v` moves on by 1 or 32, modulo 2^15 (`46_ppu.md` R310, R312). -/
def Ppu.endAccess (p : Ppu) : Ppu :=
  { p with v := p.v + (if p.ctrl.i then 32#15 else 1#15), pend := .none, ale := false }

/-- The access a PPUDATA write makes on its second dot: the palette directly, else the video bus (`46_ppu.md` R310, R311). -/
def accessWrite (s : State) : Res State :=
  if inPalette (s.ppu.vaddr.setWidth 15) then
    .next { s with ppu := { s.ppu with pal := s.ppu.pal.write (paletteCell (s.ppu.vaddr.setWidth 15)) s.ppu.pdata } }
  else vWrite s.ppu.vaddr s.ppu.pdata s

/-- The access a PPUDATA read makes on its second dot: it fills the read buffer, if a device serves it (`46_ppu.md` R310, R313). -/
def accessRead (s : State) : Res State :=
  match vRead s.ppu.vaddr s with
  | .next (some v, s') => .next { s' with ppu := { s'.ppu with rbuf := v } }
  | .next (none, s') => .next s'
  | .fault e => .fault e
  | .refused e => .refused e

/-- `access_step()` (`46_ppu.md` R310). -/
def accessStep (s : State) : Res State :=
  match s.ppu.pend, s.ppu.ale with
  | .none, _ => .next s
  | _, false => .next { s with ppu := { s.ppu with ale := true, vaddr := s.ppu.latchAddr } }
  | .write, true => (accessWrite s).bind fun s' => .next { s' with ppu := s'.ppu.endAccess }
  | .read, true => (accessRead s).bind fun s' => .next { s' with ppu := s'.ppu.endAccess }

/-- `ppu_cycle()`: one dot (`46_ppu.md` R330). -/
def ppuCycle (s : State) : Res State :=
  let p := s.ppu.prstStep s.lines.rstN
  if p.prst.holdsPpu then .next { s with ppu := p }
  else (accessStep { s with ppu := p.dotEvents }).bind fun s' => .next { s' with ppu := s'.ppu.advance }

/-- The reset line at this level; it is the PPU's `prst_n` too (`60_exceptions.md` R350). -/
def State.withRst (rstN : Bool) (s : State) : State := { s with lines.rstN := rstN }

/-- Dots, each with the level of the reset line as it runs (`00_scope.md` R8: P_ORDER, P_LINES). -/
def dots : List Bool → State → Res State
  | [], s => .next s
  | rstN :: rest, s => (ppuCycle (s.withRst rstN)).bind (dots rest)

end Sys2Proof.Machine
end

