-- ==== Sys2Proof/Machine/Ops.lean ====
section
/-! DEFINITION. The CPU cycle (`40_cycle_engine.md` R130-R135), the interrupt trackers (`60_exceptions.md` R351-R361),
taking an interrupt or BRK as one sequence (`40_cycle_engine.md` R157, R158, `60_exceptions.md` R366, R368) and the
return from one (`40_cycle_engine.md` R154). -/

namespace Sys2Proof.Machine

/-! ## The driver's inputs (`00_scope.md` R8, P_LINES and P_ORDER) -/

/-- The driver sets the lines for the coming cycle; with no entry left they keep their levels. -/
def State.takeDriver (s : State) : State :=
  match s.driver with
  | [] => s
  | d :: rest => { s with lines := { irqN := d.irqN, nmiExtN := d.nmiExtN, rstN := d.rstN }, driver := rest }

/-- The dots the driver runs after the coming cycle: by default three, with the reset line as it is. -/
def State.nextDots (s : State) : List Bool :=
  match s.driver with
  | [] => [s.lines.rstN, s.lines.rstN, s.lines.rstN]
  | d :: _ => d.dots

/-- The dots the driver runs before the next CPU cycle. -/
def State.runEarly (s : State) : Res State := dots s.early { s with early := [] }

/-- The CPU's `nmi_n`: the PPU's output (`60_exceptions.md` R350), and the driver's NMI from elsewhere
(`00_scope.md` R8); low when either is low (DEDUCED, log 3). -/
def State.nmiN (s : State) : Bool := s.ppu.nmiN && s.lines.nmiExtN

/-! ## Interrupt trackers -/

/-- The IRQ row of `sample_lines()` (`60_exceptions.md` R352): `n` is the level. -/
def sampleIrq (n : Bool) (k : Tracker) : Tracker :=
  match n, k with
  | false, .clear => .detected
  | true, .detected => .clear
  | true, .pending => .clear
  | _, k => k

/-- The NMI and RESET rows of `sample_lines()` (`60_exceptions.md` R352): an edge is latched until serviced. -/
def sampleEdge (n : Bool) (k : Tracker) : Tracker :=
  match n, k with
  | false, .clear => .detected
  | true, .serviced => .clear
  | _, k => k

/-- `sample_lines()` (`60_exceptions.md` R352). -/
def State.sampleLines (s : State) : State :=
  { s with cpu := { s.cpu with trk := {
      irq := sampleIrq s.lines.irqN s.cpu.trk.irq
      nmi := sampleEdge s.nmiN s.cpu.trk.nmi
      rst := sampleEdge s.lines.rstN s.cpu.trk.rst } } }

/-- DETECTED becomes PENDING at a poll point. -/
def Tracker.promoted : Tracker → Tracker
  | .detected => .pending
  | k => k

/-- `promote()`: the poll, which also latches the mask (`60_exceptions.md` R354). -/
def Cpu.promote (c : Cpu) : Cpu :=
  { c with
    trk := { irq := c.trk.irq.promoted, nmi := c.trk.nmi.promoted, rst := c.trk.rst.promoted }
    eng := { c.eng with imask := c.regs.p.i } }

/-- PENDING becomes COMMITTED. -/
def Tracker.committedFrom : Tracker → Tracker
  | .pending => .committed
  | k => k

/-- `commit()`: IRQ only when the last poll saw it unmasked (`60_exceptions.md` R355, R356). -/
def Cpu.commit (c : Cpu) : Cpu :=
  { c with trk := {
      irq := if c.eng.imask then c.trk.irq else c.trk.irq.committedFrom
      nmi := c.trk.nmi.committedFrom
      rst := c.trk.rst.committedFrom } }

/-- The first cycle of a sequence: `presync <- false; t <- 0` and the sequence's kind (`40_cycle_engine.md` R130). -/
def Cpu.start (k : SeqKind) (c : Cpu) : Cpu :=
  { c with eng := { c.eng with presync := false, t := 0, kind := k } }

/-- `begin_sequence()`: RESET over NMI over IRQ over the next instruction, and what becomes of the losers
(`60_exceptions.md` R360, R361). -/
def Cpu.beginSequence (c : Cpu) : Cpu :=
  if c.trk.rst = .committed then
    { c.start .rst with
      trk := { irq := .clear, nmi := if c.trk.nmi = .clear then .clear else .serviced, rst := .serviced } }
  else if c.trk.nmi = .committed then
    { c.start .nmi with trk := { c.trk with nmi := .serviced, irq := .clear } }
  else if c.trk.irq = .committed then
    { c.start .irq with trk := { c.trk with irq := .clear } }
  else c.start .fetch

/-! ## One cycle -/

/-- One row of a cycle table (`40_cycle_engine.md` R135): the bus access, the register changes made after it (given the
byte on the data bus), whether it is a poll point, and whether it is the final cycle. `halt` ends a JAM (R159). -/
structure Row where
  addr : Word
  /-- `none`: a read; `some v`: a write of `v` -/
  out : Option Byte := none
  effect : Byte → Cpu → Cpu := fun _ c => c
  poll : Bool := false
  final : Bool := false
  halt : Bool := false

/-- A sequence: the row of each cycle index, from the CPU at the start of that cycle. -/
abbrev Sequence := Nat → Cpu → Row

/-- The one bus access of a row; it gives the byte on the data bus. -/
def Row.access (r : Row) (s : State) : Res (Byte × State) :=
  match r.out with
  | none => memRead r.addr s
  | some v => (memWrite r.addr v s).bind fun s' => .next (v, s')

/-- The end of a cycle: `presync` at a final cycle, else the next index (`40_cycle_engine.md` R130). -/
def Cpu.advance (final : Bool) (c : Cpu) : Cpu :=
  { c with eng :=
      if final then { c.eng with presync := true }
      else { c.eng with t := c.eng.t + 1 } }

/-- What follows the row's effect within the cycle, in the order of `40_cycle_engine.md` R130: commit (at a final cycle of a
sequence that commits), sample, promote (at a poll point), advance. -/
def Row.finish (r : Row) (commits : Bool) (s : State) : State :=
  let s1 := if r.final && commits then { s with cpu := s.cpu.commit } else s
  let s2 := s1.sampleLines
  let s3 := if r.poll then { s2 with cpu := s2.cpu.promote } else s2
  { s3 with cpu := s3.cpu.advance r.final }

/-- One CPU cycle of a sequence and the dots after it. The answer says whether the sequence has ended. -/
def tick (seq : Sequence) (commits : Bool) (s : State) : Res (State × Bool) :=
  let r := seq s.cpu.eng.t s.cpu
  (r.access s.takeDriver).bind fun (b, s1) =>
    (dots s.nextDots (r.finish commits { s1 with cpu := r.effect b s1.cpu })).bind fun s2 =>
      .next (s2, r.final || r.halt)

/-- Run a sequence to its end, at most `n` cycles. -/
def runSequence (seq : Sequence) (commits : Bool) : Nat → State → Res State
  | 0, s => .next s
  | n + 1, s =>
    (tick seq commits s).bind fun (s', ended) =>
      if ended then .next s' else runSequence seq commits n s'

/-- How many cycles of a sequence one step runs at most. No table has more than seven (`40_cycle_engine.md` R160), and none of the
unknown opcodes of the NMOS part has more than eight; a longer supplied sequence goes on with the next step (DESIGN CHOICE, logs 1 and
10). -/
def maxCycles : Nat := 8

/-- Run one instruction from its opcode fetch to its final cycle, which commits (`40_cycle_engine.md` R130, R134), or for `maxCycles`. -/
def runInstr (seq : Sequence) (s : State) : Res State :=
  runSequence seq true maxCycles { s with cpu := s.cpu.start .fetch }

/-! ## Rows shared by the tables -/

/-- T0 of every FETCH sequence: `opc <- MemRead(PC); PC <- PC + 1` (`40_cycle_engine.md` R132). -/
def fetchRow (poll : Bool) (c : Cpu) : Row where
  addr := c.regs.pc
  effect := fun b c => { c with eng.opc := b, regs.pc := c.regs.pc + 1 }
  poll := poll

/-- A read of PC whose byte is discarded; PC is unchanged. -/
def idleRow (poll : Bool) (c : Cpu) : Row where
  addr := c.regs.pc
  poll := poll

/-- `adl <- MemRead(PC); PC <- PC + 1`. -/
def adlRow (poll : Bool) (c : Cpu) : Row where
  addr := c.regs.pc
  effect := fun b c => { c with eng.adl := b, regs.pc := c.regs.pc + 1 }
  poll := poll

/-- `adl <- MemRead(PC); PC <- PC + 1; adh <- 0` (`40_cycle_engine.md` R142, R143). -/
def zpRow (poll : Bool) (c : Cpu) : Row where
  addr := c.regs.pc
  effect := fun b c => { c with eng.adl := b, eng.adh := 0#8, regs.pc := c.regs.pc + 1 }
  poll := poll

/-- `adh <- MemRead(PC); PC <- PC + 1`. -/
def adhRow (poll : Bool) (c : Cpu) : Row where
  addr := c.regs.pc
  effect := fun b c => { c with eng.adh := b, regs.pc := c.regs.pc + 1 }
  poll := poll

/-- `ptr <- MemRead(PC); PC <- PC + 1` (`40_cycle_engine.md` R147, R148). -/
def ptrRow (c : Cpu) : Row where
  addr := c.regs.pc
  effect := fun b c => { c with eng.ptr := b, regs.pc := c.regs.pc + 1 }

/-- The address being formed, `adh:adl`. -/
def Cpu.ea (c : Cpu) : Word := join c.eng.adh c.eng.adl

/-- A dummy stack read, then `S <- S + 1` (the pulls of `40_cycle_engine.md` R153, R154, R156). -/
def incSRow (poll : Bool) (c : Cpu) : Row where
  addr := stackAddr c.regs.s
  effect := fun _ c => { c with regs.s := c.regs.s + 1 }
  poll := poll

/-- A push: `MemWrite($0100 | S, v); S <- S - 1`. -/
def pushRow (v : Byte) (poll final : Bool) (c : Cpu) : Row where
  addr := stackAddr c.regs.s
  out := some v
  effect := fun _ c => { c with regs.s := c.regs.s - 1 }
  poll := poll
  final := final

/-! ## Taking an interrupt, or BRK -/

/-- The kind of an entry sequence (`40_cycle_engine.md` R158). -/
inductive EntryKind where
  | brk | irq | nmi | rst
deriving DecidableEq, Repr

/-- A stack cycle of an entry: a push, but during RST a read (`40_cycle_engine.md` R158). `S` drops either way. -/
def entryStackRow (k : EntryKind) (v : Byte) (poll : Bool) (c : Cpu) : Row :=
  { pushRow v poll false c with out := if k = .rst then none else some v }

/-- The status byte an entry pushes (`60_exceptions.md` R366). -/
def EntryKind.statusByte (k : EntryKind) (p : Flags) : Byte :=
  match k with
  | .brk => p.pushedByInstruction
  | _ => p.pushedByInterrupt

/-- A PENDING NMI takes over a BRK or IRQ entry at T5 (`60_exceptions.md` R368). -/
def EntryKind.hijacked (k : EntryKind) (nmi : Tracker) : Bool :=
  decide (k = .brk ∨ k = .irq) && decide (nmi = .pending)

/-- The vector chosen at T5 (`60_exceptions.md` R366, R368). -/
def EntryKind.vector (k : EntryKind) (nmi : Tracker) : Word :=
  match k with
  | .rst => 0xFFFC#16
  | .nmi => 0xFFFA#16
  | _ => if k.hijacked nmi then 0xFFFA#16 else 0xFFFE#16

/-- The entry sequence of BRK, IRQ, NMI and RST (`40_cycle_engine.md` R157, R158): the return address and the status are
pushed, the vector is read low byte first, and `I` is set with its high byte. It never commits (R134). -/
def entrySequence (k : EntryKind) : Sequence := fun t c =>
  match t with
  | 0 =>
    if k = .brk then fetchRow false c
    else { addr := c.regs.pc, effect := fun _ c => { c with eng.opc := 0#8 } }
  | 1 =>
    if k = .brk then { addr := c.regs.pc, effect := fun _ c => { c with regs.pc := c.regs.pc + 1 } }
    else idleRow false c
  | 2 => entryStackRow k (hi c.regs.pc) false c
  | 3 => entryStackRow k (lo c.regs.pc) true c
  | 4 => entryStackRow k (k.statusByte c.regs.p) false c
  | 5 =>
    { addr := k.vector c.trk.nmi
      effect := fun b c' =>
        { c' with
          eng.vec := k.vector c.trk.nmi, eng.adl := b
          trk.nmi := if k.hijacked c.trk.nmi then .serviced else c'.trk.nmi } }
  | _ =>
    { addr := c.eng.vec + 1
      effect := fun b c => { c with eng.adh := b, regs.pc := join b c.eng.adl, regs.p.i := true }
      final := true }

/-- Take a hardware interrupt: `beginSequence` has chosen `k`. -/
def takeInterrupt (k : EntryKind) (s : State) : Res State :=
  runSequence (entrySequence k) false maxCycles { s with cpu := s.cpu.beginSequence }

/-! ## Returning from one -/

/-- RTI (`40_cycle_engine.md` R154): the status is pulled before the poll, then the return address, with no +1
(`44_control.md` R266, `60_exceptions.md` R370). -/
def rtiSequence : Sequence := fun t c =>
  match t with
  | 0 => fetchRow false c
  | 1 => idleRow false c
  | 2 => incSRow false c
  | 3 => { addr := stackAddr c.regs.s
           effect := fun b c => { c with regs.s := c.regs.s + 1, regs.p := Flags.pulled b } }
  | 4 => { addr := stackAddr c.regs.s
           effect := fun b c => { c with regs.s := c.regs.s + 1, eng.adl := b }
           poll := true }
  | _ => { addr := stackAddr c.regs.s
           effect := fun b c => { c with eng.adh := b, regs.pc := join b c.eng.adl }
           final := true }

/-! ## Cycles that make no bus access -/

/-- The RESET tracker's step of a jammed cycle before the sample: commit, for RESET only (`45_stack_flags_misc.md` R296). -/
def Cpu.commitReset (c : Cpu) : Cpu := { c with trk := { c.trk with rst := c.trk.rst.committedFrom } }

/-- The RESET tracker's step of a jammed cycle after the sample: poll, for RESET only; a committed RESET ends the jam
(`45_stack_flags_misc.md` R296). -/
def Cpu.pollReset (c : Cpu) : Cpu :=
  let rst := c.trk.rst.promoted
  { c with
    trk := { c.trk with rst := rst }
    eng := if rst = .committed then { c.eng with jammed := false, presync := true } else c.eng }

/-- One `jam_cycle()` (`45_stack_flags_misc.md` R296) and the dots after it. -/
def jamCycle (s : State) : Res State :=
  let s1 := s.takeDriver
  let s2 := { s1 with cpu := s1.cpu.commitReset }.sampleLines
  dots s.nextDots { s2 with cpu := s2.cpu.pollReset }

/-- One cycle of the reset hold: the lines are sampled and nothing else happens (`70_reset_and_hazards.md` R391,
`40_cycle_engine.md` R130), and the dots after it. -/
def holdCycle (s : State) : Res State := dots s.nextDots s.takeDriver.sampleLines

end Sys2Proof.Machine
end

