-- ==== Sys2Proof/Machine/Operands.lean ====
section
/-! DEFINITION. Every operand form: the cycle sequence of each addressing mode in its read, write and
read-modify-write forms (`40_cycle_engine.md` R136-R149, R155, R156), and the effective address each computes
(`30_encoding.md` R112-R121). -/

namespace Sys2Proof.Machine

/-! ## What an instruction does with its operand (`40_cycle_engine.md` R135) -/

/-- `op(v)` of a read, or `sv` of a write. -/
inductive DataOp where
  /-- the compute step applied to the byte read -/
  | read (op : Byte → Regs → Regs)
  /-- the byte the store writes -/
  | write (sv : Regs → Byte)

def DataOp.isRead : DataOp → Bool
  | .read _ => true
  | .write _ => false

/-- The final row of a read or a write at an address. -/
def DataOp.row (d : DataOp) (addr : Word) (c : Cpu) : Row :=
  match d with
  | .read op => { addr := addr, effect := fun b c => { c with regs := op b c.regs }, final := true }
  | .write sv => { addr := addr, out := some (sv c.regs), final := true }

/-- `rmw(v)`: the new byte and the flags. -/
abbrev RmwOp := Byte → Flags → Byte × Flags

/-- The last three rows of a read-modify-write at an address: read, write unmodified, write modified
(`40_cycle_engine.md` R142-R146, R162). -/
def rmwRows (rmw : RmwOp) (addr : Word) (k : Nat) (c : Cpu) : Row :=
  match k with
  | 0 => { addr := addr, effect := fun b c => { c with eng.val := b } }
  | 1 => { addr := addr, out := some c.eng.val
           effect := fun _ c => { c with eng.val := (rmw c.eng.val c.regs.p).1, regs.p := (rmw c.eng.val c.regs.p).2 }
           poll := true }
  | _ => { addr := addr, out := some c.eng.val, final := true }

/-! ## Rows of the indexed modes -/

/-- The unindexed zero-page read that adds the index, within page 0 (`40_cycle_engine.md` R143). -/
def zpIndexRow (index : Byte) (poll : Bool) (c : Cpu) : Row where
  addr := zext16 c.eng.adl
  effect := fun _ c => { c with eng.adl := c.eng.adl + index }
  poll := poll

/-- The high operand byte, with the index added to `adl` only (`40_cycle_engine.md` R146, T2). -/
def absIndexRow (index : Byte) (poll : Bool) (c : Cpu) : Row where
  addr := c.regs.pc
  effect := fun b c =>
    { c with eng.adh := b, eng.adl := c.eng.adl + index, eng.adc := carryOut c.eng.adl index,
             regs.pc := c.regs.pc + 1 }
  poll := poll

/-- The dummy read at the uncorrected address, which carries into `adh` (`40_cycle_engine.md` R146 T3, R148 T4). -/
def fixRow (poll : Bool) (c : Cpu) : Row where
  addr := c.ea
  effect := fun _ c => { c with eng.adh := if c.eng.adc then c.eng.adh + 1#8 else c.eng.adh }
  poll := poll

/-- The low byte of a zero-page pointer, into `adl` (`40_cycle_engine.md` R147, R148). -/
def ptrLoRow (c : Cpu) : Row where
  addr := zext16 c.eng.ptr
  effect := fun b c => { c with eng.adl := b }

/-! ## The sequences of the modes -/

/-- Implied (`40_cycle_engine.md` R140). -/
def impliedSequence (op : Regs → Regs) : Sequence := fun t c =>
  match t with
  | 0 => fetchRow true c
  | _ => { addr := c.regs.pc, effect := fun _ c => { c with regs := op c.regs }, final := true }

/-- Immediate (`40_cycle_engine.md` R141). -/
def immSequence (op : Byte → Regs → Regs) : Sequence := fun t c =>
  match t with
  | 0 => fetchRow true c
  | _ => { addr := c.regs.pc
           effect := fun b c => { c with regs := op b { c.regs with pc := c.regs.pc + 1 } }
           final := true }

/-- `$nnnn,X` and `$nnnn,Y`: four cycles for a read within the page, five otherwise (`40_cycle_engine.md` R146). -/
def absIndexSequence (index : Regs → Byte) (d : DataOp) : Sequence := fun t c =>
  match t with
  | 0 => fetchRow false c
  | 1 => adlRow false c
  | 2 => absIndexRow (index c.regs) (d.isRead && !carryOut c.eng.adl (index c.regs)) c
  | 3 => if d.isRead && !c.eng.adc then d.row c.ea c else fixRow true c
  | _ => d.row c.ea c

/-- `$nn,X` and `$nn,Y` (`40_cycle_engine.md` R143). -/
def zpIndexSequence (index : Regs → Byte) (d : DataOp) : Sequence := fun t c =>
  match t with
  | 0 => fetchRow false c
  | 1 => zpRow false c
  | 2 => zpIndexRow (index c.regs) true c
  | _ => d.row (zext16 c.eng.adl) c

/-- `$nn` (`40_cycle_engine.md` R142). -/
def zpSequence (d : DataOp) : Sequence := fun t c =>
  match t with
  | 0 => fetchRow false c
  | 1 => zpRow true c
  | _ => d.row (zext16 c.eng.adl) c

/-- `$nnnn` (`40_cycle_engine.md` R144). -/
def absSequence (d : DataOp) : Sequence := fun t c =>
  match t with
  | 0 => fetchRow false c
  | 1 => adlRow false c
  | 2 => adhRow true c
  | _ => d.row c.ea c

/-- `($nn,X)` (`40_cycle_engine.md` R147); the pointer stays in page 0 (R145). -/
def indxSequence (d : DataOp) : Sequence := fun t c =>
  match t with
  | 0 => fetchRow false c
  | 1 => ptrRow c
  | 2 => { addr := zext16 c.eng.ptr, effect := fun _ c => { c with eng.ptr := c.eng.ptr + c.regs.x } }
  | 3 => ptrLoRow c
  | 4 => { addr := zext16 (c.eng.ptr + 1#8), effect := fun b c => { c with eng.adh := b }, poll := true }
  | _ => d.row c.ea c

/-- `($nn),Y`: five cycles for a read within the page, six otherwise (`40_cycle_engine.md` R148); the pointer stays
in page 0 (R145). -/
def indySequence (d : DataOp) : Sequence := fun t c =>
  match t with
  | 0 => fetchRow false c
  | 1 => ptrRow c
  | 2 => ptrLoRow c
  | 3 => { addr := zext16 (c.eng.ptr + 1#8)
           effect := fun b c =>
             { c with eng.adh := b, eng.adl := c.eng.adl + c.regs.y, eng.adc := carryOut c.eng.adl c.regs.y }
           poll := d.isRead && !carryOut c.eng.adl c.regs.y }
  | 4 => if d.isRead && !c.eng.adc then d.row c.ea c else fixRow true c
  | _ => d.row c.ea c

/-- The read or write sequence of a memory mode (`40_cycle_engine.md` R136). -/
def memSequence (m : MemMode) (d : DataOp) : Sequence :=
  match m with
  | .zp => zpSequence d
  | .zpx => zpIndexSequence Regs.x d
  | .zpy => zpIndexSequence Regs.y d
  | .abs => absSequence d
  | .absx => absIndexSequence Regs.x d
  | .absy => absIndexSequence Regs.y d
  | .indx => indxSequence d
  | .indy => indySequence d

/-- The sequence of an instruction of the read class (`30_encoding.md` R122). -/
def readSequence (m : ReadMode) (op : Byte → Regs → Regs) : Sequence :=
  match m with
  | .imm => immSequence op
  | .mem m => memSequence m (.read op)

/-- The sequence of a read-modify-write on memory (`40_cycle_engine.md` R142, R143, R144, R146). -/
def rmwSequence (m : RmwMode) (rmw : RmwOp) : Sequence := fun t c =>
  match m with
  | .zp =>
    match t with
    | 0 => fetchRow false c
    | 1 => zpRow false c
    | k + 2 => rmwRows rmw (zext16 c.eng.adl) k c
  | .zpx =>
    match t with
    | 0 => fetchRow false c
    | 1 => zpRow false c
    | 2 => zpIndexRow c.regs.x false c
    | k + 3 => rmwRows rmw (zext16 c.eng.adl) k c
  | .abs =>
    match t with
    | 0 => fetchRow false c
    | 1 => adlRow false c
    | 2 => adhRow false c
    | k + 3 => rmwRows rmw c.ea k c
  | .absx =>
    match t with
    | 0 => fetchRow false c
    | 1 => adlRow false c
    | 2 => absIndexRow c.regs.x false c
    | 3 => fixRow false c
    | k + 4 => rmwRows rmw c.ea k c

/-- The accumulator form: `A <- rmw(A)` (`40_cycle_engine.md` R140). -/
def rmwAcc (rmw : RmwOp) (r : Regs) : Regs := { r with a := (rmw r.a r.p).1, p := (rmw r.a r.p).2 }

/-- The sequence of a shift or rotate (`43_shift_rotate.md`). -/
def shiftSequence (m : ShiftMode) (rmw : RmwOp) : Sequence :=
  match m with
  | .acc => impliedSequence (rmwAcc rmw)
  | .mem m => rmwSequence m rmw

/-- The branch target, from the address after the branch (`30_encoding.md` R120). -/
def branchTarget (pc : Word) (off : Byte) : Word := pc + sext16 off

/-- Relative branch: two cycles when not taken, three to the same page, four to another (`40_cycle_engine.md` R149). -/
def branchSequence (cond : Flags → Bool) : Sequence := fun t c =>
  match t with
  | 0 => fetchRow true c
  | 1 => { addr := c.regs.pc
           effect := fun b c => { c with eng.off := b, regs.pc := c.regs.pc + 1 }
           final := !cond c.regs.p }
  | 2 =>
    let target := branchTarget c.regs.pc c.eng.off
    let same := decide (hi target = hi c.regs.pc)
    { addr := c.regs.pc
      effect := fun _ c =>
        { c with eng.tgt := target, regs.pc := if same then target else join (hi c.regs.pc) (lo target) }
      poll := !same
      final := same }
  | _ => { addr := c.regs.pc, effect := fun _ c => { c with regs.pc := c.eng.tgt }, final := true }

/-- PHA and PHP (`40_cycle_engine.md` R155). -/
def pushSequence (v : Regs → Byte) : Sequence := fun t c =>
  match t with
  | 0 => fetchRow false c
  | 1 => idleRow true c
  | _ => pushRow (v c.regs) false true c

/-- PLA and PLP (`40_cycle_engine.md` R156). -/
def pullSequence (op : Byte → Regs → Regs) : Sequence := fun t c =>
  match t with
  | 0 => fetchRow false c
  | 1 => idleRow false c
  | 2 => incSRow true c
  | _ => { addr := stackAddr c.regs.s, effect := fun b c => { c with regs := op b c.regs }, final := true }

/-! ## Effective addresses (`30_encoding.md` R114-R119)

What the sequences above compute, said at once: from the operand bytes, the index registers, and the bytes the
zero page holds. -/

/-- The byte the CPU bus holds at an address in plain memory (RAM or the cartridge's PRG ROM, whose reads have no side
effect, `20_memory.md` R105); `none` elsewhere. -/
def State.peek (s : State) (a : Word) : Option Byte :=
  match s.cpuBus.device a with
  | some .ram => some (s.ram.read (ramIndex a))
  | some .prg => s.prgRead a
  | _ => none

/-- The effective address of a memory mode for operand bytes `b1`, `b2` and a zero-page reader `zp`
(`30_encoding.md` R114-R119). -/
def MemMode.effectiveAddress (m : MemMode) (r : Regs) (zp : Byte → Byte) (b1 b2 : Byte) : Word :=
  match m with
  | .zp => zext16 b1
  | .zpx => zext16 (b1 + r.x)
  | .zpy => zext16 (b1 + r.y)
  | .abs => join b2 b1
  | .absx => join b2 b1 + zext16 r.x
  | .absy => join b2 b1 + zext16 r.y
  | .indx => join (zp (b1 + r.x + 1#8)) (zp (b1 + r.x))
  | .indy => join (zp (b1 + 1#8)) (zp b1) + zext16 r.y

/-- The target of an indirect JMP, with the page bug (`30_encoding.md` R121, `44_control.md` R263): where its two
bytes are read. -/
def indirectLo (b1 b2 : Byte) : Word := join b2 b1

def indirectHi (b1 b2 : Byte) : Word := join b2 (b1 + 1#8)

end Sys2Proof.Machine
end

