-- ==== Sys2Proof/Machine/Arith.lean ====
section
/-! DEFINITION. Arithmetic, logic, compare, increment and decrement (`42_arith_logic.md`). -/

namespace Sys2Proof.Machine

/-! ## Add and subtract -/

/-- ADC: add with carry, decimal when `P_BCD` and D say so (`42_arith_logic.md` R220, R226). -/
def opAdc (bcd : Bool) (v : Byte) (r : Regs) : Regs := { r with a := (adcResult bcd r.a v r.p).1, p := (adcResult bcd r.a v r.p).2 }

def seqAdc (bcd : Bool) (m : ReadMode) : Sequence := readSequence m (opAdc bcd)

def execAdc (m : ReadMode) (s : State) : Res State := runInstr (seqAdc s.config.bcd m) s

/-- SBC: subtract with borrow, decimal when `P_BCD` and D say so (`42_arith_logic.md` R221, R226). -/
def opSbc (bcd : Bool) (v : Byte) (r : Regs) : Regs := { r with a := (sbcResult bcd r.a v r.p).1, p := (sbcResult bcd r.a v r.p).2 }

def seqSbc (bcd : Bool) (m : ReadMode) : Sequence := readSequence m (opSbc bcd)

def execSbc (m : ReadMode) (s : State) : Res State := runInstr (seqSbc s.config.bcd m) s

/-! ## Logic -/

/-- AND: bitwise and (`42_arith_logic.md` R222). -/
def opAnd (v : Byte) (r : Regs) : Regs := { r with a := r.a &&& v, p := setNZ (r.a &&& v) r.p }

def seqAnd (m : ReadMode) : Sequence := readSequence m opAnd

def execAnd (m : ReadMode) (s : State) : Res State := runInstr (seqAnd m) s

/-- ORA: bitwise or (`42_arith_logic.md` R223). -/
def opOra (v : Byte) (r : Regs) : Regs := { r with a := r.a ||| v, p := setNZ (r.a ||| v) r.p }

def seqOra (m : ReadMode) : Sequence := readSequence m opOra

def execOra (m : ReadMode) (s : State) : Res State := runInstr (seqOra m) s

/-- EOR: bitwise exclusive or (`42_arith_logic.md` R224). -/
def opEor (v : Byte) (r : Regs) : Regs := { r with a := r.a ^^^ v, p := setNZ (r.a ^^^ v) r.p }

def seqEor (m : ReadMode) : Sequence := readSequence m opEor

def execEor (m : ReadMode) (s : State) : Res State := runInstr (seqEor m) s

/-- BIT: test bits; A is unchanged (`42_arith_logic.md` R225). -/
def opBit (v : Byte) (r : Regs) : Regs := { r with p := bitFlags r.a v r.p }

def seqBit (m : MemMode) : Sequence := memSequence m (.read opBit)

def execBit (m : MemMode) (s : State) : Res State := runInstr (seqBit m) s

/-! ## Compare -/

/-- CMP: compare with A (`42_arith_logic.md` R227, R230). -/
def opCmp (v : Byte) (r : Regs) : Regs := { r with p := compareFlags r.a v r.p }

def seqCmp (m : ReadMode) : Sequence := readSequence m opCmp

def execCmp (m : ReadMode) (s : State) : Res State := runInstr (seqCmp m) s

/-- CPX: compare with X (`42_arith_logic.md` R228, R230). -/
def opCpx (v : Byte) (r : Regs) : Regs := { r with p := compareFlags r.x v r.p }

def seqCpx (m : ReadMode) : Sequence := readSequence m opCpx

def execCpx (m : ReadMode) (s : State) : Res State := runInstr (seqCpx m) s

/-- CPY: compare with Y (`42_arith_logic.md` R229, R230). -/
def opCpy (v : Byte) (r : Regs) : Regs := { r with p := compareFlags r.y v r.p }

def seqCpy (m : ReadMode) : Sequence := readSequence m opCpy

def execCpy (m : ReadMode) (s : State) : Res State := runInstr (seqCpy m) s

/-! ## Increment and decrement -/

/-- INC: increment memory (`42_arith_logic.md` R237). -/
def seqInc (m : RmwMode) : Sequence := rmwSequence m incResult

def execInc (m : RmwMode) (s : State) : Res State := runInstr (seqInc m) s

/-- DEC: decrement memory (`42_arith_logic.md` R238). -/
def seqDec (m : RmwMode) : Sequence := rmwSequence m decResult

def execDec (m : RmwMode) (s : State) : Res State := runInstr (seqDec m) s

/-- INX: `X <- X + 1` (`42_arith_logic.md` R239). -/
def opInx (r : Regs) : Regs := { r with x := r.x + 1#8, p := setNZ (r.x + 1#8) r.p }

def seqInx : Sequence := impliedSequence opInx

def execInx (s : State) : Res State := runInstr seqInx s

/-- INY: `Y <- Y + 1` (`42_arith_logic.md` R240). -/
def opIny (r : Regs) : Regs := { r with y := r.y + 1#8, p := setNZ (r.y + 1#8) r.p }

def seqIny : Sequence := impliedSequence opIny

def execIny (s : State) : Res State := runInstr seqIny s

/-- DEX: `X <- X - 1` (`42_arith_logic.md` R241). -/
def opDex (r : Regs) : Regs := { r with x := r.x - 1#8, p := setNZ (r.x - 1#8) r.p }

def seqDex : Sequence := impliedSequence opDex

def execDex (s : State) : Res State := runInstr seqDex s

/-- DEY: `Y <- Y - 1` (`42_arith_logic.md` R242). -/
def opDey (r : Regs) : Regs := { r with y := r.y - 1#8, p := setNZ (r.y - 1#8) r.p }

def seqDey : Sequence := impliedSequence opDey

def execDey (s : State) : Res State := runInstr seqDey s

end Sys2Proof.Machine
end

