-- ==== Sys2Proof/Machine/Control.lean ====
section
/-! DEFINITION. Branches, jumps, subroutines, returns and BRK (`44_control.md`). -/

namespace Sys2Proof.Machine

/-! ## Branches (`44_control.md` R260) -/

/-- BCC: branch if carry clear (`44_control.md` R270). -/
def seqBcc : Sequence := branchSequence (fun p => !p.c)

def execBcc (s : State) : Res State := runInstr seqBcc s

/-- BCS: branch if carry set (`44_control.md` R271). -/
def seqBcs : Sequence := branchSequence Flags.c

def execBcs (s : State) : Res State := runInstr seqBcs s

/-- BEQ: branch if equal (`44_control.md` R272). -/
def seqBeq : Sequence := branchSequence Flags.z

def execBeq (s : State) : Res State := runInstr seqBeq s

/-- BMI: branch if minus (`44_control.md` R273). -/
def seqBmi : Sequence := branchSequence Flags.n

def execBmi (s : State) : Res State := runInstr seqBmi s

/-- BNE: branch if not equal (`44_control.md` R274). -/
def seqBne : Sequence := branchSequence (fun p => !p.z)

def execBne (s : State) : Res State := runInstr seqBne s

/-- BPL: branch if plus (`44_control.md` R275). -/
def seqBpl : Sequence := branchSequence (fun p => !p.n)

def execBpl (s : State) : Res State := runInstr seqBpl s

/-- BVC: branch if overflow clear (`44_control.md` R276). -/
def seqBvc : Sequence := branchSequence (fun p => !p.v)

def execBvc (s : State) : Res State := runInstr seqBvc s

/-- BVS: branch if overflow set (`44_control.md` R277). -/
def seqBvs : Sequence := branchSequence Flags.v

def execBvs (s : State) : Res State := runInstr seqBvs s

/-! ## Jumps -/

/-- JMP, absolute (`40_cycle_engine.md` R150, `44_control.md` R262) and indirect, with the page bug
(`40_cycle_engine.md` R151, `44_control.md` R263). -/
def seqJmp (m : JumpMode) : Sequence := fun t c =>
  match m with
  | .abs =>
    match t with
    | 0 => fetchRow false c
    | 1 => adlRow true c
    | _ => { addr := c.regs.pc
             effect := fun b c => { c with eng.adh := b, regs.pc := join b c.eng.adl }
             final := true }
  | .ind =>
    match t with
    | 0 => fetchRow false c
    | 1 => adlRow false c
    | 2 => adhRow false c
    | 3 => { addr := c.ea, effect := fun b c => { c with eng.lat := b }, poll := true }
    | _ => { addr := join c.eng.adh (c.eng.adl + 1#8)
             effect := fun b c => { c with regs.pc := join b c.eng.lat }
             final := true }

def execJmp (m : JumpMode) (s : State) : Res State := runInstr (seqJmp m) s

/-! ## Subroutines and returns -/

/-- JSR: the high operand byte is fetched after the pushes (`40_cycle_engine.md` R152, `44_control.md` R264). -/
def seqJsr : Sequence := fun t c =>
  match t with
  | 0 => fetchRow false c
  | 1 => adlRow false c
  | 2 => { addr := stackAddr c.regs.s }
  | 3 => pushRow (hi c.regs.pc) false false c
  | 4 => pushRow (lo c.regs.pc) true false c
  | _ => { addr := c.regs.pc
           effect := fun b c => { c with eng.adh := b, regs.pc := join b c.eng.adl }
           final := true }

def execJsr (s : State) : Res State := runInstr seqJsr s

/-- RTS (`40_cycle_engine.md` R153, `44_control.md` R265). -/
def seqRts : Sequence := fun t c =>
  match t with
  | 0 => fetchRow false c
  | 1 => idleRow false c
  | 2 => incSRow false c
  | 3 => { addr := stackAddr c.regs.s
           effect := fun b c => { c with eng.adl := b, regs.s := c.regs.s + 1 } }
  | 4 => { addr := stackAddr c.regs.s
           effect := fun b c => { c with eng.adh := b, regs.pc := join b c.eng.adl }
           poll := true }
  | _ => { addr := c.regs.pc, effect := fun _ c => { c with regs.pc := c.regs.pc + 1 }, final := true }

def execRts (s : State) : Res State := runInstr seqRts s

/-- RTI: the return from an interrupt of Ops.lean (`44_control.md` R266). -/
def execRti (s : State) : Res State := runInstr rtiSequence s

/-! ## BRK -/

/-- BRK: the entry sequence of Ops.lean, begun by an opcode fetch; it does not commit (`44_control.md` R267,
`40_cycle_engine.md` R157). -/
def execBrk (s : State) : Res State :=
  runSequence (entrySequence .brk) false maxCycles { s with cpu := s.cpu.start .fetch }

end Sys2Proof.Machine
end

