-- ==== Sys2Proof/Machine/LoadStore.lean ====
section
/-! DEFINITION. Loads, stores and transfers (`41_load_store_transfer.md`). -/

namespace Sys2Proof.Machine

/-! ## Loads -/

/-- LDA: load A (`41_load_store_transfer.md` R201). -/
def opLda (v : Byte) (r : Regs) : Regs := { r with a := v, p := setNZ v r.p }

def seqLda (m : ReadMode) : Sequence := readSequence m opLda

def execLda (m : ReadMode) (s : State) : Res State := runInstr (seqLda m) s

/-- LDX: load X (`41_load_store_transfer.md` R202). -/
def opLdx (v : Byte) (r : Regs) : Regs := { r with x := v, p := setNZ v r.p }

def seqLdx (m : ReadMode) : Sequence := readSequence m opLdx

def execLdx (m : ReadMode) (s : State) : Res State := runInstr (seqLdx m) s

/-- LDY: load Y (`41_load_store_transfer.md` R203). -/
def opLdy (v : Byte) (r : Regs) : Regs := { r with y := v, p := setNZ v r.p }

def seqLdy (m : ReadMode) : Sequence := readSequence m opLdy

def execLdy (m : ReadMode) (s : State) : Res State := runInstr (seqLdy m) s

/-! ## Stores -/

/-- STA: store A (`41_load_store_transfer.md` R204). -/
def seqSta (m : MemMode) : Sequence := memSequence m (.write Regs.a)

def execSta (m : MemMode) (s : State) : Res State := runInstr (seqSta m) s

/-- STX: store X (`41_load_store_transfer.md` R205). -/
def seqStx (m : MemMode) : Sequence := memSequence m (.write Regs.x)

def execStx (m : MemMode) (s : State) : Res State := runInstr (seqStx m) s

/-- STY: store Y (`41_load_store_transfer.md` R206). -/
def seqSty (m : MemMode) : Sequence := memSequence m (.write Regs.y)

def execSty (m : MemMode) (s : State) : Res State := runInstr (seqSty m) s

/-! ## Transfers -/

/-- TAX: `X <- A` (`41_load_store_transfer.md` R207). -/
def opTax (r : Regs) : Regs := { r with x := r.a, p := setNZ r.a r.p }

def seqTax : Sequence := impliedSequence opTax

def execTax (s : State) : Res State := runInstr seqTax s

/-- TAY: `Y <- A` (`41_load_store_transfer.md` R208). -/
def opTay (r : Regs) : Regs := { r with y := r.a, p := setNZ r.a r.p }

def seqTay : Sequence := impliedSequence opTay

def execTay (s : State) : Res State := runInstr seqTay s

/-- TXA: `A <- X` (`41_load_store_transfer.md` R209). -/
def opTxa (r : Regs) : Regs := { r with a := r.x, p := setNZ r.x r.p }

def seqTxa : Sequence := impliedSequence opTxa

def execTxa (s : State) : Res State := runInstr seqTxa s

/-- TYA: `A <- Y` (`41_load_store_transfer.md` R210). -/
def opTya (r : Regs) : Regs := { r with a := r.y, p := setNZ r.y r.p }

def seqTya : Sequence := impliedSequence opTya

def execTya (s : State) : Res State := runInstr seqTya s

/-- TSX: `X <- S` (`41_load_store_transfer.md` R211). -/
def opTsx (r : Regs) : Regs := { r with x := r.s, p := setNZ r.s r.p }

def seqTsx : Sequence := impliedSequence opTsx

def execTsx (s : State) : Res State := runInstr seqTsx s

/-- TXS: `S <- X`, no flag (`41_load_store_transfer.md` R212). -/
def opTxs (r : Regs) : Regs := { r with s := r.x }

def seqTxs : Sequence := impliedSequence opTxs

def execTxs (s : State) : Res State := runInstr seqTxs s

end Sys2Proof.Machine
end

