-- ==== Sys2Proof/Machine/Shift.lean ====
section
/-! DEFINITION. Shifts and rotates (`43_shift_rotate.md`). -/

namespace Sys2Proof.Machine

/-- ASL: arithmetic shift left (`43_shift_rotate.md` R250). -/
def seqAsl (m : ShiftMode) : Sequence := shiftSequence m aslResult

def execAsl (m : ShiftMode) (s : State) : Res State := runInstr (seqAsl m) s

/-- LSR: logical shift right (`43_shift_rotate.md` R251). -/
def seqLsr (m : ShiftMode) : Sequence := shiftSequence m lsrResult

def execLsr (m : ShiftMode) (s : State) : Res State := runInstr (seqLsr m) s

/-- ROL: rotate left through carry (`43_shift_rotate.md` R252). -/
def seqRol (m : ShiftMode) : Sequence := shiftSequence m rolResult

def execRol (m : ShiftMode) (s : State) : Res State := runInstr (seqRol m) s

/-- ROR: rotate right through carry (`43_shift_rotate.md` R253). -/
def seqRor (m : ShiftMode) : Sequence := shiftSequence m rorResult

def execRor (m : ShiftMode) (s : State) : Res State := runInstr (seqRor m) s

end Sys2Proof.Machine
end

