-- ==== Sys2Proof/Machine/StackFlags.lean ====
section
/-! DEFINITION. Stack, flag, NOP, JAM and unknown instructions (`45_stack_flags_misc.md`). -/

namespace Sys2Proof.Machine

/-! ## Stack -/

/-- PHA (`45_stack_flags_misc.md` R280). -/
def seqPha : Sequence := pushSequence Regs.a

def execPha (s : State) : Res State := runInstr seqPha s

/-- PHP: bits 4 and 5 of the pushed byte are 1 (`45_stack_flags_misc.md` R281). -/
def seqPhp : Sequence := pushSequence (fun r => r.p.pushedByInstruction)

def execPhp (s : State) : Res State := runInstr seqPhp s

/-- PLA (`45_stack_flags_misc.md` R282). -/
def opPla (v : Byte) (r : Regs) : Regs := { r with a := v, p := setNZ v r.p }

def seqPla : Sequence := pullSequence opPla

def execPla (s : State) : Res State := runInstr seqPla s

/-- PLP (`45_stack_flags_misc.md` R284). -/
def opPlp (v : Byte) (r : Regs) : Regs := { r with p := Flags.pulled v }

def seqPlp : Sequence := pullSequence opPlp

def execPlp (s : State) : Res State := runInstr seqPlp s

/-! ## Flag instructions -/

/-- CLC: `P.C <- 0` (`45_stack_flags_misc.md` R285). -/
def opClc (r : Regs) : Regs := { r with p := { r.p with c := false } }

def seqClc : Sequence := impliedSequence opClc

def execClc (s : State) : Res State := runInstr seqClc s

/-- SEC: `P.C <- 1` (`45_stack_flags_misc.md` R286). -/
def opSec (r : Regs) : Regs := { r with p := { r.p with c := true } }

def seqSec : Sequence := impliedSequence opSec

def execSec (s : State) : Res State := runInstr seqSec s

/-- CLI: `P.I <- 0` (`45_stack_flags_misc.md` R287). -/
def opCli (r : Regs) : Regs := { r with p := { r.p with i := false } }

def seqCli : Sequence := impliedSequence opCli

def execCli (s : State) : Res State := runInstr seqCli s

/-- SEI: `P.I <- 1` (`45_stack_flags_misc.md` R288). -/
def opSei (r : Regs) : Regs := { r with p := { r.p with i := true } }

def seqSei : Sequence := impliedSequence opSei

def execSei (s : State) : Res State := runInstr seqSei s

/-- CLV: `P.V <- 0` (`45_stack_flags_misc.md` R289). -/
def opClv (r : Regs) : Regs := { r with p := { r.p with v := false } }

def seqClv : Sequence := impliedSequence opClv

def execClv (s : State) : Res State := runInstr seqClv s

/-- CLD: `P.D <- 0` (`45_stack_flags_misc.md` R290). -/
def opCld (r : Regs) : Regs := { r with p := { r.p with d := false } }

def seqCld : Sequence := impliedSequence opCld

def execCld (s : State) : Res State := runInstr seqCld s

/-- SED: `P.D <- 1` (`45_stack_flags_misc.md` R291). -/
def opSed (r : Regs) : Regs := { r with p := { r.p with d := true } }

def seqSed : Sequence := impliedSequence opSed

def execSed (s : State) : Res State := runInstr seqSed s

/-! ## NOP, JAM, UNK -/

/-- NOP: no operation (`45_stack_flags_misc.md` R292). -/
def opNop (r : Regs) : Regs := r

def seqNop : Sequence := impliedSequence opNop

def execNop (s : State) : Res State := runInstr seqNop s

/-- JAM: the opcode fetch, one dummy read, then the CPU is halted; neither cycle polls or is final
(`40_cycle_engine.md` R159, `45_stack_flags_misc.md` R296). The twelve opcodes act alike. -/
def seqJam : Sequence := fun t c =>
  match t with
  | 0 => fetchRow false c
  | _ => { addr := c.regs.pc, effect := fun _ c => { c with eng.jammed := true }, halt := true }

def execJam (_op : Byte) (s : State) : Res State := runInstr seqJam s

/-- `e` is what a supplied function makes of the CPU, `c` what the bus access of its cycle left: all is as in `e`, but for what
`cpu_cycle()` itself writes (`40_cycle_engine.md` R130, R131), the opcode and kind that name the sequence (`10_state.md` R28), B and U
(R24), and an `irq` tracker of SERVICED, which it never holds (R27) (log 10). -/
def Cpu.suppliedBy (e c : Cpu) : Cpu where
  regs := { e.regs with p := { e.regs.p with b := c.regs.p.b, u := c.regs.p.u } }
  eng := { e.eng with
    t := c.eng.t, opc := c.eng.opc, kind := c.eng.kind, presync := c.eng.presync, jammed := c.eng.jammed
    addrbus := c.eng.addrbus, databus := c.eng.databus, dflt := c.eng.dflt }
  trk := { e.trk with irq := if e.trk.irq = .serviced then c.trk.irq else e.trk.irq }

/-- UNK with a supplied cycle function: the T0 fetch, then the cycles it gives, as many as it likes, to a final one or into the jam
(`45_stack_flags_misc.md` R297, log 10). -/
def seqUnk (op : Byte) : Sequence := fun t c =>
  let u := Config.unkCycle op t c
  let row : Row :=
    match t with
    | 0 => fetchRow u.poll c
    | _ + 1 => { addr := u.addr, out := u.out, effect := fun _ c' => (Config.unkEffect op t c').suppliedBy c', poll := u.poll }
  { row with
    effect := fun b c' => let c'' := row.effect b c'; { c'' with eng.jammed := decide (u.next = .jam) || c''.eng.jammed }
    final := decide (u.next = .final)
    halt := decide (u.next = .jam) }

/-- UNK with P_UNK at its default: after the T0 fetch the step is refused and the state has no successor (`45_stack_flags_misc.md` R297,
`00_scope.md` R11). -/
def refuseUnk (op : Byte) (s : State) : Res State :=
  (memRead s.cpu.regs.pc s).bind fun (_, s') => .refused (.unkOpcode op (s'.cpu.regs.pc + 1) s'.cpu.eng.dflt)

/-- UNK: as the parameter P_UNK says (`45_stack_flags_misc.md` R297). -/
def execUnk (op : Byte) (s : State) : Res State :=
  match s.config.unk with
  | .refuse => refuseUnk op s
  | .supplied => runInstr (seqUnk op) s

end Sys2Proof.Machine
end

