-- ==== Sys2Proof/Machine/Cycle.lean ====
section
/-! DEFINITION. Fetching an opcode, going on within a sequence, and one clock of the console: a CPU cycle and its dots
(`40_cycle_engine.md` R130, R132, `00_scope.md` R8 P_ORDER). -/

namespace Sys2Proof.Machine

/-- The opcode byte the T0 fetch at PC reads (`40_cycle_engine.md` R132). The fetch itself, with its effects, is the first
cycle of the sequence; this is the value it reads. -/
def State.opcodeAt (s : State) : Res Byte := (memRead s.cpu.regs.pc s).bind fun (b, _) => .next b

/-- The sequence of an instruction, and whether it commits at its end (`40_cycle_engine.md` R134, R136). An UNK opcode has
one where P_UNK supplies it (`45_stack_flags_misc.md` R297). -/
def sequenceOf (g : Config) (i : Instr) : Option (Sequence × Bool) :=
  match i with
  | .lda m => some (seqLda m, true)
  | .ldx m => some (seqLdx m, true)
  | .ldy m => some (seqLdy m, true)
  | .sta m => some (seqSta m, true)
  | .stx m => some (seqStx m, true)
  | .sty m => some (seqSty m, true)
  | .tax => some (seqTax, true)
  | .tay => some (seqTay, true)
  | .txa => some (seqTxa, true)
  | .tya => some (seqTya, true)
  | .tsx => some (seqTsx, true)
  | .txs => some (seqTxs, true)
  | .adc m => some (seqAdc g.bcd m, true)
  | .sbc m => some (seqSbc g.bcd m, true)
  | .and m => some (seqAnd m, true)
  | .ora m => some (seqOra m, true)
  | .eor m => some (seqEor m, true)
  | .bit m => some (seqBit m, true)
  | .cmp m => some (seqCmp m, true)
  | .cpx m => some (seqCpx m, true)
  | .cpy m => some (seqCpy m, true)
  | .inc m => some (seqInc m, true)
  | .dec m => some (seqDec m, true)
  | .inx => some (seqInx, true)
  | .iny => some (seqIny, true)
  | .dex => some (seqDex, true)
  | .dey => some (seqDey, true)
  | .asl m => some (seqAsl m, true)
  | .lsr m => some (seqLsr m, true)
  | .rol m => some (seqRol m, true)
  | .ror m => some (seqRor m, true)
  | .bcc => some (seqBcc, true)
  | .bcs => some (seqBcs, true)
  | .beq => some (seqBeq, true)
  | .bmi => some (seqBmi, true)
  | .bne => some (seqBne, true)
  | .bpl => some (seqBpl, true)
  | .bvc => some (seqBvc, true)
  | .bvs => some (seqBvs, true)
  | .jmp m => some (seqJmp m, true)
  | .jsr => some (seqJsr, true)
  | .rts => some (seqRts, true)
  | .rti => some (rtiSequence, true)
  | .brk => some (entrySequence .brk, false)
  | .pha => some (seqPha, true)
  | .php => some (seqPhp, true)
  | .pla => some (seqPla, true)
  | .plp => some (seqPlp, true)
  | .clc => some (seqClc, true)
  | .sec => some (seqSec, true)
  | .cli => some (seqCli, true)
  | .sei => some (seqSei, true)
  | .clv => some (seqClv, true)
  | .cld => some (seqCld, true)
  | .sed => some (seqSed, true)
  | .nop => some (seqNop, true)
  | .jam _ => some (seqJam, true)
  | .unk op =>
    match g.unk with
    | .refuse => none
    | .supplied => some (seqUnk op, true)

/-- The sequence the CPU is in, from `kind` and, for a FETCH, the instruction whose opcode it fetched. -/
def currentSequence (g : Config) (k : SeqKind) (i : Instr) : Option (Sequence × Bool) :=
  match k with
  | .fetch => sequenceOf g i
  | .irq => some (entrySequence .irq, false)
  | .nmi => some (entrySequence .nmi, false)
  | .rst => some (entrySequence .rst, false)

/-- Go on from within a sequence to its end, or for `maxCycles`. -/
def resume (s : State) : Res State :=
  match currentSequence s.config s.cpu.eng.kind (decodeOpcode s.cpu.eng.opc) with
  | some (seq, commits) => runSequence seq commits maxCycles s
  | none => .refused (.unkOpcode s.cpu.eng.opc s.cpu.regs.pc s.cpu.eng.dflt)

/-- The instruction at PC, run to its end. -/
def runNext (s : State) : Res State := s.opcodeAt.bind fun b => exec (decodeOpcode b) s

/-- From a boundary: the interrupt sequence `begin_sequence()` starts, or the next instruction
(`60_exceptions.md` R360). -/
def runFromBoundary (s : State) : Res State :=
  match s.cpu.beginSequence.eng.kind with
  | .rst => takeInterrupt .rst s
  | .nmi => takeInterrupt .nmi s
  | .irq => takeInterrupt .irq s
  | .fetch => runNext s

/-! ## One clock -/

/-- One cycle of the sequence the CPU is in. -/
def tickCurrent (i : Instr) (s : State) : Res State :=
  match currentSequence s.config s.cpu.eng.kind i with
  | some (seq, commits) => (tick seq commits s).bind fun (s', _) => .next s'
  | none => .refused (.unkOpcode s.cpu.eng.opc s.cpu.regs.pc s.cpu.eng.dflt)

/-- The first cycle after a boundary: the sequence begins (`40_cycle_engine.md` R130). -/
def tickFirst (s : State) : Res State :=
  let s' := { s with cpu := s.cpu.beginSequence }
  match s'.cpu.eng.kind with
  | .fetch => s.opcodeAt.bind fun b =>
      match sequenceOf s.config (decodeOpcode b) with
      | some (seq, commits) => (tick seq commits s').bind fun (s'', _) => .next s''
      | none => refuseUnk b s
  | _ => tickCurrent .nop s'

/-- `cpu_cycle()` (`40_cycle_engine.md` R130) and the dots after it (`00_scope.md` R8, P_ORDER). -/
def clockNow (s : State) : Res State :=
  if s.cpu.eng.jammed then jamCycle s
  else if s.cpu.eng.presync then
    if s.cpu.trk.rst = .serviced then holdCycle s else tickFirst s
  else tickCurrent (decodeOpcode s.cpu.eng.opc) s

/-- The same, after the dots that the driver runs before it. -/
def clock (s : State) : Res State := s.runEarly.bind clockNow

/-- One step from where the CPU is. At a boundary: the interrupt sequence that has been committed, or the instruction at PC, to its end.
Jammed or held in reset: one cycle. Within a sequence: the rest of it (log 1). -/
def stepNow (s : State) : Res State :=
  if s.cpu.eng.jammed then jamCycle s
  else if s.cpu.eng.presync then
    if s.cpu.trk.rst = .serviced then holdCycle s else runFromBoundary s
  else resume s

/-- Clocks until the CPU is at a boundary or jammed, at most `n`. -/
def clocksToBoundary : Nat → State → Res State
  | 0, s => .next s
  | n + 1, s =>
    (clock s).bind fun s' =>
      if s'.cpu.eng.presync || s'.cpu.eng.jammed then .next s' else clocksToBoundary n s'

end Sys2Proof.Machine
end

