-- ==== Sys2Proof/Machine/Load.lean ====
section
/-! DEFINITION. What the outside does to the console between steps: cartridges (`20_memory.md` R98-R102), binding swaps
(`20_memory.md` R74, `70_reset_and_hazards.md` R410), placing an instruction at the next fetch; and the observers' snapshots
(`10_state.md` R30, R45). -/

namespace Sys2Proof.Machine

/-! ## Swaps (`20_memory.md` R74, R92) -/

/-- `set` on the CPU bus. -/
def State.bindCpu (a : Word) (d : Option Device) (s : State) : State := { s with cpuBus := s.cpuBus.set a d }

/-- `set` on the video bus. -/
def State.bindVideo (a : Word) (d : Option Device) (s : State) : State := { s with videoBus := s.videoBus.set a d }

/-! ## Cartridges (`20_memory.md` R98-R102) -/

/-- The CHR of an NROM cartridge: 8 KiB of ROM, or of RAM whose contents at power-up are a draw (`20_memory.md` R101, `10_state.md` R50). -/
inductive ChrKind where
  | rom (contents : Memory)
  | ram (draw : Memory)
deriving DecidableEq, Repr

def ChrKind.isRam : ChrKind → Bool
  | .rom _ => false
  | .ram _ => true

def ChrKind.contents : ChrKind → Memory
  | .rom m => m
  | .ram m => m

/-- A cartridge to insert (`P_CART`, `20_memory.md` R98). -/
inductive Cartridge where
  | rawImage (size : Nat) (contents : Memory)
  | nrom (prg32 : Bool) (prg : Memory) (chr : ChrKind) (mirroring : Mirroring)
  | unimplemented (mapper : Nat)
deriving DecidableEq, Repr

/-- The contents fit the kind: a raw image of 1 to 32,768 bytes (`20_memory.md` R102), an NROM's PRG and CHR within their
sizes. -/
def Cartridge.fits : Cartridge → Bool
  | .rawImage size m => decide (1 ≤ size) && decide (size ≤ 32768) && m.wf size
  | .nrom prg32 prg chr _ => prg.wf (prgSize prg32) && chr.contents.wf 8192
  | .unimplemented _ => true

/-- connect-to-main-bus: `swap` of the PRG device into CPU partition 3; the binding it displaces is kept (`20_memory.md` R98). -/
def State.connectPrg (s : State) : State :=
  match s.cpuBus.swap 0x8000#16 (some .prg) with
  | some (old, b) => { s with cpuBus := b, displaced.prg := some old }
  | none => s

/-- connect-to-video-bus: `swap` of the CHR device into video partition 0; the binding it displaces is kept (`20_memory.md` R98). -/
def State.connectChr (s : State) : State :=
  match s.videoBus.swap 0x0000#16 (some .chr) with
  | some (old, b) => { s with videoBus := b, displaced.chr := some old }
  | none => s

/-- disconnect: `swap` of the previous bindings back; the cartridge and its contents are gone (`20_memory.md` R98). The mirroring stays as
it selected it until another does (log 6). -/
def State.removeCartridge (s : State) : State :=
  { s with
    cart := .absent, prg := [], chr := []
    displaced := { prg := none, chr := none }
    cpuBus := match s.displaced.prg with
      | some old => s.cpuBus.set 0x8000#16 old
      | none => s.cpuBus
    videoBus := match s.displaced.chr with
      | some old => s.videoBus.set 0x0000#16 old
      | none => s.videoBus }

/-- Insert a cartridge: connect its PRG to CPU partition 3 and, if it has CHR, that to video partition 0
(`20_memory.md` R92, R98-R102). One that is still inserted is disconnected first, so that nothing of it stays bound, as under a raw
image, which has no CHR (R101; DESIGN CHOICE, log 20). An unimplemented mapper is refused (R100). -/
def State.insertCartridge (c : Cartridge) (s : State) : Res State :=
  if c.fits then
    match c with
    | .unimplemented n => .refused (.unimplementedMapper n)
    | .rawImage size m =>
      .next { s.removeCartridge with cart := .rawImage size, mirroring := .vertical, prg := m }.connectPrg
    | .nrom prg32 prg chr mir =>
      .next { s.removeCartridge with
        cart := .nrom prg32 chr.isRam, mirroring := mir, prg := prg, chr := chr.contents }.connectPrg.connectChr
  else .refused .badCartridgeImage

/-! ## Placing an instruction at the next fetch -/

/-- At a boundary with nothing committed, held or jammed and no dot before it: the next cycle fetches an opcode. -/
def State.atFetch (s : State) : State :=
  { s with early := [], cpu := { s.cpu with
      eng := { s.cpu.eng with presync := true, jammed := false }
      trk := { irq := if s.cpu.trk.irq = .committed then .clear else s.cpu.trk.irq
               nmi := if s.cpu.trk.nmi = .committed then .clear else s.cpu.trk.nmi
               rst := if s.cpu.trk.rst = .committed ∨ s.cpu.trk.rst = .serviced then .clear else s.cpu.trk.rst } } }

/-- Store a byte in the plain memory behind a CPU address, RAM or the cartridge's PRG ROM, as a loader would. -/
def State.poke (a : Word) (v : Byte) (s : State) : State :=
  match s.cpuBus.device a with
  | some .ram => { s with ram := s.ram.write (ramIndex a) v }
  | some .prg =>
    match s.cart with
    | .absent => s
    | .rawImage size =>
      if 0x8000 ≤ a.toNat ∧ a.toNat - 0x8000 < size then { s with prg := s.prg.write (a.toNat - 0x8000) v } else s
    | .nrom prg32 _ => { s with prg := s.prg.write (a.toNat % prgSize prg32) v }
  | _ => s

/-- Plain memory stands behind this address and the two after it. -/
def State.plainAt (s : State) (a : Word) : Bool :=
  (s.peek a).isSome && (s.peek (a + 1)).isSome && (s.peek (a + 2)).isSome

/-- PC at $0000 with RAM bound there. -/
def State.atRamStart (s : State) : State :=
  { s with cpu := { s.cpu with regs := { s.cpu.regs with pc := 0x0000#16 } } }.bindCpu 0x0000#16 (some .ram)

/-- The state as it is if plain memory stands at PC, else with PC moved to RAM (on the console's own bus, if the bus
has no room for RAM there). -/
def State.atPlainPc (s : State) : State :=
  if s.plainAt s.cpu.regs.pc then s
  else if s.atRamStart.plainAt 0x0000#16 then s.atRamStart
  else { s.atRamStart with cpuBus := Bus.cpuConsole }

/-- The three bytes of an instruction at PC, the first at the lowest address. -/
def State.placeAtPc (v : Nat) (s : State) : State :=
  ((s.poke s.cpu.regs.pc (BitVec.ofNat 8 v)).poke (s.cpu.regs.pc + 1) (BitVec.ofNat 8 (v / 256))).poke
    (s.cpu.regs.pc + 2) (BitVec.ofNat 8 (v / 65536))

/-! ## Snapshots

Each shows every field of `10_state.md` that belongs to it, the hidden ones too, and the raw byte windows (`92_eei_decisions.md` D39). -/

/-- How many bytes of PRG ROM a cartridge holds (`20_memory.md` R99, R102). -/
def CartKind.prgBytes : CartKind → Nat
  | .absent => 0
  | .rawImage size => size
  | .nrom prg32 _ => prgSize prg32

/-- How many bytes of CHR ROM or CHR RAM (`20_memory.md` R101). -/
def CartKind.chrBytes : CartKind → Nat
  | .nrom _ _ => 8192
  | _ => 0

/-- The cartridge's snapshot fragment. The spec names it (`20_memory.md` R98, "produce-snapshot-fragment") and gives byte windows of the
cartridge ROM and RAM (`92_eei_decisions.md` D39), here `prg` and `chr`. That it also holds what the cartridge is, the mirroring it
selects and the bindings it would swap back is the model's choice (DESIGN CHOICE, log 21). -/
structure CartSnapshot where
  kind : CartKind
  mirroring : Mirroring
  prg : List Byte
  chr : List Byte
  displaced : Displaced
deriving DecidableEq, Repr

def State.cartSnapshot (s : State) : CartSnapshot where
  kind := s.cart
  mirroring := s.mirroring
  prg := s.prg.slice 0 s.cart.prgBytes
  chr := s.chr.slice 0 s.cart.chrBytes
  displaced := s.displaced

/-- The CPU snapshot (`10_state.md` R30), with the windows of the CPU's RAM and, in the cartridge's fragment, of PRG and CHR, and the CPU
bus (R46). -/
structure CpuSnapshot where
  a : Byte
  x : Byte
  y : Byte
  s : Byte
  pc : Word
  p : Byte
  trk : Trackers
  irqN : Bool
  nmiN : Bool
  rstN : Bool
  eng : Engine
  ram : List Byte
  cart : CartSnapshot
  bus : Bus
deriving DecidableEq, Repr

def State.cpuSnapshot (s : State) : CpuSnapshot where
  a := s.cpu.regs.a
  x := s.cpu.regs.x
  y := s.cpu.regs.y
  s := s.cpu.regs.s
  pc := s.cpu.regs.pc
  p := s.cpu.regs.p.pack
  trk := s.cpu.trk
  irqN := s.lines.irqN
  nmiN := s.nmiN
  rstN := s.lines.rstN
  eng := s.cpu.eng
  ram := s.ram.slice 0 2048
  cart := s.cartSnapshot
  bus := s.cpuBus

/-- The PPU snapshot (`10_state.md` R45), with the hidden fields of R39, R40 and R42, and the video bus (R46). Bits 4 to 0 of the status byte
are 0 (DESIGN CHOICE, log 19). -/
structure PpuSnapshot where
  ctrl : Byte
  mask : Byte
  status : Byte
  oamaddr : Byte
  v : BitVec 15
  t : BitVec 15
  x : BitVec 3
  w : Bool
  rbuf : Byte
  line : Nat
  dot : Nat
  odd : Bool
  prst : Tracker
  pend : Pend
  pdata : Byte
  ale : Bool
  vaddr : BitVec 14
  iolatch : Byte
  vsupp : Bool
  bflt : Bool
  nmiN : Bool
  oam : List Byte
  palette : List Byte
  vram : List Byte
  bus : Bus
deriving DecidableEq, Repr

def State.ppuSnapshot (s : State) : PpuSnapshot where
  ctrl := s.ppu.ctrl.pack
  mask := s.ppu.mask.pack
  status := s.ppu.status.pack
  oamaddr := s.ppu.oamaddr
  v := s.ppu.v
  t := s.ppu.t
  x := s.ppu.x
  w := s.ppu.w
  rbuf := s.ppu.rbuf
  line := s.ppu.line
  dot := s.ppu.dot
  odd := s.ppu.odd
  prst := s.ppu.prst
  pend := s.ppu.pend
  pdata := s.ppu.pdata
  ale := s.ppu.ale
  vaddr := s.ppu.vaddr
  iolatch := s.ppu.iolatch
  vsupp := s.ppu.vsupp
  bflt := s.ppu.bflt
  nmiN := s.ppu.nmiN
  oam := s.ppu.oam.slice 0 256
  palette := s.ppu.pal.slice 0 28
  vram := s.vram.slice 0 2048
  bus := s.videoBus

end Sys2Proof.Machine
end

