-- ==== Sys2Proof/Machine/Step.lean ====
section
/-! DEFINITION. One step of the console: from where the CPU is to the next boundary (`00_scope.md` R12), or one
cycle of the jam or the reset hold. -/

namespace Sys2Proof.Machine

/-- One step: the dots that the driver runs before the next CPU cycle, if any, and what comes next. -/
def step (s : State) : Host.Outcome State Fault Refusal := s.runEarly.bind stepNow

/-- The state with the instruction whose bits are `w` (those above `nbits` zero) placed where the next step fetches
(log 13). -/
def State.withFetchWord (s : State) (nbits w : Nat) : State := s.atFetch.atPlainPc.placeAtPc (w % 2 ^ nbits)

end Sys2Proof.Machine
end

