-- ==== Sys2Proof/Safety.lean ====
section
/-! DEFINITION. The terms the statements are written in: what never changes, the invariant every step keeps, when the
machine runs without a refusal, and what an instruction leaves alone. -/

namespace Sys2Proof.Machine

/-! ## What no step changes -/

/-- The parameters, the cartridge, what it displaced and its ROM, and the wiring of the two buses (`10_state.md` R50, `00_scope.md` R8). -/
def State.fixed (s : State) : Config × (CartKind × Displaced) × Mirroring × Memory × Bus × Bus :=
  (s.config, (s.cart, s.displaced), s.mirroring, s.prg, s.cpuBus, s.videoBus)

/-- The memories a CPU cycle reaches only through the PPU or a cartridge device. -/
def State.videoMemory (s : State) : Memory × Memory × Memory × Memory := (s.vram, s.chr, s.ppu.oam, s.ppu.pal)

/-! ## The invariant -/

/-- The sequence the CPU is in is that of a supplied cycle function (`00_scope.md` R8 P_UNK, `45_stack_flags_misc.md` R297). -/
abbrev State.runsSupplied (s : State) : Prop :=
  s.config.unk = .supplied ∧ s.cpu.eng.kind = .fetch ∧ s.cpu.eng.opc.toNat ∈ unkOpcodes

/-- What holds at reset and every step keeps. -/
structure State.Inv (s : State) : Prop where
  /-- the memories are in canonical form and within their sizes (`00_scope.md` R7) -/
  ram : s.ram.wf 2048 = true
  vram : s.vram.wf 2048 = true
  oam : s.ppu.oam.wf 256 = true
  pal : s.ppu.pal.wf 28 = true
  prg : s.prg.wf 32768 = true
  chr : s.chr.wf 8192 = true
  /-- the dot counter is within the frame (`10_state.md` R37) -/
  line : s.ppu.line ≤ 261
  dot : s.ppu.dot ≤ 340
  /-- the `irq` tracker never holds SERVICED (`10_state.md` R27) -/
  irq : s.cpu.trk.irq ≠ .serviced
  /-- `P.B = 0` and `P.U = 1` always (`10_state.md` R24) -/
  b : s.cpu.regs.p.b = false
  u : s.cpu.regs.p.u = true
  /-- the address latch belongs to an access that is pending (`10_state.md` R39) -/
  ale : s.ppu.ale = true → s.ppu.pend ≠ .none
  /-- within a sequence, at least its T0 has run, and the index of the next cycle is at most 6 (`10_state.md` R28), or beyond it in a
  supplied sequence (log 10) -/
  index : s.cpu.eng.presync = false → s.cpu.eng.jammed = false → 1 ≤ s.cpu.eng.t ∧ (s.cpu.eng.t ≤ 6 ∨ s.runsSupplied)
  /-- a jammed CPU is not at a boundary (DEDUCED, log 15, from `40_cycle_engine.md` R130, R159 and `45_stack_flags_misc.md` R296) -/
  jam : s.cpu.eng.jammed = true → s.cpu.eng.presync = false

/-! ## When nothing is refused -/

/-- No binding of the bus is one of these devices. -/
def Bus.without (bad : Device → Bool) (b : Bus) : Bool := b.bindings.all (fun d => !d.any bad)

/-- A device whose callback breaks the rule of `70_reset_and_hazards.md` R410. -/
def Device.misbehaves : Device → Bool
  | .reentrant | .rebinder => true
  | .ram | .ppuRegs | .vram | .prg | .chr => false

/-- A device that has no place on the video bus (`20_memory.md` R95). -/
def Device.notVideo : Device → Bool
  | .vram | .chr => false
  | .ram | .ppuRegs | .prg | .reentrant | .rebinder => true

/-- The devices on the buses keep to their contract: none misbehaves, and the video bus holds video devices. The console's own
wiring is one (`20_memory.md` R90, R95). -/
structure State.SoundBuses (s : State) : Prop where
  cpu : s.cpuBus.without Device.misbehaves = true
  video : s.videoBus.without Device.notVideo = true

/-- The PPU completes each PPUDATA access before the next CPU cycle (`46_ppu.md` R310, R315): none is pending, the PPU is not held
in reset, the reset line is high and stays high, and at least two dots follow each CPU cycle (the default order has three). No dots
are left to run before the next one. -/
structure State.Running (s : State) : Prop where
  buses : s.SoundBuses
  idle : s.ppu.pend = .none
  released : s.ppu.prst.holdsPpu = false
  rstN : s.lines.rstN = true
  early : s.early = []
  driver : ∀ d ∈ s.driver, d.rstN = true ∧ (∀ l ∈ d.dots, l = true) ∧ 2 ≤ d.dots.length

/-- The PPU's registers that its dots leave alone, and with no PPUDATA access pending, those that such an access moves
(`46_ppu.md` R310, R330). -/
structure Ppu.SameRegisters (p q : Ppu) : Prop where
  ctrl : q.ctrl = p.ctrl
  mask : q.mask = p.mask
  t : q.t = p.t
  x : q.x = p.x
  w : q.w = p.w
  oamaddr : q.oamaddr = p.oamaddr
  oam : q.oam = p.oam
  iolatch : q.iolatch = p.iolatch
  idle : p.pend = .none → q.pend = .none ∧ q.v = p.v ∧ q.rbuf = p.rbuf ∧ q.pal = p.pal

/-- The buses as the console wires them, with a cartridge inserted or not (`20_memory.md` R90, R92, R95, R98, R99, R101): RAM and the
PPU registers on the CPU bus, VRAM on the video bus; what a cartridge displaced was unbound. -/
structure State.Wired (s : State) : Prop where
  cpu : (s.cpuBus = Bus.cpuConsole ∧ s.displaced.prg = none) ∨
    (s.cpuBus = Bus.cpuConsole.set 0x8000#16 (some .prg) ∧ s.displaced.prg = some none)
  video : (s.videoBus = Bus.videoConsole ∧ s.displaced.chr = none) ∨
    (s.videoBus = Bus.videoConsole.set 0x0000#16 (some .chr) ∧ s.displaced.chr = some none)

/-- The RESET line is low and stays low (`P_LINES`, `00_scope.md` R8). -/
structure State.RstLow (s : State) : Prop where
  now : s.lines.rstN = false
  later : ∀ d ∈ s.driver, d.rstN = false ∧ ∀ l ∈ d.dots, l = false

/-- The IRQ line is low and stays low (`P_LINES`, `00_scope.md` R8). -/
structure State.IrqLow (s : State) : Prop where
  now : s.lines.irqN = false
  later : ∀ d ∈ s.driver, d.irqN = false

/-- The NMI line is high and stays high while no PPUCTRL write comes: the PPU does not drive it, and neither does the driver
(`46_ppu.md` R336, `P_LINES`). -/
structure State.NmiHigh (s : State) : Prop where
  ppu : s.ppu.ctrl.v = false
  now : s.lines.nmiExtN = true
  later : ∀ d ∈ s.driver, d.nmiExtN = true

/-! ## Stores -/

/-- RAM after the CPU stores a byte at an address: only an address whose partition holds RAM changes it. -/
def State.ramAfter (s : State) (a : Word) (v : Byte) : Memory :=
  match s.cpuBus.device a with
  | some .ram => s.ram.write (ramIndex a) v
  | _ => s.ram

/-- The state with a byte stored in RAM, if RAM stands behind the address. -/
def State.storedAt (s : State) (a : Word) (v : Byte) : State := { s with ram := s.ramAfter a v }

/-- RAM after stores in this order. -/
def State.ramAfterAll (s : State) : List (Word × Byte) → Memory
  | [] => s.ram
  | (a, v) :: rest => (s.storedAt a v).ramAfterAll rest

/-- Both addresses reach the same byte of RAM. -/
def State.sameCell (s : State) (a x : Word) : Bool :=
  decide (s.cpuBus.device a = some .ram) && decide (s.cpuBus.device x = some .ram) && decide (ramIndex a = ramIndex x)

/-- A push: a byte stored at `$0100 | S`, then `S` one less (`00_scope.md` R10, `10_state.md` R21). -/
def State.push (v : Byte) (s : State) : State :=
  { s with
    ram := s.ramAfter (stackAddr s.cpu.regs.s) v
    cpu := { s.cpu with regs := { s.cpu.regs with s := s.cpu.regs.s - 1 } } }

/-- The three pushes of a BRK or interrupt entry (`60_exceptions.md` R366). -/
def State.pushEntry (pc : Word) (status : Byte) (s : State) : State := ((s.push (hi pc)).push (lo pc)).push status

/-- No video device stands behind a CPU address: a store there reaches RAM at most. -/
def State.plainTarget (s : State) (a : Word) : Bool :=
  match s.cpuBus.device a with
  | none | some .ram | some .prg => true
  | _ => false

/-- No video device stands behind the three bytes that an entry pushes. -/
def State.plainStack (s : State) : Bool :=
  s.plainTarget (stackAddr s.cpu.regs.s) && s.plainTarget (stackAddr (s.cpu.regs.s - 1)) &&
    s.plainTarget (stackAddr (s.cpu.regs.s - 2))

/-! ## Operands in plain memory -/

/-- The operand bytes of the instruction at PC (`n` of them are read) and the whole zero page stand in plain memory: `b1`, `b2`
are the operand bytes, `zp` the zero page. -/
structure State.Operands (s : State) (n : Nat) (b1 b2 : Byte) (zp : Byte → Byte) : Prop where
  b1 : 1 ≤ n → s.peek (s.cpu.regs.pc + 1) = some b1
  b2 : 2 ≤ n → s.peek (s.cpu.regs.pc + 2) = some b2
  zp : ∀ p, s.peek (zext16 p) = some (zp p)

/-- The page is crossed when the index carries out of the low byte (`30_encoding.md` R117, `40_cycle_engine.md` R146, R148). -/
def MemMode.crosses (m : MemMode) (r : Regs) (zp : Byte → Byte) (b1 : Byte) : Bool :=
  match m with
  | .absx => carryOut b1 r.x
  | .absy => carryOut b1 r.y
  | .indy => carryOut (zp b1) r.y
  | _ => false

/-- The address that an indexed mode with a 16-bit base reads before the carry of the index has reached the high byte
(`40_cycle_engine.md` R146, R148, R163); the other modes have none. -/
def MemMode.uncorrected (m : MemMode) (r : Regs) (zp : Byte → Byte) (b1 b2 : Byte) : Option Word :=
  match m with
  | .absx => some (join b2 (b1 + r.x))
  | .absy => some (join b2 (b1 + r.y))
  | .indy => some (join (zp (b1 + 1)) (zp b1 + r.y))
  | _ => none

/-- The cycles up to and with that read. -/
def MemMode.uncorrectedCycles (m : MemMode) : Nat := if m = .indy then 5 else 4

/-- Cycles of a read (`40_cycle_engine.md` R160). -/
def MemMode.readCycles (m : MemMode) (crossed : Bool) : Nat :=
  match m with
  | .zp => 3
  | .zpx | .zpy | .abs => 4
  | .absx | .absy => if crossed then 5 else 4
  | .indx => 6
  | .indy => if crossed then 6 else 5

/-- Cycles of a write (`40_cycle_engine.md` R160). -/
def MemMode.writeCycles : MemMode → Nat
  | .zp => 3
  | .zpx | .zpy | .abs => 4
  | .absx | .absy => 5
  | .indx | .indy => 6

/-- Cycles of a read-modify-write (`40_cycle_engine.md` R160). -/
def RmwMode.cycles : RmwMode → Nat
  | .zp => 5
  | .zpx | .abs => 6
  | .absx => 7

/-- The memory mode of an instruction that reads its operand from memory (class R of `30_encoding.md` R122). -/
def Instr.readMode : Instr → Option MemMode
  | .lda (.mem m) | .ldx (.mem m) | .ldy (.mem m) | .adc (.mem m) | .sbc (.mem m) | .and (.mem m) | .ora (.mem m) | .eor (.mem m)
  | .cmp (.mem m) | .cpx (.mem m) | .cpy (.mem m) | .bit m => some m
  | _ => none

/-- The memory mode of a store (class W of `30_encoding.md` R122). -/
def Instr.storeMode : Instr → Option MemMode
  | .sta m | .stx m | .sty m => some m
  | _ => none

/-- The memory mode of a read-modify-write (class M of `30_encoding.md` R122). -/
def Instr.modifyMode : Instr → Option RmwMode
  | .inc m | .dec m | .asl (.mem m) | .lsr (.mem m) | .rol (.mem m) | .ror (.mem m) => some m
  | _ => none

/-! ## What an instruction leaves -/

/-- `n` CPU cycles led from `s` to a boundary at `t`, and the stores `l`, in order, are all that changed in memory: RAM holds what
they leave, every other byte reads as before, and with no video device behind their addresses VRAM, CHR, OAM and palette are as
before. The cartridge, the buses and the parameters never change. -/
structure State.AfterStores (n : Nat) (l : List (Word × Byte)) (s t : State) : Prop where
  running : t.Running
  fixed : t.fixed = s.fixed
  driver : t.driver = s.driver.drop n
  boundary : t.cpu.eng.presync = true
  jammed : t.cpu.eng.jammed = s.cpu.eng.jammed
  ram : t.ram = s.ramAfterAll l
  others : s.ram.wf 2048 = true → ∀ x, (∀ p ∈ l, s.sameCell p.1 x = false) → t.peek x = s.peek x
  video : (∀ p ∈ l, s.plainTarget p.1 = true) → t.videoMemory = s.videoMemory

/-- The same for an instruction that stores nothing. -/
abbrev State.AfterReads (n : Nat) (s t : State) : Prop := s.AfterStores n [] t

/-- What the end of an instruction makes of the trackers (`60_exceptions.md` R355, R356): an NMI or RESET seen before it is committed;
an IRQ is committed when the mask was open and its line low, and is not when the mask was set. -/
structure CommittedAs (mask : Bool) (s t : State) : Prop where
  nmi : s.cpu.trk.nmi = .detected ∨ s.cpu.trk.nmi = .pending → t.cpu.trk.nmi = .committed
  rst : s.cpu.trk.rst = .detected ∨ s.cpu.trk.rst = .pending → t.cpu.trk.rst = .committed
  irqOpen : mask = false → s.cpu.trk.irq ≠ .committed → s.cpu.trk.irq ≠ .serviced → s.IrqLow →
    t.cpu.trk.irq = .committed
  irqMasked : mask = true → s.cpu.trk.irq ≠ .committed → s.cpu.trk.irq ≠ .serviced →
    t.cpu.trk.irq ≠ .committed

/-- With the mask as the instruction found it (`60_exceptions.md` R354): all but RTI. -/
abbrev Committed (s t : State) : Prop := CommittedAs s.cpu.regs.p.i s t

/-- The last cycle of a read instruction read the operand of its mode: `n` cycles, the address on the bus that of the mode
(`30_encoding.md` R113-R119), and the byte that plain memory holds there (`20_memory.md` R85). -/
def State.Delivers (m : ReadMode) (n : Nat) (s t : State) : Prop :=
  (∀ v, s.peek t.cpu.eng.addrbus = some v → t.cpu.eng.databus = v) ∧
  match m with
  | .imm => n = 2 ∧ t.cpu.eng.addrbus = s.cpu.regs.pc + 1
  | .mem m => ∀ b1 b2 zp, s.Operands m.operandBytes b1 b2 zp →
      t.cpu.eng.addrbus = MemMode.effectiveAddress m s.cpu.regs zp b1 b2 ∧
      n = MemMode.readCycles m (MemMode.crosses m s.cpu.regs zp b1)

/-! ## The shapes of an instruction

Each says that `exec` completes, after how many cycles, and what it leaves. `result` is what the instruction makes of the registers;
PC then stands past the instruction. -/

/-- A read instruction: what it computes with is the byte its last cycle read. -/
def State.Reads (i : Instr) (m : ReadMode) (result : Byte → Regs → Regs) (s : State) : Prop :=
  ∃ n t, exec i s = .next t ∧ s.AfterReads n t ∧ Committed s t ∧ s.Delivers m n t ∧
    t.cpu.regs = { result t.cpu.eng.databus s.cpu.regs with pc := s.cpu.regs.pc + BitVec.ofNat 16 (1 + m.operandBytes) }

/-- A store of `v`: the one byte it stores is at the address on the bus in its last cycle, which is that of its mode. -/
def State.Stores (i : Instr) (m : MemMode) (v : Byte) (s : State) : Prop :=
  ∃ n t, exec i s = .next t ∧ s.AfterStores n [(t.cpu.eng.addrbus, v)] t ∧ Committed s t ∧ t.cpu.eng.databus = v ∧
    t.cpu.regs = { s.cpu.regs with pc := s.cpu.regs.pc + BitVec.ofNat 16 (1 + m.operandBytes) } ∧
    ∀ b1 b2 zp, s.Operands m.operandBytes b1 b2 zp →
      t.cpu.eng.addrbus = MemMode.effectiveAddress m s.cpu.regs zp b1 b2 ∧ n = MemMode.writeCycles m

/-- A read-modify-write of memory: the byte read is stored back, then the new byte (`40_cycle_engine.md` R162). -/
def State.Modifies (i : Instr) (m : RmwMode) (rmw : Byte → Flags → Byte × Flags) (s : State) : Prop :=
  ∃ n t v, exec i s = .next t ∧
    s.AfterStores n [(t.cpu.eng.addrbus, v), (t.cpu.eng.addrbus, (rmw v s.cpu.regs.p).1)] t ∧ Committed s t ∧
    t.cpu.eng.databus = (rmw v s.cpu.regs.p).1 ∧ (∀ u, s.peek t.cpu.eng.addrbus = some u → v = u) ∧
    t.cpu.regs = { s.cpu.regs with
      p := (rmw v s.cpu.regs.p).2, pc := s.cpu.regs.pc + BitVec.ofNat 16 (1 + m.toMem.operandBytes) } ∧
    ∀ b1 b2 zp, s.Operands m.toMem.operandBytes b1 b2 zp →
      t.cpu.eng.addrbus = MemMode.effectiveAddress m.toMem s.cpu.regs zp b1 b2 ∧ n = RmwMode.cycles m

/-- An implied instruction: two cycles, the second a read of the next byte (`40_cycle_engine.md` R140). -/
def State.Implies (i : Instr) (result : Regs → Regs) (s : State) : Prop :=
  ∃ t, exec i s = .next t ∧ s.AfterReads 2 t ∧ Committed s t ∧ t.cpu.eng.addrbus = s.cpu.regs.pc + 1 ∧
    t.cpu.regs = { result s.cpu.regs with pc := s.cpu.regs.pc + 1 }

/-- A branch: two cycles when not taken, three when taken to the page of the next instruction, four otherwise
(`40_cycle_engine.md` R149, `44_control.md` R260). -/
def State.Branches (i : Instr) (taken : Bool) (s : State) : Prop :=
  ∃ n t, exec i s = .next t ∧ s.AfterReads n t ∧ Committed s t ∧
    (∀ v, s.peek (s.cpu.regs.pc + 1) = some v → t.cpu.eng.off = v) ∧
    t.cpu.regs = { s.cpu.regs with
      pc := if taken then s.cpu.regs.pc + 2 + t.cpu.eng.off.signExtend 16 else s.cpu.regs.pc + 2 } ∧
    n = if taken then (if hi t.cpu.regs.pc = hi (s.cpu.regs.pc + 2) then 3 else 4) else 2

/-- A push of `v`: three cycles (`40_cycle_engine.md` R155). -/
def State.Pushes (i : Instr) (v : Byte) (s : State) : Prop :=
  ∃ t, exec i s = .next t ∧ s.AfterStores 3 [(stackAddr s.cpu.regs.s, v)] t ∧ Committed s t ∧
    t.cpu.eng.addrbus = stackAddr s.cpu.regs.s ∧ t.cpu.eng.databus = v ∧
    t.cpu.regs = { s.cpu.regs with pc := s.cpu.regs.pc + 1, s := s.cpu.regs.s - 1 }

/-- A pull: four cycles (`40_cycle_engine.md` R156). -/
def State.Pulls (i : Instr) (result : Byte → Regs → Regs) (s : State) : Prop :=
  ∃ t, exec i s = .next t ∧ s.AfterReads 4 t ∧ Committed s t ∧
    t.cpu.eng.addrbus = stackAddr (s.cpu.regs.s + 1) ∧
    (∀ v, s.peek (stackAddr (s.cpu.regs.s + 1)) = some v → t.cpu.eng.databus = v) ∧
    t.cpu.regs = { result t.cpu.eng.databus s.cpu.regs with pc := s.cpu.regs.pc + 1, s := s.cpu.regs.s + 1 }

/-- PC at the target that a vector holds. -/
def State.AtVector (vec : Word) (t : State) : Prop :=
  ∀ l h, t.peek vec = some l → t.peek (vec + 1) = some h → t.cpu.regs.pc = join h l

/-- No interrupt begins at the next boundary. -/
structure State.NothingCommitted (s : State) : Prop where
  irq : s.cpu.trk.irq ≠ .committed
  nmi : s.cpu.trk.nmi ≠ .committed
  rst : s.cpu.trk.rst ≠ .committed

/-- An NMI has been seen and is not yet committed: by T5 of an entry it is PENDING (`60_exceptions.md` R368). -/
def State.nmiSeen (s : State) : Prop := s.cpu.trk.nmi = .detected ∨ s.cpu.trk.nmi = .pending

/-- What an entry of seven cycles leaves: the return address and the status pushed, `I` set and no other flag, nothing committed that
was not before (`60_exceptions.md` R366, `40_cycle_engine.md` R134, R158). -/
structure State.Entered (pc : Word) (status : Byte) (s t : State) : Prop where
  stores : s.AfterStores 7 [(stackAddr s.cpu.regs.s, hi pc), (stackAddr (s.cpu.regs.s - 1), lo pc),
    (stackAddr (s.cpu.regs.s - 2), status)] t
  regs : t.cpu.regs = { s.cpu.regs with pc := t.cpu.regs.pc, s := s.cpu.regs.s - 3, p := { s.cpu.regs.p with i := true } }

/-- Each opcode byte decodes to the instruction beside it. -/
def Encodings (l : List (Byte × Instr)) : Prop := ∀ p ∈ l, decodeOpcode p.1 = p.2

/-- The end of a cycle of a supplied function that has made `c` of the CPU, with these levels of the lines: commit at a final cycle, sample,
promote at a poll point, then the next index, the boundary or the jam (`40_cycle_engine.md` R130, R134, R159). -/
def closeSupplied (u : UnkCycle) (irqN nmiN rstN : Bool) (c : Cpu) : Cpu where
  regs := c.regs
  eng := { c.eng with
    t := if u.next = .final then c.eng.t else c.eng.t + 1
    presync := decide (u.next = .final) || c.eng.presync
    jammed := decide (u.next = .jam) || c.eng.jammed
    imask := if u.poll then c.regs.p.i else c.eng.imask }
  trk :=
    let commit (masked : Bool) (k : Tracker) : Tracker := if u.next = .final ∧ masked = false then k.committedFrom else k
    let promote (k : Tracker) : Tracker := if u.poll then k.promoted else k
    { irq := promote (sampleIrq irqN (commit c.eng.imask c.trk.irq))
      nmi := promote (sampleEdge nmiN (commit false c.trk.nmi))
      rst := promote (sampleEdge rstN (commit false c.trk.rst)) }

/-! ## Runs -/

/-- The next CPU cycle is the first of the sequence at a boundary: no jam, no reset hold, nothing committed, no dots before it. -/
structure State.FetchesNext (s : State) : Prop where
  jammed : s.cpu.eng.jammed = false
  presync : s.cpu.eng.presync = true
  hold : s.cpu.trk.rst ≠ .serviced
  nothing : s.NothingCommitted
  early : s.early = []

/-- `n` clocks: CPU cycles with their dots (`40_cycle_engine.md` R130). -/
def clocks : Nat → State → Res State
  | 0, s => .next s
  | n + 1, s => (clock s).bind (clocks n)

/-- Every one of the next `n` steps has a next state. -/
def safeRun : Nat → State → Bool
  | 0, _ => true
  | n + 1, s =>
    match step s with
    | .next t => safeRun n t
    | .fault _ => false
    | .refused _ => false

end Sys2Proof.Machine
end

