-- ==== Sys2Proof/Certificates/Slice0/Obligations.lean ====
section
/-! DEFINITION. The statements for the provers. Each docstring names the rules of the spec, or the log entry, that the statement
comes from. The shapes they use (`State.Reads`, `State.Stores`, …) are defined in Safety.lean; each of them says that `exec`
answers a next state. -/

open Sys2Proof Sys2Proof.Machine

/-! ## Decoding -/

/-- Decoding what was encoded gives the instruction and its operand bytes back, whatever follows (`30_encoding.md` R110, R111,
R123, R127): the encoder is written from the encodings lines of files 41 to 45, the decoder from the map of R123. -/
def Obligations.EncodedInstructionsDecode : Prop :=
  ∀ e : Encoded, e.wellFormed = true →
    ∃ bytes, encode e = some bytes ∧ bytes.length = e.instr.length ∧ ∀ rest, decode (bytes ++ rest) = .ok (e, rest)

/-- What the decoder accepts is well formed and is the encoding of what it gives; it refuses only for want of bytes. -/
def Obligations.DecodedBytesEncodeBack : Prop :=
  ∀ bytes : List Byte,
    (∀ e rest, decode bytes = .ok (e, rest) → e.wellFormed = true ∧ ∃ front, encode e = some front ∧ bytes = front ++ rest) ∧
    (∀ err, decode bytes = .error err →
      (bytes = [] ∧ err = .empty) ∨
      ∃ op rest, bytes = op :: rest ∧ err = .truncated (decodeOpcode op) ∧ rest.length < (decodeOpcode op).operandBytes)

/-- Every opcode byte is official, JAM or UNK (`30_encoding.md` R126), 151, 12 and 93 of them (R123); and words written out from the
encodings lines, some of each length, decode to what they stand for, with their operand bytes. -/
def Obligations.EveryOpcodeByteDecodes : Prop :=
  (∀ op : Byte, (decodeOpcode op).wellFormed = true ∧ encodeOpcode (decodeOpcode op) = some op ∧
    ((∃ i, (op.toNat, i) ∈ officialOpcodes ∧ decodeOpcode op = i) ∨
      (op.toNat ∈ jamOpcodes ∧ decodeOpcode op = .jam op) ∨ (op.toNat ∈ unkOpcodes ∧ decodeOpcode op = .unk op))) ∧
  officialOpcodes.length = 151 ∧ jamOpcodes.length = 12 ∧ unkOpcodes.length = 93 ∧
  decode [0xA9, 0x80] = .ok (⟨.lda .imm, .one 0x80⟩, []) ∧
  decode [0xBD, 0xF0, 0x80, 0xEA] = .ok (⟨.lda (.mem .absx), .two 0xF0 0x80⟩, [0xEA]) ∧
  decode [0x96, 0x10] = .ok (⟨.stx .zpy, .one 0x10⟩, []) ∧
  decode [0x71, 0x10] = .ok (⟨.adc (.mem .indy), .one 0x10⟩, []) ∧
  decode [0xDE, 0x00, 0x03] = .ok (⟨.dec .absx, .two 0x00 0x03⟩, []) ∧
  decode [0x6A] = .ok (⟨.ror .acc, .none⟩, []) ∧
  decode [0xD0, 0xFC] = .ok (⟨.bne, .one 0xFC⟩, []) ∧
  decode [0x6C, 0xFF, 0x80] = .ok (⟨.jmp .ind, .two 0xFF 0x80⟩, []) ∧
  decode [0x28] = .ok (⟨.plp, .none⟩, []) ∧
  decode [0x02] = .ok (⟨.jam 0x02, .none⟩, []) ∧
  decode [0xEB] = .ok (⟨.unk 0xEB, .none⟩, [])

/-! ## Steps -/

/-- At a boundary with nothing committed, no reset hold and no jam, a step is `exec` of the instruction whose opcode stands at PC
(`40_cycle_engine.md` R130, R132; the step's size is the model's, log 1). Dots that the driver runs before it come first
(`00_scope.md` R8 P_ORDER, log 16). -/
def Obligations.StepRunsDecodedInstruction : Prop :=
  (∀ s : State, step s = s.runEarly.bind step ∧ clock s = s.runEarly.bind clock ∧ ∀ u, s.runEarly = .next u → u.early = []) ∧
  ∀ s : State, s.FetchesNext →
    (∀ b, s.opcodeAt = .next b → step s = exec (decodeOpcode b) s) ∧
    (∀ b, s.peek s.cpu.regs.pc = some b → step s = exec (decodeOpcode b) s)

/-- A step is the CPU cycles and dots that lead to the next boundary or into the jam, at most eight of them: the big step of the
model and its cycle-by-cycle machine agree (`40_cycle_engine.md` R130, R160, `00_scope.md` R12; log 1). Only a supplied cycle function of
P_UNK may still be within its sequence after a step (log 10). -/
def Obligations.StepIsItsClocks : Prop :=
  ∀ s : State, s.Inv →
    step s = clocksToBoundary 8 s ∧
    ∀ t, step s = .next t → t.cpu.eng.presync = true ∨ t.cpu.eng.jammed = true ∨ t.runsSupplied

/-- The invariant holds after reset. -/
def Obligations.ResetMeetsTheInvariant : Prop := State.reset.Inv

/-- Every step keeps the invariant: canonical memories within their sizes, the dot counter within the frame, `irq` never SERVICED,
`P.B = 0` and `P.U = 1`, and within a sequence an index from 1 to 6 (`10_state.md` R24, R27, R28, R37, R39). Two clauses rest on the
model's own readings: that a jammed CPU is not at a boundary is DEDUCED, log 15, from `40_cycle_engine.md` R130, R159 and
`45_stack_flags_misc.md` R296, and that the index goes beyond 6 in a supplied sequence alone is log 10's. -/
def Obligations.StepKeepsTheInvariant : Prop := ∀ s t : State, s.Inv → step s = .next t → t.Inv

/-- No step changes the cartridge, what it displaced, its PRG ROM or a binding of either bus (`10_state.md` R50, `20_memory.md` R98, R99,
`70_reset_and_hazards.md` R393, R410), nor the mirroring, which the cartridge selects (`20_memory.md` R98, `00_scope.md` R8). That the
parameters of Config are held in the state and no step changes them is the model's choice (log 7). -/
def Obligations.WiringAndRomNeverChange : Prop := ∀ s t : State, step s = .next t → t.fixed = s.fixed

/-- With devices that keep their contract, a step is refused only for an overlapping PPUDATA access, or for an unknown opcode with P_UNK at
its default (`00_scope.md` R8, R11, `46_ppu.md` R315, `45_stack_flags_misc.md` R297), and never faults. -/
def Obligations.OnlyOverlapAndUnknownRefuse : Prop :=
  ∀ s : State, s.SoundBuses →
    (∀ e, step s = .refused e →
      e = .ppudataOverlap ∨ (s.config.unk = .refuse ∧ ∃ op pc d, op.toNat ∈ unkOpcodes ∧ e = .unkOpcode op pc d)) ∧
    ∀ e, step s ≠ .fault e

/-- The default order leaves every PPUDATA access complete before the next CPU cycle, so no step overlaps one: from a running
state a step leads to a running state, unless it meets an unknown opcode with P_UNK at its default (`46_ppu.md` R315); and dots run
before the next CPU cycle lead to a running state and touch neither the CPU nor a memory. -/
def Obligations.RunningGoesOnUnlessUnknown : Prop :=
  (∀ s : State, s.Running →
    (∃ t, step s = .next t ∧ t.Running) ∨
    (s.config.unk = .refuse ∧ ∃ op pc d, op.toNat ∈ unkOpcodes ∧ step s = .refused (.unkOpcode op pc d))) ∧
  ∀ s : State, { s with early := [] }.Running → (∀ l ∈ s.early, l = true) →
    ∃ u, s.runEarly = .next u ∧ u.Running ∧ u.cpu = s.cpu ∧ u.fixed = s.fixed ∧ u.lines = s.lines ∧ u.driver = s.driver ∧
      u.ram = s.ram ∧ u.videoMemory = s.videoMemory

/-! ## Loads, stores, transfers -/

/-- LDA, LDX, LDY, with their encodings, in every mode (`41_load_store_transfer.md` R201-R203). -/
def Obligations.LoadsGiveTheByteRead : Prop :=
  Encodings [(0xA9, .lda .imm), (0xA5, .lda (.mem .zp)), (0xB5, .lda (.mem .zpx)), (0xAD, .lda (.mem .abs)),
    (0xBD, .lda (.mem .absx)), (0xB9, .lda (.mem .absy)), (0xA1, .lda (.mem .indx)), (0xB1, .lda (.mem .indy))] ∧
  Encodings [(0xA2, .ldx .imm), (0xA6, .ldx (.mem .zp)), (0xB6, .ldx (.mem .zpy)), (0xAE, .ldx (.mem .abs)), (0xBE, .ldx (.mem .absy)),
    (0xA0, .ldy .imm), (0xA4, .ldy (.mem .zp)), (0xB4, .ldy (.mem .zpx)), (0xAC, .ldy (.mem .abs)), (0xBC, .ldy (.mem .absx))] ∧
  ∀ (m : ReadMode) (s : State), s.Running →
    s.Reads (.lda m) m (fun v r => { r with a := v, p := setNZ v r.p }) ∧
    s.Reads (.ldx m) m (fun v r => { r with x := v, p := setNZ v r.p }) ∧
    s.Reads (.ldy m) m (fun v r => { r with y := v, p := setNZ v r.p })

/-- STA, STX, STY, with their encodings, in every mode, with the frame of `State.AfterStores` (`41_load_store_transfer.md`
R204-R206). -/
def Obligations.StoresReachTheirAddress : Prop :=
  Encodings [(0x85, .sta .zp), (0x95, .sta .zpx), (0x8D, .sta .abs), (0x9D, .sta .absx), (0x99, .sta .absy), (0x81, .sta .indx),
    (0x91, .sta .indy)] ∧
  Encodings [(0x86, .stx .zp), (0x96, .stx .zpy), (0x8E, .stx .abs), (0x84, .sty .zp), (0x94, .sty .zpx), (0x8C, .sty .abs)] ∧
  ∀ (m : MemMode) (s : State), s.Running →
    s.Stores (.sta m) m s.cpu.regs.a ∧ s.Stores (.stx m) m s.cpu.regs.x ∧ s.Stores (.sty m) m s.cpu.regs.y

/-- TAX, TAY, TXA, TYA, TSX, TXS, with their encodings (`41_load_store_transfer.md` R207-R212). -/
def Obligations.TransfersCopyTheRegister : Prop :=
  Encodings [(0xAA, .tax), (0xA8, .tay), (0x8A, .txa), (0x98, .tya), (0xBA, .tsx), (0x9A, .txs)] ∧
  ∀ s : State, s.Running →
    s.Implies .tax (fun r => { r with x := r.a, p := setNZ r.a r.p }) ∧
    s.Implies .tay (fun r => { r with y := r.a, p := setNZ r.a r.p }) ∧
    s.Implies .txa (fun r => { r with a := r.x, p := setNZ r.x r.p }) ∧
    s.Implies .tya (fun r => { r with a := r.y, p := setNZ r.y r.p }) ∧
    s.Implies .tsx (fun r => { r with x := r.s, p := setNZ r.s r.p }) ∧
    s.Implies .txs (fun r => { r with s := r.x })

/-! ## Arithmetic and logic -/

/-- ADC and SBC in binary, in every mode: always with `P_BCD` false, and with D clear (`42_arith_logic.md` R220, R221). -/
def Obligations.AddAndSubtractInBinary : Prop :=
  Encodings [(0x69, .adc .imm), (0x65, .adc (.mem .zp)), (0x75, .adc (.mem .zpx)), (0x6D, .adc (.mem .abs)),
    (0x7D, .adc (.mem .absx)), (0x79, .adc (.mem .absy)), (0x61, .adc (.mem .indx)), (0x71, .adc (.mem .indy))] ∧
  Encodings [(0xE9, .sbc .imm), (0xE5, .sbc (.mem .zp)), (0xF5, .sbc (.mem .zpx)), (0xED, .sbc (.mem .abs)),
    (0xFD, .sbc (.mem .absx)), (0xF9, .sbc (.mem .absy)), (0xE1, .sbc (.mem .indx)), (0xF1, .sbc (.mem .indy))] ∧
  ∀ (m : ReadMode) (s : State), s.Running → s.config.bcd = false ∨ s.cpu.regs.p.d = false →
    s.Reads (.adc m) m (fun v r =>
      let sum := r.a.toNat + v.toNat + r.p.c.toNat
      let res := BitVec.ofNat 8 sum
      { r with
        a := res
        p := { r.p with
          c := decide (256 ≤ sum)
          v := (~~~(r.a ^^^ v) &&& (r.a ^^^ res)).getLsbD 7
          z := decide (res = 0), n := res.getLsbD 7 } }) ∧
    s.Reads (.sbc m) m (fun v r =>
      let sum := r.a.toNat + (v ^^^ 0xFF).toNat + r.p.c.toNat
      let res := BitVec.ofNat 8 sum
      { r with
        a := res
        p := { r.p with
          c := decide (v.toNat + (1 - r.p.c.toNat) ≤ r.a.toNat)
          v := ((r.a ^^^ v) &&& (r.a ^^^ res)).getLsbD 7
          z := decide (res = 0), n := res.getLsbD 7 } })

/-- V after a binary ADC or SBC says that the exact signed result is outside -128 to 127, and A holds that result modulo 256
(`42_arith_logic.md` R220: "operands alike in sign, result differs"). -/
def Obligations.OverflowIsSignedOverflow : Prop :=
  ∀ (a v : Byte) (p : Flags),
    ((adcBinary a v p).2.v = true ↔ a.toInt + v.toInt + p.c.toNat < -128 ∨ 127 < a.toInt + v.toInt + p.c.toNat) ∧
    ((sbcBinary a v p).2.v = true ↔
      a.toInt - v.toInt - (1 - (p.c.toNat : Int)) < -128 ∨ 127 < a.toInt - v.toInt - (1 - (p.c.toNat : Int))) ∧
    (adcBinary a v p).1 = BitVec.ofInt 8 (a.toInt + v.toInt + p.c.toNat) ∧
    (sbcBinary a v p).1 = BitVec.ofInt 8 (a.toInt - v.toInt - (1 - (p.c.toNat : Int)))

/-- ADC and SBC with `P_BCD` true and D set compute the formulas of `42_arith_logic.md` R226; with `P_BCD` false D changes nothing.
`lo[4]` and `hi[4]` are bit 4 of the two's-complement value. -/
def Obligations.DecimalModeFormulas : Prop :=
  (∀ (m : ReadMode) (s : State), s.Running → s.config.bcd = true → s.cpu.regs.p.d = true →
    s.Reads (.adc m) m (fun v r =>
      let lo0 := r.a.toNat % 16 + v.toNat % 16 + r.p.c.toNat
      let lo := if 9 < lo0 then lo0 + 6 else lo0
      let hi0 := r.a.toNat / 16 + v.toNat / 16 + (if 15 < lo then 1 else 0)
      let hi := if 9 < hi0 then hi0 + 6 else hi0
      { r with
        a := BitVec.ofNat 8 (hi * 16 + lo % 16)
        p := { r.p with
          z := decide ((r.a.toNat + v.toNat + r.p.c.toNat) % 256 = 0)
          n := (BitVec.ofNat 8 (hi0 * 16)).getLsbD 7
          v := (~~~(r.a ^^^ v) &&& (r.a ^^^ BitVec.ofNat 8 (hi0 * 16))).getLsbD 7
          c := decide (15 < hi) } }) ∧
    s.Reads (.sbc m) m (fun v r =>
      let lo0 : Int := (r.a.toNat % 16 : Int) - (v.toNat % 16 : Int) - (1 - (r.p.c.toNat : Int))
      let lo := if (lo0 / 16) % 2 = 1 then lo0 - 6 else lo0
      let hi0 : Int := (r.a.toNat / 16 : Int) - (v.toNat / 16 : Int) - (if (lo0 / 16) % 2 = 1 then 1 else 0)
      let hi := if (hi0 / 16) % 2 = 1 then hi0 - 6 else hi0
      { r with a := BitVec.ofInt 8 (hi * 16 + lo % 16), p := (sbcBinary r.a v r.p).2 })) ∧
  ∀ (a v : Byte) (p : Flags), adcResult false a v p = adcBinary a v p ∧ sbcResult false a v p = sbcBinary a v p

/-- On two decimal digits each, decimal ADC and SBC compute the decimal sum and difference modulo 100, and C of the sum is the
decimal carry. -/
def Obligations.DecimalArithmeticOnDigits : Prop :=
  ∀ (x y : Nat) (p : Flags), x < 100 → y < 100 →
    let bcd (k : Nat) : Byte := BitVec.ofNat 8 (k / 10 * 16 + k % 10)
    (adcDecimal (bcd x) (bcd y) p).1 = bcd ((x + y + p.c.toNat) % 100) ∧
    ((adcDecimal (bcd x) (bcd y) p).2.c = true ↔ 100 ≤ x + y + p.c.toNat) ∧
    (sbcDecimal (bcd x) (bcd y) p).1 = bcd ((x + 99 - y + p.c.toNat) % 100) ∧
    ((sbcDecimal (bcd x) (bcd y) p).2.c = true ↔ y + (1 - p.c.toNat) ≤ x)

/-- AND, ORA, EOR and BIT, with their encodings, in every mode (`42_arith_logic.md` R222-R225). -/
def Obligations.LogicWritesOnlyItsResult : Prop :=
  Encodings [(0x29, .and .imm), (0x25, .and (.mem .zp)), (0x35, .and (.mem .zpx)), (0x2D, .and (.mem .abs)),
    (0x3D, .and (.mem .absx)), (0x39, .and (.mem .absy)), (0x21, .and (.mem .indx)), (0x31, .and (.mem .indy))] ∧
  Encodings [(0x09, .ora .imm), (0x05, .ora (.mem .zp)), (0x15, .ora (.mem .zpx)), (0x0D, .ora (.mem .abs)),
    (0x1D, .ora (.mem .absx)), (0x19, .ora (.mem .absy)), (0x01, .ora (.mem .indx)), (0x11, .ora (.mem .indy))] ∧
  Encodings [(0x49, .eor .imm), (0x45, .eor (.mem .zp)), (0x55, .eor (.mem .zpx)), (0x4D, .eor (.mem .abs)),
    (0x5D, .eor (.mem .absx)), (0x59, .eor (.mem .absy)), (0x41, .eor (.mem .indx)), (0x51, .eor (.mem .indy))] ∧
  Encodings [(0x24, .bit .zp), (0x2C, .bit .abs)] ∧
  ∀ (m : ReadMode) (s : State), s.Running →
    s.Reads (.and m) m (fun v r => { r with a := r.a &&& v, p := setNZ (r.a &&& v) r.p }) ∧
    s.Reads (.ora m) m (fun v r => { r with a := r.a ||| v, p := setNZ (r.a ||| v) r.p }) ∧
    s.Reads (.eor m) m (fun v r => { r with a := r.a ^^^ v, p := setNZ (r.a ^^^ v) r.p }) ∧
    ∀ b : MemMode, s.Reads (.bit b) (.mem b) (fun v r =>
      { r with p := { r.p with z := decide (r.a &&& v = 0), v := v.getLsbD 6, n := v.getLsbD 7 } })

/-- CMP, CPX, CPY, with their encodings, in every mode (`42_arith_logic.md` R227-R230). -/
def Obligations.CompareSetsCarryZeroSign : Prop :=
  Encodings [(0xC9, .cmp .imm), (0xC5, .cmp (.mem .zp)), (0xD5, .cmp (.mem .zpx)), (0xCD, .cmp (.mem .abs)),
    (0xDD, .cmp (.mem .absx)), (0xD9, .cmp (.mem .absy)), (0xC1, .cmp (.mem .indx)), (0xD1, .cmp (.mem .indy))] ∧
  Encodings [(0xE0, .cpx .imm), (0xE4, .cpx (.mem .zp)), (0xEC, .cpx (.mem .abs)),
    (0xC0, .cpy .imm), (0xC4, .cpy (.mem .zp)), (0xCC, .cpy (.mem .abs))] ∧
  ∀ (m : ReadMode) (s : State), s.Running →
    let compared (reg v : Byte) (p : Flags) : Flags :=
      { p with c := decide (v.toNat ≤ reg.toNat), z := decide (reg - v = 0), n := (reg - v).getLsbD 7 }
    s.Reads (.cmp m) m (fun v r => { r with p := compared r.a v r.p }) ∧
    s.Reads (.cpx m) m (fun v r => { r with p := compared r.x v r.p }) ∧
    s.Reads (.cpy m) m (fun v r => { r with p := compared r.y v r.p })

/-- INX, INY, DEX, DEY, INC and DEC, with their encodings, in every mode (`42_arith_logic.md` R237-R242). -/
def Obligations.IncrementAndDecrement : Prop :=
  Encodings [(0xE8, .inx), (0xC8, .iny), (0xCA, .dex), (0x88, .dey)] ∧
  Encodings [(0xE6, .inc .zp), (0xF6, .inc .zpx), (0xEE, .inc .abs), (0xFE, .inc .absx), (0xC6, .dec .zp), (0xD6, .dec .zpx),
    (0xCE, .dec .abs), (0xDE, .dec .absx)] ∧
  ∀ s : State, s.Running →
    (∀ m : RmwMode,
      s.Modifies (.inc m) m (fun v p => (v + 1, setNZ (v + 1) p)) ∧
      s.Modifies (.dec m) m (fun v p => (v - 1, setNZ (v - 1) p))) ∧
    s.Implies .inx (fun r => { r with x := r.x + 1, p := setNZ (r.x + 1) r.p }) ∧
    s.Implies .iny (fun r => { r with y := r.y + 1, p := setNZ (r.y + 1) r.p }) ∧
    s.Implies .dex (fun r => { r with x := r.x - 1, p := setNZ (r.x - 1) r.p }) ∧
    s.Implies .dey (fun r => { r with y := r.y - 1, p := setNZ (r.y - 1) r.p })

/-- ASL, LSR, ROL, ROR, with the encodings of their accumulator forms, on the accumulator and on memory in every mode
(`43_shift_rotate.md` R250-R253). -/
def Obligations.ShiftsAndRotates : Prop :=
  Encodings [(0x0A, .asl .acc), (0x06, .asl (.mem .zp)), (0x16, .asl (.mem .zpx)), (0x0E, .asl (.mem .abs)), (0x1E, .asl (.mem .absx))] ∧
  Encodings [(0x4A, .lsr .acc), (0x46, .lsr (.mem .zp)), (0x56, .lsr (.mem .zpx)), (0x4E, .lsr (.mem .abs)), (0x5E, .lsr (.mem .absx))] ∧
  Encodings [(0x2A, .rol .acc), (0x26, .rol (.mem .zp)), (0x36, .rol (.mem .zpx)), (0x2E, .rol (.mem .abs)), (0x3E, .rol (.mem .absx))] ∧
  Encodings [(0x6A, .ror .acc), (0x66, .ror (.mem .zp)), (0x76, .ror (.mem .zpx)), (0x6E, .ror (.mem .abs)), (0x7E, .ror (.mem .absx))] ∧
  ∀ s : State, s.Running →
    let shifted (r : Byte) (out : Bool) (p : Flags) : Byte × Flags := (r, setNZ r { p with c := out })
    let asl (x : Byte) (p : Flags) := shifted (BitVec.ofNat 8 (x.toNat * 2)) (x.getLsbD 7) p
    let lsr (x : Byte) (p : Flags) := shifted (BitVec.ofNat 8 (x.toNat / 2)) (x.getLsbD 0) p
    let rol (x : Byte) (p : Flags) := shifted (BitVec.ofNat 8 (x.toNat * 2 + p.c.toNat)) (x.getLsbD 7) p
    let ror (x : Byte) (p : Flags) := shifted (BitVec.ofNat 8 (x.toNat / 2 + p.c.toNat * 128)) (x.getLsbD 0) p
    let onA (f : Byte → Flags → Byte × Flags) (r : Regs) : Regs := { r with a := (f r.a r.p).1, p := (f r.a r.p).2 }
    (s.Implies (.asl .acc) (onA asl) ∧ s.Implies (.lsr .acc) (onA lsr) ∧
      s.Implies (.rol .acc) (onA rol) ∧ s.Implies (.ror .acc) (onA ror)) ∧
    ∀ m : RmwMode, s.Modifies (.asl (.mem m)) m asl ∧ s.Modifies (.lsr (.mem m)) m lsr ∧
      s.Modifies (.rol (.mem m)) m rol ∧ s.Modifies (.ror (.mem m)) m ror

/-! ## Control flow -/

/-- The eight branches, each on its condition (`44_control.md` R260, R270-R277). -/
def Obligations.BranchesFollowTheirFlag : Prop :=
  Encodings [(0x90, .bcc), (0xB0, .bcs), (0xF0, .beq), (0x30, .bmi), (0xD0, .bne), (0x10, .bpl), (0x50, .bvc), (0x70, .bvs)] ∧
  ∀ s : State, s.Running →
    s.Branches .bcc (!s.cpu.regs.p.c) ∧ s.Branches .bcs s.cpu.regs.p.c ∧
    s.Branches .bne (!s.cpu.regs.p.z) ∧ s.Branches .beq s.cpu.regs.p.z ∧
    s.Branches .bpl (!s.cpu.regs.p.n) ∧ s.Branches .bmi s.cpu.regs.p.n ∧
    s.Branches .bvc (!s.cpu.regs.p.v) ∧ s.Branches .bvs s.cpu.regs.p.v

/-- JMP absolute in three cycles, and JMP indirect in five with the page bug: the high byte of the target comes from the same page as
the low byte (`44_control.md` R262, R263, `30_encoding.md` R121). -/
def Obligations.JumpsLoadTheProgramCounter : Prop :=
  Encodings [(0x4C, .jmp .abs), (0x6C, .jmp .ind)] ∧
  ∀ s : State, s.Running →
    (∃ t, exec (.jmp .abs) s = .next t ∧ s.AfterReads 3 t ∧ Committed s t ∧
      t.cpu.regs = { s.cpu.regs with pc := t.cpu.regs.pc } ∧
      ∀ b1 b2, s.peek (s.cpu.regs.pc + 1) = some b1 → s.peek (s.cpu.regs.pc + 2) = some b2 → t.cpu.regs.pc = join b2 b1) ∧
    (∃ t, exec (.jmp .ind) s = .next t ∧ s.AfterReads 5 t ∧ Committed s t ∧
      t.cpu.regs = { s.cpu.regs with pc := t.cpu.regs.pc } ∧
      ∀ b1 b2 l h, s.peek (s.cpu.regs.pc + 1) = some b1 → s.peek (s.cpu.regs.pc + 2) = some b2 →
        s.peek (join b2 b1) = some l → s.peek (join b2 (b1 + 1)) = some h → t.cpu.regs.pc = join h l)

/-- JSR pushes the address of its own last byte, and reads the high operand byte after the pushes (`44_control.md` R264). -/
def Obligations.JsrPushesItsLastByteAddress : Prop :=
  Encodings [(0x20, .jsr)] ∧
  ∀ s : State, s.Running →
    ∃ t, exec .jsr s = .next t ∧
      s.AfterStores 6 [(stackAddr s.cpu.regs.s, hi (s.cpu.regs.pc + 2)), (stackAddr (s.cpu.regs.s - 1), lo (s.cpu.regs.pc + 2))] t ∧
      Committed s t ∧ t.cpu.regs = { s.cpu.regs with pc := t.cpu.regs.pc, s := s.cpu.regs.s - 2 } ∧
      ∀ b1 b2, s.peek (s.cpu.regs.pc + 1) = some b1 → t.peek (s.cpu.regs.pc + 2) = some b2 → t.cpu.regs.pc = join b2 b1

/-- RTS and RTI (`44_control.md` R265, R266, `60_exceptions.md` R370): RTS adds one to the address it pulls, RTI restores the status
first and adds nothing, and the I it restores is the mask of the commit at its own end. -/
def Obligations.ReturnsPullWhatWasPushed : Prop :=
  Encodings [(0x60, .rts), (0x40, .rti)] ∧
  ∀ s : State, s.Running →
    (∃ t, exec .rts s = .next t ∧ s.AfterReads 6 t ∧ Committed s t ∧
      t.cpu.regs = { s.cpu.regs with pc := t.cpu.regs.pc, s := s.cpu.regs.s + 2 } ∧
      ∀ l h, s.peek (stackAddr (s.cpu.regs.s + 1)) = some l → s.peek (stackAddr (s.cpu.regs.s + 2)) = some h →
        t.cpu.regs.pc = join h l + 1) ∧
    (∃ t, exec .rti s = .next t ∧ s.AfterReads 6 t ∧ CommittedAs t.cpu.regs.p.i s t ∧
      t.cpu.regs = { s.cpu.regs with pc := t.cpu.regs.pc, s := s.cpu.regs.s + 3, p := t.cpu.regs.p } ∧
      t.cpu.regs.p.b = false ∧ t.cpu.regs.p.u = true ∧
      ∀ b l h, s.peek (stackAddr (s.cpu.regs.s + 1)) = some b → s.peek (stackAddr (s.cpu.regs.s + 2)) = some l →
        s.peek (stackAddr (s.cpu.regs.s + 3)) = some h → t.cpu.regs.p = Flags.pulled b ∧ t.cpu.regs.pc = join h l)

/-! ## Stack, flags, NOP, JAM, UNK -/

/-- PHA and PHP (`45_stack_flags_misc.md` R280, R281). -/
def Obligations.PushesStoreOneByte : Prop :=
  Encodings [(0x48, .pha), (0x08, .php)] ∧
  ∀ s : State, s.Running → s.Pushes .pha s.cpu.regs.a ∧ s.Pushes .php (s.cpu.regs.p.pack ||| 0x30)

/-- PLA and PLP (`45_stack_flags_misc.md` R282-R284); PLP's commit uses the I from before it. -/
def Obligations.PullsLoadOneByte : Prop :=
  Encodings [(0x68, .pla), (0x28, .plp)] ∧
  (∀ s : State, s.Running →
    s.Pulls .pla (fun v r => { r with a := v, p := setNZ v r.p }) ∧ s.Pulls .plp (fun v r => { r with p := Flags.pulled v })) ∧
  ∀ b : Byte,
    Flags.pulled b = { c := b.getLsbD 0, z := b.getLsbD 1, i := b.getLsbD 2, d := b.getLsbD 3, b := false, u := true,
                       v := b.getLsbD 6, n := b.getLsbD 7 } ∧
    (Flags.pulled b).pack = (b &&& 0xCF) ||| 0x20

/-- CLC, SEC, CLI, SEI, CLV, CLD, SED (`45_stack_flags_misc.md` R285-R291): one flag, and the commit at the end uses the I from
before. -/
def Obligations.FlagInstructionsWriteOneFlag : Prop :=
  Encodings [(0x18, .clc), (0x38, .sec), (0x58, .cli), (0x78, .sei), (0xB8, .clv), (0xD8, .cld), (0xF8, .sed)] ∧
  ∀ s : State, s.Running →
    s.Implies .clc (fun r => { r with p := { r.p with c := false } }) ∧
    s.Implies .sec (fun r => { r with p := { r.p with c := true } }) ∧
    s.Implies .cli (fun r => { r with p := { r.p with i := false } }) ∧
    s.Implies .sei (fun r => { r with p := { r.p with i := true } }) ∧
    s.Implies .clv (fun r => { r with p := { r.p with v := false } }) ∧
    s.Implies .cld (fun r => { r with p := { r.p with d := false } }) ∧
    s.Implies .sed (fun r => { r with p := { r.p with d := true } })

/-- NOP: $EA alone, two cycles, PC one further and nothing else (`45_stack_flags_misc.md` R292). -/
def Obligations.NopOnlyAdvances : Prop :=
  (∀ op : Byte, decodeOpcode op = .nop ↔ op = 0xEA) ∧ ∀ s : State, s.Running → s.Implies .nop (fun r => r)

/-- JAM: twelve opcodes; after two cycles the CPU is jammed with PC at the next byte; from then on it makes no bus access, IRQ and NMI never commit,
and only RESET leads out (`45_stack_flags_misc.md` R296, `40_cycle_engine.md` R130, R159, R161). That the jammed CPU is not at a boundary
(`presync` false, the jamming cycle being no final one) is read from R159 by inference (log 15). -/
def Obligations.JamHaltsUntilReset : Prop :=
  Encodings ([0x02, 0x12, 0x22, 0x32, 0x42, 0x52, 0x62, 0x72, 0x92, 0xB2, 0xD2, 0xF2].map fun op => (op, .jam op)) ∧
  (∀ (op : Byte) (s : State), s.Running →
    ∃ t, exec (.jam op) s = .next t ∧ t.Running ∧ t.fixed = s.fixed ∧ t.driver = s.driver.drop 2 ∧ t.ram = s.ram ∧
      t.videoMemory = s.videoMemory ∧ t.cpu.eng.jammed = true ∧ t.cpu.eng.presync = false ∧
      t.cpu.eng.addrbus = s.cpu.regs.pc + 1 ∧ t.cpu.regs = { s.cpu.regs with pc := s.cpu.regs.pc + 1 }) ∧
  ∀ s : State, s.cpu.eng.jammed = true → s.early = [] → s.videoBus.without Device.notVideo = true →
    ∃ t, step s = .next t ∧ t.cpu.regs = s.cpu.regs ∧ t.ram = s.ram ∧
      t.cpu.trk.irq = sampleIrq s.takeDriver.lines.irqN s.cpu.trk.irq ∧
      t.cpu.trk.nmi = sampleEdge s.takeDriver.nmiN s.cpu.trk.nmi ∧
      t.cpu.trk.rst = (sampleEdge s.takeDriver.lines.rstN s.cpu.trk.rst.committedFrom).promoted ∧
      t.cpu.eng = (if t.cpu.trk.rst = .committed then { s.cpu.eng with jammed := false, presync := true } else s.cpu.eng)

/-- UNK (`45_stack_flags_misc.md` R297, `40_cycle_engine.md` R130, R132, `00_scope.md` R8, R11). With P_UNK at its default: the T0 fetch, then
the refusal, which tells what PC and `dflt` the fetch left. With a supplied cycle function: the T0 fetch, then its cycles one by one, as
many as it likes, each making the access it names and leaving the CPU as it says, to a final cycle or into the jam. How the function is
held and what it may touch is the model's choice (log 10), and so are the eight cycles of one step (log 1); that a jamming cycle is no
final one and moves the index on is read from R159 by inference (log 15). -/
def Obligations.UnknownOpcodesFollowTheirParameter : Prop :=
  (∀ op : Byte, op.toNat ∈ unkOpcodes → decodeOpcode op = .unk op) ∧ unkOpcodes.length = 93 ∧
  (∀ (op : Byte) (s : State), s.Running → s.config.unk = .refuse →
    ∃ d, exec (.unk op) s = .refused (.unkOpcode op (s.cpu.regs.pc + 1) d) ∧
      (∀ b, s.peek s.cpu.regs.pc = some b → d = false) ∧ (s.cpuBus.device s.cpu.regs.pc = none → d = true)) ∧
  (∀ (op : Byte) (s : State), s.Running → s.config.unk = .supplied →
    ∃ n t, exec (.unk op) s = .next t ∧ 1 ≤ n ∧ n ≤ 8 ∧ t.Running ∧ t.fixed = s.fixed ∧ t.driver = s.driver.drop n ∧
      t.cpu.regs.p.b = s.cpu.regs.p.b ∧ t.cpu.regs.p.u = s.cpu.regs.p.u ∧
      ((t.cpu.eng.presync = true ∧ t.cpu.eng.jammed = s.cpu.eng.jammed) ∨ (t.cpu.eng.presync = false ∧ t.cpu.eng.jammed = true) ∨
        (n = 8 ∧ t.cpu.eng.t = 8 ∧ t.cpu.eng.presync = false ∧ t.cpu.eng.jammed = s.cpu.eng.jammed))) ∧
  (∀ (op : Byte) (s : State), s.Running → s.config.unk = .supplied → s.FetchesNext → op.toNat ∈ unkOpcodes →
    s.peek s.cpu.regs.pc = some op →
    ∃ t nmiN, clock s = .next t ∧ t.Running ∧ t.fixed = s.fixed ∧ t.ram = s.ram ∧ t.videoMemory = s.videoMemory ∧
      t.cpu = closeSupplied (Config.unkCycle op 0 (s.cpu.start .fetch)) s.takeDriver.lines.irqN nmiN true
        { s.cpu with
          regs := { s.cpu.regs with pc := s.cpu.regs.pc + 1 }
          eng := { s.cpu.eng with
            t := 0, opc := op, kind := .fetch, presync := false, addrbus := s.cpu.regs.pc, databus := op, dflt := t.cpu.eng.dflt } }) ∧
  ∀ s : State, s.Running → s.config.unk = .supplied → s.cpu.eng.presync = false → s.cpu.eng.jammed = false → s.cpu.eng.kind = .fetch →
    s.cpu.eng.opc.toNat ∈ unkOpcodes → 1 ≤ s.cpu.eng.t →
    let k := Config.unkCycle s.cpu.eng.opc s.cpu.eng.t s.cpu
    ∃ t nmiN, clock s = .next t ∧ t.Running ∧ t.fixed = s.fixed ∧
      (let c : Cpu := { s.cpu with
        eng := { s.cpu.eng with addrbus := k.addr, databus := t.cpu.eng.databus, dflt := t.cpu.eng.dflt } }
      t.cpu = closeSupplied k s.takeDriver.lines.irqN nmiN true ((Config.unkEffect s.cpu.eng.opc s.cpu.eng.t c).suppliedBy c)) ∧
      t.cpu.regs.p.b = s.cpu.regs.p.b ∧ t.cpu.regs.p.u = s.cpu.regs.p.u ∧
      (k.out = none → t.ram = s.ram ∧ t.videoMemory = s.videoMemory ∧ ∀ v, s.peek k.addr = some v → t.cpu.eng.databus = v) ∧
      ∀ v, k.out = some v → t.cpu.eng.databus = v ∧ t.ram = s.ramAfter k.addr v ∧
        (s.plainTarget k.addr = true → t.videoMemory = s.videoMemory)

/-! ## Exceptions -/

/-- BRK: never masked; it pushes its own address plus two and the status with B set, and goes through $FFFE, or through $FFFA when an
NMI hijacks it (`44_control.md` R267, `60_exceptions.md` R366, R368). -/
def Obligations.BrkEntersThroughItsVector : Prop :=
  Encodings [(0x00, .brk)] ∧
  ∀ s : State, s.Running →
    ∃ t, exec .brk s = .next t ∧ s.Entered (s.cpu.regs.pc + 2) (s.cpu.regs.p.pack ||| 0x30) t ∧
      (s.NothingCommitted → t.NothingCommitted) ∧
      (s.nmiSeen → t.AtVector 0xFFFA) ∧ (s.plainStack = true → s.NmiHigh → ¬ s.nmiSeen → t.AtVector 0xFFFE)

/-- An NMI that has been committed: the next step is its entry, through $FFFA, with B clear in the pushed status
(`60_exceptions.md` R360, R366). -/
def Obligations.NmiEntersThroughItsVector : Prop :=
  ∀ s : State, s.Running → s.cpu.eng.jammed = false → s.cpu.eng.presync = true →
    s.cpu.trk.rst ≠ .serviced → s.cpu.trk.rst ≠ .committed → s.cpu.trk.nmi = .committed →
    ∃ t, step s = .next t ∧ s.Entered s.cpu.regs.pc ((s.cpu.regs.p.pack &&& ~~~0x10) ||| 0x20) t ∧ t.NothingCommitted ∧
      t.cpu.eng.kind = .nmi ∧ t.AtVector 0xFFFA

/-- An IRQ that has been committed, with no NMI or RESET committed: the next step is its entry, through $FFFE, or through $FFFA when
an NMI hijacks it (`60_exceptions.md` R360, R366, R368). -/
def Obligations.IrqEntersThroughItsVector : Prop :=
  ∀ s : State, s.Running → s.cpu.eng.jammed = false → s.cpu.eng.presync = true →
    s.cpu.trk.rst ≠ .serviced → s.cpu.trk.rst ≠ .committed → s.cpu.trk.nmi ≠ .committed → s.cpu.trk.irq = .committed →
    ∃ t, step s = .next t ∧ s.Entered s.cpu.regs.pc ((s.cpu.regs.p.pack &&& ~~~0x10) ||| 0x20) t ∧ t.NothingCommitted ∧
      t.cpu.eng.kind = .irq ∧ (s.nmiSeen → t.AtVector 0xFFFA) ∧
      (s.plainStack = true → s.NmiHigh → ¬ s.nmiSeen → t.AtVector 0xFFFE)

/-- A RESET that has been committed: the next step writes nothing, drops S by three, sets I, and goes through $FFFC; every other
register and flag is kept. It does so whatever the reset line is meanwhile, where no PPU register stands behind the addresses it reads,
and from every running state. With the line low all along the tracker is left SERVICED, with the line high CLEAR. In the reset hold the CPU
makes no bus access and only samples the lines, and it is released by the cycle that samples `rst_n` high (`70_reset_and_hazards.md` R391,
R393). -/
def Obligations.ResetEntryAndHold : Prop :=
  (∀ s : State, s.SoundBuses → s.early = [] → s.cpu.eng.jammed = false → s.cpu.eng.presync = true → s.cpu.trk.rst = .committed →
    s.Running ∨ (∀ a ∈ [s.cpu.regs.pc, stackAddr s.cpu.regs.s, stackAddr (s.cpu.regs.s - 1), stackAddr (s.cpu.regs.s - 2), 0xFFFC, 0xFFFD],
      s.cpuBus.device a ≠ some .ppuRegs) →
    ∃ t, step s = .next t ∧ t.fixed = s.fixed ∧ t.driver = s.driver.drop 7 ∧ t.ram = s.ram ∧
      (s.ppu.pend ≠ .write → t.videoMemory = s.videoMemory) ∧ t.cpu.eng.presync = true ∧ t.cpu.eng.jammed = false ∧
      t.cpu.eng.kind = .rst ∧ t.cpu.eng.addrbus = 0xFFFD ∧ t.AtVector 0xFFFC ∧
      t.cpu.regs =
        { s.cpu.regs with pc := t.cpu.regs.pc, s := s.cpu.regs.s - 3, p := { s.cpu.regs.p with i := true } } ∧
      (s.RstLow → t.cpu.trk.rst = .serviced) ∧ (s.Running → t.cpu.trk.rst = .clear ∧ s.AfterReads 7 t)) ∧
  ∀ s : State, s.videoBus.without Device.notVideo = true → s.early = [] → s.cpu.eng.jammed = false → s.cpu.eng.presync = true →
    s.cpu.trk.rst = .serviced →
    ∃ t, step s = .next t ∧ t.cpu.regs = s.cpu.regs ∧ t.cpu.eng = s.cpu.eng ∧ t.ram = s.ram ∧ t.driver = s.driver.tail ∧
      t.cpu.trk.rst = if s.takeDriver.lines.rstN then .clear else .serviced

/-- Sampling, the poll and the commit, tracker by tracker (`60_exceptions.md` R352, R354, R355). -/
def Obligations.TrackersSamplePollCommit : Prop :=
  (∀ s : State,
    s.sampleLines = { s with cpu := { s.cpu with trk := s.sampleLines.cpu.trk } } ∧
    (s.sampleLines.cpu.trk.irq =
      if s.lines.irqN then (if s.cpu.trk.irq = .detected ∨ s.cpu.trk.irq = .pending then .clear else s.cpu.trk.irq)
      else (if s.cpu.trk.irq = .clear then .detected else s.cpu.trk.irq)) ∧
    (s.sampleLines.cpu.trk.nmi =
      if s.nmiN then (if s.cpu.trk.nmi = .serviced then .clear else s.cpu.trk.nmi)
      else (if s.cpu.trk.nmi = .clear then .detected else s.cpu.trk.nmi)) ∧
    (s.sampleLines.cpu.trk.rst =
      if s.lines.rstN then (if s.cpu.trk.rst = .serviced then .clear else s.cpu.trk.rst)
      else (if s.cpu.trk.rst = .clear then .detected else s.cpu.trk.rst))) ∧
  ∀ c : Cpu,
    let polled (k : Tracker) : Tracker := if k = .detected then .pending else k
    let committed (k : Tracker) : Tracker := if k = .pending then .committed else k
    c.promote = { c with
      trk := { irq := polled c.trk.irq, nmi := polled c.trk.nmi, rst := polled c.trk.rst }, eng := { c.eng with imask := c.regs.p.i } } ∧
    c.commit = { c with
      trk := { nmi := committed c.trk.nmi, rst := committed c.trk.rst
               irq := if c.eng.imask then c.trk.irq else committed c.trk.irq } }

/-- Which sequence begins, what becomes of the trackers, which vector is chosen at T5, and the hijack of a BRK or IRQ by a PENDING NMI,
which does not change the status byte it pushed (`60_exceptions.md` R360, R368). -/
def Obligations.PriorityAndVectorChoice : Prop :=
  (∀ c : Cpu,
    (c.trk.rst = .committed →
      c.beginSequence.eng.kind = .rst ∧ c.beginSequence.trk.rst = .serviced ∧ c.beginSequence.trk.irq = .clear ∧
      c.beginSequence.trk.nmi = if c.trk.nmi = .clear then .clear else .serviced) ∧
    (c.trk.rst ≠ .committed → c.trk.nmi = .committed →
      c.beginSequence.eng.kind = .nmi ∧ c.beginSequence.trk = { rst := c.trk.rst, nmi := .serviced, irq := .clear }) ∧
    (c.trk.rst ≠ .committed → c.trk.nmi ≠ .committed → c.trk.irq = .committed →
      c.beginSequence.eng.kind = .irq ∧ c.beginSequence.trk = { c.trk with irq := .clear }) ∧
    (c.trk.rst ≠ .committed → c.trk.nmi ≠ .committed → c.trk.irq ≠ .committed →
      c.beginSequence.eng.kind = .fetch ∧ c.beginSequence.trk = c.trk) ∧
    c.beginSequence.regs = c.regs ∧ c.beginSequence.eng.presync = false ∧ c.beginSequence.eng.t = 0) ∧
  ∀ (k : EntryKind) (c : Cpu) (b : Byte),
    let chosen : Word := match k with
      | .rst => 0xFFFC
      | .nmi => 0xFFFA
      | .brk | .irq => if c.trk.nmi = .pending then 0xFFFA else 0xFFFE
    (entrySequence k 5 c).addr = chosen ∧ (entrySequence k 5 c).out = none ∧
    ((entrySequence k 5 c).effect b c).eng.vec = chosen ∧ ((entrySequence k 5 c).effect b c).eng.adl = b ∧
    ((entrySequence k 5 c).effect b c).trk.nmi =
      (match k with
        | .brk | .irq => if c.trk.nmi = .pending then .serviced else c.trk.nmi
        | .rst | .nmi => c.trk.nmi) ∧
    (entrySequence k 4 c).out =
      (match k with
        | .rst => none
        | .brk => some (c.regs.p.pack ||| 0x30)
        | .irq | .nmi => some ((c.regs.p.pack &&& ~~~0x10) ||| 0x20))

/-- `$nnnn,X`, `$nnnn,Y` and `($nn),Y`: before the carry of the index has reached the high byte the uncorrected address is read, one cycle
before the operand is reached at the corrected one. A read instruction does so exactly when the page is crossed, a store and a
read-modify-write always (`40_cycle_engine.md` R146, R148, R163). -/
def Obligations.UncorrectedAddressIsReadFirst : Prop :=
  ∀ (s : State) (op b1 b2 : Byte) (zp : Byte → Byte) (a : Word), s.Running → s.FetchesNext → s.peek s.cpu.regs.pc = some op →
    (∀ m, Instr.readMode (decodeOpcode op) = some m → s.Operands m.operandBytes b1 b2 zp →
      MemMode.uncorrected m s.cpu.regs zp b1 b2 = some a →
      ∃ u, clocks (MemMode.uncorrectedCycles m) s = .next u ∧ u.cpu.eng.addrbus = a ∧
        if MemMode.crosses m s.cpu.regs zp b1 then
          u.cpu.eng.presync = false ∧
          ∃ t, clock u = .next t ∧ t.cpu.eng.addrbus = MemMode.effectiveAddress m s.cpu.regs zp b1 b2 ∧ t.cpu.eng.presync = true ∧
            step s = .next t
        else a = MemMode.effectiveAddress m s.cpu.regs zp b1 b2 ∧ u.cpu.eng.presync = true ∧ step s = .next u) ∧
    (∀ m, Instr.storeMode (decodeOpcode op) = some m → s.Operands m.operandBytes b1 b2 zp →
      MemMode.uncorrected m s.cpu.regs zp b1 b2 = some a →
      ∃ u t, clocks (MemMode.uncorrectedCycles m) s = .next u ∧ u.cpu.eng.addrbus = a ∧ u.ram = s.ram ∧ u.cpu.eng.presync = false ∧
        clock u = .next t ∧ t.cpu.eng.addrbus = MemMode.effectiveAddress m s.cpu.regs zp b1 b2 ∧ t.cpu.eng.presync = true ∧
        step s = .next t) ∧
    ∀ m, Instr.modifyMode (decodeOpcode op) = some m → s.Operands m.toMem.operandBytes b1 b2 zp →
      MemMode.uncorrected m.toMem s.cpu.regs zp b1 b2 = some a →
      ∃ u t, clocks (MemMode.uncorrectedCycles m.toMem) s = .next u ∧ u.cpu.eng.addrbus = a ∧ u.cpu.eng.presync = false ∧
        clock u = .next t ∧ t.cpu.eng.addrbus = MemMode.effectiveAddress m.toMem s.cpu.regs zp b1 b2 ∧ t.ram = s.ram ∧
        t.cpu.eng.presync = false

/-! ## PPU registers -/

/-- PPUCTRL, PPUMASK and OAMADDR writes, through any address of the window that selects them: the I/O latch takes the byte, and the
first two are ignored exactly while the reset gate is closed (`46_ppu.md` R302, R303, R305, R340). -/
def Obligations.ControlMaskOamaddrWrites : Prop :=
  ∀ (s : State) (a : Word) (d : Byte), s.cpuBus.device a = some .ppuRegs →
    (a.toNat % 8 = 0 → ∃ t', 
      memWrite a d s = .next { s with
        cpu := s.cpu.onBus a d false
        ppu := if s.ppu.prst = .clear then
            { s.ppu with
              iolatch := d, t := t'
              ctrl := { nn := d.extractLsb' 0 2, i := d.getLsbD 2, s := d.getLsbD 3, b := d.getLsbD 4, h := d.getLsbD 5,
                        v := d.getLsbD 7 } }
          else { s.ppu with iolatch := d } } ∧
      ∀ k < 15, t'.getLsbD k = if k = 10 then d.getLsbD 0 else if k = 11 then d.getLsbD 1 else s.ppu.t.getLsbD k) ∧
    (a.toNat % 8 = 1 →
      memWrite a d s = .next { s with
        cpu := s.cpu.onBus a d false
        ppu := if s.ppu.prst = .clear then
            { s.ppu with
              iolatch := d
              mask := { g := d.getLsbD 0, bm := d.getLsbD 1, sm := d.getLsbD 2, b := d.getLsbD 3, s := d.getLsbD 4,
                        er := d.getLsbD 5, eg := d.getLsbD 6, eb := d.getLsbD 7 } }
          else { s.ppu with iolatch := d } }) ∧
    (a.toNat % 8 = 3 →
      memWrite a d s = .next { s with cpu := s.cpu.onBus a d false, ppu := { s.ppu with iolatch := d, oamaddr := d } })

/-- PPUSCROLL and PPUADDR writes, first and second by the toggle, bit by bit; both are ignored, the toggle too, exactly while the reset
gate is closed (`46_ppu.md` R307, R308, R340). -/
def Obligations.ScrollAndAddressWrites : Prop :=
  ∀ (s : State) (a : Word) (d : Byte), s.cpuBus.device a = some .ppuRegs →
    (a.toNat % 8 = 5 ∨ a.toNat % 8 = 6 → s.ppu.prst ≠ .clear →
      memWrite a d s = .next { s with cpu := s.cpu.onBus a d false, ppu := { s.ppu with iolatch := d } }) ∧
    (a.toNat % 8 = 5 → s.ppu.prst = .clear → s.ppu.w = false → ∃ t',
      memWrite a d s = .next { s with
        cpu := s.cpu.onBus a d false, ppu := { s.ppu with iolatch := d, t := t', x := d.extractLsb' 0 3, w := true } } ∧
      ∀ k < 15, t'.getLsbD k = if k < 5 then d.getLsbD (k + 3) else s.ppu.t.getLsbD k) ∧
    (a.toNat % 8 = 5 → s.ppu.prst = .clear → s.ppu.w = true → ∃ t',
      memWrite a d s = .next { s with
        cpu := s.cpu.onBus a d false, ppu := { s.ppu with iolatch := d, t := t', w := false } } ∧
      ∀ k < 15, t'.getLsbD k =
        if 12 ≤ k then d.getLsbD (k - 12) else if 5 ≤ k ∧ k ≤ 9 then d.getLsbD (k - 2) else s.ppu.t.getLsbD k) ∧
    (a.toNat % 8 = 6 → s.ppu.prst = .clear → s.ppu.w = false → ∃ t',
      memWrite a d s = .next { s with
        cpu := s.cpu.onBus a d false, ppu := { s.ppu with iolatch := d, t := t', w := true } } ∧
      ∀ k < 15, t'.getLsbD k = if k = 14 then false else if 8 ≤ k then d.getLsbD (k - 8) else s.ppu.t.getLsbD k) ∧
    (a.toNat % 8 = 6 → s.ppu.prst = .clear → s.ppu.w = true → ∃ t',
      memWrite a d s = .next { s with
        cpu := s.cpu.onBus a d false, ppu := { s.ppu with iolatch := d, t := t', v := t', w := false } } ∧
      ∀ k < 15, t'.getLsbD k = if k < 8 then d.getLsbD k else s.ppu.t.getLsbD k)

/-- A PPUSTATUS read returns the three flags over the low bits of the I/O latch, clears vblank and the toggle, and arms the
suppression when the next dot is (241, 1) (`46_ppu.md` R304). An OAMDATA write stores and steps by one, but during active rendering
is lost and steps by four; a read returns the byte at `oamaddr` and leaves it (R306, R332). -/
def Obligations.StatusReadAndOamdata : Prop :=
  (∀ (s : State) (a : Word), s.cpuBus.device a = some .ppuRegs → a.toNat % 8 = 2 →
    ∃ r, memRead a s = .next (r, { s with
        cpu := s.cpu.onBus a r false
        ppu := { s.ppu with
          vsupp := s.ppu.vsupp || decide (s.ppu.line = 241 ∧ s.ppu.dot = 1)
          status := { s.ppu.status with v := false }, w := false, iolatch := r } }) ∧
      r.getLsbD 7 = s.ppu.status.v ∧ r.getLsbD 6 = s.ppu.status.s ∧ r.getLsbD 5 = s.ppu.status.o ∧
      ∀ k < 5, r.getLsbD k = s.ppu.iolatch.getLsbD k) ∧
  ∀ (s : State) (a : Word) (d : Byte), s.cpuBus.device a = some .ppuRegs → a.toNat % 8 = 4 →
    ((s.ppu.mask.b = true ∨ s.ppu.mask.s = true) ∧ (s.ppu.line ≤ 239 ∨ s.ppu.line = 261) →
      memWrite a d s = .next { s with
        cpu := s.cpu.onBus a d false, ppu := { s.ppu with iolatch := d, oamaddr := s.ppu.oamaddr + 4 } }) ∧
    (¬ ((s.ppu.mask.b = true ∨ s.ppu.mask.s = true) ∧ (s.ppu.line ≤ 239 ∨ s.ppu.line = 261)) →
      memWrite a d s = .next { s with
        cpu := s.cpu.onBus a d false
        ppu := { s.ppu with
          iolatch := d, oam := s.ppu.oam.write s.ppu.oamaddr.toNat d, oamaddr := s.ppu.oamaddr + 1 } }) ∧
    memRead a s = .next (s.ppu.oam.read s.ppu.oamaddr.toNat, { s with
      cpu := s.cpu.onBus a (s.ppu.oam.read s.ppu.oamaddr.toNat) false
      ppu := { s.ppu with iolatch := s.ppu.oam.read s.ppu.oamaddr.toNat } })

/-- PPUDATA: an access starts a deferred one and is refused while one is pending; a read returns the palette at once, else the read
buffer (`46_ppu.md` R309, R315). -/
def Obligations.PpudataStartsADeferredAccess : Prop :=
  ∀ (s : State) (a : Word) (d : Byte), s.cpuBus.device a = some .ppuRegs → a.toNat % 8 = 7 →
    (s.ppu.pend ≠ .none → memWrite a d s = .refused .ppudataOverlap ∧ memRead a s = .refused .ppudataOverlap) ∧
    (s.ppu.pend = .none →
      memWrite a d s = .next { s with
        cpu := s.cpu.onBus a d false, ppu := { s.ppu with iolatch := d, pend := .write, pdata := d, ale := false } } ∧
      ∃ r, memRead a s = .next (r, { s with
          cpu := s.cpu.onBus a r false, ppu := { s.ppu with iolatch := r, pend := .read, ale := false } }) ∧
        r = if s.ppu.v.toNat / 256 % 64 = 63
          then s.ppu.pal.read (maskPalette (s.ppu.v.extractLsb' 0 5)).toNat &&& s.config.paletteReadMask else s.ppu.rbuf)

/-- A write-only register reads as the I/O latch and changes nothing; a write to PPUSTATUS sets the latch and nothing else of the PPU;
eight registers repeat through the window (`46_ppu.md` R301, `20_memory.md` R93). -/
def Obligations.WriteOnlyRegistersReadTheLatch : Prop :=
  ∀ (s : State) (a : Word), s.cpuBus.device a = some .ppuRegs →
    (a.toNat % 8 ≠ 2 → a.toNat % 8 ≠ 4 → a.toNat % 8 ≠ 7 →
      memRead a s = .next (s.ppu.iolatch, { s with cpu := s.cpu.onBus a s.ppu.iolatch false })) ∧
    (∀ d : Byte, a.toNat % 8 = 2 →
      memWrite a d s = .next { s with cpu := s.cpu.onBus a d false, ppu := { s.ppu with iolatch := d } }) ∧
    ∀ (b : Word) (d : Byte), s.cpuBus.device b = some .ppuRegs → a.toNat % 8 = b.toNat % 8 →
      ∀ p, (∃ t, memWrite a d s = .next t ∧ t.ppu = p) → ∃ t, memWrite b d s = .next t ∧ t.ppu = p

/-! ## The PPU's own dots -/

/-- A deferred access takes two dots: the first latches the address, the second moves the byte, palette writes past the video bus, and
steps `v` by 1 or 32 modulo 2^15 (`46_ppu.md` R310-R313). -/
def Obligations.DeferredAccessTakesTwoDots : Prop :=
  ∀ s : State, s.lines.rstN = true → s.ppu.prst.holdsPpu = false → s.videoBus.without Device.notVideo = true →
    s.ppu.pend ≠ .none →
    (s.ppu.ale = false →
      ∃ t, ppuCycle s = .next t ∧ t.ppu.ale = true ∧ t.ppu.pend = s.ppu.pend ∧ t.ppu.pdata = s.ppu.pdata ∧ t.ppu.v = s.ppu.v ∧
        t.ppu.rbuf = s.ppu.rbuf ∧ t.ppu.bflt = s.ppu.bflt ∧ t.ram = s.ram ∧ t.videoMemory = s.videoMemory ∧
        t.ppu.vaddr.toNat =
          if s.ppu.pend = .read ∧ s.ppu.v.toNat / 256 % 64 = 63 then s.ppu.v.toNat % 16384 - 4096 else s.ppu.v.toNat % 16384) ∧
    (s.ppu.ale = true →
      ∃ t, ppuCycle s = .next t ∧ t.ppu.pend = .none ∧ t.ppu.ale = false ∧ t.ram = s.ram ∧ t.ppu.oam = s.ppu.oam ∧
        t.ppu.v.toNat = (s.ppu.v.toNat + (if s.ppu.ctrl.i then 32 else 1)) % 32768 ∧
        (s.ppu.pend = .write → s.ppu.vaddr.toNat / 256 = 63 →
          t.ppu.pal = s.ppu.pal.write (maskPalette (s.ppu.vaddr.extractLsb' 0 5)).toNat s.ppu.pdata ∧
          t.ppu.bflt = s.ppu.bflt ∧ t.vram = s.vram ∧ t.chr = s.chr ∧ t.ppu.rbuf = s.ppu.rbuf) ∧
        (s.ppu.pend = .write → s.ppu.vaddr.toNat / 256 ≠ 63 →
          t.ppu.pal = s.ppu.pal ∧ t.ppu.rbuf = s.ppu.rbuf ∧
          ∃ ok u, s.videoBus.write (s.ppu.vaddr.setWidth 16) s.ppu.pdata s = .next (ok, u) ∧
            t.vram = u.vram ∧ t.chr = u.chr ∧ t.ppu.bflt = !ok) ∧
        (s.ppu.pend = .read →
          t.videoMemory = s.videoMemory ∧
          ∃ o u, s.videoBus.read (s.ppu.vaddr.setWidth 16) s = .next (o, u) ∧
            t.ppu.bflt = o.isNone ∧ t.ppu.rbuf = o.getD s.ppu.rbuf))

/-- The palette: 32 addresses alias down to 28 cells, the sprite backdrops to the background's (`46_ppu.md` R320). -/
def Obligations.PaletteAliasesToCells : Prop :=
  ∀ a : BitVec 5,
    (maskPalette a).toNat < 28 ∧
    (a.toNat < 16 → maskPalette a = a) ∧
    (16 ≤ a.toNat → a.toNat % 4 = 0 → (maskPalette a).toNat = a.toNat - 16) ∧
    (16 ≤ a.toNat → a.toNat % 4 ≠ 0 → (maskPalette a).toNat = a.toNat - (a.toNat / 4 % 4 + 1) ∧ 16 ≤ (maskPalette a).toNat) ∧
    ∀ b : BitVec 5, maskPalette a = maskPalette b ↔ a = b ∨ (a.toNat % 4 = 0 ∧ b.toNat % 4 = 0 ∧ a.toNat % 16 = b.toNat % 16)

/-- The frame: 341 dots a line and 262 lines; an odd frame with rendering enabled is one dot shorter (`46_ppu.md` R333, R335). -/
def Obligations.FrameIsAlmostAlways89342Dots : Prop :=
  ∀ p : Ppu, p.line = 0 → p.dot = 0 →
    (∀ k < 89341, (Nat.repeat Ppu.advance k p).line * 341 + (Nat.repeat Ppu.advance k p).dot = k ∧
      (Nat.repeat Ppu.advance k p).dot ≤ 340 ∧ (Nat.repeat Ppu.advance k p).odd = p.odd) ∧
    (p.odd = true → p.renderingEnabled = true → Nat.repeat Ppu.advance 89341 p = { p with odd := false }) ∧
    (p.odd = false ∨ p.renderingEnabled = false → Nat.repeat Ppu.advance 89342 p = { p with odd := !p.odd })

/-- What a dot does beside a deferred access: the vblank set, the pre-render clear with the end of the reset gate, the advance
(`46_ppu.md` R330, R333, R334, R336). -/
def Obligations.DotsSetAndClearVblank : Prop :=
  ∀ s : State, s.lines.rstN = true → s.ppu.prst.holdsPpu = false → s.videoBus.without Device.notVideo = true →
    ∃ t, ppuCycle s = .next t ∧
    (s.ppu.line = 241 ∧ s.ppu.dot = 1 →
      t.ppu.vsupp = false ∧ t.ppu.prst = s.ppu.prst ∧
      t.ppu.status = { s.ppu.status with v := !s.ppu.vsupp || s.ppu.status.v }) ∧
    (s.ppu.line = 261 ∧ s.ppu.dot = 1 →
      t.ppu.status = { v := false, s := false, o := false } ∧ t.ppu.prst = .clear ∧ t.ppu.vsupp = s.ppu.vsupp) ∧
    (¬ (s.ppu.line = 241 ∧ s.ppu.dot = 1) → ¬ (s.ppu.line = 261 ∧ s.ppu.dot = 1) →
      t.ppu.status = s.ppu.status ∧ t.ppu.vsupp = s.ppu.vsupp ∧ t.ppu.prst = s.ppu.prst) ∧
    (if s.ppu.line = 261 ∧ s.ppu.dot = 339 ∧ s.ppu.odd = true ∧ (s.ppu.mask.b = true ∨ s.ppu.mask.s = true)
      then t.ppu.line = 0 ∧ t.ppu.dot = 0 ∧ t.ppu.odd = false
      else if s.ppu.dot = 340 then t.ppu.dot = 0 ∧
        (if s.ppu.line = 261 then t.ppu.line = 0 ∧ t.ppu.odd = !s.ppu.odd
          else t.ppu.line = s.ppu.line + 1 ∧ (s.ppu.line ≤ 260 → t.ppu.odd = s.ppu.odd))
      else t.ppu.dot = s.ppu.dot + 1 ∧ (s.ppu.line ≤ 261 → t.ppu.line = s.ppu.line ∧ t.ppu.odd = s.ppu.odd)) ∧
    t.ppu.ctrl = s.ppu.ctrl ∧ t.ppu.mask = s.ppu.mask ∧ t.ppu.t = s.ppu.t ∧ t.ppu.x = s.ppu.x ∧ t.ppu.w = s.ppu.w ∧
    t.ppu.oamaddr = s.ppu.oamaddr ∧ t.ppu.oam = s.ppu.oam ∧ t.ppu.iolatch = s.ppu.iolatch ∧
    (t.ppu.nmiN = false ↔ t.ppu.ctrl.v = true ∧ t.ppu.status.v = true)

/-- The PPU's reset tracker and reset actions (`70_reset_and_hazards.md` R395, R396). -/
def Obligations.PpuResetTrackerAndActions : Prop :=
  ∀ (rstN : Bool) (p : Ppu),
    (p.prst ≠ .committed → p.prstStep rstN = { p with prst := (p.prstStep rstN).prst }) ∧
    (p.prst = .committed →
      p.prstStep rstN = { p with
        prst := if rstN then .serviced else .detected
        ctrl := { nn := 0, i := false, s := false, b := false, h := false, v := false }
        mask := { g := false, bm := false, sm := false, b := false, s := false, er := false, eg := false, eb := false }
        w := false, t := 0, x := 0, rbuf := 0, odd := false, line := 0, dot := 0
        pend := .none, ale := false, vsupp := false, iolatch := 0 } ∧
      (p.prstStep rstN).nmiN = true) ∧
    (rstN = false → p.prst ≠ .committed →
      (p.prstStep rstN).prst = (if p.prst = .clear ∨ p.prst = .serviced then .detected else .pending)) ∧
    (rstN = true → p.prst ≠ .committed →
      (p.prstStep rstN).prst = (if p.prst = .detected ∨ p.prst = .pending then .committed else p.prst)) ∧
    ∀ s : State, s.ppu = p → s.lines.rstN = rstN →
      (p.prstStep rstN).prst = .detected ∨ (p.prstStep rstN).prst = .pending ∨ (p.prstStep rstN).prst = .committed →
      ppuCycle s = .next { s with ppu := p.prstStep rstN }

/-- What reaches the PPU's registers: a CPU access to an address where the register device is not bound leaves the PPU as it is
(`20_memory.md` R93, R105); so does a whole clock whose access went elsewhere, of whichever instruction or entry, but for what its
dots do: the status flags, the position and a PPUDATA access already pending (`46_ppu.md` R310, R330). -/
def Obligations.OnlyTheRegisterWindowReachesThePpu : Prop :=
  (∀ (s : State) (a : Word) (v : Byte), s.cpuBus.device a ≠ some .ppuRegs →
    (∀ b t, memRead a s = .next (b, t) → t.ppu = s.ppu ∧ t.ram = s.ram ∧ t.vram = s.vram ∧ t.chr = s.chr ∧ t.fixed = s.fixed) ∧
    ∀ t, memWrite a v s = .next t → t.ppu = s.ppu ∧ t.fixed = s.fixed) ∧
  ∀ s t : State, s.videoBus.without Device.notVideo = true → s.ppu.prst.holdsPpu = false → s.early = [] →
    s.takeDriver.lines.rstN = true → (∀ l ∈ s.nextDots, l = true) →
    clock s = .next t → s.cpuBus.device t.cpu.eng.addrbus ≠ some .ppuRegs → s.ppu.SameRegisters t.ppu

/-! ## Buses and memories -/

/-- Which buses `new` builds, and how they are split (`20_memory.md` R70, R71). -/
def Obligations.BusConstructionRules : Prop :=
  ∀ (w n : Nat) (bs : List Nat),
    let legal := 0 < w ∧ w ≤ 16 ∧ n = bs.length + 1 ∧ bs.Pairwise (· < ·) ∧ ∀ b ∈ bs, 1 ≤ b ∧ b < 2 ^ w
    (¬ legal → Bus.new w n bs = .refused .badBusConstruction) ∧
    (legal → ∃ b, Bus.new w n bs = .next b ∧ b.bitwidth = w ∧ b.partStart 0 = 0 ∧
      (∀ i, i + 1 < n → some (b.partStart (i + 1)) = bs[i]? ∧ b.partEnd i = b.partStart (i + 1)) ∧
      b.partEnd (n - 1) = 2 ^ w ∧ ∀ a, b.device a = none)

/-- Every address within the width belongs to exactly one partition, and reads and writes go to the device bound there
(`20_memory.md` R72, R73, R77, R78). -/
def Obligations.EveryAddressHasOnePartition : Prop :=
  ∀ (w n : Nat) (bs : List Nat) (b0 b : Bus), Bus.new w n bs = .next b0 → b.bitwidth = b0.bitwidth → b.starts = b0.starts →
    ∀ a : Word,
      (2 ^ w ≤ a.toNat → b.part a = none ∧ b.device a = none) ∧
      (a.toNat < 2 ^ w → ∃ i, b.part a = some i ∧ i < n ∧ b.partStart i ≤ a.toNat ∧ a.toNat < b.partEnd i ∧
        (∀ j < n, b.partStart j ≤ a.toNat → a.toNat < b.partEnd j → j = i) ∧ b.device a = b.bindings.getD i none) ∧
      (∀ (s : State) (v : Byte),
        b.read a s = (match b.device a with | some d => d.read a s | none => .next (none, s)) ∧
        b.write a v s = (match b.device a with | some d => d.write a v s | none => .next (false, s)))

/-- `swap` (`20_memory.md` R74): the old binding comes back, the new one holds in the whole partition and nowhere else; out of range
nothing changes. -/
def Obligations.SwapRebindsOnePartition : Prop :=
  ∀ (w n : Nat) (bs : List Nat) (b0 b : Bus), Bus.new w n bs = .next b0 → b.bitwidth = b0.bitwidth → b.starts = b0.starts →
    b.bindings.length = n →
    ∀ (a : Word) (d : Option Device),
      (2 ^ w ≤ a.toNat → b.swap a d = none ∧ b.set a d = b) ∧
      (a.toNat < 2 ^ w → ∃ b', b.swap a d = some (b.device a, b') ∧ b.set a d = b' ∧ b'.bitwidth = b.bitwidth ∧
        b'.starts = b.starts ∧ b'.bindings.length = n ∧
        ∀ x, b'.device x = if b.part x = b.part a then d else b.device x)

/-- The console's two buses and what each range of them reaches, with and without a cartridge (`20_memory.md` R90, R92, R94, R95). -/
def Obligations.ConsoleMemoryMap : Prop :=
  (∃ b, Bus.new 16 4 [0x2000, 0x4000, 0x8000] = .next b ∧
    Bus.cpuConsole = (b.set 0x0000 (some .ram)).set 0x2000 (some .ppuRegs)) ∧
  (∃ b, Bus.new 14 2 [0x2000] = .next b ∧ Bus.videoConsole = b.set 0x2000 (some .vram)) ∧
  ∀ s : State, s.Wired → ∀ a : Word,
    (a.toNat < 0x2000 → s.cpuBus.device a = some .ram) ∧
    (0x2000 ≤ a.toNat → a.toNat < 0x4000 → s.cpuBus.device a = some .ppuRegs) ∧
    (0x4000 ≤ a.toNat → a.toNat < 0x8000 → s.cpuBus.device a = none) ∧
    (0x8000 ≤ a.toNat → s.cpuBus.device a = none ∨ s.cpuBus.device a = some .prg) ∧
    (a.toNat < 0x2000 → s.videoBus.device a = none ∨ s.videoBus.device a = some .chr) ∧
    (0x2000 ≤ a.toNat → a.toNat < 0x4000 → s.videoBus.device a = some .vram) ∧
    (0x4000 ≤ a.toNat → s.videoBus.device a = none)

/-- The CPU's accesses: an unserved read returns the data-bus latch and sets `dflt`, a served one clears it; an unserved write changes
no memory and sets `dflt` (`20_memory.md` R85, R86, R94). -/
def Obligations.UnservedAccessesSetTheFaultFlag : Prop :=
  ∀ (s : State) (a : Word) (v : Byte),
    (s.cpuBus.device a = none →
      memRead a s = .next (s.cpu.eng.databus, { s with cpu := s.cpu.onBus a s.cpu.eng.databus true }) ∧
      memWrite a v s = .next { s with cpu := s.cpu.onBus a v true }) ∧
    (s.cpuBus.device a = some .prg → memWrite a v s = .next { s with cpu := s.cpu.onBus a v true }) ∧
    (∀ u, s.peek a = some u → memRead a s = .next (u, { s with cpu := s.cpu.onBus a u false })) ∧
    ∀ b t, memRead a s = .next (b, t) →
      t.cpu.eng.addrbus = a ∧ t.cpu.eng.databus = b ∧ (t.cpu.eng.dflt = true → b = s.cpu.eng.databus)

/-- RAM is 2 KiB mirrored through its partition: a byte written is read back at every mirror and disturbs no other
(`20_memory.md` R91). -/
def Obligations.RamReadsBackAtEveryMirror : Prop :=
  ∀ (s : State) (a b : Word) (v : Byte), s.ram.wf 2048 = true → s.cpuBus.device a = some .ram → s.cpuBus.device b = some .ram →
    ∃ t, memWrite a v s = .next t ∧ t.cpu = s.cpu.onBus a v false ∧ t.ram.wf 2048 = true ∧ t.ppu = s.ppu ∧
      t.videoMemory = s.videoMemory ∧ t.fixed = s.fixed ∧
      memRead b t = .next (if b.toNat % 2048 = a.toNat % 2048 then v else s.ram.read (b.toNat % 2048),
        { t with cpu := t.cpu.onBus b (if b.toNat % 2048 = a.toNat % 2048 then v else s.ram.read (b.toNat % 2048)) false })

/-- Nametable VRAM: the horizontal transform moves bit 11 to bit 10, and a byte written through the video bus is read back exactly where
the mirroring folds the same cell (`20_memory.md` R96, R97). -/
def Obligations.NametablesMirror : Prop :=
  (∀ (a : Word), ∀ k < 16, (hmirrorAddr a).getLsbD k = if k = 10 then a.getLsbD 11 else if k = 11 then false else a.getLsbD k) ∧
  ∀ (s : State) (a b : BitVec 14) (v : Byte), s.vram.wf 2048 = true →
    s.videoBus.device (a.setWidth 16) = some .vram → s.videoBus.device (b.setWidth 16) = some .vram →
    let cell (x : BitVec 14) : Nat := match s.mirroring with
      | .vertical => x.toNat % 2048
      | .horizontal => x.toNat / 2048 % 2 * 1024 + x.toNat % 1024
    ∃ t, vWrite a v s = .next t ∧ t.ppu.bflt = false ∧ t.vram.wf 2048 = true ∧
      vRead b t = .next (some (if cell b = cell a then v else s.vram.read (cell b)), t)

/-- DMA copies the bank bytes from the reduced address on, clamped at the bank's end, and nothing where no device offers it
(`20_memory.md` R79, R80, R91, R93, R96, R99, R101, R102). -/
def Obligations.DmaClampsAtTheBank : Prop :=
  ∀ (s : State) (b : Bus) (a : Word) (count : Nat),
    let copies (m : Memory) (size held : Nat) : Prop :=
      (b.dma a count s).length = min count (min size held - a.toNat % size) ∧
      ∀ j < (b.dma a count s).length, (b.dma a count s)[j]? = some (m.read (a.toNat % size + j))
    (b.device a = none ∨ b.device a = some .ppuRegs ∨ b.device a = some .vram → b.dma a count s = []) ∧
    (b.device a = some .ram → copies s.ram 2048 2048) ∧
    (∀ prg32 chrRam, s.cart = .nrom prg32 chrRam →
      (b.device a = some .prg → copies s.prg (if prg32 then 32768 else 16384) (if prg32 then 32768 else 16384)) ∧
      (b.device a = some .chr → copies s.chr 8192 8192)) ∧
    ∀ size, s.cart = .rawImage size → b.device a = some .prg → copies s.prg 32768 size

/-- A cartridge: an NROM's PRG ROM repeats through $8000-$FFFF, a raw image ends where its bytes end and has no CHR, CHR RAM takes writes and
CHR ROM does not, an unimplemented mapper is refused (`20_memory.md` R98-R102). Taking it out swaps the previous bindings back
(`20_memory.md` R98). That a cartridge still inserted is taken out first is the model's choice (log 20). -/
def Obligations.CartridgesServeTheirRanges : Prop :=
  (∀ s : State, s.Wired →
    s.removeCartridge.cpuBus = Bus.cpuConsole ∧ s.removeCartridge.videoBus = Bus.videoConsole ∧ s.removeCartridge.Wired ∧
    (∀ n, s.insertCartridge (.unimplemented n) = .refused (.unimplementedMapper n)) ∧
    (∀ prg32 prg chr mir, (Cartridge.nrom prg32 prg chr mir).fits = true →
      ∃ t, s.insertCartridge (.nrom prg32 prg chr mir) = .next t ∧ t.Wired ∧ t.mirroring = mir ∧ t.ram = s.ram ∧ t.cpu = s.cpu ∧
        (∀ a : Word, 0x8000 ≤ a.toNat → t.peek a = some (prg.read (a.toNat % (if prg32 then 32768 else 16384)))) ∧
        ∀ (a : BitVec 14) (v : Byte), a.toNat < 8192 →
          t.videoBus.read (a.setWidth 16) t = .next (some (chr.contents.read a.toNat), t) ∧
          t.videoBus.write (a.setWidth 16) v t =
            .next (chr.isRam, if chr.isRam then { t with chr := t.chr.write a.toNat v } else t)) ∧
    ∀ size m, (Cartridge.rawImage size m).fits = true →
      ∃ t, s.insertCartridge (.rawImage size m) = .next t ∧ t.Wired ∧ t.mirroring = .vertical ∧ t.ram = s.ram ∧ t.cpu = s.cpu ∧
        t.videoBus = Bus.videoConsole ∧
        ∀ a : Word, 0x8000 ≤ a.toNat →
          t.peek a = if a.toNat - 0x8000 < size then some (m.read (a.toNat - 0x8000)) else none) ∧
  ∀ (s t : State) (c : Cartridge), s.insertCartridge c = .next t →
    s.removeCartridge.insertCartridge c = .next t ∧ t.removeCartridge.cpuBus = s.removeCartridge.cpuBus ∧
    t.removeCartridge.videoBus = s.removeCartridge.videoBus ∧ t.removeCartridge.cart = .absent ∧
    (s.displaced = { prg := none, chr := none } →
      t.removeCartridge.cpuBus = s.cpuBus ∧ t.removeCartridge.videoBus = s.videoBus)

/-! ## Status byte and reset -/

/-- The status byte: each flag at its position, and packing and unpacking undo each other (`10_state.md` R23). -/
def Obligations.StatusByteRoundTrip : Prop :=
  (∀ p : Flags,
    p.pack.getLsbD 0 = p.c ∧ p.pack.getLsbD 1 = p.z ∧ p.pack.getLsbD 2 = p.i ∧ p.pack.getLsbD 3 = p.d ∧
    p.pack.getLsbD 4 = p.b ∧ p.pack.getLsbD 5 = p.u ∧ p.pack.getLsbD 6 = p.v ∧ p.pack.getLsbD 7 = p.n ∧
    Flags.unpack p.pack = p) ∧
  ∀ b : Byte, (Flags.unpack b).pack = b

/-- What power-up gives a value to, whatever the draws (`10_state.md` R48, R49; the draws State.reset takes are the model's, log 4). -/
def Obligations.PowerUpValues : Prop :=
  ∀ d : Draws, let s := State.powerUp d
    s.cpu.regs.p.b = false ∧ s.cpu.regs.p.u = true ∧ s.cpu.trk = { irq := .clear, nmi := .clear, rst := .committed } ∧
    s.cpu.eng = { t := 0, opc := 0, kind := .fetch, adl := 0, adh := 0, adc := false, ptr := 0, lat := 0, off := 0, tgt := 0, val := 0,
                  vec := 0, addrbus := 0, databus := d.databus, presync := true, imask := true, jammed := false, dflt := false } ∧
    s.ppu.ctrl.pack = 0 ∧ s.ppu.mask.pack = 0 ∧ s.ppu.status.s = false ∧ s.ppu.oamaddr = 0 ∧ s.ppu.v = 0 ∧ s.ppu.t = 0 ∧
    s.ppu.x = 0 ∧ s.ppu.w = false ∧ s.ppu.rbuf = 0 ∧ s.ppu.line = 0 ∧ s.ppu.dot = 0 ∧ s.ppu.odd = false ∧ s.ppu.prst = d.prst ∧
    s.ppu.pend = .none ∧ s.ppu.ale = false ∧ s.ppu.vaddr = 0 ∧ s.ppu.iolatch = 0 ∧ s.ppu.vsupp = false ∧ s.ppu.bflt = false
end

