-- ==== Sys2Proof/Laws/Memory.lean ====
section
/-! SUPPORT. Reading after writing, and the canonical form that every write keeps. -/

namespace Sys2Proof.Machine

theorem Memory.wfFrom_cons {bound low k : Nat} {x : Byte} {rest : Memory} :
    Memory.wfFrom bound low ((k, x) :: rest) = true ↔
      low ≤ k ∧ k < bound ∧ x ≠ Memory.unlisted ∧ Memory.wfFrom bound (k + 1) rest = true := by
  simp [Memory.wfFrom, and_assoc]

theorem Memory.wfFrom_mono {bound low low' : Nat} {m : Memory} (h : Memory.wfFrom bound low m = true)
    (hl : low' ≤ low) : Memory.wfFrom bound low' m = true := by
  cases m with
  | nil => rfl
  | cons c rest =>
    obtain ⟨h1, h2⟩ := Memory.wfFrom_cons.mp h
    exact Memory.wfFrom_cons.mpr ⟨by omega, h2⟩

/-- Below the first cell nothing is listed. -/
theorem Memory.read_below {bound low a : Nat} {m : Memory} (h : Memory.wfFrom bound low m = true) (ha : a < low) :
    m.read a = Memory.unlisted := by
  induction m generalizing low with
  | nil => rfl
  | cons c rest ih =>
    obtain ⟨h1, -, -, h4⟩ := Memory.wfFrom_cons.mp h
    rw [Memory.read, if_neg (by omega)]
    exact ih h4 (by omega)

/-- A write keeps the canonical form. -/
theorem Memory.wfFrom_write {bound low a : Nat} {m : Memory} {b : Byte} (h : Memory.wfFrom bound low m = true)
    (hl : low ≤ a) (ha : a < bound) : Memory.wfFrom bound low (m.write a b) = true := by
  induction m generalizing low with
  | nil =>
    simp only [Memory.write]
    split
    · rfl
    · next hb => exact Memory.wfFrom_cons.mpr ⟨hl, ha, hb, rfl⟩
  | cons c rest ih =>
    obtain ⟨h1, h2, h3, h4⟩ := Memory.wfFrom_cons.mp h
    simp only [Memory.write]
    split
    · split
      · exact h
      · next hk hb => exact Memory.wfFrom_cons.mpr ⟨hl, ha, hb, Memory.wfFrom_cons.mpr ⟨by omega, h2, h3, h4⟩⟩
    · split
      · next hk =>
        split
        · exact Memory.wfFrom_mono h4 (by omega)
        · next hb => exact Memory.wfFrom_cons.mpr ⟨hl, ha, hb, hk ▸ h4⟩
      · next hk hne => exact Memory.wfFrom_cons.mpr ⟨h1, h2, h3, ih h4 (by omega)⟩

theorem Memory.wf_write {bound a : Nat} {m : Memory} {b : Byte} (h : m.wf bound = true) (ha : a < bound) :
    (m.write a b).wf bound = true := Memory.wfFrom_write h (Nat.zero_le a) ha

theorem Memory.wf_nil (bound : Nat) : Memory.wf bound [] = true := rfl

/-- A read after a write, in a canonical memory. -/
theorem Memory.read_write_from {bound low a : Nat} {m : Memory} {v : Byte} (h : Memory.wfFrom bound low m = true)
    (a' : Nat) : (m.write a v).read a' = if a' = a then v else m.read a' := by
  induction m generalizing low with
  | nil =>
    by_cases hv : v = Memory.unlisted
    · simp [Memory.write, hv, Memory.read]
    · simp [Memory.write, hv, Memory.read]
  | cons c rest ih =>
    obtain ⟨k, x⟩ := c
    obtain ⟨h1, h2, h3, h4⟩ := Memory.wfFrom_cons.mp h
    simp only [Memory.write]
    split
    · next hk =>
      have hb : ∀ b, b = a → Memory.read ((k, x) :: rest) b = Memory.unlisted := fun b hb =>
        Memory.read_below (low := k) (Memory.wfFrom_cons.mpr ⟨Nat.le_refl k, h2, h3, h4⟩) (by omega)
      split
      · next hv =>
        by_cases ha : a' = a
        · rw [if_pos ha, hb _ ha, hv]
        · rw [if_neg ha]
      · by_cases ha : a' = a
        · simp [Memory.read, ha]
        · rw [if_neg ha, Memory.read, if_neg ha]
    · split
      · next hk =>
        have hr : Memory.read rest a = Memory.unlisted := Memory.read_below h4 (by omega)
        split
        · next hv =>
          by_cases ha : a' = a
          · rw [if_pos ha, ha, hr, hv]
          · rw [if_neg ha, Memory.read, if_neg (by omega)]
        · by_cases ha : a' = a
          · simp [Memory.read, ha]
          · simp [Memory.read, ha, show a' ≠ k by omega]
      · next hk hne =>
        rw [Memory.read, Memory.read]
        split
        · next he => rw [if_neg (by omega)]
        · exact ih h4

theorem Memory.read_write {bound a : Nat} {m : Memory} {v : Byte} (h : m.wf bound = true) (a' : Nat) :
    (m.write a v).read a' = if a' = a then v else m.read a' := Memory.read_write_from h a'

end Sys2Proof.Machine
end

