-- ==== Sys2Proof/Laws/State.lean ====
section
/-! SUPPORT. One lemma for each field and each update of the state, so that no later proof unfolds one. -/

namespace Sys2Proof.Machine


/-! ## Cpu.onBus -/

@[simp] theorem Cpu.onBus_regs (a : Word) (v : Byte) (d : Bool) (c : Cpu) : (c.onBus a v d).regs = c.regs := rfl
@[simp] theorem Cpu.onBus_trk (a : Word) (v : Byte) (d : Bool) (c : Cpu) : (c.onBus a v d).trk = c.trk := rfl
@[simp] theorem Cpu.onBus_t (a : Word) (v : Byte) (d : Bool) (c : Cpu) : (c.onBus a v d).eng.t = c.eng.t := rfl
@[simp] theorem Cpu.onBus_opc (a : Word) (v : Byte) (d : Bool) (c : Cpu) : (c.onBus a v d).eng.opc = c.eng.opc := rfl
@[simp] theorem Cpu.onBus_kind (a : Word) (v : Byte) (d : Bool) (c : Cpu) : (c.onBus a v d).eng.kind = c.eng.kind := rfl
@[simp] theorem Cpu.onBus_adl (a : Word) (v : Byte) (d : Bool) (c : Cpu) : (c.onBus a v d).eng.adl = c.eng.adl := rfl
@[simp] theorem Cpu.onBus_adh (a : Word) (v : Byte) (d : Bool) (c : Cpu) : (c.onBus a v d).eng.adh = c.eng.adh := rfl
@[simp] theorem Cpu.onBus_adc (a : Word) (v : Byte) (d : Bool) (c : Cpu) : (c.onBus a v d).eng.adc = c.eng.adc := rfl
@[simp] theorem Cpu.onBus_ptr (a : Word) (v : Byte) (d : Bool) (c : Cpu) : (c.onBus a v d).eng.ptr = c.eng.ptr := rfl
@[simp] theorem Cpu.onBus_lat (a : Word) (v : Byte) (d : Bool) (c : Cpu) : (c.onBus a v d).eng.lat = c.eng.lat := rfl
@[simp] theorem Cpu.onBus_off (a : Word) (v : Byte) (d : Bool) (c : Cpu) : (c.onBus a v d).eng.off = c.eng.off := rfl
@[simp] theorem Cpu.onBus_tgt (a : Word) (v : Byte) (d : Bool) (c : Cpu) : (c.onBus a v d).eng.tgt = c.eng.tgt := rfl
@[simp] theorem Cpu.onBus_val (a : Word) (v : Byte) (d : Bool) (c : Cpu) : (c.onBus a v d).eng.val = c.eng.val := rfl
@[simp] theorem Cpu.onBus_vec (a : Word) (v : Byte) (d : Bool) (c : Cpu) : (c.onBus a v d).eng.vec = c.eng.vec := rfl
@[simp] theorem Cpu.onBus_addrbus (a : Word) (v : Byte) (d : Bool) (c : Cpu) : (c.onBus a v d).eng.addrbus = a := rfl
@[simp] theorem Cpu.onBus_databus (a : Word) (v : Byte) (d : Bool) (c : Cpu) : (c.onBus a v d).eng.databus = v := rfl
@[simp] theorem Cpu.onBus_presync (a : Word) (v : Byte) (d : Bool) (c : Cpu) : (c.onBus a v d).eng.presync = c.eng.presync := rfl
@[simp] theorem Cpu.onBus_imask (a : Word) (v : Byte) (d : Bool) (c : Cpu) : (c.onBus a v d).eng.imask = c.eng.imask := rfl
@[simp] theorem Cpu.onBus_jammed (a : Word) (v : Byte) (d : Bool) (c : Cpu) : (c.onBus a v d).eng.jammed = c.eng.jammed := rfl
@[simp] theorem Cpu.onBus_dflt (a : Word) (v : Byte) (d : Bool) (c : Cpu) : (c.onBus a v d).eng.dflt = d := rfl

/-! ## Cpu.start -/

@[simp] theorem Cpu.start_regs (k : SeqKind) (c : Cpu) : (c.start k).regs = c.regs := rfl
@[simp] theorem Cpu.start_trk (k : SeqKind) (c : Cpu) : (c.start k).trk = c.trk := rfl
@[simp] theorem Cpu.start_t (k : SeqKind) (c : Cpu) : (c.start k).eng.t = 0 := rfl
@[simp] theorem Cpu.start_opc (k : SeqKind) (c : Cpu) : (c.start k).eng.opc = c.eng.opc := rfl
@[simp] theorem Cpu.start_kind (k : SeqKind) (c : Cpu) : (c.start k).eng.kind = k := rfl
@[simp] theorem Cpu.start_adl (k : SeqKind) (c : Cpu) : (c.start k).eng.adl = c.eng.adl := rfl
@[simp] theorem Cpu.start_adh (k : SeqKind) (c : Cpu) : (c.start k).eng.adh = c.eng.adh := rfl
@[simp] theorem Cpu.start_adc (k : SeqKind) (c : Cpu) : (c.start k).eng.adc = c.eng.adc := rfl
@[simp] theorem Cpu.start_ptr (k : SeqKind) (c : Cpu) : (c.start k).eng.ptr = c.eng.ptr := rfl
@[simp] theorem Cpu.start_lat (k : SeqKind) (c : Cpu) : (c.start k).eng.lat = c.eng.lat := rfl
@[simp] theorem Cpu.start_off (k : SeqKind) (c : Cpu) : (c.start k).eng.off = c.eng.off := rfl
@[simp] theorem Cpu.start_tgt (k : SeqKind) (c : Cpu) : (c.start k).eng.tgt = c.eng.tgt := rfl
@[simp] theorem Cpu.start_val (k : SeqKind) (c : Cpu) : (c.start k).eng.val = c.eng.val := rfl
@[simp] theorem Cpu.start_vec (k : SeqKind) (c : Cpu) : (c.start k).eng.vec = c.eng.vec := rfl
@[simp] theorem Cpu.start_addrbus (k : SeqKind) (c : Cpu) : (c.start k).eng.addrbus = c.eng.addrbus := rfl
@[simp] theorem Cpu.start_databus (k : SeqKind) (c : Cpu) : (c.start k).eng.databus = c.eng.databus := rfl
@[simp] theorem Cpu.start_presync (k : SeqKind) (c : Cpu) : (c.start k).eng.presync = false := rfl
@[simp] theorem Cpu.start_imask (k : SeqKind) (c : Cpu) : (c.start k).eng.imask = c.eng.imask := rfl
@[simp] theorem Cpu.start_jammed (k : SeqKind) (c : Cpu) : (c.start k).eng.jammed = c.eng.jammed := rfl
@[simp] theorem Cpu.start_dflt (k : SeqKind) (c : Cpu) : (c.start k).eng.dflt = c.eng.dflt := rfl

/-! ## Cpu.advance -/

@[simp] theorem Cpu.advance_regs (f : Bool) (c : Cpu) : (c.advance f).regs = c.regs := rfl
@[simp] theorem Cpu.advance_trk (f : Bool) (c : Cpu) : (c.advance f).trk = c.trk := rfl
@[simp] theorem Cpu.advance_t (f : Bool) (c : Cpu) : (c.advance f).eng.t = if f then c.eng.t else c.eng.t + 1 := by cases f <;> rfl
@[simp] theorem Cpu.advance_opc (f : Bool) (c : Cpu) : (c.advance f).eng.opc = c.eng.opc := by cases f <;> rfl
@[simp] theorem Cpu.advance_kind (f : Bool) (c : Cpu) : (c.advance f).eng.kind = c.eng.kind := by cases f <;> rfl
@[simp] theorem Cpu.advance_adl (f : Bool) (c : Cpu) : (c.advance f).eng.adl = c.eng.adl := by cases f <;> rfl
@[simp] theorem Cpu.advance_adh (f : Bool) (c : Cpu) : (c.advance f).eng.adh = c.eng.adh := by cases f <;> rfl
@[simp] theorem Cpu.advance_adc (f : Bool) (c : Cpu) : (c.advance f).eng.adc = c.eng.adc := by cases f <;> rfl
@[simp] theorem Cpu.advance_ptr (f : Bool) (c : Cpu) : (c.advance f).eng.ptr = c.eng.ptr := by cases f <;> rfl
@[simp] theorem Cpu.advance_lat (f : Bool) (c : Cpu) : (c.advance f).eng.lat = c.eng.lat := by cases f <;> rfl
@[simp] theorem Cpu.advance_off (f : Bool) (c : Cpu) : (c.advance f).eng.off = c.eng.off := by cases f <;> rfl
@[simp] theorem Cpu.advance_tgt (f : Bool) (c : Cpu) : (c.advance f).eng.tgt = c.eng.tgt := by cases f <;> rfl
@[simp] theorem Cpu.advance_val (f : Bool) (c : Cpu) : (c.advance f).eng.val = c.eng.val := by cases f <;> rfl
@[simp] theorem Cpu.advance_vec (f : Bool) (c : Cpu) : (c.advance f).eng.vec = c.eng.vec := by cases f <;> rfl
@[simp] theorem Cpu.advance_addrbus (f : Bool) (c : Cpu) : (c.advance f).eng.addrbus = c.eng.addrbus := by cases f <;> rfl
@[simp] theorem Cpu.advance_databus (f : Bool) (c : Cpu) : (c.advance f).eng.databus = c.eng.databus := by cases f <;> rfl
@[simp] theorem Cpu.advance_presync (f : Bool) (c : Cpu) : (c.advance f).eng.presync = (f || c.eng.presync) := by cases f <;> rfl
@[simp] theorem Cpu.advance_imask (f : Bool) (c : Cpu) : (c.advance f).eng.imask = c.eng.imask := by cases f <;> rfl
@[simp] theorem Cpu.advance_jammed (f : Bool) (c : Cpu) : (c.advance f).eng.jammed = c.eng.jammed := by cases f <;> rfl
@[simp] theorem Cpu.advance_dflt (f : Bool) (c : Cpu) : (c.advance f).eng.dflt = c.eng.dflt := by cases f <;> rfl

/-! ## Cpu.promote and Cpu.commit -/

@[simp] theorem Cpu.promote_regs (c : Cpu) : c.promote.regs = c.regs := rfl
@[simp] theorem Cpu.promote_irq (c : Cpu) : c.promote.trk.irq = c.trk.irq.promoted := rfl
@[simp] theorem Cpu.promote_nmi (c : Cpu) : c.promote.trk.nmi = c.trk.nmi.promoted := rfl
@[simp] theorem Cpu.promote_rst (c : Cpu) : c.promote.trk.rst = c.trk.rst.promoted := rfl
@[simp] theorem Cpu.promote_t (c : Cpu) : c.promote.eng.t = c.eng.t := rfl
@[simp] theorem Cpu.promote_opc (c : Cpu) : c.promote.eng.opc = c.eng.opc := rfl
@[simp] theorem Cpu.promote_kind (c : Cpu) : c.promote.eng.kind = c.eng.kind := rfl
@[simp] theorem Cpu.promote_adl (c : Cpu) : c.promote.eng.adl = c.eng.adl := rfl
@[simp] theorem Cpu.promote_adh (c : Cpu) : c.promote.eng.adh = c.eng.adh := rfl
@[simp] theorem Cpu.promote_adc (c : Cpu) : c.promote.eng.adc = c.eng.adc := rfl
@[simp] theorem Cpu.promote_ptr (c : Cpu) : c.promote.eng.ptr = c.eng.ptr := rfl
@[simp] theorem Cpu.promote_lat (c : Cpu) : c.promote.eng.lat = c.eng.lat := rfl
@[simp] theorem Cpu.promote_off (c : Cpu) : c.promote.eng.off = c.eng.off := rfl
@[simp] theorem Cpu.promote_tgt (c : Cpu) : c.promote.eng.tgt = c.eng.tgt := rfl
@[simp] theorem Cpu.promote_val (c : Cpu) : c.promote.eng.val = c.eng.val := rfl
@[simp] theorem Cpu.promote_vec (c : Cpu) : c.promote.eng.vec = c.eng.vec := rfl
@[simp] theorem Cpu.promote_addrbus (c : Cpu) : c.promote.eng.addrbus = c.eng.addrbus := rfl
@[simp] theorem Cpu.promote_databus (c : Cpu) : c.promote.eng.databus = c.eng.databus := rfl
@[simp] theorem Cpu.promote_presync (c : Cpu) : c.promote.eng.presync = c.eng.presync := rfl
@[simp] theorem Cpu.promote_imask (c : Cpu) : c.promote.eng.imask = c.regs.p.i := rfl
@[simp] theorem Cpu.promote_jammed (c : Cpu) : c.promote.eng.jammed = c.eng.jammed := rfl
@[simp] theorem Cpu.promote_dflt (c : Cpu) : c.promote.eng.dflt = c.eng.dflt := rfl
@[simp] theorem Cpu.commit_regs (c : Cpu) : c.commit.regs = c.regs := rfl
@[simp] theorem Cpu.commit_eng (c : Cpu) : c.commit.eng = c.eng := rfl
@[simp] theorem Cpu.commit_irq (c : Cpu) : c.commit.trk.irq = if c.eng.imask then c.trk.irq else c.trk.irq.committedFrom := rfl
@[simp] theorem Cpu.commit_nmi (c : Cpu) : c.commit.trk.nmi = c.trk.nmi.committedFrom := rfl
@[simp] theorem Cpu.commit_rst (c : Cpu) : c.commit.trk.rst = c.trk.rst.committedFrom := rfl

/-! ## Cpu.commitReset and Cpu.pollReset -/

@[simp] theorem Cpu.commitReset_regs (c : Cpu) : c.commitReset.regs = c.regs := rfl
@[simp] theorem Cpu.commitReset_eng (c : Cpu) : c.commitReset.eng = c.eng := rfl
@[simp] theorem Cpu.commitReset_irq (c : Cpu) : c.commitReset.trk.irq = c.trk.irq := rfl
@[simp] theorem Cpu.commitReset_nmi (c : Cpu) : c.commitReset.trk.nmi = c.trk.nmi := rfl
@[simp] theorem Cpu.commitReset_rst (c : Cpu) : c.commitReset.trk.rst = c.trk.rst.committedFrom := rfl
@[simp] theorem Cpu.pollReset_regs (c : Cpu) : c.pollReset.regs = c.regs := rfl
@[simp] theorem Cpu.pollReset_irq (c : Cpu) : c.pollReset.trk.irq = c.trk.irq := rfl
@[simp] theorem Cpu.pollReset_nmi (c : Cpu) : c.pollReset.trk.nmi = c.trk.nmi := rfl
@[simp] theorem Cpu.pollReset_rst (c : Cpu) : c.pollReset.trk.rst = c.trk.rst.promoted := rfl

/-! ## Cpu.beginSequence -/

@[simp] theorem Cpu.beginSequence_regs (c : Cpu) : c.beginSequence.regs = c.regs := by unfold Cpu.beginSequence; repeat (first | rfl | split)
@[simp] theorem Cpu.beginSequence_t (c : Cpu) : c.beginSequence.eng.t = 0 := by unfold Cpu.beginSequence; repeat (first | rfl | split)
@[simp] theorem Cpu.beginSequence_opc (c : Cpu) : c.beginSequence.eng.opc = c.eng.opc := by unfold Cpu.beginSequence; repeat (first | rfl | split)
@[simp] theorem Cpu.beginSequence_adl (c : Cpu) : c.beginSequence.eng.adl = c.eng.adl := by unfold Cpu.beginSequence; repeat (first | rfl | split)
@[simp] theorem Cpu.beginSequence_adh (c : Cpu) : c.beginSequence.eng.adh = c.eng.adh := by unfold Cpu.beginSequence; repeat (first | rfl | split)
@[simp] theorem Cpu.beginSequence_adc (c : Cpu) : c.beginSequence.eng.adc = c.eng.adc := by unfold Cpu.beginSequence; repeat (first | rfl | split)
@[simp] theorem Cpu.beginSequence_ptr (c : Cpu) : c.beginSequence.eng.ptr = c.eng.ptr := by unfold Cpu.beginSequence; repeat (first | rfl | split)
@[simp] theorem Cpu.beginSequence_lat (c : Cpu) : c.beginSequence.eng.lat = c.eng.lat := by unfold Cpu.beginSequence; repeat (first | rfl | split)
@[simp] theorem Cpu.beginSequence_off (c : Cpu) : c.beginSequence.eng.off = c.eng.off := by unfold Cpu.beginSequence; repeat (first | rfl | split)
@[simp] theorem Cpu.beginSequence_tgt (c : Cpu) : c.beginSequence.eng.tgt = c.eng.tgt := by unfold Cpu.beginSequence; repeat (first | rfl | split)
@[simp] theorem Cpu.beginSequence_val (c : Cpu) : c.beginSequence.eng.val = c.eng.val := by unfold Cpu.beginSequence; repeat (first | rfl | split)
@[simp] theorem Cpu.beginSequence_vec (c : Cpu) : c.beginSequence.eng.vec = c.eng.vec := by unfold Cpu.beginSequence; repeat (first | rfl | split)
@[simp] theorem Cpu.beginSequence_addrbus (c : Cpu) : c.beginSequence.eng.addrbus = c.eng.addrbus := by unfold Cpu.beginSequence; repeat (first | rfl | split)
@[simp] theorem Cpu.beginSequence_databus (c : Cpu) : c.beginSequence.eng.databus = c.eng.databus := by unfold Cpu.beginSequence; repeat (first | rfl | split)
@[simp] theorem Cpu.beginSequence_presync (c : Cpu) : c.beginSequence.eng.presync = false := by unfold Cpu.beginSequence; repeat (first | rfl | split)
@[simp] theorem Cpu.beginSequence_imask (c : Cpu) : c.beginSequence.eng.imask = c.eng.imask := by unfold Cpu.beginSequence; repeat (first | rfl | split)
@[simp] theorem Cpu.beginSequence_jammed (c : Cpu) : c.beginSequence.eng.jammed = c.eng.jammed := by unfold Cpu.beginSequence; repeat (first | rfl | split)
@[simp] theorem Cpu.beginSequence_dflt (c : Cpu) : c.beginSequence.eng.dflt = c.eng.dflt := by unfold Cpu.beginSequence; repeat (first | rfl | split)

/-! ## State.takeDriver -/

@[simp] theorem State.takeDriver_config (s : State) : s.takeDriver.config = s.config := by unfold State.takeDriver; split <;> rfl
@[simp] theorem State.takeDriver_cpu (s : State) : s.takeDriver.cpu = s.cpu := by unfold State.takeDriver; split <;> rfl
@[simp] theorem State.takeDriver_ppu (s : State) : s.takeDriver.ppu = s.ppu := by unfold State.takeDriver; split <;> rfl
@[simp] theorem State.takeDriver_ram (s : State) : s.takeDriver.ram = s.ram := by unfold State.takeDriver; split <;> rfl
@[simp] theorem State.takeDriver_vram (s : State) : s.takeDriver.vram = s.vram := by unfold State.takeDriver; split <;> rfl
@[simp] theorem State.takeDriver_cart (s : State) : s.takeDriver.cart = s.cart := by unfold State.takeDriver; split <;> rfl
@[simp] theorem State.takeDriver_displaced (s : State) : s.takeDriver.displaced = s.displaced := by unfold State.takeDriver; split <;> rfl
@[simp] theorem State.takeDriver_early (s : State) : s.takeDriver.early = s.early := by unfold State.takeDriver; split <;> rfl
@[simp] theorem State.takeDriver_mirroring (s : State) : s.takeDriver.mirroring = s.mirroring := by unfold State.takeDriver; split <;> rfl
@[simp] theorem State.takeDriver_prg (s : State) : s.takeDriver.prg = s.prg := by unfold State.takeDriver; split <;> rfl
@[simp] theorem State.takeDriver_chr (s : State) : s.takeDriver.chr = s.chr := by unfold State.takeDriver; split <;> rfl
@[simp] theorem State.takeDriver_cpuBus (s : State) : s.takeDriver.cpuBus = s.cpuBus := by unfold State.takeDriver; split <;> rfl
@[simp] theorem State.takeDriver_videoBus (s : State) : s.takeDriver.videoBus = s.videoBus := by unfold State.takeDriver; split <;> rfl
@[simp] theorem State.takeDriver_driver (s : State) : s.takeDriver.driver = s.driver.tail := by unfold State.takeDriver; split <;> simp [*]

/-! ## State.sampleLines -/

@[simp] theorem State.sampleLines_config (s : State) : s.sampleLines.config = s.config := rfl
@[simp] theorem State.sampleLines_lines (s : State) : s.sampleLines.lines = s.lines := rfl
@[simp] theorem State.sampleLines_ppu (s : State) : s.sampleLines.ppu = s.ppu := rfl
@[simp] theorem State.sampleLines_ram (s : State) : s.sampleLines.ram = s.ram := rfl
@[simp] theorem State.sampleLines_vram (s : State) : s.sampleLines.vram = s.vram := rfl
@[simp] theorem State.sampleLines_cart (s : State) : s.sampleLines.cart = s.cart := rfl
@[simp] theorem State.sampleLines_displaced (s : State) : s.sampleLines.displaced = s.displaced := rfl
@[simp] theorem State.sampleLines_early (s : State) : s.sampleLines.early = s.early := rfl
@[simp] theorem State.sampleLines_mirroring (s : State) : s.sampleLines.mirroring = s.mirroring := rfl
@[simp] theorem State.sampleLines_prg (s : State) : s.sampleLines.prg = s.prg := rfl
@[simp] theorem State.sampleLines_chr (s : State) : s.sampleLines.chr = s.chr := rfl
@[simp] theorem State.sampleLines_cpuBus (s : State) : s.sampleLines.cpuBus = s.cpuBus := rfl
@[simp] theorem State.sampleLines_videoBus (s : State) : s.sampleLines.videoBus = s.videoBus := rfl
@[simp] theorem State.sampleLines_driver (s : State) : s.sampleLines.driver = s.driver := rfl
@[simp] theorem State.sampleLines_regs (s : State) : s.sampleLines.cpu.regs = s.cpu.regs := rfl
@[simp] theorem State.sampleLines_eng (s : State) : s.sampleLines.cpu.eng = s.cpu.eng := rfl
@[simp] theorem State.sampleLines_irq (s : State) : s.sampleLines.cpu.trk.irq = sampleIrq s.lines.irqN s.cpu.trk.irq := rfl
@[simp] theorem State.sampleLines_nmi (s : State) : s.sampleLines.cpu.trk.nmi = sampleEdge s.nmiN s.cpu.trk.nmi := rfl
@[simp] theorem State.sampleLines_rst (s : State) : s.sampleLines.cpu.trk.rst = sampleEdge s.lines.rstN s.cpu.trk.rst := rfl

/-! ## Row.finish -/

@[simp] theorem Row.finish_config (r : Row) (k : Bool) (s : State) : (r.finish k s).config = s.config := by unfold Row.finish; cases r.final && k <;> cases r.poll <;> rfl
@[simp] theorem Row.finish_lines (r : Row) (k : Bool) (s : State) : (r.finish k s).lines = s.lines := by unfold Row.finish; cases r.final && k <;> cases r.poll <;> rfl
@[simp] theorem Row.finish_ppu (r : Row) (k : Bool) (s : State) : (r.finish k s).ppu = s.ppu := by unfold Row.finish; cases r.final && k <;> cases r.poll <;> rfl
@[simp] theorem Row.finish_ram (r : Row) (k : Bool) (s : State) : (r.finish k s).ram = s.ram := by unfold Row.finish; cases r.final && k <;> cases r.poll <;> rfl
@[simp] theorem Row.finish_vram (r : Row) (k : Bool) (s : State) : (r.finish k s).vram = s.vram := by unfold Row.finish; cases r.final && k <;> cases r.poll <;> rfl
@[simp] theorem Row.finish_cart (r : Row) (k : Bool) (s : State) : (r.finish k s).cart = s.cart := by unfold Row.finish; cases r.final && k <;> cases r.poll <;> rfl
@[simp] theorem Row.finish_displaced (r : Row) (k : Bool) (s : State) : (r.finish k s).displaced = s.displaced := by unfold Row.finish; cases r.final && k <;> cases r.poll <;> rfl
@[simp] theorem Row.finish_early (r : Row) (k : Bool) (s : State) : (r.finish k s).early = s.early := by unfold Row.finish; cases r.final && k <;> cases r.poll <;> rfl
@[simp] theorem Row.finish_mirroring (r : Row) (k : Bool) (s : State) : (r.finish k s).mirroring = s.mirroring := by unfold Row.finish; cases r.final && k <;> cases r.poll <;> rfl
@[simp] theorem Row.finish_prg (r : Row) (k : Bool) (s : State) : (r.finish k s).prg = s.prg := by unfold Row.finish; cases r.final && k <;> cases r.poll <;> rfl
@[simp] theorem Row.finish_chr (r : Row) (k : Bool) (s : State) : (r.finish k s).chr = s.chr := by unfold Row.finish; cases r.final && k <;> cases r.poll <;> rfl
@[simp] theorem Row.finish_cpuBus (r : Row) (k : Bool) (s : State) : (r.finish k s).cpuBus = s.cpuBus := by unfold Row.finish; cases r.final && k <;> cases r.poll <;> rfl
@[simp] theorem Row.finish_videoBus (r : Row) (k : Bool) (s : State) : (r.finish k s).videoBus = s.videoBus := by unfold Row.finish; cases r.final && k <;> cases r.poll <;> rfl
@[simp] theorem Row.finish_driver (r : Row) (k : Bool) (s : State) : (r.finish k s).driver = s.driver := by unfold Row.finish; cases r.final && k <;> cases r.poll <;> rfl
@[simp] theorem Row.finish_regs (r : Row) (k : Bool) (s : State) : (r.finish k s).cpu.regs = s.cpu.regs := by unfold Row.finish; cases r.final && k <;> cases r.poll <;> rfl
@[simp] theorem Row.finish_t (r : Row) (k : Bool) (s : State) : (r.finish k s).cpu.eng.t = if r.final then s.cpu.eng.t else s.cpu.eng.t + 1 := by
  unfold Row.finish; cases r.final <;> cases k <;> cases r.poll <;> rfl
@[simp] theorem Row.finish_opc (r : Row) (k : Bool) (s : State) : (r.finish k s).cpu.eng.opc = s.cpu.eng.opc := by
  unfold Row.finish; cases r.final <;> cases k <;> cases r.poll <;> rfl
@[simp] theorem Row.finish_kind (r : Row) (k : Bool) (s : State) : (r.finish k s).cpu.eng.kind = s.cpu.eng.kind := by
  unfold Row.finish; cases r.final <;> cases k <;> cases r.poll <;> rfl
@[simp] theorem Row.finish_adl (r : Row) (k : Bool) (s : State) : (r.finish k s).cpu.eng.adl = s.cpu.eng.adl := by
  unfold Row.finish; cases r.final <;> cases k <;> cases r.poll <;> rfl
@[simp] theorem Row.finish_adh (r : Row) (k : Bool) (s : State) : (r.finish k s).cpu.eng.adh = s.cpu.eng.adh := by
  unfold Row.finish; cases r.final <;> cases k <;> cases r.poll <;> rfl
@[simp] theorem Row.finish_adc (r : Row) (k : Bool) (s : State) : (r.finish k s).cpu.eng.adc = s.cpu.eng.adc := by
  unfold Row.finish; cases r.final <;> cases k <;> cases r.poll <;> rfl
@[simp] theorem Row.finish_ptr (r : Row) (k : Bool) (s : State) : (r.finish k s).cpu.eng.ptr = s.cpu.eng.ptr := by
  unfold Row.finish; cases r.final <;> cases k <;> cases r.poll <;> rfl
@[simp] theorem Row.finish_lat (r : Row) (k : Bool) (s : State) : (r.finish k s).cpu.eng.lat = s.cpu.eng.lat := by
  unfold Row.finish; cases r.final <;> cases k <;> cases r.poll <;> rfl
@[simp] theorem Row.finish_off (r : Row) (k : Bool) (s : State) : (r.finish k s).cpu.eng.off = s.cpu.eng.off := by
  unfold Row.finish; cases r.final <;> cases k <;> cases r.poll <;> rfl
@[simp] theorem Row.finish_tgt (r : Row) (k : Bool) (s : State) : (r.finish k s).cpu.eng.tgt = s.cpu.eng.tgt := by
  unfold Row.finish; cases r.final <;> cases k <;> cases r.poll <;> rfl
@[simp] theorem Row.finish_val (r : Row) (k : Bool) (s : State) : (r.finish k s).cpu.eng.val = s.cpu.eng.val := by
  unfold Row.finish; cases r.final <;> cases k <;> cases r.poll <;> rfl
@[simp] theorem Row.finish_vec (r : Row) (k : Bool) (s : State) : (r.finish k s).cpu.eng.vec = s.cpu.eng.vec := by
  unfold Row.finish; cases r.final <;> cases k <;> cases r.poll <;> rfl
@[simp] theorem Row.finish_addrbus (r : Row) (k : Bool) (s : State) : (r.finish k s).cpu.eng.addrbus = s.cpu.eng.addrbus := by
  unfold Row.finish; cases r.final <;> cases k <;> cases r.poll <;> rfl
@[simp] theorem Row.finish_databus (r : Row) (k : Bool) (s : State) : (r.finish k s).cpu.eng.databus = s.cpu.eng.databus := by
  unfold Row.finish; cases r.final <;> cases k <;> cases r.poll <;> rfl
@[simp] theorem Row.finish_presync (r : Row) (k : Bool) (s : State) : (r.finish k s).cpu.eng.presync = (r.final || s.cpu.eng.presync) := by
  unfold Row.finish; cases r.final <;> cases k <;> cases r.poll <;> rfl
@[simp] theorem Row.finish_imask (r : Row) (k : Bool) (s : State) : (r.finish k s).cpu.eng.imask = if r.poll then s.cpu.regs.p.i else s.cpu.eng.imask := by
  unfold Row.finish; cases r.final <;> cases k <;> cases r.poll <;> rfl
@[simp] theorem Row.finish_jammed (r : Row) (k : Bool) (s : State) : (r.finish k s).cpu.eng.jammed = s.cpu.eng.jammed := by
  unfold Row.finish; cases r.final <;> cases k <;> cases r.poll <;> rfl
@[simp] theorem Row.finish_dflt (r : Row) (k : Bool) (s : State) : (r.finish k s).cpu.eng.dflt = s.cpu.eng.dflt := by
  unfold Row.finish; cases r.final <;> cases k <;> cases r.poll <;> rfl

/-! ## State.withRst -/

@[simp] theorem State.withRst_config (l : Bool) (s : State) : (s.withRst l).config = s.config := rfl
@[simp] theorem State.withRst_cpu (l : Bool) (s : State) : (s.withRst l).cpu = s.cpu := rfl
@[simp] theorem State.withRst_ppu (l : Bool) (s : State) : (s.withRst l).ppu = s.ppu := rfl
@[simp] theorem State.withRst_ram (l : Bool) (s : State) : (s.withRst l).ram = s.ram := rfl
@[simp] theorem State.withRst_vram (l : Bool) (s : State) : (s.withRst l).vram = s.vram := rfl
@[simp] theorem State.withRst_cart (l : Bool) (s : State) : (s.withRst l).cart = s.cart := rfl
@[simp] theorem State.withRst_displaced (l : Bool) (s : State) : (s.withRst l).displaced = s.displaced := rfl
@[simp] theorem State.withRst_mirroring (l : Bool) (s : State) : (s.withRst l).mirroring = s.mirroring := rfl
@[simp] theorem State.withRst_prg (l : Bool) (s : State) : (s.withRst l).prg = s.prg := rfl
@[simp] theorem State.withRst_chr (l : Bool) (s : State) : (s.withRst l).chr = s.chr := rfl
@[simp] theorem State.withRst_cpuBus (l : Bool) (s : State) : (s.withRst l).cpuBus = s.cpuBus := rfl
@[simp] theorem State.withRst_videoBus (l : Bool) (s : State) : (s.withRst l).videoBus = s.videoBus := rfl
@[simp] theorem State.withRst_early (l : Bool) (s : State) : (s.withRst l).early = s.early := rfl
@[simp] theorem State.withRst_driver (l : Bool) (s : State) : (s.withRst l).driver = s.driver := rfl
@[simp] theorem State.withRst_rstN (l : Bool) (s : State) : (s.withRst l).lines.rstN = l := rfl
@[simp] theorem State.withRst_irqN (l : Bool) (s : State) : (s.withRst l).lines.irqN = s.lines.irqN := rfl
@[simp] theorem State.withRst_nmiExtN (l : Bool) (s : State) : (s.withRst l).lines.nmiExtN = s.lines.nmiExtN := rfl

/-- The line as it is already. -/
theorem State.withRst_same {l : Bool} {s : State} (h : s.lines.rstN = l) : s.withRst l = s := by
  obtain ⟨_, _, ⟨_, _, _⟩, _⟩ := s; cases h; rfl

/-- With no dots to run before the next CPU cycle, none run. -/
theorem State.runEarly_nil {s : State} (h : s.early = []) : s.runEarly = .next s := by
  obtain ⟨_, _, _, _, _, _, _, _, _, _, _, _, _, _, _⟩ := s; cases h; rfl

/-! ## Cpu.suppliedBy -/

@[simp] theorem Cpu.suppliedBy_a (e c : Cpu) : (e.suppliedBy c).regs.a = e.regs.a := rfl
@[simp] theorem Cpu.suppliedBy_x (e c : Cpu) : (e.suppliedBy c).regs.x = e.regs.x := rfl
@[simp] theorem Cpu.suppliedBy_y (e c : Cpu) : (e.suppliedBy c).regs.y = e.regs.y := rfl
@[simp] theorem Cpu.suppliedBy_s (e c : Cpu) : (e.suppliedBy c).regs.s = e.regs.s := rfl
@[simp] theorem Cpu.suppliedBy_pc (e c : Cpu) : (e.suppliedBy c).regs.pc = e.regs.pc := rfl
@[simp] theorem Cpu.suppliedBy_p_c (e c : Cpu) : (e.suppliedBy c).regs.p.c = e.regs.p.c := rfl
@[simp] theorem Cpu.suppliedBy_p_z (e c : Cpu) : (e.suppliedBy c).regs.p.z = e.regs.p.z := rfl
@[simp] theorem Cpu.suppliedBy_p_i (e c : Cpu) : (e.suppliedBy c).regs.p.i = e.regs.p.i := rfl
@[simp] theorem Cpu.suppliedBy_p_d (e c : Cpu) : (e.suppliedBy c).regs.p.d = e.regs.p.d := rfl
@[simp] theorem Cpu.suppliedBy_p_v (e c : Cpu) : (e.suppliedBy c).regs.p.v = e.regs.p.v := rfl
@[simp] theorem Cpu.suppliedBy_p_n (e c : Cpu) : (e.suppliedBy c).regs.p.n = e.regs.p.n := rfl
@[simp] theorem Cpu.suppliedBy_p_b (e c : Cpu) : (e.suppliedBy c).regs.p.b = c.regs.p.b := rfl
@[simp] theorem Cpu.suppliedBy_p_u (e c : Cpu) : (e.suppliedBy c).regs.p.u = c.regs.p.u := rfl
@[simp] theorem Cpu.suppliedBy_adl (e c : Cpu) : (e.suppliedBy c).eng.adl = e.eng.adl := rfl
@[simp] theorem Cpu.suppliedBy_adh (e c : Cpu) : (e.suppliedBy c).eng.adh = e.eng.adh := rfl
@[simp] theorem Cpu.suppliedBy_adc (e c : Cpu) : (e.suppliedBy c).eng.adc = e.eng.adc := rfl
@[simp] theorem Cpu.suppliedBy_ptr (e c : Cpu) : (e.suppliedBy c).eng.ptr = e.eng.ptr := rfl
@[simp] theorem Cpu.suppliedBy_lat (e c : Cpu) : (e.suppliedBy c).eng.lat = e.eng.lat := rfl
@[simp] theorem Cpu.suppliedBy_off (e c : Cpu) : (e.suppliedBy c).eng.off = e.eng.off := rfl
@[simp] theorem Cpu.suppliedBy_tgt (e c : Cpu) : (e.suppliedBy c).eng.tgt = e.eng.tgt := rfl
@[simp] theorem Cpu.suppliedBy_val (e c : Cpu) : (e.suppliedBy c).eng.val = e.eng.val := rfl
@[simp] theorem Cpu.suppliedBy_vec (e c : Cpu) : (e.suppliedBy c).eng.vec = e.eng.vec := rfl
@[simp] theorem Cpu.suppliedBy_imask (e c : Cpu) : (e.suppliedBy c).eng.imask = e.eng.imask := rfl
@[simp] theorem Cpu.suppliedBy_index (e c : Cpu) : (e.suppliedBy c).eng.t = c.eng.t := rfl
@[simp] theorem Cpu.suppliedBy_opc (e c : Cpu) : (e.suppliedBy c).eng.opc = c.eng.opc := rfl
@[simp] theorem Cpu.suppliedBy_kind (e c : Cpu) : (e.suppliedBy c).eng.kind = c.eng.kind := rfl
@[simp] theorem Cpu.suppliedBy_presync (e c : Cpu) : (e.suppliedBy c).eng.presync = c.eng.presync := rfl
@[simp] theorem Cpu.suppliedBy_jammed (e c : Cpu) : (e.suppliedBy c).eng.jammed = c.eng.jammed := rfl
@[simp] theorem Cpu.suppliedBy_addrbus (e c : Cpu) : (e.suppliedBy c).eng.addrbus = c.eng.addrbus := rfl
@[simp] theorem Cpu.suppliedBy_databus (e c : Cpu) : (e.suppliedBy c).eng.databus = c.eng.databus := rfl
@[simp] theorem Cpu.suppliedBy_dflt (e c : Cpu) : (e.suppliedBy c).eng.dflt = c.eng.dflt := rfl
@[simp] theorem Cpu.suppliedBy_nmi (e c : Cpu) : (e.suppliedBy c).trk.nmi = e.trk.nmi := rfl
@[simp] theorem Cpu.suppliedBy_rst (e c : Cpu) : (e.suppliedBy c).trk.rst = e.trk.rst := rfl

/-- A supplied function cannot make the `irq` tracker SERVICED. -/
theorem Cpu.suppliedBy_irq {c : Cpu} (e : Cpu) (h : c.trk.irq ≠ .serviced) : (e.suppliedBy c).trk.irq ≠ .serviced := by
  simp only [Cpu.suppliedBy]; split <;> assumption

/-! ## State.fixed -/

theorem State.fixed_eq {s t : State} : t.fixed = s.fixed ↔
    t.config = s.config ∧ (t.cart = s.cart ∧ t.displaced = s.displaced) ∧ t.mirroring = s.mirroring ∧ t.prg = s.prg ∧ t.cpuBus = s.cpuBus ∧
      t.videoBus = s.videoBus := by
  simp [State.fixed]

@[simp] theorem State.takeDriver_fixed (s : State) : s.takeDriver.fixed = s.fixed := by simp [State.fixed]
@[simp] theorem State.withRst_fixed (l : Bool) (s : State) : (s.withRst l).fixed = s.fixed := rfl
@[simp] theorem State.sampleLines_fixed (s : State) : s.sampleLines.fixed = s.fixed := rfl
@[simp] theorem Row.finish_fixed (r : Row) (k : Bool) (s : State) : (r.finish k s).fixed = s.fixed := by
  simp [State.fixed]
@[simp] theorem Row.finish_videoMemory (r : Row) (k : Bool) (s : State) :
    (r.finish k s).videoMemory = s.videoMemory := by
  simp [State.videoMemory]

end Sys2Proof.Machine
end

