-- ==== Sys2Proof/Laws/Ppu.lean ====
section
/-! SUPPORT. What a PPU register access, a dot event and a reset step can change. -/

namespace Sys2Proof.Machine

/-- A PPUDATA access while none is pending goes through. -/
theorem Ppu.readData_idle {mask : Byte} {p : Ppu} (h : p.pend = .none) :
    p.readData mask = .next (p.dataByte mask, { p with pend := .read, ale := false, iolatch := p.dataByte mask }) := by
  simp [Ppu.readData, h]

theorem Ppu.writeData_idle {d : Byte} {p : Ppu} (h : p.pend = .none) :
    p.writeData d = .next { p with pend := .write, pdata := d, ale := false } := by
  simp [Ppu.writeData, h]

/-- A register access is refused for one reason only. -/
theorem Ppu.regRead_refused {mask : Byte} {r : BitVec 3} {p : Ppu} {e : Refusal}
    (h : p.regRead mask r = .refused e) : e = .ppudataOverlap := by
  unfold Ppu.regRead Ppu.readData at h
  repeat' split at h
  all_goals cases h
  all_goals rfl

theorem Ppu.regWrite_refused {r : BitVec 3} {d : Byte} {p : Ppu} {e : Refusal}
    (h : p.regWrite r d = .refused e) : e = .ppudataOverlap := by
  simp only [Ppu.regWrite, Ppu.writeData] at h
  repeat' split at h
  all_goals cases h
  all_goals rfl

/-- A register read leaves the counter, the reset tracker, the memories and the palette alone; it can only start a read. -/
theorem Ppu.regRead_frame {mask : Byte} {r : BitVec 3} {p q : Ppu} {b : Byte}
    (h : p.regRead mask r = .next (b, q)) :
    q.oam = p.oam ∧ q.pal = p.pal ∧ q.line = p.line ∧ q.dot = p.dot ∧ q.odd = p.odd ∧ q.prst = p.prst ∧
      q.ctrl = p.ctrl ∧ q.mask = p.mask ∧ q.v = p.v ∧ q.t = p.t ∧ q.x = p.x ∧ q.rbuf = p.rbuf ∧ q.oamaddr = p.oamaddr ∧
      q.pdata = p.pdata ∧ q.vaddr = p.vaddr ∧ q.bflt = p.bflt ∧
      ((q.pend = p.pend ∧ q.ale = p.ale) ∨ (p.pend = .none ∧ q.pend = .read ∧ q.ale = false)) := by
  simp only [Ppu.regRead, Ppu.readData, Ppu.readStatus, Ppu.readOamData] at h
  repeat' split at h
  all_goals first | cases h | skip
  all_goals simp_all

/-- A register write leaves the counter, the reset tracker and the palette alone; it can only start a write. -/
theorem Ppu.regWrite_frame {r : BitVec 3} {d : Byte} {p q : Ppu} (h : p.regWrite r d = .next q) :
    q.pal = p.pal ∧ q.line = p.line ∧ q.dot = p.dot ∧ q.odd = p.odd ∧ q.prst = p.prst ∧ q.rbuf = p.rbuf ∧
      q.status = p.status ∧ q.vsupp = p.vsupp ∧ q.vaddr = p.vaddr ∧ q.bflt = p.bflt ∧
      (q.oam = p.oam ∨ q.oam = p.oam.write p.oamaddr.toNat d) ∧
      ((q.pend = p.pend ∧ q.ale = p.ale) ∨ (p.pend = .none ∧ q.pend = .write ∧ q.ale = false)) := by
  simp only [Ppu.regWrite, Ppu.writeData, Ppu.writeCtrl, Ppu.writeMask, Ppu.writeOamAddr, Ppu.writeOamData,
    Ppu.writeScroll, Ppu.writeAddr] at h
  repeat' split at h
  all_goals first | cases h | skip
  all_goals simp_all

/-- With no access pending a register access always goes through. -/
theorem Ppu.regRead_next {mask : Byte} {r : BitVec 3} {p : Ppu} (h : p.pend = .none) :
    ∃ b q, p.regRead mask r = .next (b, q) := by
  unfold Ppu.regRead
  rw [Ppu.readData_idle h]
  split <;> exact ⟨_, _, rfl⟩

theorem Ppu.regWrite_next {r : BitVec 3} {d : Byte} {p : Ppu} (h : p.pend = .none) :
    ∃ q, p.regWrite r d = .next q := by
  simp only [Ppu.regWrite]
  split <;> first | exact ⟨_, rfl⟩ | exact ⟨_, Ppu.writeData_idle h⟩

/-! ## Palette cells -/

/-- Every palette address selects one of the 28 cells (`46_ppu.md` R320). -/
theorem maskPalette_lt (a : BitVec 5) : (maskPalette a).toNat < 28 := by revert a; decide

theorem paletteCell_lt (v : BitVec 15) : paletteCell v < 28 := maskPalette_lt _

/-! ## Dots -/

theorem Ppu.advance_line_dot {p : Ppu} (hl : p.line ≤ 261) (hd : p.dot ≤ 340) :
    p.advance.line ≤ 261 ∧ p.advance.dot ≤ 340 := by
  unfold Ppu.advance Ppu.nextLine
  split
  · simp
  · simp only
    split <;> split <;> omega

/-- Advancing changes the counter only. -/
theorem Ppu.advance_frame (p : Ppu) : p.advance = { p with line := p.advance.line, dot := p.advance.dot, odd := p.advance.odd } := by
  unfold Ppu.advance; split <;> rfl

/-- The dot events change the status flags, the suppression and the reset tracker only. -/
theorem Ppu.dotEvents_frame (p : Ppu) :
    p.dotEvents = { p with status := p.dotEvents.status, vsupp := p.dotEvents.vsupp, prst := p.dotEvents.prst } := by
  unfold Ppu.dotEvents Ppu.vblankSet Ppu.prerenderClear
  repeat (first | rfl | split)

theorem Ppu.dotEvents_prst (p : Ppu) : p.dotEvents.prst = p.prst ∨ (p.prst = .serviced ∧ p.dotEvents.prst = .clear) := by
  unfold Ppu.dotEvents Ppu.vblankSet Ppu.prerenderClear
  repeat' split
  all_goals simp_all

/-! One lemma for each field that an advance or a dot event leaves alone. -/

@[simp] theorem Ppu.advance_ctrl (p : Ppu) : p.advance.ctrl = p.ctrl := by rw [p.advance_frame]
@[simp] theorem Ppu.advance_mask (p : Ppu) : p.advance.mask = p.mask := by rw [p.advance_frame]
@[simp] theorem Ppu.advance_status (p : Ppu) : p.advance.status = p.status := by rw [p.advance_frame]
@[simp] theorem Ppu.advance_oamaddr (p : Ppu) : p.advance.oamaddr = p.oamaddr := by rw [p.advance_frame]
@[simp] theorem Ppu.advance_oam (p : Ppu) : p.advance.oam = p.oam := by rw [p.advance_frame]
@[simp] theorem Ppu.advance_v (p : Ppu) : p.advance.v = p.v := by rw [p.advance_frame]
@[simp] theorem Ppu.advance_t (p : Ppu) : p.advance.t = p.t := by rw [p.advance_frame]
@[simp] theorem Ppu.advance_x (p : Ppu) : p.advance.x = p.x := by rw [p.advance_frame]
@[simp] theorem Ppu.advance_w (p : Ppu) : p.advance.w = p.w := by rw [p.advance_frame]
@[simp] theorem Ppu.advance_rbuf (p : Ppu) : p.advance.rbuf = p.rbuf := by rw [p.advance_frame]
@[simp] theorem Ppu.advance_prst (p : Ppu) : p.advance.prst = p.prst := by rw [p.advance_frame]
@[simp] theorem Ppu.advance_pend (p : Ppu) : p.advance.pend = p.pend := by rw [p.advance_frame]
@[simp] theorem Ppu.advance_pdata (p : Ppu) : p.advance.pdata = p.pdata := by rw [p.advance_frame]
@[simp] theorem Ppu.advance_ale (p : Ppu) : p.advance.ale = p.ale := by rw [p.advance_frame]
@[simp] theorem Ppu.advance_vaddr (p : Ppu) : p.advance.vaddr = p.vaddr := by rw [p.advance_frame]
@[simp] theorem Ppu.advance_iolatch (p : Ppu) : p.advance.iolatch = p.iolatch := by rw [p.advance_frame]
@[simp] theorem Ppu.advance_pal (p : Ppu) : p.advance.pal = p.pal := by rw [p.advance_frame]
@[simp] theorem Ppu.advance_vsupp (p : Ppu) : p.advance.vsupp = p.vsupp := by rw [p.advance_frame]
@[simp] theorem Ppu.advance_bflt (p : Ppu) : p.advance.bflt = p.bflt := by rw [p.advance_frame]
@[simp] theorem Ppu.dotEvents_ctrl (p : Ppu) : p.dotEvents.ctrl = p.ctrl := by rw [p.dotEvents_frame]
@[simp] theorem Ppu.dotEvents_mask (p : Ppu) : p.dotEvents.mask = p.mask := by rw [p.dotEvents_frame]
@[simp] theorem Ppu.dotEvents_oamaddr (p : Ppu) : p.dotEvents.oamaddr = p.oamaddr := by rw [p.dotEvents_frame]
@[simp] theorem Ppu.dotEvents_oam (p : Ppu) : p.dotEvents.oam = p.oam := by rw [p.dotEvents_frame]
@[simp] theorem Ppu.dotEvents_v (p : Ppu) : p.dotEvents.v = p.v := by rw [p.dotEvents_frame]
@[simp] theorem Ppu.dotEvents_t (p : Ppu) : p.dotEvents.t = p.t := by rw [p.dotEvents_frame]
@[simp] theorem Ppu.dotEvents_x (p : Ppu) : p.dotEvents.x = p.x := by rw [p.dotEvents_frame]
@[simp] theorem Ppu.dotEvents_w (p : Ppu) : p.dotEvents.w = p.w := by rw [p.dotEvents_frame]
@[simp] theorem Ppu.dotEvents_rbuf (p : Ppu) : p.dotEvents.rbuf = p.rbuf := by rw [p.dotEvents_frame]
@[simp] theorem Ppu.dotEvents_line (p : Ppu) : p.dotEvents.line = p.line := by rw [p.dotEvents_frame]
@[simp] theorem Ppu.dotEvents_dot (p : Ppu) : p.dotEvents.dot = p.dot := by rw [p.dotEvents_frame]
@[simp] theorem Ppu.dotEvents_odd (p : Ppu) : p.dotEvents.odd = p.odd := by rw [p.dotEvents_frame]
@[simp] theorem Ppu.dotEvents_pend (p : Ppu) : p.dotEvents.pend = p.pend := by rw [p.dotEvents_frame]
@[simp] theorem Ppu.dotEvents_pdata (p : Ppu) : p.dotEvents.pdata = p.pdata := by rw [p.dotEvents_frame]
@[simp] theorem Ppu.dotEvents_ale (p : Ppu) : p.dotEvents.ale = p.ale := by rw [p.dotEvents_frame]
@[simp] theorem Ppu.dotEvents_vaddr (p : Ppu) : p.dotEvents.vaddr = p.vaddr := by rw [p.dotEvents_frame]
@[simp] theorem Ppu.dotEvents_iolatch (p : Ppu) : p.dotEvents.iolatch = p.iolatch := by rw [p.dotEvents_frame]
@[simp] theorem Ppu.dotEvents_pal (p : Ppu) : p.dotEvents.pal = p.pal := by rw [p.dotEvents_frame]
@[simp] theorem Ppu.dotEvents_bflt (p : Ppu) : p.dotEvents.bflt = p.bflt := by rw [p.dotEvents_frame]

/-- With the reset line high and no reset under way the tracker stays as it is. -/
theorem Ppu.prstStep_quiet {p : Ppu} (h : p.prst.holdsPpu = false) : p.prstStep true = p := by
  cases hp : p.prst <;> simp_all [Tracker.holdsPpu, Ppu.prstStep, prstNext] <;> cases p <;> simp_all

end Sys2Proof.Machine
end

