-- ==== Sys2Proof/Laws/Bus.lean ====
section
/-! SUPPORT. What a bus access can change, and when it goes through. -/

namespace Sys2Proof.Machine

/-! ## Outcomes -/

@[simp] theorem Res.bind_next {α β : Type} (a : α) (k : α → Res β) : Res.bind (.next a) k = k a := rfl
@[simp] theorem Res.bind_refused {α β : Type} (e : Refusal) (k : α → Res β) :
    Res.bind (Host.Outcome.refused e : Res α) k = .refused e := rfl
@[simp] theorem Res.bind_fault {α β : Type} (e : Fault) (k : α → Res β) :
    Res.bind (Host.Outcome.fault e : Res α) k = .fault e := rfl

theorem Res.bind_eq_next {α β : Type} {r : Res α} {k : α → Res β} {b : β} :
    r.bind k = .next b ↔ ∃ a, r = .next a ∧ k a = .next b := by
  cases r <;> simp [Res.bind]

theorem Res.bind_eq_refused {α β : Type} {r : Res α} {k : α → Res β} {e : Refusal} :
    r.bind k = .refused e ↔ r = .refused e ∨ ∃ a, r = .next a ∧ k a = .refused e := by
  cases r <;> simp [Res.bind]

/-- Nothing faults: there is no fault (`60_exceptions.md` R375). -/
theorem Res.not_fault {α : Type} (r : Res α) (e : Fault) : r ≠ .fault e := nomatch e

/-- So an outcome that is not refused is a next one. -/
theorem Res.next_or_refused {α : Type} (r : Res α) : (∃ a, r = .next a) ∨ ∃ e, r = .refused e := by
  cases r with
  | next a => exact .inl ⟨a, rfl⟩
  | refused e => exact .inr ⟨e, rfl⟩
  | fault e => nomatch e

/-! ## Bindings -/

/-- A device found at an address is one the bus holds. -/
theorem Bus.device_of_without {bad : Device → Bool} {b : Bus} {a : Word} {d : Device}
    (h : b.without bad = true) (hd : b.device a = some d) : bad d = false := by
  unfold Bus.device at hd
  split at hd
  · next i _ =>
    rw [List.getD_eq_getElem?_getD] at hd
    cases hi : b.bindings[i]? with
    | none => rw [hi] at hd; simp at hd
    | some o =>
      rw [hi] at hd
      simp only [Option.getD_some] at hd
      have := List.all_eq_true.mp h o (List.mem_of_getElem? hi)
      simpa [hd] using this
  · simp at hd

/-! ## Reads -/

/-- A device read changes the PPU at most, and only as a register read does. -/
theorem Device.read_frame {d : Device} {a : Word} {s s' : State} {o : Option Byte}
    (h : d.read a s = .next (o, s')) :
    ∃ p, s' = { s with ppu := p } ∧
      (p = s.ppu ∨ (d = .ppuRegs ∧ ∃ b, s.ppu.regRead s.config.paletteReadMask (ppuReg a) = .next (b, p) ∧ o = some b)) := by
  cases d <;> simp only [Device.read] at h
  case ppuRegs =>
    split at h
    · next b p hp => cases h; exact ⟨p, rfl, .inr ⟨rfl, b, hp, rfl⟩⟩
    · cases h
    · cases h
  all_goals cases h
  all_goals exact ⟨s.ppu, rfl, .inl rfl⟩

theorem Bus.read_frame {b : Bus} {a : Word} {s s' : State} {o : Option Byte} (h : b.read a s = .next (o, s')) :
    ∃ p, s' = { s with ppu := p } ∧
      (p = s.ppu ∨ (b.device a = some .ppuRegs ∧
        ∃ v, s.ppu.regRead s.config.paletteReadMask (ppuReg a) = .next (v, p) ∧ o = some v)) := by
  unfold Bus.read at h
  split at h
  · next d hd =>
    obtain ⟨p, hp, hq⟩ := Device.read_frame h
    refine ⟨p, hp, ?_⟩
    rcases hq with hq | ⟨rfl, hq⟩
    · exact .inl hq
    · exact .inr ⟨hd, hq⟩
  · cases h; exact ⟨s.ppu, rfl, .inl rfl⟩

/-- `MemRead(a)` (`20_memory.md` R85): the CPU's bus fields, and the PPU as a register read changes it. -/
theorem memRead_frame {a : Word} {s s' : State} {b : Byte} (h : memRead a s = .next (b, s')) :
    ∃ d p, s' = { s with cpu := s.cpu.onBus a b d, ppu := p } ∧
      (p = s.ppu ∨ (s.cpuBus.device a = some .ppuRegs ∧ d = false ∧
        s.ppu.regRead s.config.paletteReadMask (ppuReg a) = .next (b, p))) := by
  unfold memRead at h
  split at h
  · next v s1 h1 =>
    obtain ⟨p, rfl, hq⟩ := Bus.read_frame h1
    cases h
    refine ⟨false, p, rfl, ?_⟩
    rcases hq with hq | ⟨hd, w, hw, hv⟩
    · exact .inl hq
    · cases hv; exact .inr ⟨hd, rfl, hw⟩
  · next s1 h1 =>
    obtain ⟨p, rfl, hq⟩ := Bus.read_frame h1
    cases h
    refine ⟨true, p, rfl, ?_⟩
    rcases hq with hq | ⟨hd, w, hw, hv⟩
    · exact .inl hq
    · cases hv
  · cases h
  · cases h

/-- A read of plain memory gives the byte it holds and touches nothing but the CPU's bus fields. -/
theorem memRead_peek {a : Word} {s : State} {v : Byte} (h : s.peek a = some v) :
    memRead a s = .next (v, { s with cpu := s.cpu.onBus a v false }) := by
  unfold State.peek at h
  split at h
  · next hd => cases h; simp [memRead, Bus.read, hd, Device.read]
  · next hd => simp [memRead, Bus.read, hd, Device.read, h]
  · cases h

/-- A read of an unbound partition gives the data-bus latch as it was and sets `dflt` (`20_memory.md` R85, R94). -/
theorem memRead_unbound {a : Word} {s : State} (h : s.cpuBus.device a = none) :
    memRead a s = .next (s.cpu.eng.databus, { s with cpu := s.cpu.onBus a s.cpu.eng.databus true }) := by
  simp [memRead, Bus.read, h]

/-- A read goes through when no deferred access is pending and no device misbehaves. -/
theorem memRead_next {a : Word} {s : State} (hb : s.cpuBus.without Device.misbehaves = true)
    (hp : s.ppu.pend = .none) : ∃ b s', memRead a s = .next (b, s') := by
  unfold memRead Bus.read
  split
  · exact ⟨_, _, rfl⟩
  · exact ⟨_, _, rfl⟩
  · next e _ => nomatch e
  · next e h =>
    exfalso
    split at h
    · next d hd =>
      have := Bus.device_of_without hb hd
      cases d <;> simp only [Device.read, Device.misbehaves] at h this
      case ppuRegs =>
        obtain ⟨b, q, hq⟩ := Ppu.regRead_next (mask := s.config.paletteReadMask) (r := ppuReg a) hp
        rw [hq] at h; cases h
      all_goals first | exact absurd this (by decide) | cases h
    · cases h

/-- The only refusals of a read on buses whose devices behave. -/
theorem memRead_refused {a : Word} {s : State} {e : Refusal} (hb : s.cpuBus.without Device.misbehaves = true)
    (h : memRead a s = .refused e) : e = .ppudataOverlap := by
  unfold memRead Bus.read at h
  split at h
  · cases h
  · cases h
  · cases h
  · next e' h' =>
    cases h
    split at h'
    · next d hd =>
      have := Bus.device_of_without hb hd
      cases d <;> simp only [Device.read, Device.misbehaves] at h' this
      case ppuRegs =>
        split at h'
        · cases h'
        · cases h'
        · next hr => cases h'; exact Ppu.regRead_refused hr
      all_goals first | exact absurd this (by decide) | cases h' | (unfold State.chrWrite at h'; split at h' <;> cases h')
    · cases h'

/-! ## Writes -/

/-- What a device write can change. -/
theorem Device.write_frame {d : Device} {a : Word} {v : Byte} {s s' : State} {ok : Bool}
    (h : d.write a v s = .next (ok, s')) :
    s'.cpu = s.cpu ∧ s'.fixed = s.fixed ∧ s'.lines = s.lines ∧ s'.driver = s.driver ∧
      s'.ram = (if d = .ram then s.ram.write (ramIndex a) v else s.ram) ∧
      s'.vram = (if d = .vram then s.vram.write (vramIndex s.mirroring a) v else s.vram) ∧
      (s'.chr = s.chr ∨ (d = .chr ∧ s'.chr = s.chr.write (chrIndex a) v)) ∧
      (s'.ppu = s.ppu ∨ (d = .ppuRegs ∧ s.ppu.regWrite (ppuReg a) v = .next s'.ppu)) ∧ s'.early = s.early := by
  cases d <;> simp only [Device.write] at h
  case ppuRegs =>
    split at h
    · next p hp => cases h; simp [State.fixed, hp]
    · cases h
    · cases h
  case chr =>
    simp only [State.chrWrite] at h
    split at h <;> (cases h; simp [State.fixed, *])
  all_goals cases h
  all_goals simp [State.fixed]

/-- `MemWrite(a, v)` (`20_memory.md` R86). -/
theorem memWrite_frame {a : Word} {v : Byte} {s s' : State} (h : memWrite a v s = .next s') :
    ∃ d, s'.cpu = s.cpu.onBus a v d ∧ s'.fixed = s.fixed ∧ s'.lines = s.lines ∧ s'.driver = s.driver ∧
      s'.ram = s.ramAfter a v ∧
      s'.vram = (if s.cpuBus.device a = some .vram then s.vram.write (vramIndex s.mirroring a) v else s.vram) ∧
      (s'.chr = s.chr ∨ (s.cpuBus.device a = some .chr ∧ s'.chr = s.chr.write (chrIndex a) v)) ∧
      (s'.ppu = s.ppu ∨ (s.cpuBus.device a = some .ppuRegs ∧ d = false ∧ s.ppu.regWrite (ppuReg a) v = .next s'.ppu)) ∧
      s'.early = s.early := by
  unfold memWrite Bus.write at h
  split at h
  · next ok s1 h1 =>
    cases h
    split at h1
    · next d hd =>
      obtain ⟨hc, hf, hl, hdr, hram, hvram, hchr, hppu, he⟩ := Device.write_frame h1
      refine ⟨!ok, by simp [hc], by simpa [State.fixed] using hf, hl, hdr, ?_, ?_, ?_, ?_, he⟩
      · rw [hram]; unfold State.ramAfter; rw [hd]; cases d <;> simp
      · rw [hvram, hd]; cases d <;> simp
      · rw [hd]; rcases hchr with hchr | ⟨rfl, hchr⟩
        · exact .inl hchr
        · exact .inr ⟨rfl, hchr⟩
      · rw [hd]; rcases hppu with hppu | ⟨rfl, hppu⟩
        · exact .inl hppu
        · refine .inr ⟨rfl, ?_, hppu⟩
          simp only [Device.write, hppu] at h1
          injection h1 with h1
          injection h1 with h1
          rw [← h1]; rfl
    · next hd =>
      cases h1
      exact ⟨true, rfl, rfl, rfl, rfl, by simp [State.ramAfter, hd], by simp [hd], .inl rfl, .inl rfl, rfl⟩
  · cases h
  · cases h

theorem memWrite_next {a : Word} {v : Byte} {s : State} (hb : s.cpuBus.without Device.misbehaves = true)
    (hp : s.ppu.pend = .none) : ∃ s', memWrite a v s = .next s' := by
  unfold memWrite Bus.write
  split
  · exact ⟨_, rfl⟩
  · next e _ => nomatch e
  · next e h =>
    exfalso
    split at h
    · next d hd =>
      have := Bus.device_of_without hb hd
      cases d <;> simp only [Device.write, Device.misbehaves] at h this
      case ppuRegs =>
        obtain ⟨q, hq⟩ := Ppu.regWrite_next (r := ppuReg a) (d := v) hp
        rw [hq] at h; cases h
      all_goals first | exact absurd this (by decide) | cases h
    · cases h

theorem memWrite_refused {a : Word} {v : Byte} {s : State} {e : Refusal}
    (hb : s.cpuBus.without Device.misbehaves = true) (h : memWrite a v s = .refused e) : e = .ppudataOverlap := by
  unfold memWrite Bus.write at h
  split at h
  · cases h
  · cases h
  · next e' h' =>
    cases h
    split at h'
    · next d hd =>
      have := Bus.device_of_without hb hd
      cases d <;> simp only [Device.write, Device.misbehaves] at h' this
      case ppuRegs =>
        split at h'
        · cases h'
        · cases h'
        · next hr => cases h'; exact Ppu.regWrite_refused hr
      all_goals first | exact absurd this (by decide) | cases h' | (unfold State.chrWrite at h'; split at h' <;> cases h')
    · cases h'

end Sys2Proof.Machine
end

