-- ==== Sys2Proof/Laws/Dots.lean ====
section
/-! SUPPORT. What a dot and a run of dots can change, and when they go through. -/

namespace Sys2Proof.Machine

/-- What the PPU's dots leave alone: everything but the PPU itself, the nametable VRAM and the CHR RAM. -/
structure State.SameOutsidePpu (s t : State) : Prop where
  fixed : t.fixed = s.fixed
  cpu : t.cpu = s.cpu
  lines : t.lines = s.lines
  early : t.early = s.early
  driver : t.driver = s.driver
  ram : t.ram = s.ram

theorem State.SameOutsidePpu.refl (s : State) : s.SameOutsidePpu s := ⟨rfl, rfl, rfl, rfl, rfl, rfl⟩

theorem State.SameOutsidePpu.trans {s t u : State} (h : s.SameOutsidePpu t) (k : t.SameOutsidePpu u) :
    s.SameOutsidePpu u :=
  ⟨k.fixed.trans h.fixed, k.cpu.trans h.cpu, k.lines.trans h.lines, k.early.trans h.early, k.driver.trans h.driver, k.ram.trans h.ram⟩

/-- Setting the PPU changes the PPU. -/
theorem State.SameOutsidePpu.ppu (s : State) (p : Ppu) : s.SameOutsidePpu { s with ppu := p } := ⟨rfl, rfl, rfl, rfl, rfl, rfl⟩

/-! ## The video bus -/

/-- A write to the CHR device changes the CHR at most (`20_memory.md` R101). -/
theorem State.chrWrite_eq (s : State) (a : Word) (v : Byte) : ∃ ok c, s.chrWrite a v = (ok, { s with chr := c }) := by
  unfold State.chrWrite; split <;> exact ⟨_, _, rfl⟩

theorem vRead_next {a : BitVec 14} {s : State} (hb : s.videoBus.without Device.notVideo = true) :
    ∃ o, vRead a s = .next (o, { s with ppu := { s.ppu with bflt := o.isNone } }) := by
  unfold vRead Bus.read
  cases hd : s.videoBus.device (a.setWidth 16) with
  | none => exact ⟨none, rfl⟩
  | some d =>
    have := Bus.device_of_without hb hd
    cases d <;> first | exact ⟨_, rfl⟩ | exact absurd this (by decide)

theorem vWrite_next {a : BitVec 14} {v : Byte} {s : State} (hb : s.videoBus.without Device.notVideo = true) :
    ∃ s', vWrite a v s = .next s' ∧ s.SameOutsidePpu s' ∧ ∃ f, s'.ppu = { s.ppu with bflt := f } := by
  unfold vWrite Bus.write
  cases hd : s.videoBus.device (a.setWidth 16) with
  | none => exact ⟨_, rfl, .ppu _ _, true, rfl⟩
  | some d =>
    have := Bus.device_of_without hb hd
    cases d
    case vram => exact ⟨_, rfl, ⟨rfl, rfl, rfl, rfl, rfl, rfl⟩, _, rfl⟩
    case chr =>
      obtain ⟨ok, c, h⟩ := State.chrWrite_eq s (a.setWidth 16) v
      simp only [Device.write, h]
      exact ⟨_, rfl, ⟨rfl, rfl, rfl, rfl, rfl, rfl⟩, _, rfl⟩
    all_goals exact absurd this (by decide)

/-! ## The deferred access -/

/-- `access_step()` (`46_ppu.md` R310) on a video bus with video devices only: it goes through; the counter, the trackers and the
object memory are untouched; the access moves on by one of its two dots; only a write changes a memory. -/
theorem accessStep_next {s : State} (hb : s.videoBus.without Device.notVideo = true) :
    ∃ s', accessStep s = .next s' ∧ s.SameOutsidePpu s' ∧ s'.ppu.prst = s.ppu.prst ∧
      s'.ppu.oam = s.ppu.oam ∧ s'.ppu.ctrl = s.ppu.ctrl ∧
      (s.ppu.pend ≠ .write → s'.videoMemory = s.videoMemory) ∧
      (s.ppu.pend = .none → s'.ppu.pend = .none) ∧
      (s.ppu.ale = true → s'.ppu.pend = .none) ∧
      (s.ppu.pend ≠ .none → s.ppu.ale = false → s'.ppu.pend = s.ppu.pend ∧ s'.ppu.ale = true) := by
  unfold accessStep
  split
  · next h => exact ⟨s, rfl, .refl s, rfl, rfl, rfl, fun _ => rfl, fun _ => h, fun _ => h, fun hp => absurd h hp⟩
  · exact ⟨_, rfl, .ppu _ _, rfl, rfl, rfl, fun _ => rfl, fun h => by simp_all, fun h => by simp_all, fun _ _ => ⟨rfl, rfl⟩⟩
  · next hp hale =>
    unfold accessWrite
    split
    · exact ⟨_, rfl, .ppu _ _, rfl, rfl, rfl, fun h => absurd hp h, fun h => by simp_all, fun _ => rfl, fun _ h => by simp_all⟩
    · obtain ⟨s', h, hs, f, hf⟩ := vWrite_next (a := s.ppu.vaddr) (v := s.ppu.pdata) hb
      rw [h, Res.bind_next]
      exact ⟨_, rfl, hs.trans (.ppu _ _), by simp [Ppu.endAccess, hf], by simp [Ppu.endAccess, hf],
        by simp [Ppu.endAccess, hf],
        fun h => absurd hp h, fun h => by simp_all, fun _ => rfl, fun _ h => by simp_all⟩
  · next hp hale =>
    unfold accessRead
    obtain ⟨o, h⟩ := vRead_next (a := s.ppu.vaddr) hb
    rw [h]
    cases o with
    | none =>
      exact ⟨_, rfl, .ppu _ _, rfl, rfl, rfl, fun _ => rfl, fun h => by simp_all, fun _ => rfl, fun _ h => by simp_all⟩
    | some v =>
      exact ⟨_, rfl, .ppu _ _, rfl, rfl, rfl, fun _ => rfl, fun h => by simp_all, fun _ => rfl, fun _ h => by simp_all⟩

/-! ## Dots -/

theorem Ppu.dotEvents_holds {p : Ppu} (h : p.prst.holdsPpu = false) : p.dotEvents.prst.holdsPpu = false := by
  rcases p.dotEvents_prst with hp | ⟨-, hp⟩
  · rw [hp, h]
  · rw [hp]; rfl

/-- How many dots a pending access still needs. -/
def Ppu.dotsLeft (p : Ppu) : Nat :=
  match p.pend with
  | .none => 0
  | _ => if p.ale then 1 else 2

theorem Ppu.dotsLeft_zero {p : Ppu} : p.dotsLeft = 0 ↔ p.pend = .none := by
  unfold Ppu.dotsLeft; split
  · simp [*]
  · split <;> simp_all

theorem Ppu.dotsLeft_le (p : Ppu) : p.dotsLeft ≤ 2 := by
  unfold Ppu.dotsLeft; split <;> (try split) <;> omega

/-- `ppu_cycle()` (`46_ppu.md` R330) with the reset line high and no reset under way: it goes through, moves a pending access on,
and leaves the object memory alone; only a write changes a memory. -/
theorem ppuCycle_next {s : State} (hb : s.videoBus.without Device.notVideo = true) (hr : s.lines.rstN = true)
    (hh : s.ppu.prst.holdsPpu = false) :
    ∃ s', ppuCycle s = .next s' ∧ s.SameOutsidePpu s' ∧ s'.ppu.prst.holdsPpu = false ∧ s'.ppu.oam = s.ppu.oam ∧
      s'.ppu.ctrl = s.ppu.ctrl ∧
      (s.ppu.pend ≠ .write → s'.videoMemory = s.videoMemory ∧ s'.ppu.pend ≠ .write) ∧
      s'.ppu.dotsLeft = s.ppu.dotsLeft - 1 := by
  obtain ⟨s', h, hs, hp, ho, hct, hv, hn, ha, hq⟩ := accessStep_next (s := { s with ppu := s.ppu.dotEvents }) hb
  simp only [Ppu.dotEvents_oam, Ppu.dotEvents_pend, Ppu.dotEvents_ale, Ppu.dotEvents_ctrl] at ho hct hv hn ha hq
  refine ⟨{ s' with ppu := s'.ppu.advance }, ?_, ?_, ?_, ?_, ?_, ?_, ?_⟩
  · simp only [ppuCycle, hr, Ppu.prstStep_quiet hh, hh, h, Res.bind_next]; rfl
  · exact (State.SameOutsidePpu.ppu s _).trans (hs.trans (.ppu _ _))
  · rw [Ppu.advance_prst, hp]; exact Ppu.dotEvents_holds hh
  · rw [Ppu.advance_oam, ho]
  · rw [Ppu.advance_ctrl, hct]
  · intro hw
    refine ⟨by simpa [State.videoMemory] using hv hw, ?_⟩
    simp only [Ppu.advance_pend]
    by_cases hz : s.ppu.pend = .none
    · rw [hn hz]; simp
    · by_cases hale : s.ppu.ale = true
      · rw [ha hale]; simp
      · rw [(hq hz (by simpa using hale)).1]; exact hw
  · simp only [Ppu.dotsLeft, Ppu.advance_pend, Ppu.advance_ale]
    cases hz : s.ppu.pend <;> cases hale : s.ppu.ale <;> simp_all

/-- A run of dots with the reset line high: enough of them complete a pending access (`46_ppu.md` R310). -/
theorem dots_next {ls : List Bool} {s : State} (hb : s.videoBus.without Device.notVideo = true) (hr : s.lines.rstN = true)
    (hh : s.ppu.prst.holdsPpu = false) (hl : ∀ l ∈ ls, l = true) :
    ∃ s', dots ls s = .next s' ∧ s.SameOutsidePpu s' ∧ s'.ppu.prst.holdsPpu = false ∧ s'.ppu.oam = s.ppu.oam ∧
      s'.ppu.ctrl = s.ppu.ctrl ∧
      (s.ppu.pend ≠ .write → s'.videoMemory = s.videoMemory) ∧ s'.ppu.dotsLeft = s.ppu.dotsLeft - ls.length := by
  induction ls generalizing s with
  | nil => exact ⟨s, rfl, .refl s, hh, rfl, rfl, fun _ => rfl, rfl⟩
  | cons l ls ih =>
    obtain ⟨s1, h, hs, hh1, ho, hct, hv, hl1⟩ := ppuCycle_next hb hr hh
    obtain ⟨s2, h2, hs2, hh2, ho2, hct2, hv2, hl2⟩ :=
      ih (s := s1) (by rw [(State.fixed_eq.mp hs.fixed).2.2.2.2.2]; exact hb) (by rw [hs.lines]; exact hr) hh1
        (fun l h => hl l (by simp [h]))
    have hw : s.withRst l = s := State.withRst_same (by rw [hr, hl l (by simp)])
    exact ⟨s2, by simp only [dots, hw, h, Res.bind_next, h2], hs.trans hs2, hh2, ho2.trans ho, hct2.trans hct,
      fun hw => (hv2 (hv hw).2).trans (hv hw).1, by simp only [List.length_cons]; omega⟩

/-! ## What dots leave of the PPU's registers -/

theorem Ppu.SameRegisters.refl (p : Ppu) : p.SameRegisters p := ⟨rfl, rfl, rfl, rfl, rfl, rfl, rfl, rfl, fun h => ⟨h, rfl, rfl, rfl⟩⟩

theorem Ppu.SameRegisters.trans {p q r : Ppu} (h : p.SameRegisters q) (k : q.SameRegisters r) : p.SameRegisters r :=
  ⟨k.ctrl.trans h.ctrl, k.mask.trans h.mask, k.t.trans h.t, k.x.trans h.x, k.w.trans h.w, k.oamaddr.trans h.oamaddr,
    k.oam.trans h.oam, k.iolatch.trans h.iolatch, fun hp =>
    have ⟨a1, a2, a3, a4⟩ := h.idle hp
    have ⟨b1, b2, b3, b4⟩ := k.idle a1
    ⟨b1, b2.trans a2, b3.trans a3, b4.trans a4⟩⟩

theorem Ppu.dotEvents_sameRegisters (p : Ppu) : p.SameRegisters p.dotEvents := by constructor <;> simp

theorem Ppu.advance_sameRegisters (p : Ppu) : p.SameRegisters p.advance := by constructor <;> simp

theorem accessStep_sameRegisters {s t : State} (hb : s.videoBus.without Device.notVideo = true) (h : accessStep s = .next t) :
    s.ppu.SameRegisters t.ppu := by
  unfold accessStep at h
  split at h
  · cases h; exact .refl _
  · next hp => cases h; exact ⟨rfl, rfl, rfl, rfl, rfl, rfl, rfl, rfl, fun hn => absurd hn hp⟩
  · next hp _ =>
    unfold accessWrite at h
    split at h
    · cases h; exact ⟨rfl, rfl, rfl, rfl, rfl, rfl, rfl, rfl, fun hn => by simp [hp] at hn⟩
    · obtain ⟨s', h1, -, f, hf⟩ := vWrite_next (a := s.ppu.vaddr) (v := s.ppu.pdata) hb
      rw [h1] at h; cases h
      constructor <;> simp [Ppu.endAccess, hf, hp]
  · next hp _ =>
    unfold accessRead at h
    obtain ⟨o, h1⟩ := vRead_next (a := s.ppu.vaddr) hb
    rw [h1] at h
    cases o <;> cases h <;> exact ⟨rfl, rfl, rfl, rfl, rfl, rfl, rfl, rfl, fun hn => by simp [hp] at hn⟩

/-- A dot, with the reset line high and no reset under way, keeps the registers (`46_ppu.md` R330). -/
theorem ppuCycle_sameRegisters {s t : State} (hb : s.videoBus.without Device.notVideo = true) (hr : s.lines.rstN = true)
    (hh : s.ppu.prst.holdsPpu = false) (h : ppuCycle s = .next t) : s.ppu.SameRegisters t.ppu := by
  simp only [ppuCycle, hr, Ppu.prstStep_quiet hh, hh, if_false, Bool.false_eq_true, Res.bind_eq_next] at h
  obtain ⟨u, hu, h⟩ := h
  cases h
  exact s.ppu.dotEvents_sameRegisters.trans ((accessStep_sameRegisters (by exact hb) hu).trans u.ppu.advance_sameRegisters)

theorem dots_sameRegisters {ls : List Bool} {s t : State} (hb : s.videoBus.without Device.notVideo = true) (hr : s.lines.rstN = true)
    (hh : s.ppu.prst.holdsPpu = false) (hl : ∀ l ∈ ls, l = true) (h : dots ls s = .next t) : s.ppu.SameRegisters t.ppu := by
  induction ls generalizing s with
  | nil => cases h; exact .refl _
  | cons l ls ih =>
    have hw : s.withRst l = s := State.withRst_same (by rw [hr, hl l (by simp)])
    simp only [dots, hw, Res.bind_eq_next] at h
    obtain ⟨u, h1, h2⟩ := h
    obtain ⟨u', h3, hs, hh', -⟩ := ppuCycle_next hb hr hh
    obtain rfl : u = u' := by rw [h1] at h3; injection h3
    exact (ppuCycle_sameRegisters hb hr hh h1).trans
      (ih (by rw [(State.fixed_eq.mp hs.fixed).2.2.2.2.2]; exact hb) (by rw [hs.lines]; exact hr) hh' (fun l h => hl l (by simp [h])) h2)

/-! ## Dots whatever the reset line -/

/-- A dot has a next state whatever the reset line, and changes nothing outside the PPU and its video memories. -/
theorem ppuCycle_total {s : State} (hb : s.videoBus.without Device.notVideo = true) :
    ∃ t, ppuCycle s = .next t ∧ s.SameOutsidePpu t := by
  unfold ppuCycle
  dsimp only
  split
  · exact ⟨_, rfl, .ppu s _⟩
  · obtain ⟨u, h, hs, -⟩ := accessStep_next (s := { s with ppu := (s.ppu.prstStep s.lines.rstN).dotEvents }) hb
    exact ⟨_, by rw [h, Res.bind_next], (State.SameOutsidePpu.ppu s _).trans (hs.trans (.ppu u _))⟩

/-- Dots have a next state whatever the reset line does, and leave alone the same but for that line. -/
theorem dots_total {ls : List Bool} {s : State} (hb : s.videoBus.without Device.notVideo = true) :
    ∃ t l, dots ls s = .next t ∧ (s.withRst l).SameOutsidePpu t := by
  induction ls generalizing s with
  | nil => exact ⟨s, s.lines.rstN, rfl, by rw [State.withRst_same rfl]; exact .refl s⟩
  | cons l ls ih =>
    obtain ⟨u, h, hs⟩ := ppuCycle_total (s := s.withRst l) hb
    obtain ⟨t, l2, h2, hs2⟩ := ih (s := u) (by rw [(State.fixed_eq.mp hs.fixed).2.2.2.2.2]; exact hb)
    exact ⟨t, l2, by simp only [dots, h, Res.bind_next, h2],
      ⟨hs2.fixed.trans hs.fixed, hs2.cpu.trans hs.cpu, hs2.lines.trans (by simp only [State.withRst, hs.lines]), hs2.early.trans hs.early,
        hs2.driver.trans hs.driver, hs2.ram.trans hs.ram⟩⟩

end Sys2Proof.Machine
end

