-- ==== Sys2Proof/Laws/Cycle.lean ====
section
/-! SUPPORT. One cycle of a sequence, said once: what it reads, writes and changes, and that it goes through while the PPU keeps
up (`State.Running`). -/

namespace Sys2Proof.Machine

/-! ## The CPU's part of the end of a cycle -/

/-- `Row.finish` as it acts on the CPU, for the levels of the three lines. -/
def Row.closeCpu (r : Row) (commits irqN nmiN rstN : Bool) (c : Cpu) : Cpu :=
  let c1 := if r.final && commits then c.commit else c
  let c2 := { c1 with trk := {
    irq := sampleIrq irqN c1.trk.irq, nmi := sampleEdge nmiN c1.trk.nmi, rst := sampleEdge rstN c1.trk.rst } }
  let c3 := if r.poll then c2.promote else c2
  c3.advance r.final

theorem Row.finish_cpu (r : Row) (k : Bool) (s : State) :
    (r.finish k s).cpu = r.closeCpu k s.lines.irqN s.nmiN s.lines.rstN s.cpu := by
  unfold Row.finish Row.closeCpu; cases r.final && k <;> cases r.poll <;> rfl

section
variable (r : Row) (k i n z : Bool) (c : Cpu)
@[simp] theorem Row.closeCpu_regs : (r.closeCpu k i n z c).regs = c.regs := by
  unfold Row.closeCpu; cases r.final && k <;> cases r.poll <;> rfl
@[simp] theorem Row.closeCpu_t : (r.closeCpu k i n z c).eng.t = if r.final then c.eng.t else c.eng.t + 1 := by
  unfold Row.closeCpu; cases r.final <;> cases k <;> cases r.poll <;> rfl
@[simp] theorem Row.closeCpu_opc : (r.closeCpu k i n z c).eng.opc = c.eng.opc := by
  unfold Row.closeCpu; cases r.final <;> cases k <;> cases r.poll <;> rfl
@[simp] theorem Row.closeCpu_kind : (r.closeCpu k i n z c).eng.kind = c.eng.kind := by
  unfold Row.closeCpu; cases r.final <;> cases k <;> cases r.poll <;> rfl
@[simp] theorem Row.closeCpu_adl : (r.closeCpu k i n z c).eng.adl = c.eng.adl := by
  unfold Row.closeCpu; cases r.final <;> cases k <;> cases r.poll <;> rfl
@[simp] theorem Row.closeCpu_adh : (r.closeCpu k i n z c).eng.adh = c.eng.adh := by
  unfold Row.closeCpu; cases r.final <;> cases k <;> cases r.poll <;> rfl
@[simp] theorem Row.closeCpu_adc : (r.closeCpu k i n z c).eng.adc = c.eng.adc := by
  unfold Row.closeCpu; cases r.final <;> cases k <;> cases r.poll <;> rfl
@[simp] theorem Row.closeCpu_ptr : (r.closeCpu k i n z c).eng.ptr = c.eng.ptr := by
  unfold Row.closeCpu; cases r.final <;> cases k <;> cases r.poll <;> rfl
@[simp] theorem Row.closeCpu_lat : (r.closeCpu k i n z c).eng.lat = c.eng.lat := by
  unfold Row.closeCpu; cases r.final <;> cases k <;> cases r.poll <;> rfl
@[simp] theorem Row.closeCpu_off : (r.closeCpu k i n z c).eng.off = c.eng.off := by
  unfold Row.closeCpu; cases r.final <;> cases k <;> cases r.poll <;> rfl
@[simp] theorem Row.closeCpu_tgt : (r.closeCpu k i n z c).eng.tgt = c.eng.tgt := by
  unfold Row.closeCpu; cases r.final <;> cases k <;> cases r.poll <;> rfl
@[simp] theorem Row.closeCpu_val : (r.closeCpu k i n z c).eng.val = c.eng.val := by
  unfold Row.closeCpu; cases r.final <;> cases k <;> cases r.poll <;> rfl
@[simp] theorem Row.closeCpu_vec : (r.closeCpu k i n z c).eng.vec = c.eng.vec := by
  unfold Row.closeCpu; cases r.final <;> cases k <;> cases r.poll <;> rfl
@[simp] theorem Row.closeCpu_addrbus : (r.closeCpu k i n z c).eng.addrbus = c.eng.addrbus := by
  unfold Row.closeCpu; cases r.final <;> cases k <;> cases r.poll <;> rfl
@[simp] theorem Row.closeCpu_databus : (r.closeCpu k i n z c).eng.databus = c.eng.databus := by
  unfold Row.closeCpu; cases r.final <;> cases k <;> cases r.poll <;> rfl
@[simp] theorem Row.closeCpu_jammed : (r.closeCpu k i n z c).eng.jammed = c.eng.jammed := by
  unfold Row.closeCpu; cases r.final <;> cases k <;> cases r.poll <;> rfl
@[simp] theorem Row.closeCpu_dflt : (r.closeCpu k i n z c).eng.dflt = c.eng.dflt := by
  unfold Row.closeCpu; cases r.final <;> cases k <;> cases r.poll <;> rfl
@[simp] theorem Row.closeCpu_presync : (r.closeCpu k i n z c).eng.presync = (r.final || c.eng.presync) := by
  unfold Row.closeCpu; cases r.final <;> cases k <;> cases r.poll <;> rfl
@[simp] theorem Row.closeCpu_imask : (r.closeCpu k i n z c).eng.imask = if r.poll then c.regs.p.i else c.eng.imask := by
  unfold Row.closeCpu; cases r.final <;> cases k <;> cases r.poll <;> rfl
@[simp] theorem Row.closeCpu_irq : (r.closeCpu k i n z c).trk.irq =
    (if r.poll then Tracker.promoted else id) (sampleIrq i
      (if r.final && k && !c.eng.imask then c.trk.irq.committedFrom else c.trk.irq)) := by
  unfold Row.closeCpu; cases r.final <;> cases k <;> cases r.poll <;> cases h : c.eng.imask <;>
    simp [Cpu.promote, Cpu.commit, h]
@[simp] theorem Row.closeCpu_nmi : (r.closeCpu k i n z c).trk.nmi =
    (if r.poll then Tracker.promoted else id) (sampleEdge n
      (if r.final && k then c.trk.nmi.committedFrom else c.trk.nmi)) := by
  unfold Row.closeCpu; cases r.final <;> cases k <;> cases r.poll <;> rfl
@[simp] theorem Row.closeCpu_rst : (r.closeCpu k i n z c).trk.rst =
    (if r.poll then Tracker.promoted else id) (sampleEdge z
      (if r.final && k then c.trk.rst.committedFrom else c.trk.rst)) := by
  unfold Row.closeCpu; cases r.final <;> cases k <;> cases r.poll <;> rfl
end

/-! ## One cycle while the PPU keeps up -/

/-- What one cycle with row `r` made of `s`: `b` was on the data bus, and the lines stood at some levels. -/
structure Ticked (r : Row) (commits : Bool) (s : State) (b : Byte) (t : State) : Prop where
  running : t.Running
  fixed : t.fixed = s.fixed
  driver : t.driver = s.driver.tail
  lines : t.lines = s.takeDriver.lines
  cpu : ∃ dflt nmiN, t.cpu = r.closeCpu commits s.takeDriver.lines.irqN nmiN true (r.effect b (s.cpu.onBus r.addr b dflt)) ∧
    (s.NmiHigh → r.out = none ∨ s.plainTarget r.addr = true → nmiN = true ∧ t.NmiHigh)
  read : r.out = none → t.ram = s.ram ∧ t.videoMemory = s.videoMemory
  readByte : r.out = none → ∀ v, s.peek r.addr = some v → b = v
  write : ∀ v, r.out = some v → b = v ∧ t.ram = s.ramAfter r.addr v ∧
    (s.plainTarget r.addr = true → t.videoMemory = s.videoMemory)

theorem State.takeDriver_rstN {s : State} (h : s.Running) : s.takeDriver.lines.rstN = true := by
  unfold State.takeDriver
  cases hd : s.driver with
  | nil => exact h.rstN
  | cons d rest => exact (h.driver d (by simp [hd])).1

theorem State.nextDots_running {s : State} (h : s.Running) : (∀ l ∈ s.nextDots, l = true) ∧ 2 ≤ s.nextDots.length := by
  unfold State.nextDots
  cases hd : s.driver with
  | nil => simp [h.rstN]
  | cons d rest => exact (h.driver d (by simp [hd])).2

/-- The access of a row goes through. -/
theorem Row.access_running (r : Row) {s : State} (h : s.Running) :
    ∃ b s1 d, r.access s.takeDriver = .next (b, s1) ∧ s1.cpu = s.cpu.onBus r.addr b d ∧ s1.fixed = s.fixed ∧
      s1.lines = s.takeDriver.lines ∧ s1.driver = s.driver.tail ∧ s1.early = s.early ∧ s1.ppu.prst = s.ppu.prst ∧
      (r.out = none ∨ s.plainTarget r.addr = true → s1.ppu.ctrl = s.ppu.ctrl) ∧
      (r.out = none → s1.ram = s.ram ∧ s1.videoMemory = s.videoMemory ∧ s1.ppu.pend ≠ .write ∧
        ∀ v, s.peek r.addr = some v → b = v) ∧
      (∀ v, r.out = some v → b = v ∧ s1.ram = s.ramAfter r.addr v ∧
        (s.plainTarget r.addr = true → s1.videoMemory = s.videoMemory ∧ s1.ppu.pend ≠ .write)) := by
  have hb : s.takeDriver.cpuBus.without Device.misbehaves = true := by simpa using h.buses.cpu
  have hp : s.takeDriver.ppu.pend = .none := by simpa using h.idle
  unfold Row.access
  cases ho : r.out with
  | none =>
    obtain ⟨b, s1, h1⟩ := memRead_next (a := r.addr) hb hp
    obtain ⟨d, p, hs, hq⟩ := memRead_frame h1
    have hpp : p.oam = s.ppu.oam ∧ p.pal = s.ppu.pal ∧ p.prst = s.ppu.prst ∧ p.pend ≠ .write ∧ p.ctrl = s.ppu.ctrl := by
      rcases hq with rfl | ⟨-, -, hr⟩
      · simp [h.idle]
      · have := Ppu.regRead_frame hr
        simp_all
        rcases this with ⟨_, _, _, _, _, _, _, _, _, _, _, _, _, _, _, _, h | h⟩ <;> simp [h]
    refine ⟨b, s1, d, h1, by rw [hs]; simp, by rw [hs]; simp [State.fixed], by rw [hs], by rw [hs]; simp, by rw [hs]; simp,
      by rw [hs]; exact hpp.2.2.1, fun _ => by rw [hs]; exact hpp.2.2.2.2,
      fun _ => ⟨by rw [hs]; simp, by rw [hs]; simp [State.videoMemory, hpp], by rw [hs]; exact hpp.2.2.2.1, ?_⟩, by simp⟩
    intro v hv
    have := memRead_peek (s := s.takeDriver) (a := r.addr) (v := v) (by simpa [State.peek, State.prgRead] using hv)
    rw [this] at h1
    cases h1; rfl
  | some v =>
    obtain ⟨s1, h1⟩ := memWrite_next (a := r.addr) (v := v) hb hp
    obtain ⟨d, hc, hf, hl, hd, hram, hvram, hchr, hppu, he⟩ := memWrite_frame h1
    have hprst : s1.ppu.prst = s.ppu.prst := by
      rcases hppu with hppu | ⟨-, -, hr⟩
      · simp [hppu]
      · have := Ppu.regWrite_frame hr; simp_all
    have hplain : s.plainTarget r.addr = true → s1.vram = s.vram ∧ s1.chr = s.chr ∧ s1.ppu = s.ppu := by
      intro hq
      unfold State.plainTarget at hq
      simp only [State.takeDriver_cpuBus] at hvram hchr hppu
      have e1 : s.cpuBus.device r.addr ≠ some .vram := by intro e; simp [e] at hq
      have e2 : s.cpuBus.device r.addr ≠ some .chr := by intro e; simp [e] at hq
      have e3 : s.cpuBus.device r.addr ≠ some .ppuRegs := by intro e; simp [e] at hq
      simp only [e1, e2, e3, if_false, false_and, or_false] at hvram hchr hppu
      exact ⟨by simpa using hvram, by simpa using hchr, by simpa using hppu⟩
    refine ⟨v, s1, d, by simp [h1], by simpa using hc, by simpa using hf, hl, by simpa using hd, by simpa using he, hprst,
      fun hq => by rw [(hplain (by simpa using hq)).2.2], by simp, ?_⟩
    rintro w ⟨⟩
    refine ⟨rfl, by simpa [State.ramAfter] using hram, fun hq => ?_⟩
    obtain ⟨h1, h2, h3⟩ := hplain hq
    exact ⟨by simp [State.videoMemory, h1, h2, h3], by simp [h3, h.idle]⟩

/-- A cycle goes through while the PPU keeps up, and keeps it so. -/
theorem tick_running {seq : Sequence} {commits : Bool} {s : State} {r : Row} (h : s.Running)
    (hr : seq s.cpu.eng.t s.cpu = r) :
    ∃ b t, tick seq commits s = .next (t, r.final || r.halt) ∧ Ticked r commits s b t := by
  obtain ⟨b, s1, d, h1, hc, hf, hl, hd, he, hp, hctrl, hread, hwrite⟩ := Row.access_running r h
  have hfix := State.fixed_eq.mp hf
  obtain ⟨s2, h2, hs, hh, ho, hct, hv, hleft⟩ := dots_next (ls := s.nextDots)
    (s := r.finish commits { s1 with cpu := r.effect b s1.cpu })
    (by simp only [Row.finish_videoBus]; rw [hfix.2.2.2.2.2]; exact h.buses.video)
    (by simp only [Row.finish_lines]; rw [hl]; exact State.takeDriver_rstN h)
    (by simp only [Row.finish_ppu]; rw [hp]; exact h.released) (State.nextDots_running h).1
  have hf2 : s2.fixed = s.fixed := hs.fixed.trans (by rw [Row.finish_fixed]; exact hf)
  have hfix2 := State.fixed_eq.mp hf2
  have hidle : s2.ppu.pend = .none := Ppu.dotsLeft_zero.mp (by
    have := Ppu.dotsLeft_le (r.finish commits { s1 with cpu := r.effect b s1.cpu }).ppu
    have := (State.nextDots_running h).2
    omega)
  refine ⟨b, s2, ?_, ?_⟩
  · simp only [tick, hr, h1, Res.bind_next, h2]
  · constructor
    · exact ⟨⟨by rw [hfix2.2.2.2.2.1]; exact h.buses.cpu, by rw [hfix2.2.2.2.2.2]; exact h.buses.video⟩, hidle, hh,
        by rw [hs.lines, Row.finish_lines, hl]; exact State.takeDriver_rstN h,
        by rw [hs.early, Row.finish_early, he]; exact h.early, by rw [hs.driver, Row.finish_driver, hd]; exact fun d hd => h.driver d (List.mem_of_mem_tail hd)⟩
    · exact hf2
    · rw [hs.driver, Row.finish_driver, hd]
    · rw [hs.lines, Row.finish_lines, hl]
    · refine ⟨d, { s1 with cpu := r.effect b s1.cpu }.nmiN, ?_, ?_⟩
      · rw [hs.cpu, Row.finish_cpu, hc, hl, State.takeDriver_rstN h]
      · intro hn hq
        have hv : s1.ppu.ctrl.v = false := by rw [hctrl hq]; exact hn.ppu
        have hx : s1.lines.nmiExtN = true := by
          rw [hl]
          unfold State.takeDriver
          cases hd : s.driver with
          | nil => exact hn.now
          | cons d rest => exact hn.later d (by simp [hd])
        refine ⟨by simp [State.nmiN, Ppu.nmiN, hv, hx], ⟨?_, ?_, ?_⟩⟩
        · rw [hct, Row.finish_ppu]; exact hv
        · rw [hs.lines, Row.finish_lines]; exact hx
        · rw [hs.driver, Row.finish_driver, hd]; exact fun d hd => hn.later d (List.mem_of_mem_tail hd)
    · intro hn
      have := hread hn
      refine ⟨by rw [hs.ram, Row.finish_ram]; exact this.1, ?_⟩
      rw [hv (by simpa using this.2.2.1), Row.finish_videoMemory]; exact this.2.1
    · exact fun hn => (hread hn).2.2.2
    · intro v hn
      have := hwrite v hn
      refine ⟨this.1, by rw [hs.ram, Row.finish_ram]; exact this.2.1, fun hq => ?_⟩
      rw [hv (by simpa using (this.2.2 hq).2), Row.finish_videoMemory]; exact (this.2.2 hq).1

/-! ## Cycles in a row -/

theorem runSequence_go {seq : Sequence} {commits : Bool} {s t : State} {n : Nat} (h : tick seq commits s = .next (t, false)) :
    runSequence seq commits (n + 1) s = runSequence seq commits n t := by
  simp [runSequence, h]

theorem runSequence_end {seq : Sequence} {commits : Bool} {s t : State} {n : Nat} (h : tick seq commits s = .next (t, true)) :
    runSequence seq commits (n + 1) s = .next t := by
  simp [runSequence, h]

end Sys2Proof.Machine
end

