-- ==== Sys2Proof/Laws/Quiet.lean ====
section
/-! SUPPORT. Reads in a row, and what polling the interrupts leaves. -/

namespace Sys2Proof.Machine

theorem Ticked.irqLow {r : Row} {k : Bool} {s t : State} {b : Byte} (h : Ticked r k s b t) (hl : s.IrqLow) : t.IrqLow := by
  constructor
  · rw [h.lines]
    unfold State.takeDriver
    cases hd : s.driver with
    | nil => exact hl.now
    | cons d rest => exact hl.later d (by simp [hd])
  · rw [h.driver]; exact fun d hd => hl.later d (List.mem_of_mem_tail hd)


/-- `n` cycles that only read led from `s` to `t`. -/
structure Quiet (n : Nat) (s t : State) : Prop where
  running : t.Running
  fixed : t.fixed = s.fixed
  driver : t.driver = s.driver.drop n
  ram : t.ram = s.ram
  video : t.videoMemory = s.videoMemory
  irqLow : s.IrqLow → t.IrqLow

theorem Quiet.refl {s : State} (h : s.Running) : Quiet 0 s s := ⟨h, rfl, rfl, rfl, rfl, id⟩

/-- What plain memory holds depends on the RAM, the cartridge and the wiring only. -/
theorem State.peek_congr {s t : State} (hf : t.fixed = s.fixed) (hr : t.ram = s.ram) : t.peek = s.peek := by
  obtain ⟨-, h2, -, h4, h5, -⟩ := State.fixed_eq.mp hf
  funext a
  simp only [State.peek, State.prgRead, h2, h4, h5, hr]

theorem Quiet.peek {n : Nat} {s t : State} (h : Quiet n s t) : t.peek = s.peek := State.peek_congr h.fixed h.ram

theorem Quiet.step {n : Nat} {s t u : State} {r : Row} {k : Bool} {b : Byte} (h : Quiet n s t) (hk : Ticked r k t b u)
    (hr : r.out = none) : Quiet (n + 1) s u :=
  ⟨hk.running, hk.fixed.trans h.fixed, by rw [hk.driver, h.driver, List.tail_drop], (hk.read hr).1.trans h.ram,
    (hk.read hr).2.trans h.video, fun hl => hk.irqLow (h.irqLow hl)⟩

/-- One more read cycle, with row `r`. -/
theorem Quiet.next {n : Nat} {s t : State} {seq : Sequence} {k : Bool} {r : Row} (h : Quiet n s t)
    (hr : seq t.cpu.eng.t t.cpu = r) (ho : r.out = none) :
    ∃ b u d m, tick seq k t = .next (u, r.final || r.halt) ∧ Quiet (n + 1) s u ∧
      u.cpu = r.closeCpu k u.lines.irqN m true (r.effect b (t.cpu.onBus r.addr b d)) ∧
      ∀ v, s.peek r.addr = some v → b = v := by
  obtain ⟨b, u, e, hk⟩ := tick_running (seq := seq) (commits := k) h.running hr
  obtain ⟨d, m, hc, -⟩ := hk.cpu
  exact ⟨b, u, d, m, e, h.step hk ho, by rw [hk.lines]; exact hc, fun v hv => hk.readByte ho v (by rw [h.peek]; exact hv)⟩

/-! ## Polling -/

@[simp] theorem sampleEdge_detected (n : Bool) : sampleEdge n .detected = .detected := by cases n <;> rfl
@[simp] theorem sampleEdge_pending (n : Bool) : sampleEdge n .pending = .pending := by cases n <;> rfl
@[simp] theorem sampleEdge_committed (n : Bool) : sampleEdge n .committed = .committed := by cases n <;> rfl
@[simp] theorem sampleIrq_committed (n : Bool) : sampleIrq n .committed = .committed := by cases n <;> rfl
@[simp] theorem sampleIrq_eq_committed (n : Bool) (k : Tracker) : sampleIrq n k = .committed ↔ k = .committed := by
  cases n <;> cases k <;> decide
@[simp] theorem sampleIrq_eq_serviced (n : Bool) (k : Tracker) : sampleIrq n k = .serviced ↔ k = .serviced := by
  cases n <;> cases k <;> decide
@[simp] theorem sampleEdge_eq_committed (n : Bool) (k : Tracker) : sampleEdge n k = .committed ↔ k = .committed := by
  cases n <;> cases k <;> decide
@[simp] theorem promoted_detected : Tracker.detected.promoted = .pending := rfl
@[simp] theorem promoted_pending : Tracker.pending.promoted = .pending := rfl

@[simp] theorem promoted_eq_committed (k : Tracker) : k.promoted = .committed ↔ k = .committed := by cases k <;> decide
@[simp] theorem promoted_eq_serviced (k : Tracker) : k.promoted = .serviced ↔ k = .serviced := by cases k <;> decide
@[simp] theorem promoted_clear : Tracker.clear.promoted = .clear := rfl
@[simp] theorem promoted_committed : Tracker.committed.promoted = .committed := rfl
@[simp] theorem committedFrom_pending : Tracker.pending.committedFrom = .committed := rfl
@[simp] theorem committedFrom_committed : Tracker.committed.committedFrom = .committed := rfl
@[simp] theorem sampleIrq_low_pending : sampleIrq false .pending = .pending := rfl

/-- Sampling and promoting an IRQ that is neither committed nor serviced (`60_exceptions.md` R352, R354). -/
theorem promoted_sampleIrq {n : Bool} {k : Tracker} (hc : k ≠ .committed) (hs : k ≠ .serviced) :
    (sampleIrq n k).promoted = if n then .clear else .pending := by
  cases n <;> cases k <;> simp_all [sampleIrq, Tracker.promoted]

/-- What a poll with the interrupt mask as it stood in `s` leaves (`60_exceptions.md` R352, R354): the mask latched, an NMI or RESET
seen before it pending, an IRQ whose line is low pending. -/
structure Polled (s t : State) : Prop where
  imask : t.cpu.eng.imask = s.cpu.regs.p.i
  nmi : s.cpu.trk.nmi = .detected ∨ s.cpu.trk.nmi = .pending → t.cpu.trk.nmi = .pending
  rst : s.cpu.trk.rst = .detected ∨ s.cpu.trk.rst = .pending → t.cpu.trk.rst = .pending
  irq : s.cpu.trk.irq ≠ .committed → s.cpu.trk.irq ≠ .serviced →
    t.cpu.trk.irq = if t.lines.irqN then .clear else .pending

/-- `s'` is where the last cycle of a sequence begins, after `n` read cycles from `s` that included the poll; `len` bytes of the
instruction have been passed, and the last row is `last`. -/
structure AtLast (seq : Sequence) (k : Bool) (n : Nat) (len : Word) (s s' : State) (last : Row) : Prop where
  quiet : Quiet n s s'
  short : n ≤ 6
  row : seq s'.cpu.eng.t s'.cpu = last
  run : ∀ m, runSequence seq k (n + 1 + m) s = runSequence seq k (1 + m) s'
  regs : s'.cpu.regs = { s.cpu.regs with pc := s.cpu.regs.pc + len }
  presync : s'.cpu.eng.presync = s.cpu.eng.presync
  jammed : s'.cpu.eng.jammed = s.cpu.eng.jammed
  polled : Polled s s'

end Sys2Proof.Machine
end

