-- ==== Sys2Proof/Laws/Words.lean ====
section
/-! SUPPORT. Bytes and words as numbers: joining, splitting, and indexing an address. -/

namespace Sys2Proof.Machine

theorem join_toNat (h l : Byte) : (join h l).toNat = h.toNat * 256 + l.toNat := by
  have h1 := h.isLt
  have h2 := l.isLt
  unfold join
  rw [BitVec.toNat_or, BitVec.toNat_shiftLeft, BitVec.toNat_setWidth, BitVec.toNat_setWidth,
    Nat.mod_eq_of_lt (show h.toNat < 2 ^ 16 by omega), Nat.mod_eq_of_lt (show l.toNat < 2 ^ 16 by omega),
    Nat.mod_eq_of_lt (show h.toNat <<< 8 < 2 ^ 16 by rw [Nat.shiftLeft_eq]; omega),
    ← Nat.shiftLeft_add_eq_or_of_lt (show l.toNat < 2 ^ 8 by omega), Nat.shiftLeft_eq]

theorem zext16_toNat (b : Byte) : (zext16 b).toNat = b.toNat := by
  have := b.isLt
  simp [zext16]; omega

theorem carryOut_eq (a b : Byte) : carryOut a b = decide (256 ≤ a.toNat + b.toNat) := by
  have h1 := a.isLt
  have h2 := b.isLt
  unfold carryOut
  rw [BitVec.getLsbD, BitVec.toNat_add, BitVec.toNat_setWidth, BitVec.toNat_setWidth,
    Nat.mod_eq_of_lt (show a.toNat < 2 ^ 9 by omega), Nat.mod_eq_of_lt (show b.toNat < 2 ^ 9 by omega),
    Nat.mod_eq_of_lt (show a.toNat + b.toNat < 2 ^ 9 by omega), Nat.testBit_eq_decide_div_mod_eq]
  congr 1
  apply propext
  constructor <;> intro _ <;> omega

/-- Indexing within the page (`30_encoding.md` R117). -/
theorem join_add_same {h l i : Byte} (hc : carryOut l i = false) : join h (l + i) = join h l + zext16 i := by
  have h1 := h.isLt
  have h2 := l.isLt
  have h3 := i.isLt
  rw [carryOut_eq] at hc
  simp only [decide_eq_false_iff_not] at hc
  apply BitVec.eq_of_toNat_eq
  rw [BitVec.toNat_add, join_toNat, join_toNat, zext16_toNat, BitVec.toNat_add]
  omega

/-- Indexing across a page (`30_encoding.md` R117). -/
theorem join_add_cross {h l i : Byte} (hc : carryOut l i = true) : join (h + 1#8) (l + i) = join h l + zext16 i := by
  have h1 := h.isLt
  have h2 := l.isLt
  have h3 := i.isLt
  rw [carryOut_eq] at hc
  simp only [decide_eq_true_eq] at hc
  apply BitVec.eq_of_toNat_eq
  rw [BitVec.toNat_add, join_toNat, join_toNat, zext16_toNat, BitVec.toNat_add, BitVec.toNat_add]
  simp only [BitVec.toNat_ofNat]
  omega

/-- What the fix-up cycle makes of an indexed address (`40_cycle_engine.md` R146, R148). -/
theorem join_fix (h l i : Byte) :
    join (if carryOut l i then h + 1#8 else h) (l + i) = join h l + zext16 i := by
  cases hc : carryOut l i
  · simpa using join_add_same hc
  · simpa using join_add_cross hc

theorem lo_toNat (w : Word) : (lo w).toNat = w.toNat % 256 := by simp [lo]

theorem hi_toNat (w : Word) : (hi w).toNat = w.toNat / 256 := by
  have := w.isLt
  simp [hi, Nat.shiftRight_eq_div_pow]; omega

@[simp] theorem join_hi_lo (w : Word) : join (hi w) (lo w) = w := by
  have := w.isLt
  apply BitVec.eq_of_toNat_eq
  rw [join_toNat, hi_toNat, lo_toNat]; omega

@[simp] theorem hi_join (h l : Byte) : hi (join h l) = h := by
  have h1 := h.isLt
  have h2 := l.isLt
  apply BitVec.eq_of_toNat_eq
  rw [hi_toNat, join_toNat]; omega

@[simp] theorem lo_join (h l : Byte) : lo (join h l) = l := by
  have h1 := h.isLt
  have h2 := l.isLt
  apply BitVec.eq_of_toNat_eq
  rw [lo_toNat, join_toNat]; omega

end Sys2Proof.Machine
end

