-- ==== Sys2Proof/Laws/Modes.lean ====
section
/-! SUPPORT. Every read or write addressing mode up to its last cycle (`40_cycle_engine.md` R142-R148): the cycles before it
only read and poll, and the last one is at the effective address of `30_encoding.md` R114-R119. -/

namespace Sys2Proof.Machine

/-- A mode that takes as many cycles to write as to read. -/
theorem mem_last_same {P : Nat → State → Word → Prop} {Q : Byte → Byte → (Byte → Byte) → Prop} {A : (Byte → Byte) → Byte → Byte → Word}
    {d : DataOp} {c : Nat} {r : (Byte → Byte) → Byte → Nat} {w : Nat}
    (h : ∃ n s' a, P n s' a ∧ ∀ b1 b2 zp, Q b1 b2 zp → a = A zp b1 b2 ∧ n + 1 = c) (hr : r = fun _ _ => c) (hw : w = c) :
    ∃ n s' a, P n s' a ∧ ∀ b1 b2 zp, Q b1 b2 zp → a = A zp b1 b2 ∧ n + 1 = if d.isRead then r zp b1 else w := by
  obtain ⟨n, s', a, hp, ho⟩ := h
  exact ⟨n, s', a, hp, fun b1 b2 zp hq => ⟨(ho b1 b2 zp hq).1, by rw [(ho b1 b2 zp hq).2, hr, hw]; split <;> rfl⟩⟩

/-- `$nn` (`40_cycle_engine.md` R142). -/
theorem zp_last {d : DataOp} {k : Bool} {s : State} (h : s.Running) (ht : s.cpu.eng.t = 0) :
    ∃ n s' a, AtLast (zpSequence d) k n 2 s s' (d.row a s'.cpu) ∧
      ∀ b1 b2 zp, s.Operands 1 b1 b2 zp →
        a = MemMode.effectiveAddress .zp s.cpu.regs zp b1 b2 ∧ n + 1 = 3 := by
  obtain ⟨b0, s1, d0, m0, e0, q1, c1, v0⟩ := (Quiet.refl h).next (seq := zpSequence d) (k := k)
    (r := fetchRow false s.cpu) (by rw [ht]; rfl) rfl
  simp only [fetchRow] at c1 v0
  obtain ⟨b1, s2, d1, m1, e1, q2, c2, v1⟩ := q1.next (seq := zpSequence d) (k := k)
    (r := zpRow true s1.cpu) (by rw [show s1.cpu.eng.t = 1 by simp [c1, ht]]; rfl) rfl
  simp only [zpRow] at c2 v1
  refine ⟨2, s2, zext16 s2.cpu.eng.adl, ⟨q2, by decide, ?_, ?_, ?_, ?_, ?_, ?_⟩, ?_⟩
  · rw [show s2.cpu.eng.t = 2 by simp [c1, c2, ht]]; rfl
  · intro m
    rw [show 2 + 1 + m = 1 + m + 1 + 1 by omega, runSequence_go e0, runSequence_go e1]
  · simp [c1, c2, BitVec.add_assoc]
  · simp [c1, c2]
  · simp [c1, c2]
  · constructor
    · simp [c1, c2]
    · rintro (hz | hz) <;> simp [c1, c2, hz]
    · rintro (hz | hz) <;> simp [c1, c2, hz]
    · intro hc hs; simp [c1, c2, hc, hs, promoted_sampleIrq]
  · intro x1 x2 zp ho
    have w1 : b1 = x1 := v1 _ (by simpa [c1, BitVec.add_assoc] using ho.b1 (by omega))
    simp [c1, c2, MemMode.effectiveAddress, w1]

/-- `$nnnn` (`40_cycle_engine.md` R144). -/
theorem abs_last {d : DataOp} {k : Bool} {s : State} (h : s.Running) (ht : s.cpu.eng.t = 0) :
    ∃ n s' a, AtLast (absSequence d) k n 3 s s' (d.row a s'.cpu) ∧
      ∀ b1 b2 zp, s.Operands 2 b1 b2 zp →
        a = MemMode.effectiveAddress .abs s.cpu.regs zp b1 b2 ∧ n + 1 = 4 := by
  obtain ⟨b0, s1, d0, m0, e0, q1, c1, v0⟩ := (Quiet.refl h).next (seq := absSequence d) (k := k)
    (r := fetchRow false s.cpu) (by rw [ht]; rfl) rfl
  simp only [fetchRow] at c1 v0
  obtain ⟨b1, s2, d1, m1, e1, q2, c2, v1⟩ := q1.next (seq := absSequence d) (k := k)
    (r := adlRow false s1.cpu) (by rw [show s1.cpu.eng.t = 1 by simp [c1, ht]]; rfl) rfl
  simp only [adlRow] at c2 v1
  obtain ⟨b2, s3, d2, m2, e2, q3, c3, v2⟩ := q2.next (seq := absSequence d) (k := k)
    (r := adhRow true s2.cpu) (by rw [show s2.cpu.eng.t = 2 by simp [c1, c2, ht]]; rfl) rfl
  simp only [adhRow] at c3 v2
  refine ⟨3, s3, s3.cpu.ea, ⟨q3, by decide, ?_, ?_, ?_, ?_, ?_, ?_⟩, ?_⟩
  · rw [show s3.cpu.eng.t = 3 by simp [c1, c2, c3, ht]]; rfl
  · intro m
    rw [show 3 + 1 + m = 1 + m + 1 + 1 + 1 by omega, runSequence_go e0, runSequence_go e1, runSequence_go e2]
  · simp [c1, c2, c3, BitVec.add_assoc]
  · simp [c1, c2, c3]
  · simp [c1, c2, c3]
  · constructor
    · simp [c1, c2, c3]
    · rintro (hz | hz) <;> simp [c1, c2, c3, hz]
    · rintro (hz | hz) <;> simp [c1, c2, c3, hz]
    · intro hc hs; simp [c1, c2, c3, hc, hs, promoted_sampleIrq]
  · intro x1 x2 zp ho
    have w1 : b1 = x1 := v1 _ (by simpa [c1, BitVec.add_assoc] using ho.b1 (by omega))
    have w2 : b2 = x2 := v2 _ (by simpa [c1, c2, BitVec.add_assoc, w1] using ho.b2 (by omega))
    simp [c1, c2, c3, MemMode.effectiveAddress, w1, w2, Cpu.ea]

/-- `$nn,X` (`40_cycle_engine.md` R143). -/
theorem zpx_last {d : DataOp} {k : Bool} {s : State} (h : s.Running) (ht : s.cpu.eng.t = 0) :
    ∃ n s' a, AtLast (zpIndexSequence Regs.x d) k n 2 s s' (d.row a s'.cpu) ∧
      ∀ b1 b2 zp, s.Operands 1 b1 b2 zp →
        a = MemMode.effectiveAddress .zpx s.cpu.regs zp b1 b2 ∧ n + 1 = 4 := by
  obtain ⟨b0, s1, d0, m0, e0, q1, c1, v0⟩ := (Quiet.refl h).next (seq := zpIndexSequence Regs.x d) (k := k)
    (r := fetchRow false s.cpu) (by rw [ht]; rfl) rfl
  simp only [fetchRow] at c1 v0
  obtain ⟨b1, s2, d1, m1, e1, q2, c2, v1⟩ := q1.next (seq := zpIndexSequence Regs.x d) (k := k)
    (r := zpRow false s1.cpu) (by rw [show s1.cpu.eng.t = 1 by simp [c1, ht]]; rfl) rfl
  simp only [zpRow] at c2 v1
  obtain ⟨b2, s3, d2, m2, e2, q3, c3, v2⟩ := q2.next (seq := zpIndexSequence Regs.x d) (k := k)
    (r := zpIndexRow s2.cpu.regs.x true s2.cpu) (by rw [show s2.cpu.eng.t = 2 by simp [c1, c2, ht]]; rfl) rfl
  simp only [zpIndexRow] at c3 v2
  refine ⟨3, s3, zext16 s3.cpu.eng.adl, ⟨q3, by decide, ?_, ?_, ?_, ?_, ?_, ?_⟩, ?_⟩
  · rw [show s3.cpu.eng.t = 3 by simp [c1, c2, c3, ht]]; rfl
  · intro m
    rw [show 3 + 1 + m = 1 + m + 1 + 1 + 1 by omega, runSequence_go e0, runSequence_go e1, runSequence_go e2]
  · simp [c1, c2, c3, BitVec.add_assoc]
  · simp [c1, c2, c3]
  · simp [c1, c2, c3]
  · constructor
    · simp [c1, c2, c3]
    · rintro (hz | hz) <;> simp [c1, c2, c3, hz]
    · rintro (hz | hz) <;> simp [c1, c2, c3, hz]
    · intro hc hs; simp [c1, c2, c3, hc, hs, promoted_sampleIrq]
  · intro x1 x2 zp ho
    have w1 : b1 = x1 := v1 _ (by simpa [c1, BitVec.add_assoc] using ho.b1 (by omega))
    simp [c1, c2, c3, MemMode.effectiveAddress, w1]

/-- `$nn,Y` (`40_cycle_engine.md` R143). -/
theorem zpy_last {d : DataOp} {k : Bool} {s : State} (h : s.Running) (ht : s.cpu.eng.t = 0) :
    ∃ n s' a, AtLast (zpIndexSequence Regs.y d) k n 2 s s' (d.row a s'.cpu) ∧
      ∀ b1 b2 zp, s.Operands 1 b1 b2 zp →
        a = MemMode.effectiveAddress .zpy s.cpu.regs zp b1 b2 ∧ n + 1 = 4 := by
  obtain ⟨b0, s1, d0, m0, e0, q1, c1, v0⟩ := (Quiet.refl h).next (seq := zpIndexSequence Regs.y d) (k := k)
    (r := fetchRow false s.cpu) (by rw [ht]; rfl) rfl
  simp only [fetchRow] at c1 v0
  obtain ⟨b1, s2, d1, m1, e1, q2, c2, v1⟩ := q1.next (seq := zpIndexSequence Regs.y d) (k := k)
    (r := zpRow false s1.cpu) (by rw [show s1.cpu.eng.t = 1 by simp [c1, ht]]; rfl) rfl
  simp only [zpRow] at c2 v1
  obtain ⟨b2, s3, d2, m2, e2, q3, c3, v2⟩ := q2.next (seq := zpIndexSequence Regs.y d) (k := k)
    (r := zpIndexRow s2.cpu.regs.y true s2.cpu) (by rw [show s2.cpu.eng.t = 2 by simp [c1, c2, ht]]; rfl) rfl
  simp only [zpIndexRow] at c3 v2
  refine ⟨3, s3, zext16 s3.cpu.eng.adl, ⟨q3, by decide, ?_, ?_, ?_, ?_, ?_, ?_⟩, ?_⟩
  · rw [show s3.cpu.eng.t = 3 by simp [c1, c2, c3, ht]]; rfl
  · intro m
    rw [show 3 + 1 + m = 1 + m + 1 + 1 + 1 by omega, runSequence_go e0, runSequence_go e1, runSequence_go e2]
  · simp [c1, c2, c3, BitVec.add_assoc]
  · simp [c1, c2, c3]
  · simp [c1, c2, c3]
  · constructor
    · simp [c1, c2, c3]
    · rintro (hz | hz) <;> simp [c1, c2, c3, hz]
    · rintro (hz | hz) <;> simp [c1, c2, c3, hz]
    · intro hc hs; simp [c1, c2, c3, hc, hs, promoted_sampleIrq]
  · intro x1 x2 zp ho
    have w1 : b1 = x1 := v1 _ (by simpa [c1, BitVec.add_assoc] using ho.b1 (by omega))
    simp [c1, c2, c3, MemMode.effectiveAddress, w1]

/-- `($nn,X)` (`40_cycle_engine.md` R147). -/
theorem indx_last {d : DataOp} {k : Bool} {s : State} (h : s.Running) (ht : s.cpu.eng.t = 0) :
    ∃ n s' a, AtLast (indxSequence d) k n 2 s s' (d.row a s'.cpu) ∧
      ∀ b1 b2 zp, s.Operands 1 b1 b2 zp →
        a = MemMode.effectiveAddress .indx s.cpu.regs zp b1 b2 ∧ n + 1 = 6 := by
  obtain ⟨b0, s1, d0, m0, e0, q1, c1, v0⟩ := (Quiet.refl h).next (seq := indxSequence d) (k := k)
    (r := fetchRow false s.cpu) (by rw [ht]; rfl) rfl
  simp only [fetchRow] at c1 v0
  obtain ⟨b1, s2, d1, m1, e1, q2, c2, v1⟩ := q1.next (seq := indxSequence d) (k := k)
    (r := ptrRow s1.cpu) (by rw [show s1.cpu.eng.t = 1 by simp [c1, ht]]; rfl) rfl
  simp only [ptrRow] at c2 v1
  obtain ⟨b2, s3, d2, m2, e2, q3, c3, v2⟩ := q2.next (seq := indxSequence d) (k := k)
    (r := { addr := zext16 s2.cpu.eng.ptr, effect := fun _ c => { c with eng.ptr := c.eng.ptr + c.regs.x } }) (by rw [show s2.cpu.eng.t = 2 by simp [c1, c2, ht]]; rfl) rfl
  obtain ⟨b3, s4, d3, m3, e3, q4, c4, v3⟩ := q3.next (seq := indxSequence d) (k := k)
    (r := ptrLoRow s3.cpu) (by rw [show s3.cpu.eng.t = 3 by simp [c1, c2, c3, ht]]; rfl) rfl
  simp only [ptrLoRow] at c4 v3
  obtain ⟨b4, s5, d4, m4, e4, q5, c5, v4⟩ := q4.next (seq := indxSequence d) (k := k)
    (r := { addr := zext16 (s4.cpu.eng.ptr + 1#8), effect := fun b c => { c with eng.adh := b }, poll := true }) (by rw [show s4.cpu.eng.t = 4 by simp [c1, c2, c3, c4, ht]]; rfl) rfl
  refine ⟨5, s5, s5.cpu.ea, ⟨q5, by decide, ?_, ?_, ?_, ?_, ?_, ?_⟩, ?_⟩
  · rw [show s5.cpu.eng.t = 5 by simp [c1, c2, c3, c4, c5, ht]]; rfl
  · intro m
    rw [show 5 + 1 + m = 1 + m + 1 + 1 + 1 + 1 + 1 by omega, runSequence_go e0, runSequence_go e1, runSequence_go e2, runSequence_go e3, runSequence_go e4]
  · simp [c1, c2, c3, c4, c5, BitVec.add_assoc]
  · simp [c1, c2, c3, c4, c5]
  · simp [c1, c2, c3, c4, c5]
  · constructor
    · simp [c1, c2, c3, c4, c5]
    · rintro (hz | hz) <;> simp [c1, c2, c3, c4, c5, hz]
    · rintro (hz | hz) <;> simp [c1, c2, c3, c4, c5, hz]
    · intro hc hs; simp [c1, c2, c3, c4, c5, hc, hs, promoted_sampleIrq]
  · intro x1 x2 zp ho
    have w1 : b1 = x1 := v1 _ (by simpa [c1, BitVec.add_assoc] using ho.b1 (by omega))
    have w3 : b3 = zp (x1 + s.cpu.regs.x) := v3 _ (by simpa [c1, c2, c3, BitVec.add_assoc, w1] using ho.zp (x1 + s.cpu.regs.x))
    have w4 : b4 = zp (x1 + s.cpu.regs.x + 1#8) := v4 _ (by simpa [c1, c2, c3, c4, BitVec.add_assoc, w1, w3] using ho.zp (x1 + s.cpu.regs.x + 1#8))
    simp [c1, c2, c3, c4, c5, MemMode.effectiveAddress, w1, w3, w4, Cpu.ea]

/-- `$nnnn,X` (`40_cycle_engine.md` R146). -/
theorem absx_last {d : DataOp} {k : Bool} {s : State} (h : s.Running) (ht : s.cpu.eng.t = 0) :
    ∃ n s' a, AtLast (absIndexSequence Regs.x d) k n 3 s s' (d.row a s'.cpu) ∧
      ∀ b1 b2 zp, s.Operands 2 b1 b2 zp →
        a = MemMode.effectiveAddress .absx s.cpu.regs zp b1 b2 ∧
        n + 1 = if d.isRead then MemMode.readCycles .absx (MemMode.crosses .absx s.cpu.regs zp b1)
          else MemMode.writeCycles .absx := by
  obtain ⟨b0, s1, d0, m0, e0, q1, c1, v0⟩ := (Quiet.refl h).next (seq := absIndexSequence Regs.x d) (k := k)
    (r := fetchRow false s.cpu) (by rw [ht]; rfl) rfl
  simp only [fetchRow] at c1 v0
  obtain ⟨b1, s2, d1, m1, e1, q2, c2, v1⟩ := q1.next (seq := absIndexSequence Regs.x d) (k := k)
    (r := adlRow false s1.cpu) (by rw [show s1.cpu.eng.t = 1 by simp [c1, ht]]; rfl) rfl
  simp only [adlRow] at c2 v1
  obtain ⟨b2, s3, d2, m2, e2, q3, c3, v2⟩ := q2.next (seq := absIndexSequence Regs.x d) (k := k)
    (r := absIndexRow s2.cpu.regs.x (d.isRead && !carryOut s2.cpu.eng.adl s2.cpu.regs.x) s2.cpu) (by rw [show s2.cpu.eng.t = 2 by simp [c1, c2, ht]]; rfl) rfl
  simp only [absIndexRow] at c3 v2
  by_cases hx : (d.isRead && !carryOut b1 s.cpu.regs.x) = true
  · obtain ⟨hrd, hcar⟩ : d.isRead = true ∧ carryOut b1 s.cpu.regs.x = false := by simpa using hx
    refine ⟨3, s3, s3.cpu.ea, ⟨q3, by decide, ?_, ?_, ?_, ?_, ?_, ?_⟩, ?_⟩
    · rw [show s3.cpu.eng.t = 3 by simp [c1, c2, c3, ht]]; simp only [absIndexSequence, hrd, Bool.true_and]; rw [show s3.cpu.eng.adc = false by simp [c1, c2, c3, hcar]]; rfl
    · intro m
      rw [show 3 + 1 + m = 1 + m + 1 + 1 + 1 by omega, runSequence_go e0, runSequence_go e1, runSequence_go e2]
    · simp [c1, c2, c3, BitVec.add_assoc]
    · simp [c1, c2, c3]
    · simp [c1, c2, c3]
    · constructor
      · simp [c1, c2, c3, hrd, hcar]
      · rintro (hz | hz) <;> simp [c1, c2, c3, hz, hrd, hcar]
      · rintro (hz | hz) <;> simp [c1, c2, c3, hz, hrd, hcar]
      · intro hc hs; simp [c1, c2, c3, hc, hs, hrd, hcar, promoted_sampleIrq]
    · intro x1 x2 zp ho
      have w1 : b1 = x1 := v1 _ (by simpa [c1, BitVec.add_assoc] using ho.b1 (by omega))
      have w2 : b2 = x2 := v2 _ (by simpa [c1, c2, BitVec.add_assoc, w1] using ho.b2 (by omega))
      simp only [w1] at hcar
      simp [c1, c2, c3, MemMode.effectiveAddress, MemMode.crosses, MemMode.readCycles, w1, w2, Cpu.ea, hrd, hcar, join_add_same]

  · simp only [Bool.not_eq_true] at hx
    have hx' : (d.isRead && !s3.cpu.eng.adc) = false := by simp [c1, c2, c3]; simpa using hx
    have hp : ¬(d.isRead = true ∧ carryOut b1 s.cpu.regs.x = false) := by simpa using hx
    obtain ⟨b3, s4, d3, m3, e3, q4, c4, v3⟩ := q3.next (seq := absIndexSequence Regs.x d) (k := k)
      (r := fixRow true s3.cpu) (by rw [show s3.cpu.eng.t = 3 by simp [c1, c2, c3, ht]]; simp only [absIndexSequence, hx']; rfl) rfl
    simp only [fixRow] at c4 v3
    refine ⟨4, s4, s4.cpu.ea, ⟨q4, by decide, ?_, ?_, ?_, ?_, ?_, ?_⟩, ?_⟩
    · rw [show s4.cpu.eng.t = 4 by simp [c1, c2, c3, c4, ht]]; rfl
    · intro m
      rw [show 4 + 1 + m = 1 + m + 1 + 1 + 1 + 1 by omega, runSequence_go e0, runSequence_go e1, runSequence_go e2, runSequence_go e3]
    · simp [c1, c2, c3, c4, BitVec.add_assoc]
    · simp [c1, c2, c3, c4]
    · simp [c1, c2, c3, c4]
    · constructor
      · simp [c1, c2, c3, c4]
      · rintro (hz | hz) <;> simp [c1, c2, c3, c4, hz, hp]
      · rintro (hz | hz) <;> simp [c1, c2, c3, c4, hz, hp]
      · intro hc hs; simp [c1, c2, c3, c4, hc, hs, hp, promoted_sampleIrq]
    · intro x1 x2 zp ho
      have w1 : b1 = x1 := v1 _ (by simpa [c1, BitVec.add_assoc] using ho.b1 (by omega))
      have w2 : b2 = x2 := v2 _ (by simpa [c1, c2, BitVec.add_assoc, w1] using ho.b2 (by omega))
      simp only [w1] at hx
      refine ⟨by simp [c1, c2, c3, c4, MemMode.effectiveAddress, w1, w2, Cpu.ea, join_fix], ?_⟩
      cases hrd : d.isRead <;> simp_all [MemMode.crosses, MemMode.readCycles, MemMode.writeCycles]

/-- `$nnnn,Y` (`40_cycle_engine.md` R146). -/
theorem absy_last {d : DataOp} {k : Bool} {s : State} (h : s.Running) (ht : s.cpu.eng.t = 0) :
    ∃ n s' a, AtLast (absIndexSequence Regs.y d) k n 3 s s' (d.row a s'.cpu) ∧
      ∀ b1 b2 zp, s.Operands 2 b1 b2 zp →
        a = MemMode.effectiveAddress .absy s.cpu.regs zp b1 b2 ∧
        n + 1 = if d.isRead then MemMode.readCycles .absy (MemMode.crosses .absy s.cpu.regs zp b1)
          else MemMode.writeCycles .absy := by
  obtain ⟨b0, s1, d0, m0, e0, q1, c1, v0⟩ := (Quiet.refl h).next (seq := absIndexSequence Regs.y d) (k := k)
    (r := fetchRow false s.cpu) (by rw [ht]; rfl) rfl
  simp only [fetchRow] at c1 v0
  obtain ⟨b1, s2, d1, m1, e1, q2, c2, v1⟩ := q1.next (seq := absIndexSequence Regs.y d) (k := k)
    (r := adlRow false s1.cpu) (by rw [show s1.cpu.eng.t = 1 by simp [c1, ht]]; rfl) rfl
  simp only [adlRow] at c2 v1
  obtain ⟨b2, s3, d2, m2, e2, q3, c3, v2⟩ := q2.next (seq := absIndexSequence Regs.y d) (k := k)
    (r := absIndexRow s2.cpu.regs.y (d.isRead && !carryOut s2.cpu.eng.adl s2.cpu.regs.y) s2.cpu) (by rw [show s2.cpu.eng.t = 2 by simp [c1, c2, ht]]; rfl) rfl
  simp only [absIndexRow] at c3 v2
  by_cases hx : (d.isRead && !carryOut b1 s.cpu.regs.y) = true
  · obtain ⟨hrd, hcar⟩ : d.isRead = true ∧ carryOut b1 s.cpu.regs.y = false := by simpa using hx
    refine ⟨3, s3, s3.cpu.ea, ⟨q3, by decide, ?_, ?_, ?_, ?_, ?_, ?_⟩, ?_⟩
    · rw [show s3.cpu.eng.t = 3 by simp [c1, c2, c3, ht]]; simp only [absIndexSequence, hrd, Bool.true_and]; rw [show s3.cpu.eng.adc = false by simp [c1, c2, c3, hcar]]; rfl
    · intro m
      rw [show 3 + 1 + m = 1 + m + 1 + 1 + 1 by omega, runSequence_go e0, runSequence_go e1, runSequence_go e2]
    · simp [c1, c2, c3, BitVec.add_assoc]
    · simp [c1, c2, c3]
    · simp [c1, c2, c3]
    · constructor
      · simp [c1, c2, c3, hrd, hcar]
      · rintro (hz | hz) <;> simp [c1, c2, c3, hz, hrd, hcar]
      · rintro (hz | hz) <;> simp [c1, c2, c3, hz, hrd, hcar]
      · intro hc hs; simp [c1, c2, c3, hc, hs, hrd, hcar, promoted_sampleIrq]
    · intro x1 x2 zp ho
      have w1 : b1 = x1 := v1 _ (by simpa [c1, BitVec.add_assoc] using ho.b1 (by omega))
      have w2 : b2 = x2 := v2 _ (by simpa [c1, c2, BitVec.add_assoc, w1] using ho.b2 (by omega))
      simp only [w1] at hcar
      simp [c1, c2, c3, MemMode.effectiveAddress, MemMode.crosses, MemMode.readCycles, w1, w2, Cpu.ea, hrd, hcar, join_add_same]

  · simp only [Bool.not_eq_true] at hx
    have hx' : (d.isRead && !s3.cpu.eng.adc) = false := by simp [c1, c2, c3]; simpa using hx
    have hp : ¬(d.isRead = true ∧ carryOut b1 s.cpu.regs.y = false) := by simpa using hx
    obtain ⟨b3, s4, d3, m3, e3, q4, c4, v3⟩ := q3.next (seq := absIndexSequence Regs.y d) (k := k)
      (r := fixRow true s3.cpu) (by rw [show s3.cpu.eng.t = 3 by simp [c1, c2, c3, ht]]; simp only [absIndexSequence, hx']; rfl) rfl
    simp only [fixRow] at c4 v3
    refine ⟨4, s4, s4.cpu.ea, ⟨q4, by decide, ?_, ?_, ?_, ?_, ?_, ?_⟩, ?_⟩
    · rw [show s4.cpu.eng.t = 4 by simp [c1, c2, c3, c4, ht]]; rfl
    · intro m
      rw [show 4 + 1 + m = 1 + m + 1 + 1 + 1 + 1 by omega, runSequence_go e0, runSequence_go e1, runSequence_go e2, runSequence_go e3]
    · simp [c1, c2, c3, c4, BitVec.add_assoc]
    · simp [c1, c2, c3, c4]
    · simp [c1, c2, c3, c4]
    · constructor
      · simp [c1, c2, c3, c4]
      · rintro (hz | hz) <;> simp [c1, c2, c3, c4, hz, hp]
      · rintro (hz | hz) <;> simp [c1, c2, c3, c4, hz, hp]
      · intro hc hs; simp [c1, c2, c3, c4, hc, hs, hp, promoted_sampleIrq]
    · intro x1 x2 zp ho
      have w1 : b1 = x1 := v1 _ (by simpa [c1, BitVec.add_assoc] using ho.b1 (by omega))
      have w2 : b2 = x2 := v2 _ (by simpa [c1, c2, BitVec.add_assoc, w1] using ho.b2 (by omega))
      simp only [w1] at hx
      refine ⟨by simp [c1, c2, c3, c4, MemMode.effectiveAddress, w1, w2, Cpu.ea, join_fix], ?_⟩
      cases hrd : d.isRead <;> simp_all [MemMode.crosses, MemMode.readCycles, MemMode.writeCycles]

/-- `($nn),Y` (`40_cycle_engine.md` R148). -/
theorem indy_last {d : DataOp} {k : Bool} {s : State} (h : s.Running) (ht : s.cpu.eng.t = 0) :
    ∃ n s' a, AtLast (indySequence d) k n 2 s s' (d.row a s'.cpu) ∧
      ∀ b1 b2 zp, s.Operands 1 b1 b2 zp →
        a = MemMode.effectiveAddress .indy s.cpu.regs zp b1 b2 ∧
        n + 1 = if d.isRead then MemMode.readCycles .indy (MemMode.crosses .indy s.cpu.regs zp b1)
          else MemMode.writeCycles .indy := by
  obtain ⟨b0, s1, d0, m0, e0, q1, c1, v0⟩ := (Quiet.refl h).next (seq := indySequence d) (k := k)
    (r := fetchRow false s.cpu) (by rw [ht]; rfl) rfl
  simp only [fetchRow] at c1 v0
  obtain ⟨b1, s2, d1, m1, e1, q2, c2, v1⟩ := q1.next (seq := indySequence d) (k := k)
    (r := ptrRow s1.cpu) (by rw [show s1.cpu.eng.t = 1 by simp [c1, ht]]; rfl) rfl
  simp only [ptrRow] at c2 v1
  obtain ⟨b2, s3, d2, m2, e2, q3, c3, v2⟩ := q2.next (seq := indySequence d) (k := k)
    (r := ptrLoRow s2.cpu) (by rw [show s2.cpu.eng.t = 2 by simp [c1, c2, ht]]; rfl) rfl
  simp only [ptrLoRow] at c3 v2
  obtain ⟨b3, s4, d3, m3, e3, q4, c4, v3⟩ := q3.next (seq := indySequence d) (k := k)
    (r := { addr := zext16 (s3.cpu.eng.ptr + 1#8),
             effect := fun b c =>
               { c with eng.adh := b, eng.adl := c.eng.adl + c.regs.y, eng.adc := carryOut c.eng.adl c.regs.y },
             poll := d.isRead && !carryOut s3.cpu.eng.adl s3.cpu.regs.y }) (by rw [show s3.cpu.eng.t = 3 by simp [c1, c2, c3, ht]]; rfl) rfl
  by_cases hx : (d.isRead && !carryOut b2 s.cpu.regs.y) = true
  · obtain ⟨hrd, hcar⟩ : d.isRead = true ∧ carryOut b2 s.cpu.regs.y = false := by simpa using hx
    refine ⟨4, s4, s4.cpu.ea, ⟨q4, by decide, ?_, ?_, ?_, ?_, ?_, ?_⟩, ?_⟩
    · rw [show s4.cpu.eng.t = 4 by simp [c1, c2, c3, c4, ht]]; simp only [indySequence, hrd, Bool.true_and]; rw [show s4.cpu.eng.adc = false by simp [c1, c2, c3, c4, hcar]]; rfl
    · intro m
      rw [show 4 + 1 + m = 1 + m + 1 + 1 + 1 + 1 by omega, runSequence_go e0, runSequence_go e1, runSequence_go e2, runSequence_go e3]
    · simp [c1, c2, c3, c4, BitVec.add_assoc]
    · simp [c1, c2, c3, c4]
    · simp [c1, c2, c3, c4]
    · constructor
      · simp [c1, c2, c3, c4, hrd, hcar]
      · rintro (hz | hz) <;> simp [c1, c2, c3, c4, hz, hrd, hcar]
      · rintro (hz | hz) <;> simp [c1, c2, c3, c4, hz, hrd, hcar]
      · intro hc hs; simp [c1, c2, c3, c4, hc, hs, hrd, hcar, promoted_sampleIrq]
    · intro x1 x2 zp ho
      have w1 : b1 = x1 := v1 _ (by simpa [c1, BitVec.add_assoc] using ho.b1 (by omega))
      have w2 : b2 = zp x1 := v2 _ (by simpa [c1, c2, BitVec.add_assoc, w1] using ho.zp x1)
      have w3 : b3 = zp (x1 + 1#8) := v3 _ (by simpa [c1, c2, c3, BitVec.add_assoc, w1, w2] using ho.zp (x1 + 1#8))
      simp only [w2] at hcar
      simp [c1, c2, c3, c4, MemMode.effectiveAddress, MemMode.crosses, MemMode.readCycles, w1, w2, w3, Cpu.ea, hrd, hcar,
        join_add_same]

  · simp only [Bool.not_eq_true] at hx
    have hx' : (d.isRead && !s4.cpu.eng.adc) = false := by simp [c1, c2, c3, c4]; simpa using hx
    have hp : ¬(d.isRead = true ∧ carryOut b2 s.cpu.regs.y = false) := by simpa using hx
    obtain ⟨b4, s5, d4, m4, e4, q5, c5, v4⟩ := q4.next (seq := indySequence d) (k := k)
      (r := fixRow true s4.cpu) (by rw [show s4.cpu.eng.t = 4 by simp [c1, c2, c3, c4, ht]]; simp only [indySequence, hx']; rfl) rfl
    simp only [fixRow] at c5 v4
    refine ⟨5, s5, s5.cpu.ea, ⟨q5, by decide, ?_, ?_, ?_, ?_, ?_, ?_⟩, ?_⟩
    · rw [show s5.cpu.eng.t = 5 by simp [c1, c2, c3, c4, c5, ht]]; rfl
    · intro m
      rw [show 5 + 1 + m = 1 + m + 1 + 1 + 1 + 1 + 1 by omega, runSequence_go e0, runSequence_go e1, runSequence_go e2, runSequence_go e3, runSequence_go e4]
    · simp [c1, c2, c3, c4, c5, BitVec.add_assoc]
    · simp [c1, c2, c3, c4, c5]
    · simp [c1, c2, c3, c4, c5]
    · constructor
      · simp [c1, c2, c3, c4, c5]
      · rintro (hz | hz) <;> simp [c1, c2, c3, c4, c5, hz, hp]
      · rintro (hz | hz) <;> simp [c1, c2, c3, c4, c5, hz, hp]
      · intro hc hs; simp [c1, c2, c3, c4, c5, hc, hs, hp, promoted_sampleIrq]
    · intro x1 x2 zp ho
      have w1 : b1 = x1 := v1 _ (by simpa [c1, BitVec.add_assoc] using ho.b1 (by omega))
      have w2 : b2 = zp x1 := v2 _ (by simpa [c1, c2, BitVec.add_assoc, w1] using ho.zp x1)
      have w3 : b3 = zp (x1 + 1#8) := v3 _ (by simpa [c1, c2, c3, BitVec.add_assoc, w1, w2] using ho.zp (x1 + 1#8))
      simp only [w2] at hx
      refine ⟨by simp [c1, c2, c3, c4, c5, MemMode.effectiveAddress, w1, w2, w3, Cpu.ea, join_fix], ?_⟩
      cases hrd : d.isRead <;> simp_all [MemMode.crosses, MemMode.readCycles, MemMode.writeCycles]

/-- Any memory mode (`40_cycle_engine.md` R136). -/
theorem mem_last {m : MemMode} {d : DataOp} {k : Bool} {s : State} (h : s.Running) (ht : s.cpu.eng.t = 0) :
    ∃ n s' a, AtLast (memSequence m d) k n (BitVec.ofNat 16 (1 + m.operandBytes)) s s' (d.row a s'.cpu) ∧
      ∀ b1 b2 zp, s.Operands m.operandBytes b1 b2 zp →
        a = MemMode.effectiveAddress m s.cpu.regs zp b1 b2 ∧
        n + 1 = if d.isRead then MemMode.readCycles m (MemMode.crosses m s.cpu.regs zp b1) else MemMode.writeCycles m := by
  cases m
  case absx => exact absx_last h ht
  case absy => exact absy_last h ht
  case indy => exact indy_last h ht
  case zp => exact mem_last_same (zp_last h ht) rfl rfl
  case zpx => exact mem_last_same (zpx_last h ht) rfl rfl
  case zpy => exact mem_last_same (zpy_last h ht) rfl rfl
  case abs => exact mem_last_same (abs_last h ht) rfl rfl
  case indx => exact mem_last_same (indx_last h ht) rfl rfl

end Sys2Proof.Machine
end

