-- ==== Sys2Proof/Laws/Rmw.lean ====
section
/-! SUPPORT. The read-modify-write modes up to their read (`40_cycle_engine.md` R142-R146), and the three cycles that end them. -/

namespace Sys2Proof.Machine

/-- What cycles without a poll leave of the trackers (`60_exceptions.md` R352): an NMI or RESET seen stays seen; an IRQ does not commit. -/
structure Unpolled (s t : State) : Prop where
  nmi : s.cpu.trk.nmi = .detected ∨ s.cpu.trk.nmi = .pending → t.cpu.trk.nmi = s.cpu.trk.nmi
  rst : s.cpu.trk.rst = .detected ∨ s.cpu.trk.rst = .pending → t.cpu.trk.rst = s.cpu.trk.rst
  irq : s.cpu.trk.irq ≠ .committed → s.cpu.trk.irq ≠ .serviced → t.cpu.trk.irq ≠ .committed ∧ t.cpu.trk.irq ≠ .serviced

/-- `s'` is where the three last cycles of a read-modify-write at `a` begin, after `n` read cycles from `s`. -/
structure AtRmw (seq : Sequence) (k : Bool) (n : Nat) (len : Word) (rmw : RmwOp) (s s' : State) (a : Word) : Prop where
  quiet : Quiet n s s'
  short : n ≤ 4
  rows : ∀ j c, j ≤ 2 → c.eng.adl = s'.cpu.eng.adl → c.eng.adh = s'.cpu.eng.adh →
    seq (s'.cpu.eng.t + j) c = rmwRows rmw a j c
  run : ∀ m, runSequence seq k (n + 3 + m) s = runSequence seq k (3 + m) s'
  regs : s'.cpu.regs = { s.cpu.regs with pc := s.cpu.regs.pc + len }
  presync : s'.cpu.eng.presync = s.cpu.eng.presync
  jammed : s'.cpu.eng.jammed = s.cpu.eng.jammed
  unpolled : Unpolled s s'

theorem rmw_zp {rmw : RmwOp} {k : Bool} {s : State} (h : s.Running) (ht : s.cpu.eng.t = 0) :
    ∃ n s' a, AtRmw (rmwSequence .zp rmw) k n 2 rmw s s' a ∧
      ∀ b1 b2 zp, s.Operands 1 b1 b2 zp →
        a = MemMode.effectiveAddress (RmwMode.toMem .zp) s.cpu.regs zp b1 b2 ∧ n + 3 = RmwMode.cycles .zp := by
  obtain ⟨b0, s1, d0, m0, e0, q1, c1, v0⟩ := (Quiet.refl h).next (seq := rmwSequence .zp rmw) (k := k)
    (r := fetchRow false s.cpu) (by rw [ht]; rfl) rfl
  simp only [fetchRow] at c1 v0
  obtain ⟨b1, s2, d1, m1, e1, q2, c2, v1⟩ := q1.next (seq := rmwSequence .zp rmw) (k := k)
    (r := zpRow false s1.cpu) (by rw [show s1.cpu.eng.t = 1 by simp [c1, ht]]; rfl) rfl
  simp only [zpRow] at c2 v1
  refine ⟨2, s2, zext16 s2.cpu.eng.adl, ⟨q2, by decide, ?_, ?_, ?_, ?_, ?_, ?_⟩, ?_⟩
  · intro j c hj h1 h2
    rw [show s2.cpu.eng.t = 2 by simp [c1, c2, ht], Nat.add_comm]
    simp only [rmwSequence, h1]
  · intro m
    rw [show 2 + 3 + m = 3 + m + 1 + 1 by omega, runSequence_go e0, runSequence_go e1]
  · simp [c1, c2, BitVec.add_assoc]
  · simp [c1, c2]
  · simp [c1, c2]
  · constructor
    · rintro (hz | hz) <;> simp [c1, c2, hz]
    · rintro (hz | hz) <;> simp [c1, c2, hz]
    · intro hc hs; simp [c1, c2, hc, hs]
  · intro x1 x2 zp ho
    have w1 : b1 = x1 := v1 _ (by simpa [c1, BitVec.add_assoc] using ho.b1 (by omega))
    simp [c1, c2, MemMode.effectiveAddress, RmwMode.cycles, RmwMode.toMem, w1]

theorem rmw_zpx {rmw : RmwOp} {k : Bool} {s : State} (h : s.Running) (ht : s.cpu.eng.t = 0) :
    ∃ n s' a, AtRmw (rmwSequence .zpx rmw) k n 2 rmw s s' a ∧
      ∀ b1 b2 zp, s.Operands 1 b1 b2 zp →
        a = MemMode.effectiveAddress (RmwMode.toMem .zpx) s.cpu.regs zp b1 b2 ∧ n + 3 = RmwMode.cycles .zpx := by
  obtain ⟨b0, s1, d0, m0, e0, q1, c1, v0⟩ := (Quiet.refl h).next (seq := rmwSequence .zpx rmw) (k := k)
    (r := fetchRow false s.cpu) (by rw [ht]; rfl) rfl
  simp only [fetchRow] at c1 v0
  obtain ⟨b1, s2, d1, m1, e1, q2, c2, v1⟩ := q1.next (seq := rmwSequence .zpx rmw) (k := k)
    (r := zpRow false s1.cpu) (by rw [show s1.cpu.eng.t = 1 by simp [c1, ht]]; rfl) rfl
  simp only [zpRow] at c2 v1
  obtain ⟨b2, s3, d2, m2, e2, q3, c3, v2⟩ := q2.next (seq := rmwSequence .zpx rmw) (k := k)
    (r := zpIndexRow s2.cpu.regs.x false s2.cpu) (by rw [show s2.cpu.eng.t = 2 by simp [c1, c2, ht]]; rfl) rfl
  simp only [zpIndexRow] at c3 v2
  refine ⟨3, s3, zext16 s3.cpu.eng.adl, ⟨q3, by decide, ?_, ?_, ?_, ?_, ?_, ?_⟩, ?_⟩
  · intro j c hj h1 h2
    rw [show s3.cpu.eng.t = 3 by simp [c1, c2, c3, ht], Nat.add_comm]
    simp only [rmwSequence, h1]
  · intro m
    rw [show 3 + 3 + m = 3 + m + 1 + 1 + 1 by omega, runSequence_go e0, runSequence_go e1, runSequence_go e2]
  · simp [c1, c2, c3, BitVec.add_assoc]
  · simp [c1, c2, c3]
  · simp [c1, c2, c3]
  · constructor
    · rintro (hz | hz) <;> simp [c1, c2, c3, hz]
    · rintro (hz | hz) <;> simp [c1, c2, c3, hz]
    · intro hc hs; simp [c1, c2, c3, hc, hs]
  · intro x1 x2 zp ho
    have w1 : b1 = x1 := v1 _ (by simpa [c1, BitVec.add_assoc] using ho.b1 (by omega))
    simp [c1, c2, c3, MemMode.effectiveAddress, RmwMode.cycles, RmwMode.toMem, w1]

theorem rmw_abs {rmw : RmwOp} {k : Bool} {s : State} (h : s.Running) (ht : s.cpu.eng.t = 0) :
    ∃ n s' a, AtRmw (rmwSequence .abs rmw) k n 3 rmw s s' a ∧
      ∀ b1 b2 zp, s.Operands 2 b1 b2 zp →
        a = MemMode.effectiveAddress (RmwMode.toMem .abs) s.cpu.regs zp b1 b2 ∧ n + 3 = RmwMode.cycles .abs := by
  obtain ⟨b0, s1, d0, m0, e0, q1, c1, v0⟩ := (Quiet.refl h).next (seq := rmwSequence .abs rmw) (k := k)
    (r := fetchRow false s.cpu) (by rw [ht]; rfl) rfl
  simp only [fetchRow] at c1 v0
  obtain ⟨b1, s2, d1, m1, e1, q2, c2, v1⟩ := q1.next (seq := rmwSequence .abs rmw) (k := k)
    (r := adlRow false s1.cpu) (by rw [show s1.cpu.eng.t = 1 by simp [c1, ht]]; rfl) rfl
  simp only [adlRow] at c2 v1
  obtain ⟨b2, s3, d2, m2, e2, q3, c3, v2⟩ := q2.next (seq := rmwSequence .abs rmw) (k := k)
    (r := adhRow false s2.cpu) (by rw [show s2.cpu.eng.t = 2 by simp [c1, c2, ht]]; rfl) rfl
  simp only [adhRow] at c3 v2
  refine ⟨3, s3, s3.cpu.ea, ⟨q3, by decide, ?_, ?_, ?_, ?_, ?_, ?_⟩, ?_⟩
  · intro j c hj h1 h2
    rw [show s3.cpu.eng.t = 3 by simp [c1, c2, c3, ht], Nat.add_comm]
    simp only [rmwSequence, Cpu.ea, h1, h2]
  · intro m
    rw [show 3 + 3 + m = 3 + m + 1 + 1 + 1 by omega, runSequence_go e0, runSequence_go e1, runSequence_go e2]
  · simp [c1, c2, c3, BitVec.add_assoc]
  · simp [c1, c2, c3]
  · simp [c1, c2, c3]
  · constructor
    · rintro (hz | hz) <;> simp [c1, c2, c3, hz]
    · rintro (hz | hz) <;> simp [c1, c2, c3, hz]
    · intro hc hs; simp [c1, c2, c3, hc, hs]
  · intro x1 x2 zp ho
    have w1 : b1 = x1 := v1 _ (by simpa [c1, BitVec.add_assoc] using ho.b1 (by omega))
    have w2 : b2 = x2 := v2 _ (by simpa [c1, c2, BitVec.add_assoc, w1] using ho.b2 (by omega))
    simp [c1, c2, c3, MemMode.effectiveAddress, RmwMode.cycles, RmwMode.toMem, w1, w2, Cpu.ea]

theorem rmw_absx {rmw : RmwOp} {k : Bool} {s : State} (h : s.Running) (ht : s.cpu.eng.t = 0) :
    ∃ n s' a, AtRmw (rmwSequence .absx rmw) k n 3 rmw s s' a ∧
      ∀ b1 b2 zp, s.Operands 2 b1 b2 zp →
        a = MemMode.effectiveAddress (RmwMode.toMem .absx) s.cpu.regs zp b1 b2 ∧ n + 3 = RmwMode.cycles .absx := by
  obtain ⟨b0, s1, d0, m0, e0, q1, c1, v0⟩ := (Quiet.refl h).next (seq := rmwSequence .absx rmw) (k := k)
    (r := fetchRow false s.cpu) (by rw [ht]; rfl) rfl
  simp only [fetchRow] at c1 v0
  obtain ⟨b1, s2, d1, m1, e1, q2, c2, v1⟩ := q1.next (seq := rmwSequence .absx rmw) (k := k)
    (r := adlRow false s1.cpu) (by rw [show s1.cpu.eng.t = 1 by simp [c1, ht]]; rfl) rfl
  simp only [adlRow] at c2 v1
  obtain ⟨b2, s3, d2, m2, e2, q3, c3, v2⟩ := q2.next (seq := rmwSequence .absx rmw) (k := k)
    (r := absIndexRow s2.cpu.regs.x false s2.cpu) (by rw [show s2.cpu.eng.t = 2 by simp [c1, c2, ht]]; rfl) rfl
  simp only [absIndexRow] at c3 v2
  obtain ⟨b3, s4, d3, m3, e3, q4, c4, v3⟩ := q3.next (seq := rmwSequence .absx rmw) (k := k)
    (r := fixRow false s3.cpu) (by rw [show s3.cpu.eng.t = 3 by simp [c1, c2, c3, ht]]; rfl) rfl
  simp only [fixRow] at c4 v3
  refine ⟨4, s4, s4.cpu.ea, ⟨q4, by decide, ?_, ?_, ?_, ?_, ?_, ?_⟩, ?_⟩
  · intro j c hj h1 h2
    rw [show s4.cpu.eng.t = 4 by simp [c1, c2, c3, c4, ht], Nat.add_comm]
    simp only [rmwSequence, Cpu.ea, h1, h2]
  · intro m
    rw [show 4 + 3 + m = 3 + m + 1 + 1 + 1 + 1 by omega, runSequence_go e0, runSequence_go e1, runSequence_go e2, runSequence_go e3]
  · simp [c1, c2, c3, c4, BitVec.add_assoc]
  · simp [c1, c2, c3, c4]
  · simp [c1, c2, c3, c4]
  · constructor
    · rintro (hz | hz) <;> simp [c1, c2, c3, c4, hz]
    · rintro (hz | hz) <;> simp [c1, c2, c3, c4, hz]
    · intro hc hs; simp [c1, c2, c3, c4, hc, hs]
  · intro x1 x2 zp ho
    have w1 : b1 = x1 := v1 _ (by simpa [c1, BitVec.add_assoc] using ho.b1 (by omega))
    have w2 : b2 = x2 := v2 _ (by simpa [c1, c2, BitVec.add_assoc, w1] using ho.b2 (by omega))
    simp [c1, c2, c3, c4, MemMode.effectiveAddress, RmwMode.cycles, RmwMode.toMem, w1, w2, Cpu.ea, join_fix]

/-- Any read-modify-write mode (`40_cycle_engine.md` R136). -/
theorem rmw_last {m : RmwMode} {rmw : RmwOp} {k : Bool} {s : State} (h : s.Running) (ht : s.cpu.eng.t = 0) :
    ∃ n s' a, AtRmw (rmwSequence m rmw) k n (BitVec.ofNat 16 (1 + m.toMem.operandBytes)) rmw s s' a ∧
      ∀ b1 b2 zp, s.Operands m.toMem.operandBytes b1 b2 zp →
        a = MemMode.effectiveAddress m.toMem s.cpu.regs zp b1 b2 ∧ n + 3 = RmwMode.cycles m := by
  cases m
  · exact rmw_zp h ht
  · exact rmw_zpx h ht
  · exact rmw_abs h ht
  · exact rmw_absx h ht

end Sys2Proof.Machine
end

