-- ==== Sys2Proof/Laws/Run.lean ====
section
/-! SUPPORT. A whole instruction of each operand class: it goes through, and what it leaves. -/

namespace Sys2Proof.Machine

/-! ## Starting -/

theorem State.Running.withCpu {s : State} (h : s.Running) (c : Cpu) : { s with cpu := c }.Running :=
  ⟨⟨h.buses.cpu, h.buses.video⟩, h.idle, h.released, h.rstN, h.early, h.driver⟩

theorem State.peek_withCpu (s : State) (c : Cpu) : { s with cpu := c }.peek = s.peek := State.peek_congr rfl rfl

theorem State.Operands.start {s : State} {n : Nat} {b1 b2 : Byte} {zp : Byte → Byte} {k : SeqKind} (h : s.Operands n b1 b2 zp) :
    { s with cpu := s.cpu.start k }.Operands n b1 b2 zp :=
  ⟨by rw [State.peek_withCpu]; exact h.b1, by rw [State.peek_withCpu]; exact h.b2, by rw [State.peek_withCpu]; exact h.zp⟩

/-! ## Committing -/

/-- A final cycle after the poll commits. -/
theorem Polled.commit {s s' t : State} {r : Row} {b : Byte} (hp : Polled s s') (hk : Ticked r true s' b t)
    (hf : r.final = true) (hn : r.poll = false) (ht : ∀ c, (r.effect b c).trk = c.trk)
    (hi : ∀ c, (r.effect b c).eng.imask = c.eng.imask) (hlow : s.IrqLow → s'.IrqLow) : Committed s t := by
  obtain ⟨d, m, hc, -⟩ := hk.cpu
  constructor
  · intro h; simp [hc, hf, hn, ht, hp.nmi h, Tracker.committedFrom]
  · intro h; simp [hc, hf, hn, ht, hp.rst h, Tracker.committedFrom]
  · intro h h1 h2 hl
    simp [hc, hf, hn, ht, hi, hp.imask, h, hp.irq h1 h2, (hlow hl).now, Tracker.committedFrom]
  · intro h h1 h2
    simp only [hc, hf, hn, ht, hi, hp.imask, h, hp.irq h1 h2, Row.closeCpu_irq, Cpu.onBus_trk, Cpu.onBus_imask]
    cases s'.lines.irqN <;> simp

theorem CommittedAs.ofCpu {m : Bool} {s t : State} {c : Cpu} (hk : c.trk = s.cpu.trk)
    (h : CommittedAs m { s with cpu := c } t) : CommittedAs m s t :=
  ⟨by simpa only [hk] using h.nmi, by simpa only [hk] using h.rst,
    fun h1 h2 h3 hl => h.irqOpen h1 (by rw [hk]; exact h2) (by rw [hk]; exact h3) ⟨hl.now, hl.later⟩,
    by simpa only [hk] using h.irqMasked⟩

theorem Quiet.ofCpu {n : Nat} {s t : State} {c : Cpu} (h : Quiet n { s with cpu := c } t) : Quiet n s t :=
  ⟨h.running, h.fixed, h.driver, h.ram, h.video, fun hl => h.irqLow ⟨hl.now, hl.later⟩⟩

/-! ## Reads and writes -/

/-- A read instruction on a memory mode: what it reads at `a` is what it computes with. -/
theorem run_read {m : MemMode} {op : Byte → Regs → Regs} {s : State} (h : s.Running) :
    ∃ n t a, runInstr (memSequence m (.read op)) s = .next t ∧ Quiet n s t ∧
      t.cpu.regs = op t.cpu.eng.databus
        { s.cpu.regs with pc := s.cpu.regs.pc + BitVec.ofNat 16 (1 + m.operandBytes) } ∧
      t.cpu.eng.addrbus = a ∧ t.cpu.eng.presync = true ∧ t.cpu.eng.jammed = s.cpu.eng.jammed ∧ Committed s t ∧
      (∀ v, s.peek a = some v → t.cpu.eng.databus = v) ∧
      ∀ b1 b2 zp, s.Operands m.operandBytes b1 b2 zp →
        a = MemMode.effectiveAddress m s.cpu.regs zp b1 b2 ∧
        n = MemMode.readCycles m (MemMode.crosses m s.cpu.regs zp b1) := by
  obtain ⟨n, s', a, hl, ho⟩ := mem_last (m := m) (d := .read op) (k := true) (h.withCpu (s.cpu.start .fetch)) rfl
  obtain ⟨b, t, e, hk⟩ := tick_running (seq := memSequence m (.read op)) (commits := true) hl.quiet.running hl.row
  obtain ⟨d, z, hc, -⟩ := hk.cpu
  have hq := hl.quiet.step hk rfl
  simp only [DataOp.row] at hc e hk
  refine ⟨n + 1, t, a, ?_, hq.ofCpu, ?_, ?_, ?_, ?_, ?_, ?_, ?_⟩
  · have := hl.short
    rw [runInstr, maxCycles, show 8 = n + 1 + (7 - n) by omega, hl.run, Nat.add_comm, runSequence_end e]
  · simp [hc, hl.regs]
  · simp [hc]
  · simp [hc]
  · simp [hc, hl.jammed]
  · exact (hl.polled.commit hk rfl rfl (fun _ => rfl) (fun _ => rfl) hl.quiet.irqLow).ofCpu (c := s.cpu.start .fetch) rfl
  · intro v hv
    simp only [hc, Row.closeCpu_databus, Cpu.onBus_databus]
    exact hk.readByte rfl v (by rw [hl.quiet.peek, State.peek_withCpu]; exact hv)
  · intro b1 b2 zp hb
    exact ho b1 b2 zp hb.start

/-- A store on a memory mode writes at `a`. -/
theorem run_write {m : MemMode} {sv : Regs → Byte} {s : State} (h : s.Running)
    (hsv : ∀ r pc, sv { r with pc := pc } = sv r) :
    ∃ n t a, runInstr (memSequence m (.write sv)) s = .next t ∧ t.Running ∧ t.fixed = s.fixed ∧
      t.driver = s.driver.drop n ∧
      t.cpu.regs = { s.cpu.regs with pc := s.cpu.regs.pc + BitVec.ofNat 16 (1 + m.operandBytes) } ∧
      t.cpu.eng.addrbus = a ∧ t.cpu.eng.databus = sv s.cpu.regs ∧ t.cpu.eng.presync = true ∧
      t.cpu.eng.jammed = s.cpu.eng.jammed ∧ Committed s t ∧
      t.ram = s.ramAfter a (sv s.cpu.regs) ∧ (s.plainTarget a = true → t.videoMemory = s.videoMemory) ∧
      ∀ b1 b2 zp, s.Operands m.operandBytes b1 b2 zp →
        a = MemMode.effectiveAddress m s.cpu.regs zp b1 b2 ∧ n = MemMode.writeCycles m := by
  obtain ⟨n, s', a, hl, ho⟩ := mem_last (m := m) (d := .write sv) (k := true) (h.withCpu (s.cpu.start .fetch)) rfl
  obtain ⟨b, t, e, hk⟩ := tick_running (seq := memSequence m (.write sv)) (commits := true) hl.quiet.running hl.row
  obtain ⟨d, z, hc, -⟩ := hk.cpu
  obtain ⟨hb, hram, hvid⟩ := hk.write _ rfl
  have hfix := State.fixed_eq.mp hl.quiet.fixed
  have hsv' : sv s'.cpu.regs = sv s.cpu.regs := by rw [hl.regs]; exact hsv _ _
  simp only [DataOp.row, hsv'] at hc e hk hb hram hvid
  refine ⟨n + 1, t, a, ?_, hk.running, hk.fixed.trans hl.quiet.fixed, ?_, ?_, ?_, ?_, ?_, ?_, ?_, ?_, ?_, ?_⟩
  · have := hl.short
    rw [runInstr, maxCycles, show 8 = n + 1 + (7 - n) by omega, hl.run, Nat.add_comm, runSequence_end e]
  · rw [hk.driver, hl.quiet.driver, List.tail_drop]
  · simp [hc, hl.regs]
  · simp [hc]
  · simp [hc, hb]
  · simp [hc]
  · simp [hc, hl.jammed]
  · exact (hl.polled.commit hk rfl rfl (fun _ => rfl) (fun _ => rfl) hl.quiet.irqLow).ofCpu (c := s.cpu.start .fetch) rfl
  · rw [hram]; simp only [State.ramAfter, hfix.2.2.2.2.1, hl.quiet.ram]
  · intro hp
    rw [hvid (by simpa [State.plainTarget, hfix.2.2.2.2.1] using hp), hl.quiet.video]; rfl
  · intro b1 b2 zp hb
    exact ho b1 b2 zp hb.start

/-! ## Implied and immediate -/

theorem implied_last {op : Regs → Regs} {k : Bool} {s : State} (h : s.Running) (ht : s.cpu.eng.t = 0) :
    ∃ s', AtLast (impliedSequence op) k 1 1 s s'
      { addr := s'.cpu.regs.pc, effect := fun _ c => { c with regs := op c.regs }, final := true } := by
  obtain ⟨b0, s1, d0, m0, e0, q1, c1, v0⟩ := (Quiet.refl h).next (seq := impliedSequence op) (k := k)
    (r := fetchRow true s.cpu) (by rw [ht]; rfl) rfl
  simp only [fetchRow] at c1 v0
  refine ⟨s1, q1, by decide, ?_, ?_, ?_, ?_, ?_, ?_⟩
  · rw [show s1.cpu.eng.t = 1 by simp [c1, ht]]; rfl
  · intro m; rw [show 1 + 1 + m = 1 + m + 1 by omega, runSequence_go e0]
  · simp [c1]
  · simp [c1]
  · simp [c1]
  · constructor
    · simp [c1]
    · rintro (hz | hz) <;> simp [c1, hz]
    · rintro (hz | hz) <;> simp [c1, hz]
    · intro hc hs; simp [c1, hc, hs, promoted_sampleIrq]

theorem imm_last {op : Byte → Regs → Regs} {k : Bool} {s : State} (h : s.Running) (ht : s.cpu.eng.t = 0) :
    ∃ s', AtLast (immSequence op) k 1 1 s s'
      { addr := s'.cpu.regs.pc, effect := fun b c => { c with regs := op b { c.regs with pc := c.regs.pc + 1 } },
        final := true } := by
  obtain ⟨b0, s1, d0, m0, e0, q1, c1, v0⟩ := (Quiet.refl h).next (seq := immSequence op) (k := k)
    (r := fetchRow true s.cpu) (by rw [ht]; rfl) rfl
  simp only [fetchRow] at c1 v0
  refine ⟨s1, q1, by decide, ?_, ?_, ?_, ?_, ?_, ?_⟩
  · rw [show s1.cpu.eng.t = 1 by simp [c1, ht]]; rfl
  · intro m; rw [show 1 + 1 + m = 1 + m + 1 by omega, runSequence_go e0]
  · simp [c1]
  · simp [c1]
  · simp [c1]
  · constructor
    · simp [c1]
    · rintro (hz | hz) <;> simp [c1, hz]
    · rintro (hz | hz) <;> simp [c1, hz]
    · intro hc hs; simp [c1, hc, hs, promoted_sampleIrq]

/-- The end of a sequence whose last cycle reads. -/
theorem AtLast.finish {seq : Sequence} {n : Nat} {len : Word} {s s' : State} {r : Row}
    (hl : AtLast seq true n len { s with cpu := s.cpu.start .fetch } s' r) (ho : r.out = none) (hf : r.final = true)
    (hp : r.poll = false) (ht : ∀ b c, (r.effect b c).trk = c.trk) (he : ∀ b c, (r.effect b c).eng = c.eng) :
    ∃ t b d, runInstr seq s = .next t ∧ Quiet (n + 1) s t ∧ Committed s t ∧
      t.cpu.regs = (r.effect b (s'.cpu.onBus r.addr b d)).regs ∧ t.cpu.eng.addrbus = r.addr ∧ t.cpu.eng.databus = b ∧
      t.cpu.eng.presync = true ∧ t.cpu.eng.jammed = s.cpu.eng.jammed ∧ ∀ v, s.peek r.addr = some v → b = v := by
  obtain ⟨b, t, e, hk⟩ := tick_running (seq := seq) (commits := true) hl.quiet.running hl.row
  obtain ⟨d, z, hc, -⟩ := hk.cpu
  refine ⟨t, b, d, ?_, (hl.quiet.step hk ho).ofCpu, ?_, ?_, ?_, ?_, ?_, ?_, ?_⟩
  · have := hl.short
    rw [hf, Bool.true_or] at e
    rw [runInstr, maxCycles, show 8 = n + 1 + (7 - n) by omega, hl.run, Nat.add_comm, runSequence_end e]
  · exact (hl.polled.commit hk hf hp (ht b) (fun c => by rw [he]) hl.quiet.irqLow).ofCpu (c := s.cpu.start .fetch) rfl
  · simp [hc]
  · simp [hc, he]
  · simp [hc, he]
  · simp [hc, hf]
  · simp [hc, he, hl.jammed]
  · intro v hv
    exact hk.readByte ho v (by rw [hl.quiet.peek, State.peek_withCpu]; exact hv)

/-- An implied or accumulator instruction (`40_cycle_engine.md` R140). -/
theorem run_implied {op : Regs → Regs} {s : State} (h : s.Running) :
    ∃ t, runInstr (impliedSequence op) s = .next t ∧ Quiet 2 s t ∧ Committed s t ∧
      t.cpu.regs = op { s.cpu.regs with pc := s.cpu.regs.pc + 1 } ∧ t.cpu.eng.addrbus = s.cpu.regs.pc + 1 ∧
      t.cpu.eng.presync = true ∧ t.cpu.eng.jammed = s.cpu.eng.jammed := by
  obtain ⟨s', hl⟩ := implied_last (op := op) (k := true) (h.withCpu (s.cpu.start .fetch)) rfl
  obtain ⟨t, b, d, h1, h2, h3, h4, h5, h6, h7, h8, h9⟩ := hl.finish rfl rfl rfl (fun _ _ => rfl) (fun _ _ => rfl)
  exact ⟨t, h1, h2, h3, by rw [h4]; simp [hl.regs], by rw [h5]; simp [hl.regs], h7, h8⟩

/-- An immediate instruction (`40_cycle_engine.md` R141). -/
theorem run_imm {op : Byte → Regs → Regs} {s : State} (h : s.Running) :
    ∃ t, runInstr (immSequence op) s = .next t ∧ Quiet 2 s t ∧ Committed s t ∧
      t.cpu.regs = op t.cpu.eng.databus { s.cpu.regs with pc := s.cpu.regs.pc + 2 } ∧
      t.cpu.eng.addrbus = s.cpu.regs.pc + 1 ∧ t.cpu.eng.presync = true ∧ t.cpu.eng.jammed = s.cpu.eng.jammed ∧
      ∀ v, s.peek (s.cpu.regs.pc + 1) = some v → t.cpu.eng.databus = v := by
  obtain ⟨s', hl⟩ := imm_last (op := op) (k := true) (h.withCpu (s.cpu.start .fetch)) rfl
  obtain ⟨t, b, d, h1, h2, h3, h4, h5, h6, h7, h8, h9⟩ := hl.finish rfl rfl rfl (fun _ _ => rfl) (fun _ _ => rfl)
  exact ⟨t, h1, h2, h3, by rw [h4, h6]; simp [hl.regs, BitVec.add_assoc], by rw [h5]; simp [hl.regs], h7, h8,
    by rw [h6]; simpa [hl.regs] using h9⟩

end Sys2Proof.Machine
end

