-- ==== Sys2Proof/Laws/Flow.lean ====
section
/-! SUPPORT. The sequences of the stack, jump, subroutine and return instructions up to their last cycle
(`40_cycle_engine.md` R150, R151, R155, R156), and whole runs of them. -/

namespace Sys2Proof.Machine

/-! ## Up to the last cycle -/

/-- PHA and PHP (`40_cycle_engine.md` R155). -/
theorem push_last {v : Regs → Byte} {k : Bool} {s : State} (h : s.Running) (ht : s.cpu.eng.t = 0) :
    ∃ s', AtLast (pushSequence v) k 2 1 s s' (pushRow (v s'.cpu.regs) false true s'.cpu) := by
  obtain ⟨b0, s1, d0, m0, e0, q1, c1, v0⟩ := (Quiet.refl h).next (seq := pushSequence v) (k := k)
    (r := fetchRow false s.cpu) (by rw [ht]; rfl) rfl
  simp only [fetchRow] at c1 v0
  obtain ⟨b1, s2, d1, m1, e1, q2, c2, v1⟩ := q1.next (seq := pushSequence v) (k := k)
    (r := idleRow true s1.cpu) (by rw [show s1.cpu.eng.t = 1 by simp [c1, ht]]; rfl) rfl
  simp only [idleRow] at c2 v1
  refine ⟨s2, q2, by decide, ?_, ?_, ?_, ?_, ?_, ?_⟩
  · rw [show s2.cpu.eng.t = 2 by simp [c1, c2, ht]]; rfl
  · intro m; rw [show 2 + 1 + m = 1 + m + 1 + 1 by omega, runSequence_go e0, runSequence_go e1]
  · simp [c1, c2]
  · simp [c1, c2]
  · simp [c1, c2]
  · constructor
    · simp [c1, c2]
    · rintro (hz | hz) <;> simp [c1, c2, hz]
    · rintro (hz | hz) <;> simp [c1, c2, hz]
    · intro hc hs; simp [c1, c2, hc, hs, promoted_sampleIrq]

/-! ## Read-modify-write -/

/-- The three cycles that end a read-modify-write (`40_cycle_engine.md` R162): the byte `v` read at `a` is written back, then the new
byte is. -/
theorem run_rmw {m : RmwMode} {rmw : RmwOp} {s : State} (h : s.Running) (hi : ∀ v p, (rmw v p).2.i = p.i) :
    ∃ n t a v, runInstr (rmwSequence m rmw) s = .next t ∧ t.Running ∧ t.fixed = s.fixed ∧ t.driver = s.driver.drop n ∧
      t.cpu.regs = { s.cpu.regs with
        pc := s.cpu.regs.pc + BitVec.ofNat 16 (1 + m.toMem.operandBytes), p := (rmw v s.cpu.regs.p).2 } ∧
      t.cpu.eng.addrbus = a ∧ t.cpu.eng.databus = (rmw v s.cpu.regs.p).1 ∧ t.cpu.eng.presync = true ∧
      t.cpu.eng.jammed = s.cpu.eng.jammed ∧ Committed s t ∧
      t.ram = (s.storedAt a v).ramAfter a (rmw v s.cpu.regs.p).1 ∧
      (s.plainTarget a = true → t.videoMemory = s.videoMemory) ∧
      (∀ u, s.peek a = some u → v = u) ∧
      ∀ b1 b2 zp, s.Operands m.toMem.operandBytes b1 b2 zp →
        a = MemMode.effectiveAddress m.toMem s.cpu.regs zp b1 b2 ∧ n = RmwMode.cycles m := by
  obtain ⟨n, s1, a, hl, ho⟩ := rmw_last (m := m) (rmw := rmw) (k := true) (h.withCpu (s.cpu.start .fetch)) rfl
  obtain ⟨v, s2, d2, m2, e1, q1, c1, v1⟩ := hl.quiet.next (seq := rmwSequence m rmw) (k := true)
    (hl.rows 0 s1.cpu (by omega) rfl rfl) rfl
  simp only [rmwRows] at c1 v1
  obtain ⟨x3, s3, e3, hk3⟩ := tick_running (seq := rmwSequence m rmw) (commits := true) q1.running
    (r := rmwRows rmw a 1 s2.cpu)
    (by rw [show s2.cpu.eng.t = s1.cpu.eng.t + 1 by simp [c1]]
        exact hl.rows 1 _ (by omega) (by simp [c1]) (by simp [c1]))
  obtain ⟨d3, m3, c3, -⟩ := hk3.cpu
  obtain ⟨hx3, hram3, hvid3⟩ := hk3.write _ rfl
  simp only [rmwRows] at c3 hx3 hram3 hvid3
  obtain ⟨x4, s4, e4, hk4⟩ := tick_running (seq := rmwSequence m rmw) (commits := true) hk3.running
    (r := rmwRows rmw a 2 s3.cpu)
    (by rw [show s3.cpu.eng.t = s1.cpu.eng.t + 2 by simp [c1, c3]]
        exact hl.rows 2 _ (by omega) (by simp [c1, c3]) (by simp [c1, c3]))
  obtain ⟨d4, m4, c4, -⟩ := hk4.cpu
  obtain ⟨hx4, hram4, hvid4⟩ := hk4.write _ rfl
  have hfin : (rmwRows rmw a 2 s3.cpu).final = true := rfl
  simp only [rmwRows] at c4 hx4 hram4 hvid4
  have hreg := hl.regs
  simp only [Cpu.start_regs] at hreg
  have hval : s3.cpu.eng.val = (rmw v s.cpu.regs.p).1 := by simp [c3, c1, hreg]
  have hval2 : s2.cpu.eng.val = v := by simp [c1]
  have hfix2 := State.fixed_eq.mp q1.fixed
  have hfix3 := State.fixed_eq.mp hk3.fixed
  have hb3 : s3.cpuBus = s.cpuBus := hfix3.2.2.2.2.1.trans hfix2.2.2.2.2.1
  refine ⟨n + 3, s4, a, v, ?_, hk4.running, hk4.fixed.trans (hk3.fixed.trans q1.fixed), ?_, ?_, ?_, ?_, ?_, ?_, ?_, ?_, ?_, ?_, ?_⟩
  · have := hl.short
    rw [runInstr, maxCycles, show 8 = n + 3 + (5 - n) by omega, hl.run, show 3 + (5 - n) = (5 - n) + 1 + 1 + 1 by omega,
      runSequence_go e1, runSequence_go e3, runSequence_end e4]
  · rw [hk4.driver, hk3.driver, q1.driver, List.tail_drop, List.tail_drop]
  · simp [c4, c3, c1, hreg]
  · simp [c4]
  · simp [c4, hx4, hval]
  · simp [c4]
  · simp [c4, c3, c1, hl.jammed]
  · have hu := hl.unpolled
    have p3 : Polled { s with cpu := s.cpu.start .fetch } s3 := by
      constructor
      · simp [c3, c1, hreg, hi]
      · rintro hz; have := hu.nmi hz; simp only [Cpu.start_trk] at hz this; rcases hz with hz | hz <;> simp [c3, c1, this, hz]
      · rintro hz; have := hu.rst hz; simp only [Cpu.start_trk] at hz this; rcases hz with hz | hz <;> simp [c3, c1, this, hz]
      · intro hc hs; have := hu.irq hc hs; simp [c3, c1, this, promoted_sampleIrq, hk3.lines]
    exact (p3.commit hk4 rfl rfl (fun _ => rfl) (fun _ => rfl) (fun hl => hk3.irqLow (q1.irqLow hl))).ofCpu
      (c := s.cpu.start .fetch) rfl
  · rw [hram4, State.ramAfter, hb3, hram3, hval, hval2]
    simp only [State.storedAt, State.ramAfter, hfix2.2.2.2.2.1, q1.ram]
  · intro hp
    rw [hvid4 (by simpa [State.plainTarget, hb3] using hp), hvid3 (by simpa [State.plainTarget, hfix2.2.2.2.2.1] using hp), q1.video]
    rfl
  · intro u hu; exact v1 u (by rw [State.peek_withCpu]; exact hu)
  · intro b1 b2 zp hb
    obtain ⟨h1, h2⟩ := ho b1 b2 zp hb.start
    exact ⟨h1, h2⟩







/-- A relative branch (`40_cycle_engine.md` R149). -/
theorem run_branch {cond : Flags → Bool} {s : State} (h : s.Running) :
    ∃ n t, runInstr (branchSequence cond) s = .next t ∧ Quiet n s t ∧ Committed s t ∧
      t.cpu.regs = { s.cpu.regs with
        pc := if cond s.cpu.regs.p then branchTarget (s.cpu.regs.pc + 2) t.cpu.eng.off else s.cpu.regs.pc + 2 } ∧
      t.cpu.eng.presync = true ∧ t.cpu.eng.jammed = s.cpu.eng.jammed ∧
      (∀ v, s.peek (s.cpu.regs.pc + 1) = some v → t.cpu.eng.off = v) ∧
      n = if cond s.cpu.regs.p then
          (if hi (branchTarget (s.cpu.regs.pc + 2) t.cpu.eng.off) = hi (s.cpu.regs.pc + 2) then 3 else 4) else 2 := by
  have h0 := h.withCpu (s.cpu.start .fetch)
  obtain ⟨b0, s1, d0, m0, e0, q1, c1, v0⟩ := (Quiet.refl h0).next (seq := branchSequence cond) (k := true)
    (r := fetchRow true (s.cpu.start .fetch)) (rfl) rfl
  simp only [fetchRow] at c1 v0
  obtain ⟨b1, s2, d1, m1, e1, q2, c2, v1⟩ := q1.next (seq := branchSequence cond) (k := true)
    (r := { addr := s1.cpu.regs.pc, effect := fun b c => { c with eng.off := b, regs.pc := c.regs.pc + 1 }, final := !cond s1.cpu.regs.p }) (by rw [show s1.cpu.eng.t = 1 by simp [c1]]; rfl) rfl
  by_cases ht : cond s.cpu.regs.p = true
  · have e1' : tick (branchSequence cond) true s1 = .next (s2, false) := by simpa [c1, ht] using e1
    obtain ⟨b2, s3, d2, m2, e2, q3, c3, v2⟩ := q2.next (seq := branchSequence cond) (k := true)
      (r := { addr := s2.cpu.regs.pc,
                effect := fun _ c =>
                  { c with eng.tgt := branchTarget s2.cpu.regs.pc s2.cpu.eng.off,
                           regs.pc := if decide (hi (branchTarget s2.cpu.regs.pc s2.cpu.eng.off) = hi s2.cpu.regs.pc) then branchTarget s2.cpu.regs.pc s2.cpu.eng.off else join (hi c.regs.pc) (lo (branchTarget s2.cpu.regs.pc s2.cpu.eng.off)) },
                poll := !decide (hi (branchTarget s2.cpu.regs.pc s2.cpu.eng.off) = hi s2.cpu.regs.pc), final := decide (hi (branchTarget s2.cpu.regs.pc s2.cpu.eng.off) = hi s2.cpu.regs.pc) }) (by rw [show s2.cpu.eng.t = 2 by simp [c1, c2, ht]]; rfl) rfl
    by_cases hs : hi (branchTarget (s.cpu.regs.pc + 2#16) b1) = hi (s.cpu.regs.pc + 2#16)
    · have e2' : tick (branchSequence cond) true s2 = .next (s3, true) := by simpa [c1, c2, hs, BitVec.add_assoc] using e2
      refine ⟨3, s3, ?_, q3.ofCpu, ?_, ?_, ?_, ?_, ?_, ?_⟩
      · rw [runInstr, maxCycles, show 8 = 5 + 1 + 1 + 1 by omega, runSequence_go e0, runSequence_go e1', runSequence_end e2']
      · show CommittedAs _ _ _
        constructor
        · rintro (hz | hz) <;> simp [c1, c2, c3, hz, hs, ht, BitVec.add_assoc]
        · rintro (hz | hz) <;> simp [c1, c2, c3, hz, hs, ht, BitVec.add_assoc]
        · intro hp h1 h2 hl; simp [c1, c2, c3, hp, h1, h2, promoted_sampleIrq, (q1.ofCpu.irqLow hl).now, (q2.ofCpu.irqLow hl).now, (q3.ofCpu.irqLow hl).now, hs, ht, BitVec.add_assoc]
        · intro hp h1 h2; simp [c1, c2, c3, hp, h1, hs, ht, BitVec.add_assoc]
      · simp [c1, c2, c3, hs, ht, BitVec.add_assoc]
      · simp [c1, c2, c3, hs, BitVec.add_assoc]
      · simp [c1, c2, c3]
      · intro v hv; simpa [c1, c2, c3] using v1 v (by simpa [c1, State.peek_withCpu] using hv)
      · simp [c1, c2, c3, hs, ht, BitVec.add_assoc]
    · have e2' : tick (branchSequence cond) true s2 = .next (s3, false) := by simpa [c1, c2, hs, BitVec.add_assoc] using e2
      obtain ⟨b3, s4, d3, m3, e3, q4, c4, v3⟩ := q3.next (seq := branchSequence cond) (k := true)
        (r := { addr := s3.cpu.regs.pc, effect := fun _ c => { c with regs.pc := c.eng.tgt }, final := true }) (by rw [show s3.cpu.eng.t = 3 by simp [c1, c2, c3, ht, hs, BitVec.add_assoc]]; rfl) rfl
      refine ⟨4, s4, ?_, q4.ofCpu, ?_, ?_, ?_, ?_, ?_, ?_⟩
      · rw [runInstr, maxCycles, show 8 = 4 + 1 + 1 + 1 + 1 by omega, runSequence_go e0, runSequence_go e1', runSequence_go e2', runSequence_end e3]
      · show CommittedAs _ _ _
        constructor
        · rintro (hz | hz) <;> simp [c1, c2, c3, c4, hz, hs, ht, BitVec.add_assoc]
        · rintro (hz | hz) <;> simp [c1, c2, c3, c4, hz, hs, ht, BitVec.add_assoc]
        · intro hp h1 h2 hl; simp [c1, c2, c3, c4, hp, h1, h2, promoted_sampleIrq, (q1.ofCpu.irqLow hl).now, (q2.ofCpu.irqLow hl).now, (q3.ofCpu.irqLow hl).now, (q4.ofCpu.irqLow hl).now, hs, ht, BitVec.add_assoc]
        · intro hp h1 h2; simp [c1, c2, c3, c4, hp, h1, hs, ht, BitVec.add_assoc]
      · simp [c1, c2, c3, c4, hs, ht, BitVec.add_assoc]
      · simp [c1, c2, c3, c4]
      · simp [c1, c2, c3, c4]
      · intro v hv; simpa [c1, c2, c3, c4] using v1 v (by simpa [c1, State.peek_withCpu] using hv)
      · simp [c1, c2, c3, c4, hs, ht, BitVec.add_assoc]
  · have ht : cond s.cpu.regs.p = false := by simpa using ht
    have e1' : tick (branchSequence cond) true s1 = .next (s2, true) := by simpa [c1, ht] using e1
    refine ⟨2, s2, ?_, q2.ofCpu, ?_, ?_, ?_, ?_, ?_, ?_⟩
    · rw [runInstr, maxCycles, show 8 = 6 + 1 + 1 by omega, runSequence_go e0, runSequence_end e1']
    · show CommittedAs _ _ _
      constructor
      · rintro (hz | hz) <;> simp [c1, c2, hz, ht]
      · rintro (hz | hz) <;> simp [c1, c2, hz, ht]
      · intro hp h1 h2 hl; simp [c1, c2, hp, h1, h2, promoted_sampleIrq, (q1.ofCpu.irqLow hl).now, (q2.ofCpu.irqLow hl).now, ht]
      · intro hp h1 h2; simp [c1, c2, hp, h1, ht]
    · simp [c1, c2, ht, BitVec.add_assoc]
    · simp [c1, c2, ht]
    · simp [c1, c2]
    · intro v hv; simpa [c1, c2] using v1 v (by simpa [c1, State.peek_withCpu] using hv)
    · simp [ht]

/-- JMP absolute (`40_cycle_engine.md` R150). -/
theorem run_jmp_abs {s : State} (h : s.Running) :
    ∃ t, runInstr (seqJmp .abs) s = .next t ∧ Quiet 3 s t ∧ Committed s t ∧ t.cpu.eng.presync = true ∧
      t.cpu.eng.jammed = s.cpu.eng.jammed ∧ t.cpu.regs = { s.cpu.regs with pc := t.cpu.ea } ∧
      (∀ v, s.peek (s.cpu.regs.pc + 1) = some v → t.cpu.eng.adl = v) ∧
      ∀ v, s.peek (s.cpu.regs.pc + 2) = some v → t.cpu.eng.adh = v := by
  have h0 := h.withCpu (s.cpu.start .fetch)
  obtain ⟨b0, s1, d0, m0, e0, q1, c1, v0⟩ := (Quiet.refl h0).next (seq := seqJmp .abs) (k := true)
    (r := fetchRow false (s.cpu.start .fetch)) (rfl) rfl
  simp only [fetchRow] at c1 v0
  obtain ⟨b1, s2, d1, m1, e1, q2, c2, v1⟩ := q1.next (seq := seqJmp .abs) (k := true)
    (r := adlRow true s1.cpu) (by rw [show s1.cpu.eng.t = 1 by simp [c1]]; rfl) rfl
  simp only [adlRow] at c2 v1
  obtain ⟨b2, s3, d2, m2, e2, q3, c3, v2⟩ := q2.next (seq := seqJmp .abs) (k := true)
    (r := { addr := s2.cpu.regs.pc, effect := fun b c => { c with eng.adh := b, regs.pc := join b c.eng.adl }, final := true }) (by rw [show s2.cpu.eng.t = 2 by simp [c1, c2]]; rfl) rfl
  refine ⟨s3, ?_, q3.ofCpu, ?_, by simp [c1, c2, c3], by simp [c1, c2, c3], ?_, ?_, ?_⟩
  · rw [runInstr, maxCycles, show 8 = 5 + 1 + 1 + 1 by omega, runSequence_go e0, runSequence_go e1, runSequence_end e2]
  · show CommittedAs _ _ _
    constructor
    · rintro (hz | hz) <;> simp [c1, c2, c3, hz]
    · rintro (hz | hz) <;> simp [c1, c2, c3, hz]
    · intro hp h1 h2 hl; simp [c1, c2, c3, hp, h1, h2, promoted_sampleIrq, (q1.ofCpu.irqLow hl).now, (q2.ofCpu.irqLow hl).now, (q3.ofCpu.irqLow hl).now]
    · intro hp h1 h2; simp [c1, c2, c3, hp, h1]
  · simp [c1, c2, c3, Cpu.ea]
  · intro v hv; simpa [c1, c2, c3] using v1 v (by simpa [c1, c2, c3, State.peek_withCpu, BitVec.add_assoc] using hv)
  · intro v hv; simpa [c1, c2, c3] using v2 v (by simpa [c1, c2, c3, State.peek_withCpu, BitVec.add_assoc] using hv)

/-- JMP indirect (`40_cycle_engine.md` R151). -/
theorem run_jmp_ind {s : State} (h : s.Running) :
    ∃ t, runInstr (seqJmp .ind) s = .next t ∧ Quiet 5 s t ∧ Committed s t ∧ t.cpu.eng.presync = true ∧
      t.cpu.eng.jammed = s.cpu.eng.jammed ∧ t.cpu.regs = { s.cpu.regs with pc := join t.cpu.eng.databus t.cpu.eng.lat } ∧
      (∀ v, s.peek (s.cpu.regs.pc + 1) = some v → t.cpu.eng.adl = v) ∧
      (∀ v, s.peek (s.cpu.regs.pc + 2) = some v → t.cpu.eng.adh = v) ∧
      (∀ v, s.peek (indirectLo t.cpu.eng.adl t.cpu.eng.adh) = some v → t.cpu.eng.lat = v) ∧
      t.cpu.eng.addrbus = indirectHi t.cpu.eng.adl t.cpu.eng.adh ∧
      ∀ v, s.peek (indirectHi t.cpu.eng.adl t.cpu.eng.adh) = some v → t.cpu.eng.databus = v := by
  have h0 := h.withCpu (s.cpu.start .fetch)
  obtain ⟨b0, s1, d0, m0, e0, q1, c1, v0⟩ := (Quiet.refl h0).next (seq := seqJmp .ind) (k := true)
    (r := fetchRow false (s.cpu.start .fetch)) (rfl) rfl
  simp only [fetchRow] at c1 v0
  obtain ⟨b1, s2, d1, m1, e1, q2, c2, v1⟩ := q1.next (seq := seqJmp .ind) (k := true)
    (r := adlRow false s1.cpu) (by rw [show s1.cpu.eng.t = 1 by simp [c1]]; rfl) rfl
  simp only [adlRow] at c2 v1
  obtain ⟨b2, s3, d2, m2, e2, q3, c3, v2⟩ := q2.next (seq := seqJmp .ind) (k := true)
    (r := adhRow false s2.cpu) (by rw [show s2.cpu.eng.t = 2 by simp [c1, c2]]; rfl) rfl
  simp only [adhRow] at c3 v2
  obtain ⟨b3, s4, d3, m3, e3, q4, c4, v3⟩ := q3.next (seq := seqJmp .ind) (k := true)
    (r := { addr := s3.cpu.ea, effect := fun b c => { c with eng.lat := b }, poll := true }) (by rw [show s3.cpu.eng.t = 3 by simp [c1, c2, c3]]; rfl) rfl
  obtain ⟨b4, s5, d4, m4, e4, q5, c5, v4⟩ := q4.next (seq := seqJmp .ind) (k := true)
    (r := { addr := join s4.cpu.eng.adh (s4.cpu.eng.adl + 1#8), effect := fun b c => { c with regs.pc := join b c.eng.lat }, final := true }) (by rw [show s4.cpu.eng.t = 4 by simp [c1, c2, c3, c4]]; rfl) rfl
  refine ⟨s5, ?_, q5.ofCpu, ?_, by simp [c1, c2, c3, c4, c5], by simp [c1, c2, c3, c4, c5], ?_, ?_, ?_, ?_, ?_, ?_⟩
  · rw [runInstr, maxCycles, show 8 = 3 + 1 + 1 + 1 + 1 + 1 by omega, runSequence_go e0, runSequence_go e1, runSequence_go e2, runSequence_go e3, runSequence_end e4]
  · show CommittedAs _ _ _
    constructor
    · rintro (hz | hz) <;> simp [c1, c2, c3, c4, c5, hz]
    · rintro (hz | hz) <;> simp [c1, c2, c3, c4, c5, hz]
    · intro hp h1 h2 hl; simp [c1, c2, c3, c4, c5, hp, h1, h2, promoted_sampleIrq, (q1.ofCpu.irqLow hl).now, (q2.ofCpu.irqLow hl).now, (q3.ofCpu.irqLow hl).now, (q4.ofCpu.irqLow hl).now, (q5.ofCpu.irqLow hl).now]
    · intro hp h1 h2; simp [c1, c2, c3, c4, c5, hp, h1]
  · simp [c1, c2, c3, c4, c5]
  · intro v hv; simpa [c1, c2, c3, c4, c5] using v1 v (by simpa [c1, c2, c3, c4, c5, State.peek_withCpu, BitVec.add_assoc] using hv)
  · intro v hv; simpa [c1, c2, c3, c4, c5] using v2 v (by simpa [c1, c2, c3, c4, c5, State.peek_withCpu, BitVec.add_assoc] using hv)
  · intro v hv; simpa [c1, c2, c3, c4, c5] using v3 v (by simpa [c1, c2, c3, c4, c5, State.peek_withCpu, indirectLo, Cpu.ea] using hv)
  · simp [c1, c2, c3, c4, c5, indirectHi]
  · intro v hv; simpa [c1, c2, c3, c4, c5] using v4 v (by simpa [c1, c2, c3, c4, c5, State.peek_withCpu, indirectHi] using hv)

/-- PLA and PLP (`40_cycle_engine.md` R156). -/
theorem run_pull {op : Byte → Regs → Regs} {s : State} (h : s.Running) :
    ∃ t, runInstr (pullSequence op) s = .next t ∧ Quiet 4 s t ∧ Committed s t ∧ t.cpu.eng.presync = true ∧
      t.cpu.eng.jammed = s.cpu.eng.jammed ∧ t.cpu.regs = op t.cpu.eng.databus { s.cpu.regs with pc := s.cpu.regs.pc + 1, s := s.cpu.regs.s + 1 } ∧
      t.cpu.eng.addrbus = stackAddr (s.cpu.regs.s + 1) ∧
      ∀ v, s.peek (stackAddr (s.cpu.regs.s + 1)) = some v → t.cpu.eng.databus = v := by
  have h0 := h.withCpu (s.cpu.start .fetch)
  obtain ⟨b0, s1, d0, m0, e0, q1, c1, v0⟩ := (Quiet.refl h0).next (seq := pullSequence op) (k := true)
    (r := fetchRow false (s.cpu.start .fetch)) (rfl) rfl
  simp only [fetchRow] at c1 v0
  obtain ⟨b1, s2, d1, m1, e1, q2, c2, v1⟩ := q1.next (seq := pullSequence op) (k := true)
    (r := idleRow false s1.cpu) (by rw [show s1.cpu.eng.t = 1 by simp [c1]]; rfl) rfl
  simp only [idleRow] at c2 v1
  obtain ⟨b2, s3, d2, m2, e2, q3, c3, v2⟩ := q2.next (seq := pullSequence op) (k := true)
    (r := incSRow true s2.cpu) (by rw [show s2.cpu.eng.t = 2 by simp [c1, c2]]; rfl) rfl
  simp only [incSRow] at c3 v2
  obtain ⟨b3, s4, d3, m3, e3, q4, c4, v3⟩ := q3.next (seq := pullSequence op) (k := true)
    (r := { addr := stackAddr s3.cpu.regs.s, effect := fun b c => { c with regs := op b c.regs }, final := true }) (by rw [show s3.cpu.eng.t = 3 by simp [c1, c2, c3]]; rfl) rfl
  refine ⟨s4, ?_, q4.ofCpu, ?_, by simp [c1, c2, c3, c4], by simp [c1, c2, c3, c4], ?_, ?_, ?_⟩
  · rw [runInstr, maxCycles, show 8 = 4 + 1 + 1 + 1 + 1 by omega, runSequence_go e0, runSequence_go e1, runSequence_go e2, runSequence_end e3]
  · show CommittedAs _ _ _
    constructor
    · rintro (hz | hz) <;> simp [c1, c2, c3, c4, hz]
    · rintro (hz | hz) <;> simp [c1, c2, c3, c4, hz]
    · intro hp h1 h2 hl; simp [c1, c2, c3, c4, hp, h1, h2, promoted_sampleIrq, (q1.ofCpu.irqLow hl).now, (q2.ofCpu.irqLow hl).now, (q3.ofCpu.irqLow hl).now, (q4.ofCpu.irqLow hl).now]
    · intro hp h1 h2; simp [c1, c2, c3, c4, hp, h1]
  · simp [c1, c2, c3, c4]
  · simp [c1, c2, c3, c4]
  · intro v hv; simpa [c1, c2, c3, c4] using v3 v (by simpa [c1, c2, c3, c4, State.peek_withCpu, BitVec.add_assoc] using hv)

/-- RTS (`40_cycle_engine.md` R153). -/
theorem run_rts {s : State} (h : s.Running) :
    ∃ t, runInstr (seqRts) s = .next t ∧ Quiet 6 s t ∧ Committed s t ∧ t.cpu.eng.presync = true ∧
      t.cpu.eng.jammed = s.cpu.eng.jammed ∧ t.cpu.regs = { s.cpu.regs with pc := t.cpu.ea + 1, s := s.cpu.regs.s + 2 } ∧
      (∀ v, s.peek (stackAddr (s.cpu.regs.s + 1)) = some v → t.cpu.eng.adl = v) ∧
      ∀ v, s.peek (stackAddr (s.cpu.regs.s + 2)) = some v → t.cpu.eng.adh = v := by
  have h0 := h.withCpu (s.cpu.start .fetch)
  obtain ⟨b0, s1, d0, m0, e0, q1, c1, v0⟩ := (Quiet.refl h0).next (seq := seqRts) (k := true)
    (r := fetchRow false (s.cpu.start .fetch)) (rfl) rfl
  simp only [fetchRow] at c1 v0
  obtain ⟨b1, s2, d1, m1, e1, q2, c2, v1⟩ := q1.next (seq := seqRts) (k := true)
    (r := idleRow false s1.cpu) (by rw [show s1.cpu.eng.t = 1 by simp [c1]]; rfl) rfl
  simp only [idleRow] at c2 v1
  obtain ⟨b2, s3, d2, m2, e2, q3, c3, v2⟩ := q2.next (seq := seqRts) (k := true)
    (r := incSRow false s2.cpu) (by rw [show s2.cpu.eng.t = 2 by simp [c1, c2]]; rfl) rfl
  simp only [incSRow] at c3 v2
  obtain ⟨b3, s4, d3, m3, e3, q4, c4, v3⟩ := q3.next (seq := seqRts) (k := true)
    (r := { addr := stackAddr s3.cpu.regs.s, effect := fun b c => { c with eng.adl := b, regs.s := c.regs.s + 1 } }) (by rw [show s3.cpu.eng.t = 3 by simp [c1, c2, c3]]; rfl) rfl
  obtain ⟨b4, s5, d4, m4, e4, q5, c5, v4⟩ := q4.next (seq := seqRts) (k := true)
    (r := { addr := stackAddr s4.cpu.regs.s, effect := fun b c => { c with eng.adh := b, regs.pc := join b c.eng.adl }, poll := true }) (by rw [show s4.cpu.eng.t = 4 by simp [c1, c2, c3, c4]]; rfl) rfl
  obtain ⟨b5, s6, d5, m5, e5, q6, c6, v5⟩ := q5.next (seq := seqRts) (k := true)
    (r := { addr := s5.cpu.regs.pc, effect := fun _ c => { c with regs.pc := c.regs.pc + 1 }, final := true }) (by rw [show s5.cpu.eng.t = 5 by simp [c1, c2, c3, c4, c5]]; rfl) rfl
  refine ⟨s6, ?_, q6.ofCpu, ?_, by simp [c1, c2, c3, c4, c5, c6], by simp [c1, c2, c3, c4, c5, c6], ?_, ?_, ?_⟩
  · rw [runInstr, maxCycles, show 8 = 2 + 1 + 1 + 1 + 1 + 1 + 1 by omega, runSequence_go e0, runSequence_go e1, runSequence_go e2, runSequence_go e3, runSequence_go e4, runSequence_end e5]
  · show CommittedAs _ _ _
    constructor
    · rintro (hz | hz) <;> simp [c1, c2, c3, c4, c5, c6, hz]
    · rintro (hz | hz) <;> simp [c1, c2, c3, c4, c5, c6, hz]
    · intro hp h1 h2 hl; simp [c1, c2, c3, c4, c5, c6, hp, h1, h2, promoted_sampleIrq, (q1.ofCpu.irqLow hl).now, (q2.ofCpu.irqLow hl).now, (q3.ofCpu.irqLow hl).now, (q4.ofCpu.irqLow hl).now, (q5.ofCpu.irqLow hl).now, (q6.ofCpu.irqLow hl).now]
    · intro hp h1 h2; simp [c1, c2, c3, c4, c5, c6, hp, h1]
  · simp [c1, c2, c3, c4, c5, c6, Cpu.ea, BitVec.add_assoc]
  · intro v hv; simpa [c1, c2, c3, c4, c5, c6] using v3 v (by simpa [c1, c2, c3, c4, c5, c6, State.peek_withCpu, BitVec.add_assoc] using hv)
  · intro v hv; simpa [c1, c2, c3, c4, c5, c6] using v4 v (by simpa [c1, c2, c3, c4, c5, c6, State.peek_withCpu, BitVec.add_assoc] using hv)

/-- RTI (`40_cycle_engine.md` R154). -/
theorem run_rti {s : State} (h : s.Running) :
    ∃ t, runInstr (rtiSequence) s = .next t ∧ Quiet 6 s t ∧ CommittedAs t.cpu.regs.p.i s t ∧ t.cpu.eng.presync = true ∧
      t.cpu.eng.jammed = s.cpu.eng.jammed ∧ ∃ p,
      t.cpu.regs = { s.cpu.regs with pc := t.cpu.ea, s := s.cpu.regs.s + 3, p := Flags.pulled p } ∧
      (∀ v, s.peek (stackAddr (s.cpu.regs.s + 1)) = some v → p = v) ∧
      (∀ v, s.peek (stackAddr (s.cpu.regs.s + 2)) = some v → t.cpu.eng.adl = v) ∧
      (∀ v, s.peek (stackAddr (s.cpu.regs.s + 3)) = some v → t.cpu.eng.adh = v) := by
  have h0 := h.withCpu (s.cpu.start .fetch)
  obtain ⟨b0, s1, d0, m0, e0, q1, c1, v0⟩ := (Quiet.refl h0).next (seq := rtiSequence) (k := true)
    (r := fetchRow false (s.cpu.start .fetch)) (rfl) rfl
  simp only [fetchRow] at c1 v0
  obtain ⟨b1, s2, d1, m1, e1, q2, c2, v1⟩ := q1.next (seq := rtiSequence) (k := true)
    (r := idleRow false s1.cpu) (by rw [show s1.cpu.eng.t = 1 by simp [c1]]; rfl) rfl
  simp only [idleRow] at c2 v1
  obtain ⟨b2, s3, d2, m2, e2, q3, c3, v2⟩ := q2.next (seq := rtiSequence) (k := true)
    (r := incSRow false s2.cpu) (by rw [show s2.cpu.eng.t = 2 by simp [c1, c2]]; rfl) rfl
  simp only [incSRow] at c3 v2
  obtain ⟨b3, s4, d3, m3, e3, q4, c4, v3⟩ := q3.next (seq := rtiSequence) (k := true)
    (r := { addr := stackAddr s3.cpu.regs.s, effect := fun b c => { c with regs.s := c.regs.s + 1, regs.p := Flags.pulled b } }) (by rw [show s3.cpu.eng.t = 3 by simp [c1, c2, c3]]; rfl) rfl
  obtain ⟨b4, s5, d4, m4, e4, q5, c5, v4⟩ := q4.next (seq := rtiSequence) (k := true)
    (r := { addr := stackAddr s4.cpu.regs.s, effect := fun b c => { c with regs.s := c.regs.s + 1, eng.adl := b }, poll := true }) (by rw [show s4.cpu.eng.t = 4 by simp [c1, c2, c3, c4]]; rfl) rfl
  obtain ⟨b5, s6, d5, m5, e5, q6, c6, v5⟩ := q5.next (seq := rtiSequence) (k := true)
    (r := { addr := stackAddr s5.cpu.regs.s, effect := fun b c => { c with eng.adh := b, regs.pc := join b c.eng.adl }, final := true }) (by rw [show s5.cpu.eng.t = 5 by simp [c1, c2, c3, c4, c5]]; rfl) rfl
  refine ⟨s6, ?_, q6.ofCpu, ?_, by simp [c1, c2, c3, c4, c5, c6], by simp [c1, c2, c3, c4, c5, c6], ?_⟩
  · rw [runInstr, maxCycles, show 8 = 2 + 1 + 1 + 1 + 1 + 1 + 1 by omega, runSequence_go e0, runSequence_go e1, runSequence_go e2, runSequence_go e3, runSequence_go e4, runSequence_end e5]
  · show CommittedAs _ _ _
    constructor
    · rintro (hz | hz) <;> simp [c1, c2, c3, c4, c5, c6, hz]
    · rintro (hz | hz) <;> simp [c1, c2, c3, c4, c5, c6, hz]
    · intro hp h1 h2 hl; replace hp : (Flags.pulled b3).i = false := (by simpa [c1, c2, c3, c4, c5, c6] using hp)
      simp [c1, c2, c3, c4, c5, c6, hp, h1, h2, promoted_sampleIrq, (q1.ofCpu.irqLow hl).now, (q2.ofCpu.irqLow hl).now, (q3.ofCpu.irqLow hl).now, (q4.ofCpu.irqLow hl).now, (q5.ofCpu.irqLow hl).now, (q6.ofCpu.irqLow hl).now]
    · intro hp h1 h2; replace hp : (Flags.pulled b3).i = true := (by simpa [c1, c2, c3, c4, c5, c6] using hp)
      simp [c1, c2, c3, c4, c5, c6, hp, h1]
  · refine ⟨b3, ?_, ?_, ?_, ?_⟩
    · simp [c1, c2, c3, c4, c5, c6, Cpu.ea, BitVec.add_assoc]
    · intro v hv; simpa [c1, c2, c3, c4, c5, c6] using v3 v (by simpa [c1, c2, c3, c4, c5, c6, State.peek_withCpu, BitVec.add_assoc] using hv)
    · intro v hv; simpa [c1, c2, c3, c4, c5, c6] using v4 v (by simpa [c1, c2, c3, c4, c5, c6, State.peek_withCpu, BitVec.add_assoc] using hv)
    · intro v hv; simpa [c1, c2, c3, c4, c5, c6] using v5 v (by simpa [c1, c2, c3, c4, c5, c6, State.peek_withCpu, BitVec.add_assoc] using hv)

end Sys2Proof.Machine
end

