-- ==== Sys2Proof/Laws/Entry.lean ====
section
/-! SUPPORT. The sequences that store to the stack, and the entry sequences (`40_cycle_engine.md` R152, R155, R157-R159). -/

namespace Sys2Proof.Machine

/-! ## Cycles that may store -/

/-- `n` cycles led from `s` to `t`, leaving `m` in the RAM; `plain` says that every store reached plain memory. -/
structure Went (n : Nat) (plain : Bool) (m : Memory) (s t : State) : Prop where
  running : t.Running
  fixed : t.fixed = s.fixed
  driver : t.driver = s.driver.drop n
  ram : t.ram = m
  video : plain = true → t.videoMemory = s.videoMemory
  irqLow : s.IrqLow → t.IrqLow
  nmiHigh : plain = true → s.NmiHigh → t.NmiHigh

theorem Went.refl {s : State} (h : s.Running) : Went 0 true s.ram s s := ⟨h, rfl, rfl, rfl, fun _ => rfl, id, fun _ => id⟩

theorem Went.ofCpu {n : Nat} {plain : Bool} {m : Memory} {s t : State} {c : Cpu} (h : Went n plain m { s with cpu := c } t) :
    Went n plain m s t :=
  ⟨h.running, h.fixed, h.driver, h.ram, h.video, fun hl => h.irqLow ⟨hl.now, hl.later⟩,
    fun hp hn => h.nmiHigh hp ⟨hn.ppu, hn.now, hn.later⟩⟩

theorem State.plainTarget_congr {s t : State} (h : t.fixed = s.fixed) (a : Word) : t.plainTarget a = s.plainTarget a := by
  simp only [State.plainTarget, (State.fixed_eq.mp h).2.2.2.2.1]

/-- One more read cycle. -/
theorem Went.read {n : Nat} {plain : Bool} {m : Memory} {s t : State} {seq : Sequence} {k : Bool} {r : Row}
    (h : Went n plain m s t) (hr : seq t.cpu.eng.t t.cpu = r) (ho : r.out = none) :
    ∃ b u d z, tick seq k t = .next (u, r.final || r.halt) ∧ Went (n + 1) plain m s u ∧
      u.cpu = r.closeCpu k u.lines.irqN z true (r.effect b (t.cpu.onBus r.addr b d)) ∧
      (∀ v, { s with ram := m }.peek r.addr = some v → b = v) ∧ (plain = true → s.NmiHigh → z = true) := by
  obtain ⟨b, u, e, hk⟩ := tick_running (seq := seq) (commits := k) h.running hr
  obtain ⟨d, z, hc, hn⟩ := hk.cpu
  refine ⟨b, u, d, z, e, ⟨hk.running, hk.fixed.trans h.fixed, by rw [hk.driver, h.driver, List.tail_drop],
    (hk.read ho).1.trans h.ram, fun hp => (hk.read ho).2.trans (h.video hp), fun hl => hk.irqLow (h.irqLow hl),
    fun hp hh => (hn (h.nmiHigh hp hh) (.inl ho)).2⟩, by rw [hk.lines]; exact hc, ?_,
    fun hp hh => (hn (h.nmiHigh hp hh) (.inl ho)).1⟩
  intro v hv
  exact hk.readByte ho v (by rw [State.peek_congr (s := { s with ram := m }) h.fixed h.ram]; exact hv)

/-- One more write cycle. -/
theorem Went.write {n : Nat} {plain : Bool} {m : Memory} {s t : State} {seq : Sequence} {k : Bool} {r : Row} {v : Byte}
    (h : Went n plain m s t) (hr : seq t.cpu.eng.t t.cpu = r) (ho : r.out = some v) :
    ∃ u d z, tick seq k t = .next (u, r.final || r.halt) ∧
      Went (n + 1) (plain && s.plainTarget r.addr) ({ s with ram := m }.ramAfter r.addr v) s u ∧
      u.cpu = r.closeCpu k u.lines.irqN z true (r.effect v (t.cpu.onBus r.addr v d)) ∧
      ((plain && s.plainTarget r.addr) = true → s.NmiHigh → z = true) := by
  obtain ⟨b, u, e, hk⟩ := tick_running (seq := seq) (commits := k) h.running hr
  obtain ⟨d, z, hc, hn⟩ := hk.cpu
  obtain ⟨rfl, hram, hvid⟩ := hk.write v ho
  have hpt := State.plainTarget_congr h.fixed r.addr
  refine ⟨u, d, z, e, ⟨hk.running, hk.fixed.trans h.fixed, by rw [hk.driver, h.driver, List.tail_drop], ?_, ?_,
    fun hl => hk.irqLow (h.irqLow hl), ?_⟩, by rw [hk.lines]; exact hc, ?_⟩
  · rw [hram]
    simp only [State.ramAfter, (State.fixed_eq.mp h.fixed).2.2.2.2.1, h.ram]
  · intro hp
    rw [Bool.and_eq_true] at hp
    exact (hvid (hpt.trans hp.2)).trans (h.video hp.1)
  · intro hp hh
    rw [Bool.and_eq_true] at hp
    exact (hn (h.nmiHigh hp.1 hh) (.inr (hpt.trans hp.2))).2
  · intro hp hh
    rw [Bool.and_eq_true] at hp
    exact (hn (h.nmiHigh hp.1 hh) (.inr (hpt.trans hp.2))).1

@[simp] theorem State.push_ram (v : Byte) (s : State) : (s.push v).ram = s.ramAfter (stackAddr s.cpu.regs.s) v := rfl
@[simp] theorem State.push_s (v : Byte) (s : State) : (s.push v).cpu.regs.s = s.cpu.regs.s - 1 := rfl

/-- RAM after a store depends on the RAM before and the wiring only. -/
theorem State.ramAfter_congr {s t : State} (hb : t.cpuBus = s.cpuBus) (hr : t.ram = s.ram) (a : Word) (v : Byte) :
    t.ramAfter a v = s.ramAfter a v := by simp only [State.ramAfter, hb, hr]

/-! ## Pushes and JSR -/

/-- PHA and PHP (`40_cycle_engine.md` R155). -/
theorem run_push {v : Regs → Byte} {s : State} (h : s.Running) (hv : ∀ r pc, v { r with pc := pc } = v r) :
    ∃ t, runInstr (pushSequence v) s = .next t ∧
      Went 3 (s.plainTarget (stackAddr s.cpu.regs.s)) (s.push (v s.cpu.regs)).ram s t ∧ Committed s t ∧
      t.cpu.eng.presync = true ∧ t.cpu.eng.jammed = s.cpu.eng.jammed ∧
      t.cpu.regs = { s.cpu.regs with pc := s.cpu.regs.pc + 1, s := s.cpu.regs.s - 1 } ∧
      t.cpu.eng.addrbus = stackAddr s.cpu.regs.s ∧ t.cpu.eng.databus = v s.cpu.regs := by
  have h0 := h.withCpu (s.cpu.start .fetch)
  obtain ⟨b0, s1, d0, z0, e0, q1, c1, v0, n0⟩ := (Went.refl h0).read (seq := pushSequence v) (k := true)
    (r := fetchRow false (s.cpu.start .fetch)) (rfl) rfl
  simp only [fetchRow] at q1 c1 v0
  obtain ⟨b1, s2, d1, z1, e1, q2, c2, v1, n1⟩ := q1.read (seq := pushSequence v) (k := true)
    (r := idleRow true s1.cpu) (by rw [show s1.cpu.eng.t = 1 by simp [c1]]; rfl) rfl
  simp only [idleRow] at q2 c2 v1
  obtain ⟨s3, d2, z2, e2, q3, c3, n2⟩ := q2.write (seq := pushSequence v) (k := true)
    (r := pushRow (v s2.cpu.regs) false true s2.cpu) (by rw [show s2.cpu.eng.t = 2 by simp [c1, c2]]; rfl) rfl
  simp only [pushRow] at q3 c3
  have hs : s2.cpu.regs = { s.cpu.regs with pc := s.cpu.regs.pc + 1 } := by simp [c1, c2]
  refine ⟨s3, ?_, ?_, ?_, by simp [c1, c2, c3], by simp [c1, c2, c3], by simp [c1, c2, c3], by simp [c1, c2, c3], by simp [c3, hs, hv]⟩
  · rw [runInstr, maxCycles, show 8 = 5 + 1 + 1 + 1 by omega, runSequence_go e0, runSequence_go e1, runSequence_end e2]
  · have := q3.ofCpu
    simp only [hs, hv, Bool.true_and] at this
    exact this
  · show CommittedAs _ _ _
    constructor
    · rintro (hz | hz) <;> simp [c1, c2, c3, hz]
    · rintro (hz | hz) <;> simp [c1, c2, c3, hz]
    · intro hp h1 h2 hl; simp [c1, c2, c3, hp, h1, h2, promoted_sampleIrq, (q1.ofCpu.irqLow hl).now, (q2.ofCpu.irqLow hl).now, (q3.ofCpu.irqLow hl).now]
    · intro hp h1 h2; simp [c1, c2, c3, hp, h1]

/-- JSR (`40_cycle_engine.md` R152): its high operand byte is read after the pushes. -/
theorem run_jsr {s : State} (h : s.Running) :
    ∃ t, runInstr seqJsr s = .next t ∧
      Went 6 (s.plainTarget (stackAddr s.cpu.regs.s) && s.plainTarget (stackAddr (s.cpu.regs.s - 1)))
        ((s.push (hi (s.cpu.regs.pc + 2))).push (lo (s.cpu.regs.pc + 2))).ram s t ∧ Committed s t ∧
      t.cpu.eng.presync = true ∧ t.cpu.eng.jammed = s.cpu.eng.jammed ∧
      t.cpu.regs = { s.cpu.regs with pc := t.cpu.ea, s := s.cpu.regs.s - 2 } ∧
      (∀ v, s.peek (s.cpu.regs.pc + 1) = some v → t.cpu.eng.adl = v) ∧
      ∀ v, { s with ram := t.ram }.peek (s.cpu.regs.pc + 2) = some v → t.cpu.eng.adh = v := by
  have h0 := h.withCpu (s.cpu.start .fetch)
  obtain ⟨b0, s1, d0, z0, e0, q1, c1, v0, n0⟩ := (Went.refl h0).read (seq := seqJsr) (k := true)
    (r := fetchRow false (s.cpu.start .fetch)) (rfl) rfl
  simp only [fetchRow] at q1 c1 v0
  obtain ⟨b1, s2, d1, z1, e1, q2, c2, v1, n1⟩ := q1.read (seq := seqJsr) (k := true)
    (r := adlRow false s1.cpu) (by rw [show s1.cpu.eng.t = 1 by simp [c1]]; rfl) rfl
  simp only [adlRow] at q2 c2 v1
  obtain ⟨b2, s3, d2, z2, e2, q3, c3, v2, n2⟩ := q2.read (seq := seqJsr) (k := true)
    (r := { addr := stackAddr s2.cpu.regs.s }) (by rw [show s2.cpu.eng.t = 2 by simp [c1, c2]]; rfl) rfl
  obtain ⟨s4, d3, z3, e3, q4, c4, n3⟩ := q3.write (seq := seqJsr) (k := true)
    (r := pushRow (hi s3.cpu.regs.pc) false false s3.cpu) (by rw [show s3.cpu.eng.t = 3 by simp [c1, c2, c3]]; rfl) rfl
  simp only [pushRow] at q4 c4
  obtain ⟨s5, d4, z4, e4, q5, c5, n4⟩ := q4.write (seq := seqJsr) (k := true)
    (r := pushRow (lo s4.cpu.regs.pc) true false s4.cpu) (by rw [show s4.cpu.eng.t = 4 by simp [c1, c2, c3, c4]]; rfl) rfl
  simp only [pushRow] at q5 c5
  obtain ⟨b5, s6, d5, z5, e5, q6, c6, v5, n5⟩ := q5.read (seq := seqJsr) (k := true)
    (r := { addr := s5.cpu.regs.pc, effect := fun b c => { c with eng.adh := b, regs.pc := join b c.eng.adl }, final := true }) (by rw [show s5.cpu.eng.t = 5 by simp [c1, c2, c3, c4, c5]]; rfl) rfl
  have hs1 : s3.cpu.regs.s = s.cpu.regs.s := by simp [c1, c2, c3]
  have hs2 : s4.cpu.regs.s = s.cpu.regs.s - 1 := by simp [c1, c2, c3, c4]
  have hp1 : s3.cpu.regs.pc = s.cpu.regs.pc + 2 := by simp [c1, c2, c3, BitVec.add_assoc]
  have hp2 : s4.cpu.regs.pc = s.cpu.regs.pc + 2 := by simp [c1, c2, c3, c4, BitVec.add_assoc]
  have hp3 : s5.cpu.regs.pc = s.cpu.regs.pc + 2 := by simp [c1, c2, c3, c4, c5, BitVec.add_assoc]
  have hw : Went 6 (s.plainTarget (stackAddr s.cpu.regs.s) && s.plainTarget (stackAddr (s.cpu.regs.s - 1)))
      ((s.push (hi (s.cpu.regs.pc + 2))).push (lo (s.cpu.regs.pc + 2))).ram s s6 := by
    have := q6.ofCpu
    simp only [hs1, hs2, hp1, hp2, Bool.true_and] at this
    exact this
  refine ⟨s6, ?_, hw, ?_, by simp [c1, c2, c3, c4, c5, c6], by simp [c1, c2, c3, c4, c5, c6], ?_, ?_, ?_⟩
  · rw [runInstr, maxCycles, show 8 = 2 + 1 + 1 + 1 + 1 + 1 + 1 by omega, runSequence_go e0, runSequence_go e1, runSequence_go e2, runSequence_go e3, runSequence_go e4, runSequence_end e5]
  · show CommittedAs _ _ _
    constructor
    · rintro (hz | hz) <;> simp [c1, c2, c3, c4, c5, c6, hz]
    · rintro (hz | hz) <;> simp [c1, c2, c3, c4, c5, c6, hz]
    · intro hp h1 h2 hl; simp [c1, c2, c3, c4, c5, c6, hp, h1, h2, promoted_sampleIrq, (q1.ofCpu.irqLow hl).now, (q2.ofCpu.irqLow hl).now, (q3.ofCpu.irqLow hl).now, (q4.ofCpu.irqLow hl).now, (q5.ofCpu.irqLow hl).now, (q6.ofCpu.irqLow hl).now]
    · intro hp h1 h2; simp [c1, c2, c3, c4, c5, c6, hp, h1]
  · simp [c1, c2, c3, c4, c5, c6, Cpu.ea, BitVec.sub_sub]
  · intro v hv
    simpa [c1, c2, c3, c4, c5, c6] using v1 v (by
      rw [← hv]
      simp only [c1, Row.closeCpu_regs, fetchRow, Cpu.onBus_regs, Cpu.start_regs]
      rfl)
  · intro v hv
    simpa [c1, c2, c3, c4, c5, c6] using v5 v (by
      rw [hp3, ← hv, hw.ram]
      simp only [hs1, hs2, hp1, hp2]
      rfl)

/-! ## Entries -/

theorem EntryKind.vector_hijacked {k : EntryKind} (hk : k = .brk ∨ k = .irq) : k.vector .pending = 0xFFFA#16 := by
  rcases hk with rfl | rfl <;> rfl

/-- From T2 on: what BRK, IRQ and NMI push, the vector they read and where they go (`40_cycle_engine.md` R158,
`60_exceptions.md` R366, R368). -/
theorem entry_tail {k : EntryKind} {s s2 : State} {pc : Word} (hk : k ≠ .rst) (q2 : Went 2 true s.ram s s2)
    (ht : s2.cpu.eng.t = 2) (hr : s2.cpu.regs = { s.cpu.regs with pc := pc }) :
    ∃ t x, runSequence (entrySequence k) false 6 s2 = .next t ∧
      Went 7 s.plainStack (s.pushEntry pc (k.statusByte s.cpu.regs.p)).ram s t ∧
      t.cpu.regs = { s.cpu.regs with pc := t.cpu.ea, s := s.cpu.regs.s - 3, p := { s.cpu.regs.p with i := true } } ∧
      t.cpu.eng.vec = k.vector x ∧ t.cpu.eng.addrbus = k.vector x + 1 ∧ t.cpu.eng.presync = true ∧
      t.cpu.eng.jammed = s2.cpu.eng.jammed ∧ t.cpu.eng.kind = s2.cpu.eng.kind ∧ t.cpu.eng.opc = s2.cpu.eng.opc ∧
      (∀ v, { s with ram := t.ram }.peek (k.vector x) = some v → t.cpu.eng.adl = v) ∧
      (∀ v, { s with ram := t.ram }.peek (k.vector x + 1) = some v → t.cpu.eng.adh = v) ∧
      (s2.cpu.trk.nmi = .detected ∨ s2.cpu.trk.nmi = .pending → x = .pending) ∧
      (s.plainStack = true → s.NmiHigh → s2.cpu.trk.nmi ≠ .detected → s2.cpu.trk.nmi ≠ .pending → x ≠ .pending) ∧
      (s.plainStack = true → s.NmiHigh → k.hijacked x = true → t.cpu.trk.nmi = .clear) ∧
      (s2.cpu.trk.irq ≠ .committed → t.cpu.trk.irq ≠ .committed) ∧
      (s2.cpu.trk.nmi ≠ .committed → t.cpu.trk.nmi ≠ .committed) ∧
      (s2.cpu.trk.rst ≠ .committed → t.cpu.trk.rst ≠ .committed) := by
  obtain ⟨s3, d2, z2, e2, q3, c3, n2⟩ := q2.write (seq := entrySequence k) (k := false)
    (r := entryStackRow k (hi s2.cpu.regs.pc) false s2.cpu) (by rw [show s2.cpu.eng.t = 2 by simp [ht]]; rfl)
    (by simp [entryStackRow, hk]; rfl)
  simp only [entryStackRow, pushRow] at q3 c3 n2 e2
  obtain ⟨s4, d3, z3, e3, q4, c4, n3⟩ := q3.write (seq := entrySequence k) (k := false)
    (r := entryStackRow k (lo s3.cpu.regs.pc) true s3.cpu) (by rw [show s3.cpu.eng.t = 3 by simp [c3, ht]]; rfl)
    (by simp [entryStackRow, hk]; rfl)
  simp only [entryStackRow, pushRow] at q4 c4 n3 e3
  obtain ⟨s5, d4, z4, e4, q5, c5, n4⟩ := q4.write (seq := entrySequence k) (k := false)
    (r := entryStackRow k (k.statusByte s4.cpu.regs.p) false s4.cpu) (by rw [show s4.cpu.eng.t = 4 by simp [c3, c4, ht]]; rfl)
    (by simp [entryStackRow, hk]; rfl)
  simp only [entryStackRow, pushRow] at q5 c5 n4 e4
  obtain ⟨b5, s6, d5, z5, e5, q6, c6, v5, n5⟩ := q5.read (seq := entrySequence k) (k := false)
    (r := { addr := k.vector s5.cpu.trk.nmi,
            effect := fun b c' =>
              { c' with
                eng.vec := k.vector s5.cpu.trk.nmi, eng.adl := b,
                trk.nmi := if k.hijacked s5.cpu.trk.nmi then .serviced else c'.trk.nmi } })
    (by rw [show s5.cpu.eng.t = 5 by simp [c3, c4, c5, ht]]; rfl) rfl
  obtain ⟨b6, s7, d6, z6, e6, q7, c7, v6, n6⟩ := q6.read (seq := entrySequence k) (k := false)
    (r := { addr := s6.cpu.eng.vec + 1,
            effect := fun b c => { c with eng.adh := b, regs.pc := join b c.eng.adl, regs.p.i := true },
            final := true })
    (by rw [show s6.cpu.eng.t = 6 by simp [c3, c4, c5, c6, ht]]; rfl) rfl
  have hs2 : s2.cpu.regs.s = s.cpu.regs.s := by simp [hr]
  have hs3 : s3.cpu.regs.s = s.cpu.regs.s - 1 := by simp [c3, hr]
  have hs4 : s4.cpu.regs.s = s.cpu.regs.s - 2 := by simp [c3, c4, hr, BitVec.sub_sub]
  have hp2 : s2.cpu.regs.pc = pc := by simp [hr]
  have hp3 : s3.cpu.regs.pc = pc := by simp [c3, hr]
  have hf4 : s4.cpu.regs.p = s.cpu.regs.p := by simp [c3, c4, hr]
  have hw : Went 7 s.plainStack (s.pushEntry pc (k.statusByte s.cpu.regs.p)).ram s s7 := by
    have := q7
    simp only [hs2, hs3, hs4, hp2, hp3, hf4, Bool.true_and] at this
    simp only [State.pushEntry, State.push_ram, State.push_s, BitVec.sub_sub]
    exact this
  simp only [hs2, hs3, hs4, Bool.true_and] at n2 n3 n4 n5 n6
  refine ⟨s7, s5.cpu.trk.nmi, ?_, hw, ?_, ?_, ?_, ?_, ?_, ?_, ?_, ?_, ?_, ?_, ?_, ?_, ?_, ?_, ?_⟩
  · rw [runSequence_go e2, runSequence_go e3, runSequence_go e4, runSequence_go e5, runSequence_end e6]
  · simp [c3, c4, c5, c6, c7, hr, Cpu.ea, BitVec.sub_sub]
  · simp [c6, c7]
  · simp [c6, c7]
  · simp [c7]
  · simp [c3, c4, c5, c6, c7]
  · simp [c3, c4, c5, c6, c7]
  · simp [c3, c4, c5, c6, c7]
  · intro v hv
    simpa [c6, c7] using v5 v (by rw [← hv, ← q6.ram, q7.ram, q6.ram])
  · intro v hv
    simpa [c6, c7] using v6 v (by rw [← hv, q7.ram]; simp [c6])
  · rintro (hz | hz) <;> simp [c3, c4, c5, hz]
  · intro hp hn h1 h2
    have hp' := hp
    simp only [State.plainStack, Bool.and_eq_true] at hp'
    rw [c5, c4, c3]
    simp only [Row.closeCpu_nmi, n2 hp'.1.1 hn, n3 (by rw [Bool.and_eq_true]; exact hp'.1) hn, n4 hp hn]
    cases hz : s2.cpu.trk.nmi <;> simp_all [sampleEdge]
  · intro hp hn hh
    rw [c7, c6]
    simp only [Row.closeCpu_nmi, n5 hp hn, n6 hp hn, hh]
    simp [sampleEdge]
  · intro h1; simp [c3, c4, c5, c6, c7, h1]
  · intro h1
    simp [c3, c4, c5, c6, c7]
    split <;> simp [h1]
  · intro h1; simp [c3, c4, c5, c6, c7, h1]

/-- From the start: T0 and T1, then the tail. -/
theorem entry_run {k : EntryKind} {s0 s1 s2 t : State} (e0 : tick (entrySequence k) false s0 = .next (s1, false))
    (e1 : tick (entrySequence k) false s1 = .next (s2, false)) (h : runSequence (entrySequence k) false 6 s2 = .next t) :
    runSequence (entrySequence k) false maxCycles s0 = .next t := by
  rw [maxCycles, show 8 = 6 + 1 + 1 by omega, runSequence_go e0, runSequence_go e1, h]

/-- BRK up to T2: two bytes are passed (`40_cycle_engine.md` R157). -/
theorem brk_head {s : State} (h : s.Running) (ht : s.cpu.eng.t = 0) :
    ∃ s1 s2, tick (entrySequence .brk) false s = .next (s1, false) ∧ tick (entrySequence .brk) false s1 = .next (s2, false) ∧
      Went 2 true s.ram s s2 ∧ s2.cpu.eng.t = 2 ∧ s2.cpu.regs = { s.cpu.regs with pc := s.cpu.regs.pc + 2 } ∧
      s2.cpu.eng.jammed = s.cpu.eng.jammed ∧ s2.cpu.eng.kind = s.cpu.eng.kind ∧ Unpolled s s2 ∧
      (s.cpu.trk.nmi ≠ .committed → s2.cpu.trk.nmi ≠ .committed) ∧ (s.cpu.trk.rst ≠ .committed → s2.cpu.trk.rst ≠ .committed) ∧
      (s.cpu.trk.irq ≠ .committed → s2.cpu.trk.irq ≠ .committed) ∧
      (s.NmiHigh → s.cpu.trk.nmi ≠ .detected → s.cpu.trk.nmi ≠ .pending →
        s2.cpu.trk.nmi ≠ .detected ∧ s2.cpu.trk.nmi ≠ .pending) := by
  obtain ⟨b0, s1, d0, z0, e0, q1, c1, v0, n0⟩ := (Went.refl h).read (seq := entrySequence .brk) (k := false)
    (r := fetchRow false s.cpu) (by rw [ht]; rfl) rfl
  simp only [fetchRow] at c1
  obtain ⟨b1, s2, d1, z1, e1, q2, c2, v1, n1⟩ := q1.read (seq := entrySequence .brk) (k := false)
    (r := { addr := s1.cpu.regs.pc, effect := fun _ c => { c with regs.pc := c.regs.pc + 1 } }) (by rw [show s1.cpu.eng.t = 1 by simp [c1, ht]]; rfl) rfl

  refine ⟨s1, s2, e0, e1, q2, by simp [c1, c2, ht], by simp [c1, c2, BitVec.add_assoc], by simp [c1, c2], by simp [c1, c2], ⟨?_, ?_, ?_⟩, ?_, ?_, ?_, ?_⟩
  · rintro (hz | hz) <;> simp [c1, c2, hz]
  · rintro (hz | hz) <;> simp [c1, c2, hz]
  · intro h1 h2; simp [c1, c2, h1, h2]
  · intro h1; simp [c1, c2, h1]
  · intro h1; simp [c1, c2, h1]
  · intro h1; simp [c1, c2, h1]
  · intro hn h1 h2
    rw [c2, c1]
    simp only [Row.closeCpu_nmi, n0 rfl hn, n1 rfl hn]
    cases hz : s.cpu.trk.nmi <;> simp_all [sampleEdge]

/-- A hardware interrupt up to T2: PC stays (`40_cycle_engine.md` R158). -/
theorem interrupt_head {k : EntryKind} {s : State} (hk : k ≠ .brk) (h : s.Running) (ht : s.cpu.eng.t = 0) :
    ∃ s1 s2, tick (entrySequence k) false s = .next (s1, false) ∧ tick (entrySequence k) false s1 = .next (s2, false) ∧
      Went 2 true s.ram s s2 ∧ s2.cpu.eng.t = 2 ∧ s2.cpu.regs = s.cpu.regs ∧
      s2.cpu.eng.jammed = s.cpu.eng.jammed ∧ s2.cpu.eng.kind = s.cpu.eng.kind ∧ Unpolled s s2 ∧
      (s.cpu.trk.nmi ≠ .committed → s2.cpu.trk.nmi ≠ .committed) ∧ (s.cpu.trk.rst ≠ .committed → s2.cpu.trk.rst ≠ .committed) ∧
      (s.cpu.trk.irq ≠ .committed → s2.cpu.trk.irq ≠ .committed) ∧
      (s.NmiHigh → s.cpu.trk.nmi ≠ .detected → s.cpu.trk.nmi ≠ .pending →
        s2.cpu.trk.nmi ≠ .detected ∧ s2.cpu.trk.nmi ≠ .pending) := by
  obtain ⟨b0, s1, d0, z0, e0, q1, c1, v0, n0⟩ := (Went.refl h).read (seq := entrySequence k) (k := false)
    (r := { addr := s.cpu.regs.pc, effect := fun _ c => { c with eng.opc := 0#8 } }) (by rw [ht]; cases k <;> first | rfl | exact absurd rfl hk) rfl

  obtain ⟨b1, s2, d1, z1, e1, q2, c2, v1, n1⟩ := q1.read (seq := entrySequence k) (k := false)
    (r := idleRow false s1.cpu) (by rw [show s1.cpu.eng.t = 1 by simp [c1, ht]]; cases k <;> first | rfl | exact absurd rfl hk) rfl
  simp only [idleRow] at c2
  refine ⟨s1, s2, e0, e1, q2, by simp [c1, c2, ht], by simp [c1, c2], by simp [c1, c2], by simp [c1, c2], ⟨?_, ?_, ?_⟩, ?_, ?_, ?_, ?_⟩
  · rintro (hz | hz) <;> simp [c1, c2, hz]
  · rintro (hz | hz) <;> simp [c1, c2, hz]
  · intro h1 h2; simp [c1, c2, h1, h2]
  · intro h1; simp [c1, c2, h1]
  · intro h1; simp [c1, c2, h1]
  · intro h1; simp [c1, c2, h1]
  · intro hn h1 h2
    rw [c2, c1]
    simp only [Row.closeCpu_nmi, n0 rfl hn, n1 rfl hn]
    cases hz : s.cpu.trk.nmi <;> simp_all [sampleEdge]

/-- The reset sequence from T2 on: nothing is written (`40_cycle_engine.md` R158, `70_reset_and_hazards.md` R391). -/
theorem rst_tail {s s2 : State} (q2 : Went 2 true s.ram s s2) (ht : s2.cpu.eng.t = 2) (hr : s2.cpu.regs = s.cpu.regs) :
    ∃ t, runSequence (entrySequence .rst) false 6 s2 = .next t ∧ Went 7 true s.ram s t ∧
      t.cpu.regs = { s.cpu.regs with pc := t.cpu.ea, s := s.cpu.regs.s - 3, p := { s.cpu.regs.p with i := true } } ∧
      t.cpu.eng.vec = 0xFFFC#16 ∧ t.cpu.eng.addrbus = 0xFFFD#16 ∧ t.cpu.eng.presync = true ∧
      t.cpu.eng.jammed = s2.cpu.eng.jammed ∧ t.cpu.eng.kind = s2.cpu.eng.kind ∧
      (∀ v, s.peek 0xFFFC#16 = some v → t.cpu.eng.adl = v) ∧ (∀ v, s.peek 0xFFFD#16 = some v → t.cpu.eng.adh = v) := by
  obtain ⟨b2, s3, d2, z2, e2, q3, c3, v2, n2⟩ := q2.read (seq := entrySequence .rst) (k := false)
    (r := entryStackRow .rst (hi s2.cpu.regs.pc) false s2.cpu) (by rw [show s2.cpu.eng.t = 2 by simp [ht]]; rfl) rfl
  simp only [entryStackRow, pushRow] at c3
  obtain ⟨b3, s4, d3, z3, e3, q4, c4, v3, n3⟩ := q3.read (seq := entrySequence .rst) (k := false)
    (r := entryStackRow .rst (lo s3.cpu.regs.pc) true s3.cpu) (by rw [show s3.cpu.eng.t = 3 by simp [c3, ht]]; rfl) rfl
  simp only [entryStackRow, pushRow] at c4
  obtain ⟨b4, s5, d4, z4, e4, q5, c5, v4, n4⟩ := q4.read (seq := entrySequence .rst) (k := false)
    (r := entryStackRow .rst (EntryKind.statusByte .rst s4.cpu.regs.p) false s4.cpu) (by rw [show s4.cpu.eng.t = 4 by simp [c3, c4, ht]]; rfl) rfl
  simp only [entryStackRow, pushRow] at c5
  obtain ⟨b5, s6, d5, z5, e5, q6, c6, v5, n5⟩ := q5.read (seq := entrySequence .rst) (k := false)
    (r := { addr := 0xFFFC#16,
            effect := fun b c' =>
              { c' with
                eng.vec := 0xFFFC#16, eng.adl := b,
                trk.nmi := if EntryKind.hijacked .rst s5.cpu.trk.nmi then .serviced else c'.trk.nmi } })
    (by rw [show s5.cpu.eng.t = 5 by simp [c3, c4, c5, ht]]; rfl) rfl
  obtain ⟨b6, s7, d6, z6, e6, q7, c7, v6, n6⟩ := q6.read (seq := entrySequence .rst) (k := false)
    (r := { addr := s6.cpu.eng.vec + 1,
            effect := fun b c => { c with eng.adh := b, regs.pc := join b c.eng.adl, regs.p.i := true },
            final := true })
    (by rw [show s6.cpu.eng.t = 6 by simp [c3, c4, c5, c6, ht]]; rfl) rfl
  refine ⟨s7, ?_, q7, ?_, ?_, ?_, ?_, ?_, ?_, ?_, ?_⟩
  · rw [runSequence_go e2, runSequence_go e3, runSequence_go e4, runSequence_go e5, runSequence_end e6]
  · simp [c3, c4, c5, c6, c7, hr, Cpu.ea, BitVec.sub_sub]
  · simp [c6, c7]
  · simp [c6, c7]
  · simp [c7]
  · simp [c3, c4, c5, c6, c7]
  · simp [c3, c4, c5, c6, c7]
  · intro v hv; simpa [c6, c7] using v5 v hv
  · intro v hv; simpa [c6, c7] using v6 v (by simpa [c6] using hv)

/-! ## JAM -/

/-- JAM (`40_cycle_engine.md` R159). -/
theorem run_jam {s : State} (h : s.Running) :
    ∃ t, runInstr seqJam s = .next t ∧ Quiet 2 s t ∧ t.cpu.regs = { s.cpu.regs with pc := s.cpu.regs.pc + 1 } ∧
      t.cpu.eng.jammed = true ∧ t.cpu.eng.presync = false ∧ t.cpu.eng.addrbus = s.cpu.regs.pc + 1 := by
  obtain ⟨b0, s1, d0, m0, e0, q1, c1, v0⟩ := (Quiet.refl (h.withCpu (s.cpu.start .fetch))).next (seq := seqJam) (k := true)
    (r := fetchRow false (s.cpu.start .fetch)) rfl rfl
  simp only [fetchRow] at c1 v0
  obtain ⟨b1, s2, d1, m1, e1, q2, c2, v1⟩ := q1.next (seq := seqJam) (k := true)
    (r := { addr := s1.cpu.regs.pc, effect := fun _ c => { c with eng.jammed := true }, halt := true })
    (by rw [show s1.cpu.eng.t = 1 by simp [c1]]; rfl) rfl
  refine ⟨s2, ?_, q2.ofCpu, by simp [c1, c2], by simp [c2], by simp [c1, c2], by simp [c1, c2]⟩
  rw [runInstr, maxCycles, show 8 = 6 + 1 + 1 by omega, runSequence_go e0, runSequence_end e1]

end Sys2Proof.Machine
end

