-- ==== Sys2Proof/Laws/Keep.lean ====
section
/-! SUPPORT. What every bus access and every dot keeps, whatever is bound to the buses: memories in canonical form within their sizes, the dot counter within
the frame, the CPU as the access leaves it. -/

namespace Sys2Proof.Machine

/-- The part of `State.Inv` that devices and dots could break. -/
structure State.MemInv (s : State) : Prop where
  ram : s.ram.wf 2048 = true
  vram : s.vram.wf 2048 = true
  oam : s.ppu.oam.wf 256 = true
  pal : s.ppu.pal.wf 28 = true
  prg : s.prg.wf 32768 = true
  chr : s.chr.wf 8192 = true
  line : s.ppu.line ≤ 261
  dot : s.ppu.dot ≤ 340
  ale : s.ppu.ale = true → s.ppu.pend ≠ .none

theorem State.Inv.mem {s : State} (h : s.Inv) : s.MemInv := ⟨h.ram, h.vram, h.oam, h.pal, h.prg, h.chr, h.line, h.dot, h.ale⟩

theorem State.MemInv.withCpu {s : State} {c : Cpu} (m : s.MemInv) : { s with cpu := c }.MemInv :=
  ⟨m.ram, m.vram, m.oam, m.pal, m.prg, m.chr, m.line, m.dot, m.ale⟩

theorem State.MemInv.takeDriver {s : State} (m : s.MemInv) : s.takeDriver.MemInv := by
  unfold State.takeDriver; split <;> exact ⟨m.ram, m.vram, m.oam, m.pal, m.prg, m.chr, m.line, m.dot, m.ale⟩

/-- What anything but the CPU itself leaves. -/
structure State.KeptByDevices (s t : State) : Prop where
  cpu : t.cpu = s.cpu
  fixed : t.fixed = s.fixed
  early : t.early = s.early
  driver : t.driver = s.driver
  mem : s.MemInv → t.MemInv

theorem State.KeptByDevices.refl (s : State) : s.KeptByDevices s := ⟨rfl, rfl, rfl, rfl, id⟩

theorem State.KeptByDevices.trans {s t u : State} (h : s.KeptByDevices t) (k : t.KeptByDevices u) : s.KeptByDevices u :=
  ⟨k.cpu.trans h.cpu, k.fixed.trans h.fixed, k.early.trans h.early, k.driver.trans h.driver, k.mem ∘ h.mem⟩

theorem State.KeptByDevices.ppu {s : State} {p : Ppu} (h : s.MemInv → { s with ppu := p }.MemInv) :
    s.KeptByDevices { s with ppu := p } := ⟨rfl, rfl, rfl, rfl, h⟩

/-- The memories of `State.reset` are in canonical form. -/
theorem State.reset_memories : State.reset.ram.wf 2048 = true ∧ State.reset.vram.wf 2048 = true ∧ State.reset.ppu.oam.wf 256 = true ∧
    State.reset.ppu.pal.wf 28 = true ∧ State.reset.prg.wf 32768 = true ∧ State.reset.chr.wf 8192 = true := by decide

/-! ## Bus accesses -/

theorem ramIndex_lt (a : Word) : ramIndex a < 2048 := by
  unfold ramIndex; rw [BitVec.toNat_and]; exact Nat.lt_of_le_of_lt Nat.and_le_right (by decide)

theorem vramIndex_lt (m : Mirroring) (a : Word) : vramIndex m a < 2048 := by
  unfold vramIndex; rw [BitVec.toNat_and]; exact Nat.lt_of_le_of_lt Nat.and_le_right (by decide)

theorem chrIndex_lt (a : Word) : chrIndex a < 8192 := by
  unfold chrIndex; rw [BitVec.toNat_and]; exact Nat.lt_of_le_of_lt Nat.and_le_right (by decide)

theorem Bus.read_kept {b : Bus} {a : Word} {s s' : State} {o : Option Byte} (h : b.read a s = .next (o, s')) :
    s.KeptByDevices s' := by
  obtain ⟨p, rfl, hp⟩ := Bus.read_frame h
  refine .ppu fun m => ?_
  rcases hp with rfl | ⟨-, v, hr, -⟩
  · exact m
  · obtain ⟨h1, h2, h3, h4, -, -, -, -, -, -, -, -, -, -, -, -, h17⟩ := Ppu.regRead_frame hr
    refine ⟨m.ram, m.vram, by simpa [h1] using m.oam, by simpa [h2] using m.pal, m.prg, m.chr, by simpa [h3] using m.line,
      by simpa [h4] using m.dot, ?_⟩
    rcases h17 with ⟨g1, g2⟩ | ⟨g1, g2, g3⟩
    · simpa [g1, g2] using m.ale
    · simp [g3]

theorem Bus.write_kept {b : Bus} {a : Word} {v : Byte} {s s' : State} {ok : Bool} (h : b.write a v s = .next (ok, s')) :
    s.KeptByDevices s' := by
  unfold Bus.write at h
  split at h
  · obtain ⟨h1, h2, h3, h4, h5, h6, h7, h8, h9⟩ := Device.write_frame h
    refine ⟨h1, h2, h9, h4, fun m => ?_⟩
    refine ⟨?_, ?_, ?_, ?_, by rw [(State.fixed_eq.mp h2).2.2.2.1]; exact m.prg, ?_, ?_, ?_, ?_⟩
    · rw [h5]; split
      · exact Memory.wf_write m.ram (ramIndex_lt _)
      · exact m.ram
    · rw [h6]; split
      · exact Memory.wf_write m.vram (vramIndex_lt _ _)
      · exact m.vram
    · rcases h8 with h8 | ⟨-, h8⟩
      · rw [h8]; exact m.oam
      · rcases (Ppu.regWrite_frame h8).2.2.2.2.2.2.2.2.2.2.1 with g | g
        · rw [g]; exact m.oam
        · rw [g]; exact Memory.wf_write m.oam s.ppu.oamaddr.isLt
    · rcases h8 with h8 | ⟨-, h8⟩
      · rw [h8]; exact m.pal
      · rw [(Ppu.regWrite_frame h8).1]; exact m.pal
    · rcases h7 with h7 | ⟨-, h7⟩
      · rw [h7]; exact m.chr
      · rw [h7]; exact Memory.wf_write m.chr (chrIndex_lt _)
    · rcases h8 with h8 | ⟨-, h8⟩
      · rw [h8]; exact m.line
      · rw [(Ppu.regWrite_frame h8).2.1]; exact m.line
    · rcases h8 with h8 | ⟨-, h8⟩
      · rw [h8]; exact m.dot
      · rw [(Ppu.regWrite_frame h8).2.2.1]; exact m.dot
    · rcases h8 with h8 | ⟨-, h8⟩
      · rw [h8]; exact m.ale
      · rcases (Ppu.regWrite_frame h8).2.2.2.2.2.2.2.2.2.2.2 with ⟨g1, g2⟩ | ⟨g1, g2, g3⟩
        · rw [g1, g2]; exact m.ale
        · rw [g3]; simp
  · cases h; exact .refl _

theorem vRead_kept {a : BitVec 14} {s t : State} {o : Option Byte} (h : vRead a s = .next (o, t)) : s.KeptByDevices t := by
  unfold vRead at h
  split at h
  · next h1 =>
    cases h
    exact (Bus.read_kept h1).trans (.ppu fun m => ⟨m.ram, m.vram, m.oam, m.pal, m.prg, m.chr, m.line, m.dot, m.ale⟩)
  · cases h
  · cases h

theorem vWrite_kept {a : BitVec 14} {v : Byte} {s t : State} (h : vWrite a v s = .next t) : s.KeptByDevices t := by
  unfold vWrite at h
  split at h
  · next h1 =>
    cases h
    exact (Bus.write_kept h1).trans (.ppu fun m => ⟨m.ram, m.vram, m.oam, m.pal, m.prg, m.chr, m.line, m.dot, m.ale⟩)
  · cases h
  · cases h

/-- `MemRead(a)`: the CPU's bus fields and nothing else of the CPU. -/
theorem memRead_kept {a : Word} {s t : State} {b : Byte} (h : memRead a s = .next (b, t)) :
    (∃ d, t.cpu = s.cpu.onBus a b d) ∧ t.fixed = s.fixed ∧ t.early = s.early ∧ (s.MemInv → t.MemInv) := by
  unfold memRead at h
  split at h
  · next h1 => cases h; have o := Bus.read_kept h1; exact ⟨⟨_, by simp [o.cpu]; rfl⟩, o.fixed, o.early, fun m => (o.mem m).withCpu⟩
  · next h1 => cases h; have o := Bus.read_kept h1; exact ⟨⟨_, by simp [o.cpu]; rfl⟩, o.fixed, o.early, fun m => (o.mem m).withCpu⟩
  · cases h
  · cases h

theorem memWrite_kept {a : Word} {v : Byte} {s t : State} (h : memWrite a v s = .next t) :
    (∃ d, t.cpu = s.cpu.onBus a v d) ∧ t.fixed = s.fixed ∧ t.early = s.early ∧ (s.MemInv → t.MemInv) := by
  unfold memWrite at h
  split at h
  · next h1 => cases h; have o := Bus.write_kept h1; exact ⟨⟨_, by simp [o.cpu]; rfl⟩, o.fixed, o.early, fun m => (o.mem m).withCpu⟩
  · cases h
  · cases h

/-! ## Dots -/

theorem accessStep_kept {s t : State} (h : accessStep s = .next t) : s.KeptByDevices t := by
  have fin : ∀ u : State, u.KeptByDevices { u with ppu := u.ppu.endAccess } := fun u =>
    .ppu fun m => ⟨m.ram, m.vram, m.oam, m.pal, m.prg, m.chr, m.line, m.dot, fun h => by simp [Ppu.endAccess] at h⟩
  unfold accessStep at h
  split at h
  · cases h; exact .refl _
  · next hne =>
    cases h
    exact .ppu fun m => ⟨m.ram, m.vram, m.oam, m.pal, m.prg, m.chr, m.line, m.dot, fun _ => by simpa using hne⟩
  · rw [Res.bind_eq_next] at h
    obtain ⟨u, hu, h⟩ := h
    cases h
    refine State.KeptByDevices.trans ?_ (fin u)
    unfold accessWrite at hu
    split at hu
    · cases hu
      exact .ppu fun m =>
        ⟨m.ram, m.vram, m.oam, Memory.wf_write m.pal (paletteCell_lt _), m.prg, m.chr, m.line, m.dot, m.ale⟩
    · exact vWrite_kept hu
  · rw [Res.bind_eq_next] at h
    obtain ⟨u, hu, h⟩ := h
    cases h
    refine State.KeptByDevices.trans ?_ (fin u)
    unfold accessRead at hu
    split at hu
    · next h1 =>
      cases hu
      exact (vRead_kept h1).trans (.ppu fun m => ⟨m.ram, m.vram, m.oam, m.pal, m.prg, m.chr, m.line, m.dot, m.ale⟩)
    · next h1 => cases hu; exact vRead_kept h1
    · cases hu
    · cases hu

theorem Ppu.prstStep_kept (s : State) (r : Bool) : s.KeptByDevices { s with ppu := s.ppu.prstStep r } := by
  refine .ppu fun m => ?_
  unfold Ppu.prstStep
  dsimp only
  split
  · exact ⟨m.ram, m.vram, m.oam, m.pal, m.prg, m.chr, by simp [Ppu.resetActions], by simp [Ppu.resetActions],
      by simp [Ppu.resetActions]⟩
  · exact ⟨m.ram, m.vram, m.oam, m.pal, m.prg, m.chr, m.line, m.dot, m.ale⟩

theorem ppuCycle_kept {s t : State} (h : ppuCycle s = .next t) : s.KeptByDevices t := by
  unfold ppuCycle at h
  dsimp only at h
  split at h
  · cases h; exact Ppu.prstStep_kept _ _
  · rw [Res.bind_eq_next] at h
    obtain ⟨u, hu, h⟩ := h
    cases h
    refine (Ppu.prstStep_kept s s.lines.rstN).trans (State.KeptByDevices.trans ?_ ((accessStep_kept hu).trans ?_))
    · refine .ppu (s := { s with ppu := s.ppu.prstStep s.lines.rstN }) (p := (s.ppu.prstStep s.lines.rstN).dotEvents) fun m => ?_
      exact ⟨m.ram, m.vram, by simpa using m.oam, by simpa using m.pal, m.prg, m.chr, by simpa using m.line, by simpa using m.dot,
        by simpa using m.ale⟩
    · refine .ppu fun m => ?_
      have := Ppu.advance_line_dot m.line m.dot
      exact ⟨m.ram, m.vram, by simpa using m.oam, by simpa using m.pal, m.prg, m.chr, this.1, this.2, by simpa using m.ale⟩

theorem State.KeptByDevices.withRst (l : Bool) (s : State) : s.KeptByDevices (s.withRst l) :=
  ⟨rfl, rfl, rfl, rfl, fun m => ⟨m.ram, m.vram, m.oam, m.pal, m.prg, m.chr, m.line, m.dot, m.ale⟩⟩

theorem dots_kept {ls : List Bool} {s t : State} (h : dots ls s = .next t) : s.KeptByDevices t := by
  induction ls generalizing s with
  | nil => cases h; exact .refl _
  | cons l ls ih =>
    simp only [dots, Res.bind_eq_next] at h
    obtain ⟨u, h1, h2⟩ := h
    exact (State.KeptByDevices.withRst l s).trans ((ppuCycle_kept h1).trans (ih h2))

/-- The dots before a CPU cycle. -/
theorem State.runEarly_kept {s t : State} (h : s.runEarly = .next t) :
    t.cpu = s.cpu ∧ t.fixed = s.fixed ∧ t.early = [] ∧ t.driver = s.driver ∧ (s.MemInv → t.MemInv) := by
  have o := dots_kept h
  exact ⟨o.cpu, o.fixed, o.early, o.driver,
    fun m => o.mem ⟨m.ram, m.vram, m.oam, m.pal, m.prg, m.chr, m.line, m.dot, m.ale⟩⟩

end Sys2Proof.Machine
end

