-- ==== Sys2Proof/Laws/PerInstr.lean ====
section
/-! SUPPORT. Per instruction: a well-formed instruction has an opcode, and that opcode decodes to it (`30_encoding.md` R123 against the
encodings lines of files 41 to 45). -/

namespace Sys2Proof.Laws.EncodeDecode

/-- The instruction's opcode, if it is well formed, decodes to the instruction. -/
def Statement (i : Instr) : Prop := i.wellFormed = true → ∃ op, encodeOpcode i = some op ∧ decodeOpcode op = i

theorem lda (m : ReadMode) : Statement (.lda m) := by
  intro h
  rcases m with _ | m
  · exact ⟨_, rfl, by decide⟩
  · cases m <;> first | exact ⟨_, rfl, by decide⟩ | exact absurd h (by decide)

theorem ldx (m : ReadMode) : Statement (.ldx m) := by
  intro h
  rcases m with _ | m
  · exact ⟨_, rfl, by decide⟩
  · cases m <;> first | exact ⟨_, rfl, by decide⟩ | exact absurd h (by decide)

theorem ldy (m : ReadMode) : Statement (.ldy m) := by
  intro h
  rcases m with _ | m
  · exact ⟨_, rfl, by decide⟩
  · cases m <;> first | exact ⟨_, rfl, by decide⟩ | exact absurd h (by decide)

theorem sta (m : MemMode) : Statement (.sta m) := by
  intro h
  cases m <;> first | exact ⟨_, rfl, by decide⟩ | exact absurd h (by decide)

theorem stx (m : MemMode) : Statement (.stx m) := by
  intro h
  cases m <;> first | exact ⟨_, rfl, by decide⟩ | exact absurd h (by decide)

theorem sty (m : MemMode) : Statement (.sty m) := by
  intro h
  cases m <;> first | exact ⟨_, rfl, by decide⟩ | exact absurd h (by decide)

theorem tax : Statement .tax := fun _ => ⟨_, rfl, by decide⟩

theorem tay : Statement .tay := fun _ => ⟨_, rfl, by decide⟩

theorem txa : Statement .txa := fun _ => ⟨_, rfl, by decide⟩

theorem tya : Statement .tya := fun _ => ⟨_, rfl, by decide⟩

theorem tsx : Statement .tsx := fun _ => ⟨_, rfl, by decide⟩

theorem txs : Statement .txs := fun _ => ⟨_, rfl, by decide⟩

theorem adc (m : ReadMode) : Statement (.adc m) := by
  intro h
  rcases m with _ | m
  · exact ⟨_, rfl, by decide⟩
  · cases m <;> first | exact ⟨_, rfl, by decide⟩ | exact absurd h (by decide)

theorem sbc (m : ReadMode) : Statement (.sbc m) := by
  intro h
  rcases m with _ | m
  · exact ⟨_, rfl, by decide⟩
  · cases m <;> first | exact ⟨_, rfl, by decide⟩ | exact absurd h (by decide)

theorem and (m : ReadMode) : Statement (.and m) := by
  intro h
  rcases m with _ | m
  · exact ⟨_, rfl, by decide⟩
  · cases m <;> first | exact ⟨_, rfl, by decide⟩ | exact absurd h (by decide)

theorem ora (m : ReadMode) : Statement (.ora m) := by
  intro h
  rcases m with _ | m
  · exact ⟨_, rfl, by decide⟩
  · cases m <;> first | exact ⟨_, rfl, by decide⟩ | exact absurd h (by decide)

theorem eor (m : ReadMode) : Statement (.eor m) := by
  intro h
  rcases m with _ | m
  · exact ⟨_, rfl, by decide⟩
  · cases m <;> first | exact ⟨_, rfl, by decide⟩ | exact absurd h (by decide)

theorem bit (m : MemMode) : Statement (.bit m) := by
  intro h
  cases m <;> first | exact ⟨_, rfl, by decide⟩ | exact absurd h (by decide)

theorem cmp (m : ReadMode) : Statement (.cmp m) := by
  intro h
  rcases m with _ | m
  · exact ⟨_, rfl, by decide⟩
  · cases m <;> first | exact ⟨_, rfl, by decide⟩ | exact absurd h (by decide)

theorem cpx (m : ReadMode) : Statement (.cpx m) := by
  intro h
  rcases m with _ | m
  · exact ⟨_, rfl, by decide⟩
  · cases m <;> first | exact ⟨_, rfl, by decide⟩ | exact absurd h (by decide)

theorem cpy (m : ReadMode) : Statement (.cpy m) := by
  intro h
  rcases m with _ | m
  · exact ⟨_, rfl, by decide⟩
  · cases m <;> first | exact ⟨_, rfl, by decide⟩ | exact absurd h (by decide)

theorem inc (m : RmwMode) : Statement (.inc m) := by
  intro h
  cases m <;> first | exact ⟨_, rfl, by decide⟩ | exact absurd h (by decide)

theorem dec (m : RmwMode) : Statement (.dec m) := by
  intro h
  cases m <;> first | exact ⟨_, rfl, by decide⟩ | exact absurd h (by decide)

theorem inx : Statement .inx := fun _ => ⟨_, rfl, by decide⟩

theorem iny : Statement .iny := fun _ => ⟨_, rfl, by decide⟩

theorem dex : Statement .dex := fun _ => ⟨_, rfl, by decide⟩

theorem dey : Statement .dey := fun _ => ⟨_, rfl, by decide⟩

theorem asl (m : ShiftMode) : Statement (.asl m) := by
  intro h
  rcases m with _ | m
  · exact ⟨_, rfl, by decide⟩
  · cases m <;> first | exact ⟨_, rfl, by decide⟩ | exact absurd h (by decide)

theorem lsr (m : ShiftMode) : Statement (.lsr m) := by
  intro h
  rcases m with _ | m
  · exact ⟨_, rfl, by decide⟩
  · cases m <;> first | exact ⟨_, rfl, by decide⟩ | exact absurd h (by decide)

theorem rol (m : ShiftMode) : Statement (.rol m) := by
  intro h
  rcases m with _ | m
  · exact ⟨_, rfl, by decide⟩
  · cases m <;> first | exact ⟨_, rfl, by decide⟩ | exact absurd h (by decide)

theorem ror (m : ShiftMode) : Statement (.ror m) := by
  intro h
  rcases m with _ | m
  · exact ⟨_, rfl, by decide⟩
  · cases m <;> first | exact ⟨_, rfl, by decide⟩ | exact absurd h (by decide)

theorem bcc : Statement .bcc := fun _ => ⟨_, rfl, by decide⟩

theorem bcs : Statement .bcs := fun _ => ⟨_, rfl, by decide⟩

theorem beq : Statement .beq := fun _ => ⟨_, rfl, by decide⟩

theorem bmi : Statement .bmi := fun _ => ⟨_, rfl, by decide⟩

theorem bne : Statement .bne := fun _ => ⟨_, rfl, by decide⟩

theorem bpl : Statement .bpl := fun _ => ⟨_, rfl, by decide⟩

theorem bvc : Statement .bvc := fun _ => ⟨_, rfl, by decide⟩

theorem bvs : Statement .bvs := fun _ => ⟨_, rfl, by decide⟩

theorem jmp (m : JumpMode) : Statement (.jmp m) := by
  intro h
  cases m <;> first | exact ⟨_, rfl, by decide⟩ | exact absurd h (by decide)

theorem jsr : Statement .jsr := fun _ => ⟨_, rfl, by decide⟩

theorem rts : Statement .rts := fun _ => ⟨_, rfl, by decide⟩

theorem rti : Statement .rti := fun _ => ⟨_, rfl, by decide⟩

theorem brk : Statement .brk := fun _ => ⟨_, rfl, by decide⟩

theorem pha : Statement .pha := fun _ => ⟨_, rfl, by decide⟩

theorem php : Statement .php := fun _ => ⟨_, rfl, by decide⟩

theorem pla : Statement .pla := fun _ => ⟨_, rfl, by decide⟩

theorem plp : Statement .plp := fun _ => ⟨_, rfl, by decide⟩

theorem clc : Statement .clc := fun _ => ⟨_, rfl, by decide⟩

theorem sec : Statement .sec := fun _ => ⟨_, rfl, by decide⟩

theorem cli : Statement .cli := fun _ => ⟨_, rfl, by decide⟩

theorem sei : Statement .sei := fun _ => ⟨_, rfl, by decide⟩

theorem clv : Statement .clv := fun _ => ⟨_, rfl, by decide⟩

theorem cld : Statement .cld := fun _ => ⟨_, rfl, by decide⟩

theorem sed : Statement .sed := fun _ => ⟨_, rfl, by decide⟩

theorem nop : Statement .nop := fun _ => ⟨_, rfl, by decide⟩

theorem jam (op : Byte) : Statement (.jam op) := by
  unfold Statement
  revert op
  decide +kernel

theorem unk (op : Byte) : Statement (.unk op) := by
  unfold Statement
  revert op
  decide +kernel

end Sys2Proof.Laws.EncodeDecode
end

