-- ==== Sys2Proof/Laws/Shapes.lean ====
section
/-! SUPPORT. From the run of each kind of sequence to the shape the statements are written in (Safety.lean). -/

namespace Sys2Proof.Machine

/-- A store to one cell leaves every other byte. -/
theorem State.peek_storedAt {s : State} (hw : s.ram.wf 2048 = true) {a x : Word} {v : Byte} (h : s.sameCell a x = false) :
    (s.storedAt a v).peek x = s.peek x := by
  unfold State.peek State.storedAt State.ramAfter
  cases hx : s.cpuBus.device x with
  | none => simp
  | some d =>
    cases d <;> simp only [hx] <;> try rfl
    cases ha : s.cpuBus.device a with
    | none => rfl
    | some e =>
      cases e <;> try rfl
      simp only [Memory.read_write hw]
      have : ramIndex x ≠ ramIndex a := by
        intro he; simp [State.sameCell, ha, hx, he] at h
      simp [this]

theorem State.wf_storedAt {s : State} (hw : s.ram.wf 2048 = true) (a : Word) (v : Byte) :
    (s.storedAt a v).ram.wf 2048 = true := by
  simp only [State.storedAt, State.ramAfter]
  split
  · exact Memory.wf_write hw (by simp only [ramIndex, BitVec.toNat_and]; exact Nat.lt_of_le_of_lt Nat.and_le_right (by decide))
  · exact hw

/-- Stores to cells leave every other byte. -/
theorem State.peek_ramAfterAll {l : List (Word × Byte)} {s : State} (hw : s.ram.wf 2048 = true) {x : Word}
    (h : ∀ p ∈ l, s.sameCell p.1 x = false) : { s with ram := s.ramAfterAll l }.peek x = s.peek x := by
  induction l generalizing s with
  | nil => rfl
  | cons p l ih =>
    have := ih (s := s.storedAt p.1 p.2) (State.wf_storedAt hw _ _) (fun q hq => h q (by simp [hq]))
    rw [State.peek_storedAt hw (h p (by simp))] at this
    exact this

/-- The shape from its parts. -/
theorem State.AfterStores.of {n : Nat} {l : List (Word × Byte)} {s t : State} (hr : t.Running) (hf : t.fixed = s.fixed)
    (hd : t.driver = s.driver.drop n) (hp : t.cpu.eng.presync = true) (hj : t.cpu.eng.jammed = s.cpu.eng.jammed)
    (hm : t.ram = s.ramAfterAll l) (hv : (∀ p ∈ l, s.plainTarget p.1 = true) → t.videoMemory = s.videoMemory) :
    s.AfterStores n l t :=
  ⟨hr, hf, hd, hp, hj, hm,
    fun hw x hx => by
      rw [← State.peek_ramAfterAll hw hx]
      exact congrFun (State.peek_congr (s := { s with ram := s.ramAfterAll l }) (hf.trans rfl) hm) x, hv⟩

theorem Quiet.afterReads {n : Nat} {s t : State} (h : Quiet n s t) (hp : t.cpu.eng.presync = true)
    (hj : t.cpu.eng.jammed = s.cpu.eng.jammed) : s.AfterReads n t :=
  .of h.running h.fixed h.driver hp hj h.ram (fun _ => h.video)

theorem Went.afterStores {n : Nat} {l : List (Word × Byte)} {plain : Bool} {m : Memory} {s t : State} (h : Went n plain m s t)
    (hm : m = s.ramAfterAll l) (hl : (∀ p ∈ l, s.plainTarget p.1 = true) → plain = true) (hp : t.cpu.eng.presync = true)
    (hj : t.cpu.eng.jammed = s.cpu.eng.jammed) : s.AfterStores n l t :=
  .of h.running h.fixed h.driver hp hj (h.ram.trans hm) (fun hs => h.video (hl hs))

/-- Every read instruction, from its compute step on the registers it starts from. -/
theorem State.reads_of' {i : Instr} {m : ReadMode} {op result : Byte → Regs → Regs} {s : State} (h : s.Running)
    (he : exec i s = runInstr (readSequence m op) s)
    (ho : ∀ v (r : Regs) pc, r = s.cpu.regs → op v { r with pc := pc } = { result v r with pc := pc }) :
    s.Reads i m result := by
  cases m with
  | imm =>
    obtain ⟨t, h1, h2, h3, h4, h5, h6, h7, h8⟩ := run_imm (op := op) h
    exact ⟨2, t, he.trans h1, h2.afterReads h6 h7, h3, ⟨by rw [h5]; exact h8, rfl, h5⟩, by rw [h4, ho _ _ _ rfl]; rfl⟩
  | mem m =>
    obtain ⟨n, t, a, h1, h2, h3, h4, h5, h6, h7, h8, h9⟩ := run_read (m := m) (op := op) h
    refine ⟨n, t, he.trans h1, h2.afterReads h5 h6, h7, ⟨by rw [h4]; exact h8, ?_⟩, by rw [h3, ho _ _ _ rfl]; rfl⟩
    intro b1 b2 zp hz
    rw [h4]; exact h9 b1 b2 zp hz

/-- Every read instruction, from its compute step. -/
theorem State.reads_of {i : Instr} {m : ReadMode} {op result : Byte → Regs → Regs} {s : State} (h : s.Running)
    (he : exec i s = runInstr (readSequence m op) s)
    (ho : ∀ v (r : Regs) pc, op v { r with pc := pc } = { result v r with pc := pc }) : s.Reads i m result :=
  State.reads_of' h he (fun v r pc _ => ho v r pc)

/-- Every store. -/
theorem State.stores_of {i : Instr} {m : MemMode} {sv : Regs → Byte} {s : State} (h : s.Running)
    (he : exec i s = runInstr (memSequence m (.write sv)) s) (hs : ∀ (r : Regs) pc, sv { r with pc := pc } = sv r) :
    s.Stores i m (sv s.cpu.regs) := by
  obtain ⟨n, t, a, h1, h2, h3, h4, h5, h6, h7, h8, h9, h10, h11, h12, h13⟩ := run_write (m := m) (sv := sv) h hs
  subst h6
  exact ⟨n, t, he.trans h1, .of h2 h3 h4 h8 h9 h11 (fun hl => h12 (hl _ (List.mem_cons_self ..))), h10, h7, h5, h13⟩

/-- Every read-modify-write. -/
theorem State.modifies_of {i : Instr} {m : RmwMode} {rmw rmw' : RmwOp} {s : State} (h : s.Running)
    (he : exec i s = runInstr (rmwSequence m rmw) s) (hi : ∀ v p, (rmw v p).2.i = p.i) (hr : rmw = rmw') :
    s.Modifies i m rmw' := by
  subst hr
  obtain ⟨n, t, a, v, h1, h2, h3, h4, h5, h6, h7, h8, h9, h10, h11, h12, h13, h14⟩ := run_rmw (m := m) h hi
  subst h6
  refine ⟨n, t, v, he.trans h1, .of h2 h3 h4 h8 h9 h11 (fun hl => h12 (hl _ (List.mem_cons_self ..))), h10, h7, h13, ?_, h14⟩
  rw [h5]

/-- Every implied instruction. -/
theorem State.implies_of {i : Instr} {op result : Regs → Regs} {s : State} (h : s.Running)
    (he : exec i s = runInstr (impliedSequence op) s)
    (ho : ∀ (r : Regs) pc, op { r with pc := pc } = { result r with pc := pc }) : s.Implies i result := by
  obtain ⟨t, h1, h2, h3, h4, h5, h6, h7⟩ := run_implied (op := op) h
  exact ⟨t, he.trans h1, h2.afterReads h6 h7, h3, h5, by rw [h4, ho]⟩

/-- Every branch. -/
theorem State.branches_of {i : Instr} {cond : Flags → Bool} {s : State} (h : s.Running)
    (he : exec i s = runInstr (branchSequence cond) s) : s.Branches i (cond s.cpu.regs.p) := by
  obtain ⟨n, t, h1, h2, h3, h4, h5, h6, h7, h8⟩ := run_branch (cond := cond) h
  refine ⟨n, t, he.trans h1, h2.afterReads h5 h6, h3, h7, h4, ?_⟩
  rw [h8, h4]
  cases cond s.cpu.regs.p <;> rfl

/-- Every push. -/
theorem State.pushes_of {i : Instr} {v : Regs → Byte} {s : State} (h : s.Running)
    (he : exec i s = runInstr (pushSequence v) s) (hv : ∀ (r : Regs) pc, v { r with pc := pc } = v r) :
    s.Pushes i (v s.cpu.regs) := by
  obtain ⟨t, h1, h2, h3, h4, h5, h6, h7, h8⟩ := run_push h hv
  exact ⟨t, he.trans h1, h2.afterStores rfl (fun hl => hl _ (List.mem_cons_self ..)) h4 h5, h3, h7, h8, h6⟩

/-- Every pull. -/
theorem State.pulls_of {i : Instr} {op result : Byte → Regs → Regs} {s : State} (h : s.Running)
    (he : exec i s = runInstr (pullSequence op) s)
    (ho : ∀ v (r : Regs) pc sp, op v { r with pc := pc, s := sp } = { result v r with pc := pc, s := sp }) :
    s.Pulls i result := by
  obtain ⟨t, h1, h2, h3, h4, h5, h6, h7, h8⟩ := run_pull (op := op) h
  exact ⟨t, he.trans h1, h2.afterReads h4 h5, h3, h7, h8, by rw [h6, ho]⟩

end Sys2Proof.Machine
end

