-- ==== Sys2Proof/Laws/Steps.lean ====
section
/-! SUPPORT. What every cycle of every sequence keeps, and when a sequence ends: the lemmas about `step` and `clock` start
here. -/

namespace Sys2Proof.Machine

/-! ## What the rows keep -/

/-- `P.B = 0` and `P.U = 1` (`10_state.md` R24). -/
def Flags.Legal (p : Flags) : Prop := p.b = false ∧ p.u = true

/-- What any row of cycle `t` keeps, those of a supplied sequence too. -/
structure Row.Leaves (r : Row) (t : Nat) : Prop where
  effect : ∀ b c, (r.effect b c).eng.presync = c.eng.presync ∧ (r.effect b c).eng.kind = c.eng.kind ∧
    (r.effect b c).eng.t = c.eng.t ∧ (r.effect b c).eng.addrbus = c.eng.addrbus ∧ (r.effect b c).eng.jammed = (r.halt || c.eng.jammed) ∧
    (1 ≤ t → (r.effect b c).eng.opc = c.eng.opc) ∧ (c.trk.irq ≠ .serviced → (r.effect b c).trk.irq ≠ .serviced) ∧
    (c.regs.p.Legal → (r.effect b c).regs.p.Legal)
  halt : r.halt = true → r.final = false

/-- Every row of a sequence. -/
def RowsLeave (seq : Sequence) : Prop := ∀ t c, (seq t c).Leaves t

/-- The seventh cycle ends the sequence at the latest (`10_state.md` R28, `40_cycle_engine.md` R160). -/
def RowsEnd (seq : Sequence) : Prop := ∀ t c, 6 ≤ t → (seq t c).final = true ∨ (seq t c).halt = true

/-- What the row of cycle `t` of a cycle table keeps, and when it ends the sequence. -/
structure Row.Keeps (r : Row) (t : Nat) : Prop where
  effect : ∀ b c, (r.effect b c).eng.presync = c.eng.presync ∧ (r.effect b c).eng.kind = c.eng.kind ∧
    (r.effect b c).eng.t = c.eng.t ∧ (r.effect b c).eng.addrbus = c.eng.addrbus ∧ (r.effect b c).eng.jammed = (r.halt || c.eng.jammed) ∧
    (1 ≤ t → (r.effect b c).eng.opc = c.eng.opc) ∧ (r.effect b c).trk.irq = c.trk.irq ∧
    (c.regs.p.Legal → (r.effect b c).regs.p.Legal)
  halt : r.halt = true → r.final = false
  last : 6 ≤ t → r.final = true ∨ r.halt = true

/-- Every row of a cycle table. -/
def RowsKeep (seq : Sequence) : Prop := ∀ t c, (seq t c).Keeps t

theorem RowsKeep.leave {seq : Sequence} (h : RowsKeep seq) : RowsLeave seq := fun t c =>
  ⟨fun b c' => by
    obtain ⟨a1, a2, a3, a4, a5, a6, a7, a8⟩ := (h t c).effect b c'
    exact ⟨a1, a2, a3, a4, a5, a6, by rw [a7]; exact id, a8⟩, (h t c).halt⟩

theorem RowsKeep.ends {seq : Sequence} (h : RowsKeep seq) : RowsEnd seq := fun t c => (h t c).last

/-- A row before the seventh cycle that neither ends nor halts. -/
theorem Row.Keeps.early {r : Row} {t : Nat} (ht : t < 6) (hh : r.halt = false)
    (he : ∀ b c, (r.effect b c).eng.presync = c.eng.presync ∧ (r.effect b c).eng.kind = c.eng.kind ∧
      (r.effect b c).eng.t = c.eng.t ∧ (r.effect b c).eng.addrbus = c.eng.addrbus ∧ (r.effect b c).eng.jammed = c.eng.jammed ∧
      (1 ≤ t → (r.effect b c).eng.opc = c.eng.opc) ∧ (r.effect b c).trk.irq = c.trk.irq ∧
      (c.regs.p.Legal → (r.effect b c).regs.p.Legal)) : r.Keeps t :=
  ⟨by simpa [hh] using he, by simp [hh], by omega⟩

/-- A final row. -/
theorem Row.Keeps.atEnd {r : Row} {t : Nat} (hf : r.final = true) (hh : r.halt = false)
    (he : ∀ b c, (r.effect b c).eng.presync = c.eng.presync ∧ (r.effect b c).eng.kind = c.eng.kind ∧
      (r.effect b c).eng.t = c.eng.t ∧ (r.effect b c).eng.addrbus = c.eng.addrbus ∧ (r.effect b c).eng.jammed = c.eng.jammed ∧
      (1 ≤ t → (r.effect b c).eng.opc = c.eng.opc) ∧ (r.effect b c).trk.irq = c.trk.irq ∧
      (c.regs.p.Legal → (r.effect b c).regs.p.Legal)) : r.Keeps t :=
  ⟨by simpa [hh] using he, by simp [hh], fun _ => .inl hf⟩

theorem fetchRow_keeps (p : Bool) (c : Cpu) : (fetchRow p c).Keeps 0 :=
  .early (by decide) rfl fun _ _ => ⟨rfl, rfl, rfl, rfl, rfl, fun h => absurd h (by decide), rfl, id⟩

section
variable {t : Nat} (ht : t < 6)
include ht

theorem idleRow_keeps (p : Bool) (c : Cpu) : (idleRow p c).Keeps t := .early ht rfl fun _ _ => ⟨rfl, rfl, rfl, rfl, rfl, fun _ => rfl, rfl, id⟩
theorem adlRow_keeps (p : Bool) (c : Cpu) : (adlRow p c).Keeps t := .early ht rfl fun _ _ => ⟨rfl, rfl, rfl, rfl, rfl, fun _ => rfl, rfl, id⟩
theorem zpRow_keeps (p : Bool) (c : Cpu) : (zpRow p c).Keeps t := .early ht rfl fun _ _ => ⟨rfl, rfl, rfl, rfl, rfl, fun _ => rfl, rfl, id⟩
theorem adhRow_keeps (p : Bool) (c : Cpu) : (adhRow p c).Keeps t := .early ht rfl fun _ _ => ⟨rfl, rfl, rfl, rfl, rfl, fun _ => rfl, rfl, id⟩
theorem ptrRow_keeps (c : Cpu) : (ptrRow c).Keeps t := .early ht rfl fun _ _ => ⟨rfl, rfl, rfl, rfl, rfl, fun _ => rfl, rfl, id⟩
theorem ptrLoRow_keeps (c : Cpu) : (ptrLoRow c).Keeps t := .early ht rfl fun _ _ => ⟨rfl, rfl, rfl, rfl, rfl, fun _ => rfl, rfl, id⟩
theorem incSRow_keeps (p : Bool) (c : Cpu) : (incSRow p c).Keeps t := .early ht rfl fun _ _ => ⟨rfl, rfl, rfl, rfl, rfl, fun _ => rfl, rfl, id⟩
theorem pushRow_keeps (v : Byte) (p : Bool) (c : Cpu) : (pushRow v p false c).Keeps t := .early ht rfl fun _ _ => ⟨rfl, rfl, rfl, rfl, rfl, fun _ => rfl, rfl, id⟩
theorem zpIndexRow_keeps (i : Byte) (p : Bool) (c : Cpu) : (zpIndexRow i p c).Keeps t := .early ht rfl fun _ _ => ⟨rfl, rfl, rfl, rfl, rfl, fun _ => rfl, rfl, id⟩
theorem absIndexRow_keeps (i : Byte) (p : Bool) (c : Cpu) : (absIndexRow i p c).Keeps t := .early ht rfl fun _ _ => ⟨rfl, rfl, rfl, rfl, rfl, fun _ => rfl, rfl, id⟩
theorem fixRow_keeps (p : Bool) (c : Cpu) : (fixRow p c).Keeps t := .early ht rfl fun _ _ => ⟨rfl, rfl, rfl, rfl, rfl, fun _ => rfl, rfl, id⟩
theorem entryStackRow_keeps (k : EntryKind) (v : Byte) (p : Bool) (c : Cpu) : (entryStackRow k v p c).Keeps t := .early ht rfl fun _ _ => ⟨rfl, rfl, rfl, rfl, rfl, fun _ => rfl, rfl, id⟩

end

/-! ## What the sequences keep -/

theorem implied_keeps {op : Regs → Regs} (h : ∀ r, r.p.Legal → (op r).p.Legal) : RowsKeep (impliedSequence op)
  | 0, c => fetchRow_keeps _ c
  | _ + 1, _ => .atEnd rfl rfl fun _ c => ⟨rfl, rfl, rfl, rfl, rfl, fun _ => rfl, rfl, h c.regs⟩

theorem imm_keeps {op : Byte → Regs → Regs} (h : ∀ b r, r.p.Legal → (op b r).p.Legal) : RowsKeep (immSequence op)
  | 0, c => fetchRow_keeps _ c
  | _ + 1, _ => .atEnd rfl rfl fun b _ => ⟨rfl, rfl, rfl, rfl, rfl, fun _ => rfl, rfl, fun hc => h b _ hc⟩

/-- What a read computes keeps the flags legal. -/
def DataOp.Legal : DataOp → Prop
  | .read op => ∀ b r, r.p.Legal → (op b r).p.Legal
  | .write _ => True

theorem DataOp.row_keeps {d : DataOp} (h : d.Legal) (a : Word) (c : Cpu) (t : Nat) : (d.row a c).Keeps t := by
  cases d with
  | read op => exact .atEnd rfl rfl fun b c => ⟨rfl, rfl, rfl, rfl, rfl, fun _ => rfl, rfl, h b c.regs⟩
  | write sv => exact .atEnd rfl rfl fun _ _ => ⟨rfl, rfl, rfl, rfl, rfl, fun _ => rfl, rfl, id⟩

theorem zp_keeps {d : DataOp} (h : d.Legal) : RowsKeep (zpSequence d)
  | 0, c => fetchRow_keeps _ c
  | 1, c => zpRow_keeps (by decide) _ c
  | _ + 2, _ => DataOp.row_keeps h _ _ _

theorem abs_keeps {d : DataOp} (h : d.Legal) : RowsKeep (absSequence d)
  | 0, c => fetchRow_keeps _ c
  | 1, c => adlRow_keeps (by decide) _ c
  | 2, c => adhRow_keeps (by decide) _ c
  | _ + 3, _ => DataOp.row_keeps h _ _ _

theorem zpIndex_keeps {i : Regs → Byte} {d : DataOp} (h : d.Legal) : RowsKeep (zpIndexSequence i d)
  | 0, c => fetchRow_keeps _ c
  | 1, c => zpRow_keeps (by decide) _ c
  | 2, c => zpIndexRow_keeps (by decide) _ _ c
  | _ + 3, _ => DataOp.row_keeps h _ _ _

/-- The row that is the operand's if the page is right, else the fix-up. -/
theorem fixOrRow_keeps {d : DataOp} (h : d.Legal) (q : Bool) (a : Word) (c : Cpu) {t : Nat} (ht : t < 6) :
    (if q then d.row a c else fixRow true c).Keeps t := by
  split
  · exact DataOp.row_keeps h _ _ _
  · exact fixRow_keeps ht _ _

theorem absIndex_keeps {i : Regs → Byte} {d : DataOp} (h : d.Legal) : RowsKeep (absIndexSequence i d)
  | 0, c => fetchRow_keeps _ c
  | 1, c => adlRow_keeps (by decide) _ c
  | 2, c => absIndexRow_keeps (by decide) _ _ c
  | 3, c => fixOrRow_keeps h _ _ c (by decide)
  | _ + 4, _ => DataOp.row_keeps h _ _ _

theorem indx_keeps {d : DataOp} (h : d.Legal) : RowsKeep (indxSequence d)
  | 0, c => fetchRow_keeps _ c
  | 1, c => ptrRow_keeps (by decide) c
  | 2, _ => .early (by decide) rfl fun _ _ => ⟨rfl, rfl, rfl, rfl, rfl, fun _ => rfl, rfl, id⟩
  | 3, c => ptrLoRow_keeps (by decide) c
  | 4, _ => .early (by decide) rfl fun _ _ => ⟨rfl, rfl, rfl, rfl, rfl, fun _ => rfl, rfl, id⟩
  | _ + 5, _ => DataOp.row_keeps h _ _ _

theorem indy_keeps {d : DataOp} (h : d.Legal) : RowsKeep (indySequence d)
  | 0, c => fetchRow_keeps _ c
  | 1, c => ptrRow_keeps (by decide) c
  | 2, c => ptrLoRow_keeps (by decide) c
  | 3, _ => .early (by decide) rfl fun _ _ => ⟨rfl, rfl, rfl, rfl, rfl, fun _ => rfl, rfl, id⟩
  | 4, c => fixOrRow_keeps h _ _ c (by decide)
  | _ + 5, _ => DataOp.row_keeps h _ _ _

theorem mem_keeps {m : MemMode} {d : DataOp} (h : d.Legal) : RowsKeep (memSequence m d) := by
  cases m
  · exact zp_keeps h
  · exact zpIndex_keeps h
  · exact zpIndex_keeps h
  · exact abs_keeps h
  · exact absIndex_keeps h
  · exact absIndex_keeps h
  · exact indx_keeps h
  · exact indy_keeps h

theorem read_keeps {m : ReadMode} {op : Byte → Regs → Regs} (h : ∀ b r, r.p.Legal → (op b r).p.Legal) :
    RowsKeep (readSequence m op) := by
  cases m
  · exact imm_keeps h
  · exact mem_keeps (d := .read op) h

theorem rmwRows_keep {rmw : RmwOp} (h : ∀ v p, p.Legal → (rmw v p).2.Legal) (a : Word) (k t : Nat) (c : Cpu) (hk : 6 ≤ t → 2 ≤ k) :
    (rmwRows rmw a k c).Keeps t := by
  match k with
  | 0 => exact .early (by omega) rfl fun _ _ => ⟨rfl, rfl, rfl, rfl, rfl, fun _ => rfl, rfl, id⟩
  | 1 => exact .early (by omega) rfl fun _ c => ⟨rfl, rfl, rfl, rfl, rfl, fun _ => rfl, rfl, h _ _⟩
  | _ + 2 => exact .atEnd rfl rfl fun _ _ => ⟨rfl, rfl, rfl, rfl, rfl, fun _ => rfl, rfl, id⟩

theorem rmw_keeps {m : RmwMode} {rmw : RmwOp} (h : ∀ v p, p.Legal → (rmw v p).2.Legal) : RowsKeep (rmwSequence m rmw) := by
  intro t c
  cases m
  · match t with
    | 0 => exact fetchRow_keeps _ c
    | 1 => exact zpRow_keeps (by decide) _ c
    | _ + 2 => exact rmwRows_keep h _ _ _ _ (by omega)
  · match t with
    | 0 => exact fetchRow_keeps _ c
    | 1 => exact zpRow_keeps (by decide) _ c
    | 2 => exact zpIndexRow_keeps (by decide) _ _ c
    | _ + 3 => exact rmwRows_keep h _ _ _ _ (by omega)
  · match t with
    | 0 => exact fetchRow_keeps _ c
    | 1 => exact adlRow_keeps (by decide) _ c
    | 2 => exact adhRow_keeps (by decide) _ c
    | _ + 3 => exact rmwRows_keep h _ _ _ _ (by omega)
  · match t with
    | 0 => exact fetchRow_keeps _ c
    | 1 => exact adlRow_keeps (by decide) _ c
    | 2 => exact absIndexRow_keeps (by decide) _ _ c
    | 3 => exact fixRow_keeps (by decide) _ c
    | _ + 4 => exact rmwRows_keep h _ _ _ _ (by omega)

theorem shift_keeps {m : ShiftMode} {rmw : RmwOp} (h : ∀ v p, p.Legal → (rmw v p).2.Legal) : RowsKeep (shiftSequence m rmw) := by
  cases m
  · exact implied_keeps fun r hr => h r.a r.p hr
  · exact rmw_keeps h

theorem branch_keeps {cond : Flags → Bool} : RowsKeep (branchSequence cond)
  | 0, c => fetchRow_keeps _ c
  | 1, _ => ⟨fun _ _ => ⟨rfl, rfl, rfl, rfl, rfl, fun _ => rfl, rfl, id⟩, by simp [branchSequence], by omega⟩
  | 2, _ => ⟨fun _ _ => ⟨rfl, rfl, rfl, rfl, rfl, fun _ => rfl, rfl, id⟩, by simp [branchSequence], by omega⟩
  | _ + 3, _ => .atEnd rfl rfl fun _ _ => ⟨rfl, rfl, rfl, rfl, rfl, fun _ => rfl, rfl, id⟩

theorem push_keeps {v : Regs → Byte} : RowsKeep (pushSequence v)
  | 0, c => fetchRow_keeps _ c
  | 1, c => idleRow_keeps (by decide) _ c
  | _ + 2, _ => .atEnd rfl rfl fun _ _ => ⟨rfl, rfl, rfl, rfl, rfl, fun _ => rfl, rfl, id⟩

theorem pull_keeps {op : Byte → Regs → Regs} (h : ∀ b r, r.p.Legal → (op b r).p.Legal) : RowsKeep (pullSequence op)
  | 0, c => fetchRow_keeps _ c
  | 1, c => idleRow_keeps (by decide) _ c
  | 2, c => incSRow_keeps (by decide) _ c
  | _ + 3, _ => .atEnd rfl rfl fun b _ => ⟨rfl, rfl, rfl, rfl, rfl, fun _ => rfl, rfl, h b _⟩

theorem jmp_keeps : ∀ {m : JumpMode}, RowsKeep (seqJmp m)
  | .abs, 0, c => fetchRow_keeps _ c
  | .abs, 1, c => adlRow_keeps (by decide) _ c
  | .abs, _ + 2, _ => .atEnd rfl rfl fun _ _ => ⟨rfl, rfl, rfl, rfl, rfl, fun _ => rfl, rfl, id⟩
  | .ind, 0, c => fetchRow_keeps _ c
  | .ind, 1, c => adlRow_keeps (by decide) _ c
  | .ind, 2, c => adhRow_keeps (by decide) _ c
  | .ind, 3, _ => .early (by decide) rfl fun _ _ => ⟨rfl, rfl, rfl, rfl, rfl, fun _ => rfl, rfl, id⟩
  | .ind, _ + 4, _ => .atEnd rfl rfl fun _ _ => ⟨rfl, rfl, rfl, rfl, rfl, fun _ => rfl, rfl, id⟩

theorem jsr_keeps : RowsKeep seqJsr
  | 0, c => fetchRow_keeps _ c
  | 1, c => adlRow_keeps (by decide) _ c
  | 2, _ => .early (by decide) rfl fun _ _ => ⟨rfl, rfl, rfl, rfl, rfl, fun _ => rfl, rfl, id⟩
  | 3, c => pushRow_keeps (by decide) _ _ c
  | 4, c => pushRow_keeps (by decide) _ _ c
  | _ + 5, _ => .atEnd rfl rfl fun _ _ => ⟨rfl, rfl, rfl, rfl, rfl, fun _ => rfl, rfl, id⟩

theorem rts_keeps : RowsKeep seqRts
  | 0, c => fetchRow_keeps _ c
  | 1, c => idleRow_keeps (by decide) _ c
  | 2, c => incSRow_keeps (by decide) _ c
  | 3, _ => .early (by decide) rfl fun _ _ => ⟨rfl, rfl, rfl, rfl, rfl, fun _ => rfl, rfl, id⟩
  | 4, _ => .early (by decide) rfl fun _ _ => ⟨rfl, rfl, rfl, rfl, rfl, fun _ => rfl, rfl, id⟩
  | _ + 5, _ => .atEnd rfl rfl fun _ _ => ⟨rfl, rfl, rfl, rfl, rfl, fun _ => rfl, rfl, id⟩

/-- A supplied sequence may be of any length. -/
theorem unk_leaves {op : Byte} : RowsLeave (seqUnk op)
  | 0, c => ⟨fun _ _ => ⟨rfl, rfl, rfl, rfl, rfl, fun h => absurd h (by decide), id, id⟩, by simp +contextual [seqUnk]⟩
  | _ + 1, c => ⟨fun _ _ => ⟨rfl, rfl, rfl, rfl, rfl, fun _ => rfl, Cpu.suppliedBy_irq _, id⟩, by simp +contextual [seqUnk]⟩

/-- A cycle of a supplied sequence after its T0. -/
theorem seqUnk_within {op : Byte} {t : Nat} (h : 1 ≤ t) (c : Cpu) :
    seqUnk op t c =
      { addr := (Config.unkCycle op t c).addr
        out := (Config.unkCycle op t c).out
        effect := fun _ c' =>
          let c'' := (Config.unkEffect op t c').suppliedBy c'
          { c'' with eng.jammed := decide ((Config.unkCycle op t c).next = .jam) || c''.eng.jammed }
        poll := (Config.unkCycle op t c).poll
        final := decide ((Config.unkCycle op t c).next = .final)
        halt := decide ((Config.unkCycle op t c).next = .jam) } := by
  cases t with
  | zero => cases h
  | succ t => rfl

/-- The end of a cycle of a supplied sequence, with what its row makes of the jam. -/
theorem Row.closeCpu_supplied {u : UnkCycle} {r : Row} (hf : r.final = decide (u.next = .final)) (hp : r.poll = u.poll) (i n z : Bool)
    (c : Cpu) :
    r.closeCpu true i n z { c with eng.jammed := decide (u.next = .jam) || c.eng.jammed } = closeSupplied u i n z c := by
  obtain ⟨_, _, _, p, _, _⟩ := r
  obtain ⟨_, _, _, nx⟩ := u
  obtain ⟨_, ⟨_, _, _, _, _, _, _, _, _, _, _, _, _, _, _, m, _, _⟩, _⟩ := c
  simp only at hf hp
  subst hf hp
  cases nx <;> cases p <;> cases m <;> rfl

theorem Flags.pulled_legal (b : Byte) : (Flags.pulled b).Legal := ⟨rfl, rfl⟩

theorem rti_keeps : RowsKeep rtiSequence
  | 0, c => fetchRow_keeps _ c
  | 1, c => idleRow_keeps (by decide) _ c
  | 2, c => incSRow_keeps (by decide) _ c
  | 3, _ => .early (by decide) rfl fun b _ => ⟨rfl, rfl, rfl, rfl, rfl, fun _ => rfl, rfl, fun _ => Flags.pulled_legal b⟩
  | 4, _ => .early (by decide) rfl fun _ _ => ⟨rfl, rfl, rfl, rfl, rfl, fun _ => rfl, rfl, id⟩
  | _ + 5, _ => .atEnd rfl rfl fun _ _ => ⟨rfl, rfl, rfl, rfl, rfl, fun _ => rfl, rfl, id⟩

theorem jam_keeps : RowsKeep seqJam
  | 0, c => fetchRow_keeps _ c
  | _ + 1, _ => ⟨fun _ _ => ⟨rfl, rfl, rfl, rfl, rfl, fun _ => rfl, rfl, id⟩, fun _ => rfl, fun _ => .inr rfl⟩

theorem entry_keeps {k : EntryKind} : RowsKeep (entrySequence k)
  | 0, c => by
    by_cases hk : k = .brk
    · simp only [entrySequence, hk, if_true]; exact fetchRow_keeps _ c
    · simp only [entrySequence, hk, if_false]
      exact .early (by decide) rfl fun _ _ => ⟨rfl, rfl, rfl, rfl, rfl, fun h => absurd h (by decide), rfl, id⟩
  | 1, c => by
    by_cases hk : k = .brk
    · simp only [entrySequence, hk, if_true]; exact .early (by decide) rfl fun _ _ => ⟨rfl, rfl, rfl, rfl, rfl, fun _ => rfl, rfl, id⟩
    · simp only [entrySequence, hk, if_false]; exact idleRow_keeps (by decide) _ c
  | 2, c => entryStackRow_keeps (by decide) _ _ _ c
  | 3, c => entryStackRow_keeps (by decide) _ _ _ c
  | 4, c => entryStackRow_keeps (by decide) _ _ _ c
  | 5, _ => .early (by decide) rfl fun _ _ => ⟨rfl, rfl, rfl, rfl, rfl, fun _ => rfl, rfl, id⟩
  | _ + 6, _ => .atEnd rfl rfl fun _ _ => ⟨rfl, rfl, rfl, rfl, rfl, fun _ => rfl, rfl, id⟩

/-! ## The sequences of the instructions -/

/-- The sequence of an instruction is a cycle table, but for an unknown opcode's. -/
theorem sequenceOf_keeps {g : Config} {i : Instr} {seq : Sequence} {k : Bool} (h : sequenceOf g i = some (seq, k)) :
    RowsKeep seq ∨ g.unk = .supplied ∧ ∃ op, i = .unk op ∧ seq = seqUnk op := by
  cases i <;> simp only [sequenceOf, Option.some.injEq, Prod.mk.injEq, reduceCtorEq] at h
  case unk =>
    split at h
    · cases h
    · next hu => cases h; exact .inr ⟨hu, _, rfl, rfl⟩
  all_goals (obtain ⟨rfl, -⟩ := h; left)
  case sta => exact mem_keeps (d := .write _) trivial
  case stx => exact mem_keeps (d := .write _) trivial
  case sty => exact mem_keeps (d := .write _) trivial
  case adc => exact read_keeps fun v r h => by unfold opAdc adcResult; split <;> exact h
  case sbc => exact read_keeps fun v r h => by unfold opSbc sbcResult; split <;> exact h
  case bit => exact mem_keeps (d := .read _) fun _ _ h => h
  case inc => exact rmw_keeps fun _ _ h => h
  case dec => exact rmw_keeps fun _ _ h => h
  case asl => exact shift_keeps fun _ _ h => h
  case lsr => exact shift_keeps fun _ _ h => h
  case rol => exact shift_keeps fun _ _ h => h
  case ror => exact shift_keeps fun _ _ h => h
  case jmp => exact jmp_keeps
  case jsr => exact jsr_keeps
  case rts => exact rts_keeps
  case rti => exact rti_keeps
  case brk => exact entry_keeps
  case pla => exact pull_keeps fun _ _ h => h
  case plp => exact pull_keeps fun _ _ _ => Flags.pulled_legal _
  case jam => exact jam_keeps
  case pha => exact push_keeps
  case php => exact push_keeps
  case lda => exact read_keeps fun _ _ h => h
  case ldx => exact read_keeps fun _ _ h => h
  case ldy => exact read_keeps fun _ _ h => h
  case and => exact read_keeps fun _ _ h => h
  case ora => exact read_keeps fun _ _ h => h
  case eor => exact read_keeps fun _ _ h => h
  case cmp => exact read_keeps fun _ _ h => h
  case cpx => exact read_keeps fun _ _ h => h
  case cpy => exact read_keeps fun _ _ h => h
  all_goals first | exact branch_keeps | exact implied_keeps fun _ h => h

/-- An opcode that decodes to UNK is one of the 93. -/
theorem decodeOpcode_unk {b op : Byte} (h : decodeOpcode b = .unk op) : op = b ∧ b.toNat ∈ unkOpcodes := by
  have key : ∀ b : BitVec 8, (match decodeOpcode b with | .unk op => decide (op = b ∧ b.toNat ∈ unkOpcodes) | _ => true) = true := by
    decide +kernel
  have := key b
  rw [h] at this
  simpa using this

theorem sequenceOf_leaves {g : Config} {i : Instr} {seq : Sequence} {k : Bool} (h : sequenceOf g i = some (seq, k)) : RowsLeave seq := by
  rcases sequenceOf_keeps h with q | ⟨-, op, -, rfl⟩
  · exact q.leave
  · exact unk_leaves

theorem currentSequence_leaves {g : Config} {k : SeqKind} {i : Instr} {seq : Sequence} {c : Bool}
    (h : currentSequence g k i = some (seq, c)) : RowsLeave seq := by
  cases k <;> simp only [currentSequence, Option.some.injEq, Prod.mk.injEq] at h
  · exact sequenceOf_leaves h
  all_goals (obtain ⟨rfl, -⟩ := h; exact entry_keeps.leave)

/-- Only a supplied sequence goes past the seventh cycle. -/
theorem currentSequence_ends {s : State} {seq : Sequence} {k : Bool}
    (h : currentSequence s.config s.cpu.eng.kind (decodeOpcode s.cpu.eng.opc) = some (seq, k)) : RowsEnd seq ∨ s.runsSupplied := by
  cases hk : s.cpu.eng.kind <;> rw [hk] at h <;> simp only [currentSequence, Option.some.injEq, Prod.mk.injEq] at h
  · rcases sequenceOf_keeps h with q | ⟨hu, op, hop, -⟩
    · exact .inl q.ends
    · exact .inr ⟨hu, hk, (decodeOpcode_unk hop).2⟩
  all_goals (obtain ⟨rfl, -⟩ := h; exact .inl entry_keeps.ends)

/-- The opcode fetch (`40_cycle_engine.md` R132). -/
structure Row.Fetches (r : Row) (c : Cpu) : Prop where
  addr : r.addr = c.regs.pc
  out : r.out = none
  opc : ∀ b c', (r.effect b c').eng.opc = b

/-- Every FETCH sequence begins with it. -/
theorem sequenceOf_fetches {g : Config} {i : Instr} {seq : Sequence} {k : Bool} (h : sequenceOf g i = some (seq, k)) (c : Cpu) :
    (seq 0 c).Fetches c := by
  have table : ∀ {r : Row}, (∃ p, r = fetchRow p c) → r.Fetches c := by rintro _ ⟨p, rfl⟩; exact ⟨rfl, rfl, fun _ _ => rfl⟩
  cases i <;> simp only [sequenceOf, Option.some.injEq, Prod.mk.injEq, reduceCtorEq] at h
  case unk =>
    split at h
    · cases h
    · cases h; exact ⟨rfl, rfl, fun _ _ => rfl⟩
  all_goals (obtain ⟨rfl, -⟩ := h; apply table)
  all_goals first
    | exact ⟨_, rfl⟩
    | (next m => cases m <;> first | exact ⟨_, rfl⟩ | (next m => cases m <;> exact ⟨_, rfl⟩))

/-- `exec` runs the sequence of the instruction. -/
theorem exec_eq_run {i : Instr} {seq : Sequence} {k : Bool} (s : State) (h : sequenceOf s.config i = some (seq, k)) :
    exec i s = runSequence seq k maxCycles { s with cpu := s.cpu.start .fetch } := by
  cases i <;> simp only [sequenceOf, Option.some.injEq, Prod.mk.injEq, reduceCtorEq] at h
  case unk =>
    split at h
    · cases h
    · next hu => cases h; simp only [exec, execUnk, hu]; rfl
  all_goals (obtain ⟨rfl, rfl⟩ := h; rfl)

/-- Only an unknown opcode has no sequence, and only with P_UNK at its default. -/
theorem currentSequence_none {g : Config} {k : SeqKind} {i : Instr} (h : currentSequence g k i = none) :
    ∃ op, i = .unk op ∧ g.unk = .refuse := by
  cases k <;> simp only [currentSequence, reduceCtorEq] at h
  cases i <;> simp only [sequenceOf, reduceCtorEq] at h
  split at h
  · next hu => exact ⟨_, rfl, hu⟩
  · cases h

/-! ## One cycle -/

/-- What one cycle leaves, whatever is bound to the buses: `ended` says that the sequence has ended, `final` that it ended at a
boundary. -/
structure TickLeaves (s t : State) (ended final : Bool) : Prop where
  fixed : t.fixed = s.fixed
  early : t.early = s.early
  mem : s.MemInv → t.MemInv
  presync : t.cpu.eng.presync = (final || s.cpu.eng.presync)
  jammed : t.cpu.eng.jammed = ((ended && !final) || s.cpu.eng.jammed)
  kind : t.cpu.eng.kind = s.cpu.eng.kind
  index : final = false → t.cpu.eng.t = s.cpu.eng.t + 1
  opc : 1 ≤ s.cpu.eng.t → t.cpu.eng.opc = s.cpu.eng.opc
  irq : s.cpu.trk.irq ≠ .serviced → t.cpu.trk.irq ≠ .serviced
  legal : s.cpu.regs.p.Legal → t.cpu.regs.p.Legal
  ended : final = true → ended = true

/-- The CPU after a cycle: `b` was on the data bus. -/
theorem tick_cpu {seq : Sequence} {k : Bool} {s t : State} {e : Bool} (h : tick seq k s = .next (t, e)) :
    t.fixed = s.fixed ∧ t.early = s.early ∧ (s.MemInv → t.MemInv) ∧ e = ((seq s.cpu.eng.t s.cpu).final || (seq s.cpu.eng.t s.cpu).halt) ∧
      ∃ b d i n z,
        t.cpu = (seq s.cpu.eng.t s.cpu).closeCpu k i n z
          ((seq s.cpu.eng.t s.cpu).effect b (s.cpu.onBus (seq s.cpu.eng.t s.cpu).addr b d)) ∧
        ((seq s.cpu.eng.t s.cpu).out = none → ∃ u, memRead (seq s.cpu.eng.t s.cpu).addr s.takeDriver = .next (b, u)) := by
  unfold tick at h
  simp only [Res.bind_eq_next] at h
  obtain ⟨⟨b, s1⟩, h1, s2, h2, h3⟩ := h
  cases h3
  have o := dots_kept h2
  have ha : (∃ d, s1.cpu = s.cpu.onBus (seq s.cpu.eng.t s.cpu).addr b d) ∧ s1.fixed = s.fixed ∧ s1.early = s.early ∧ (s.MemInv → s1.MemInv) ∧
      ((seq s.cpu.eng.t s.cpu).out = none → ∃ u, memRead (seq s.cpu.eng.t s.cpu).addr s.takeDriver = .next (b, u)) := by
    unfold Row.access at h1
    split at h1
    · have m := memRead_kept h1
      exact ⟨by simpa using m.1, by simpa using m.2.1, by simpa using m.2.2.1, fun q => m.2.2.2 q.takeDriver, fun _ => ⟨_, h1⟩⟩
    · next v hv =>
      rw [Res.bind_eq_next] at h1
      obtain ⟨u, h1, h2⟩ := h1
      cases h2
      have m := memWrite_kept h1
      exact ⟨by simpa using m.1, by simpa using m.2.1, by simpa using m.2.2.1, fun q => m.2.2.2 q.takeDriver, by simp [hv]⟩
  obtain ⟨⟨d, hc⟩, hf, he, hm, hr⟩ := ha
  refine ⟨o.fixed.trans (by rw [Row.finish_fixed]; exact hf), o.early.trans (by rw [Row.finish_early]; exact he), fun m => o.mem ?_, rfl, b, d, _, _, _,
    by rw [o.cpu, Row.finish_cpu, hc], hr⟩
  have m1 := hm m
  exact ⟨by simpa using m1.ram, by simpa using m1.vram, by simpa using m1.oam, by simpa using m1.pal, by simpa using m1.prg,
    by simpa using m1.chr, by simpa using m1.line, by simpa using m1.dot, by simpa using m1.ale⟩

theorem tick_leaves {seq : Sequence} {k : Bool} {s t : State} {e : Bool} (ho : RowsLeave seq) (h : tick seq k s = .next (t, e)) :
    ∃ f, TickLeaves s t e f ∧ (RowsEnd seq → 6 ≤ s.cpu.eng.t → e = true) := by
  obtain ⟨f1, f0, f2, f3, b, d, i, n, z, f4, -⟩ := tick_cpu h
  have o := ho s.cpu.eng.t s.cpu
  have hl : RowsEnd seq → 6 ≤ s.cpu.eng.t → e = true := fun hr h6 => by rw [f3]; simpa using hr _ s.cpu h6
  generalize seq s.cpu.eng.t s.cpu = r at f3 f4 o
  have q := o.effect b (s.cpu.onBus r.addr b d)
  have hh := o.halt
  refine ⟨r.final, ⟨f1, f0, f2, by simp [f4, q], ?_, by simp [f4, q], ?_, ?_, ?_, ?_, ?_⟩, hl⟩
  · rw [f4, f3]; simp only [Row.closeCpu_jammed, q, Cpu.onBus_jammed]
    cases h1 : r.final <;> cases h2 : r.halt <;> simp_all
  · intro hn; simp [f4, q, hn]
  · intro ht; simp [f4, q, ht]
  · rw [f4]; simp only [Row.closeCpu_irq]
    intro hn
    have hn := q.2.2.2.2.2.2.1 (show (s.cpu.onBus r.addr b d).trk.irq ≠ .serviced from hn)
    have g1 : ∀ k : Tracker, k ≠ .serviced → k.committedFrom ≠ .serviced := by
      intro k; cases k <;> simp [Tracker.committedFrom]
    have g2 : ∀ k : Tracker, k ≠ .serviced → sampleIrq i k ≠ .serviced := by
      intro k; cases i <;> cases k <;> simp [sampleIrq]
    have g3 : ∀ k : Tracker, k ≠ .serviced → k.promoted ≠ .serviced := by
      intro k; cases k <;> simp [Tracker.promoted]
    have g4 : sampleIrq i (if (r.final && k && !(r.effect b (s.cpu.onBus r.addr b d)).eng.imask) = true then
        (r.effect b (s.cpu.onBus r.addr b d)).trk.irq.committedFrom else (r.effect b (s.cpu.onBus r.addr b d)).trk.irq) ≠ .serviced := by
      refine g2 _ ?_; split
      · exact g1 _ hn
      · exact hn
    cases r.poll
    · exact g4
    · exact g3 _ g4
  · intro hb; rw [f4, Row.closeCpu_regs]; exact q.2.2.2.2.2.2.2 hb
  · intro h; rw [f3, h]; rfl

/-- After a cycle from within a sequence, the CPU is at a boundary or jammed exactly when the sequence has ended. -/
theorem TickLeaves.ended_iff {s t : State} {e f : Bool} (q : TickLeaves s t e f) (hp : s.cpu.eng.presync = false)
    (hj : s.cpu.eng.jammed = false) : (t.cpu.eng.presync || t.cpu.eng.jammed) = e := by
  rw [q.presync, q.jammed, hp, hj]
  have := q.ended
  cases e <;> cases f <;> simp_all

theorem TickLeaves.final_false {s t : State} {f : Bool} (q : TickLeaves s t false f) : f = false := by
  have := q.ended; cases f <;> simp_all

/-! ## Sequences -/

/-- From within a sequence, running it on is clocking to the next boundary. -/
theorem runSequence_eq_clocks {seq : Sequence} {k : Bool} {n : Nat} {s : State} (he : s.early = []) (hp : s.cpu.eng.presync = false)
    (hj : s.cpu.eng.jammed = false) (ht : 1 ≤ s.cpu.eng.t)
    (hc : currentSequence s.config s.cpu.eng.kind (decodeOpcode s.cpu.eng.opc) = some (seq, k)) :
    runSequence seq k n s = clocksToBoundary n s := by
  induction n generalizing s with
  | zero => rfl
  | succ n ih =>
    have ck : clock s = (tick seq k s).bind fun (s', _) => .next s' := by
      simp [clock, State.runEarly_nil he, clockNow, hp, hj, tickCurrent, hc]
    simp only [runSequence, clocksToBoundary, ck]
    cases hk : tick seq k s with
    | fault e => nomatch e
    | refused e => rfl
    | next r =>
      obtain ⟨u, e⟩ := r
      obtain ⟨f, q, -⟩ := tick_leaves (currentSequence_leaves hc) hk
      simp only [Res.bind_next, q.ended_iff hp hj]
      cases e with
      | true => rfl
      | false =>
        simp only [Bool.false_eq_true, if_false]
        have hf := q.final_false
        refine ih (by rw [q.early]; exact he) (by simp [q.presync, hf, hp]) (by simp [q.jammed, hj]) (by have := q.index hf; omega) ?_
        rw [(State.fixed_eq.mp q.fixed).1, q.kind, q.opc ht]; exact hc

/-- What a run of cycles from within a sequence leaves: it ends at a boundary or jammed, as seven cycles of a table do, or all its cycles
have run and it is still in the sequence. -/
theorem runSequence_leaves {seq : Sequence} {k : Bool} {n : Nat} {s t : State} (ho : RowsLeave seq) (hp : s.cpu.eng.presync = false)
    (hj : s.cpu.eng.jammed = false) (h : runSequence seq k n s = .next t) :
    t.fixed = s.fixed ∧ (s.MemInv → t.MemInv) ∧ (s.cpu.trk.irq ≠ .serviced → t.cpu.trk.irq ≠ .serviced) ∧
      (s.cpu.regs.p.Legal → t.cpu.regs.p.Legal) ∧ (t.cpu.eng.jammed = true → t.cpu.eng.presync = false) ∧
      (RowsEnd seq → 7 ≤ n + s.cpu.eng.t → 1 ≤ n → t.cpu.eng.presync = true ∨ t.cpu.eng.jammed = true) ∧
      (t.cpu.eng.presync = true ∨ t.cpu.eng.jammed = true ∨ t.cpu.eng.t = n + s.cpu.eng.t) ∧
      t.cpu.eng.kind = s.cpu.eng.kind ∧ (1 ≤ s.cpu.eng.t → t.cpu.eng.opc = s.cpu.eng.opc) := by
  induction n generalizing s with
  | zero => cases h; exact ⟨rfl, id, id, id, by simp [hj], fun _ _ h => absurd h (by decide), by simp, rfl, fun _ => rfl⟩
  | succ n ih =>
    simp only [runSequence, Res.bind_eq_next] at h
    obtain ⟨⟨u, e⟩, hk, h⟩ := h
    obtain ⟨f, q, ql⟩ := tick_leaves ho hk
    simp only at h
    cases e with
    | true =>
      cases h
      have hb : t.cpu.eng.presync = true ∨ t.cpu.eng.jammed = true := by rw [q.presync, q.jammed, hp, hj]; cases f <;> simp
      exact ⟨q.fixed, q.mem, q.irq, q.legal, by rw [q.presync, q.jammed, hp, hj]; cases f <;> simp, fun _ _ _ => hb, hb.imp_right .inl, q.kind, q.opc⟩
    | false =>
      have hf := q.final_false
      have hx := q.index hf
      obtain ⟨i1, i2, i3, i4, i5, i6, i7, i8, i9⟩ :=
        ih (s := u) (by simp [q.presync, hf, hp]) (by simp [q.jammed, hj]) (by simpa using h)
      refine ⟨i1.trans q.fixed, i2 ∘ q.mem, i3 ∘ q.irq, i4 ∘ q.legal, i5, fun hr h7 _ => i6 hr (by omega) ?_, i7.imp_right (.imp_right (by omega)),
        i8.trans q.kind, fun h1 => (i9 (by omega)).trans (q.opc h1)⟩
      have : s.cpu.eng.t < 6 := by
        rcases Nat.lt_or_ge s.cpu.eng.t 6 with h | h
        · exact h
        · cases ql hr h
      omega

/-! ## The first cycle after a boundary -/

/-- A read does not depend on the CPU (but for its data-bus latch), the lines or the driver. -/
theorem memRead_same {a : Word} {s : State} {c : Cpu} {b b' : Byte} {u u' : State} (h : memRead a s = .next (b, u))
    (hc : c.eng.databus = s.cpu.eng.databus) (h' : memRead a { s with cpu := c }.takeDriver = .next (b', u')) : b' = b := by
  have key : ∀ (l : Lines) (dr : List DriverCycle) (o : Option Byte) (u : State), s.cpuBus.read a s = .next (o, u) →
      s.cpuBus.read a { s with cpu := c, lines := l, driver := dr } = .next (o, { u with cpu := c, lines := l, driver := dr }) := by
    intro l dr o u h
    unfold Bus.read at h ⊢
    cases hd : s.cpuBus.device a with
    | none => rw [hd] at h; cases h; rfl
    | some d =>
      rw [hd] at h
      simp only at h ⊢
      cases d <;> simp only [Device.read] at h ⊢
      case ppuRegs =>
        split at h
        · cases h; simp only
        · cases h
        · cases h
      all_goals cases h
      all_goals rfl
  obtain ⟨l, dr, tk⟩ : ∃ l dr, ({ s with cpu := c } : State).takeDriver = { s with cpu := c, lines := l, driver := dr } := by
    unfold State.takeDriver; split <;> exact ⟨_, _, rfl⟩
  rw [tk] at h'
  unfold memRead at h h'
  split at h
  · next h1 =>
    rw [show ({ s with cpu := c, lines := l, driver := dr } : State).cpuBus = s.cpuBus from rfl, key l dr _ _ h1] at h'
    cases h; cases h'; rfl
  · next h1 =>
    rw [show ({ s with cpu := c, lines := l, driver := dr } : State).cpuBus = s.cpuBus from rfl, key l dr _ _ h1] at h'
    cases h; cases h'; exact hc
  · cases h
  · cases h

theorem Cpu.beginSequence_leaves (c : Cpu) :
    c.beginSequence.eng.presync = false ∧ c.beginSequence.eng.t = 0 ∧ c.beginSequence.eng.jammed = c.eng.jammed ∧
      c.beginSequence.regs = c.regs ∧ c.beginSequence.eng.databus = c.eng.databus ∧
      (c.trk.irq ≠ .serviced → c.beginSequence.trk.irq ≠ .serviced) := by
  unfold Cpu.beginSequence
  repeat' split
  all_goals simp

/-- A step from a boundary: either a sequence runs from its first cycle, and clocking does the same; or there is none, the opcode being
unknown or its fetch refused. -/
theorem step_from_boundary {s : State} (he : s.early = []) (hj : s.cpu.eng.jammed = false) (hp : s.cpu.eng.presync = true)
    (hh : s.cpu.trk.rst ≠ .serviced) :
    (∃ seq k, RowsLeave seq ∧ step s = runSequence seq k maxCycles { s with cpu := s.cpu.beginSequence } ∧
      clock s = ((tick seq k { s with cpu := s.cpu.beginSequence }).bind fun (s', _) => .next s') ∧
      ∀ u, tick seq k { s with cpu := s.cpu.beginSequence } = .next (u, false) →
        currentSequence u.config u.cpu.eng.kind (decodeOpcode u.cpu.eng.opc) = some (seq, k)) ∨
    ∃ e, step s = .refused e ∧ clock s = .refused e ∧
      ((s.config.unk = .refuse ∧ ∃ op d, op.toNat ∈ unkOpcodes ∧ e = .unkOpcode op (s.cpu.regs.pc + 1) d) ∨
        memRead s.cpu.regs.pc s = .refused e) := by
  have cl : clock s = tickFirst s := by simp [clock, State.runEarly_nil he, clockNow, hj, hp, hh]
  have st : step s = runFromBoundary s := by simp [step, State.runEarly_nil he, stepNow, hj, hp, hh]
  rw [cl, st]
  unfold tickFirst runFromBoundary
  dsimp only
  have entry : ∀ k, s.cpu.beginSequence.eng.kind ≠ .fetch →
      currentSequence s.config s.cpu.beginSequence.eng.kind .nop = some (entrySequence k, false) →
      ∀ u, tick (entrySequence k) false { s with cpu := s.cpu.beginSequence } = .next (u, false) →
        currentSequence u.config u.cpu.eng.kind (decodeOpcode u.cpu.eng.opc) = some (entrySequence k, false) := by
    intro k hk hc u hu
    obtain ⟨f, q, -⟩ := tick_leaves entry_keeps.leave hu
    rw [q.kind]
    cases hkk : s.cpu.beginSequence.eng.kind <;> simp_all [currentSequence]
  cases hkind : s.cpu.beginSequence.eng.kind with
  | rst => exact .inl ⟨_, _, entry_keeps.leave, rfl, by simp [tickCurrent, hkind, currentSequence],
      entry _ (by simp [hkind]) (by simp [hkind, currentSequence])⟩
  | nmi => exact .inl ⟨_, _, entry_keeps.leave, rfl, by simp [tickCurrent, hkind, currentSequence],
      entry _ (by simp [hkind]) (by simp [hkind, currentSequence])⟩
  | irq => exact .inl ⟨_, _, entry_keeps.leave, rfl, by simp [tickCurrent, hkind, currentSequence],
      entry _ (by simp [hkind]) (by simp [hkind, currentSequence])⟩
  | fetch =>
    have bs : s.cpu.beginSequence = s.cpu.start .fetch := by
      unfold Cpu.beginSequence at hkind ⊢
      repeat' split at hkind
      all_goals first | (simp at hkind; done) | simp [*]
    simp only [runNext, State.opcodeAt]
    cases ho : memRead s.cpu.regs.pc s with
    | fault e => nomatch e
    | refused e => exact .inr ⟨e, rfl, rfl, .inr rfl⟩
    | next r =>
      obtain ⟨b, u2⟩ := r
      simp only [Res.bind_next]
      cases hs : sequenceOf s.config (decodeOpcode b) with
      | none =>
        right
        obtain ⟨op, hop, hu⟩ := currentSequence_none (k := .fetch) (show currentSequence s.config .fetch _ = none from hs)
        obtain ⟨rfl, hb⟩ := decodeOpcode_unk hop
        have hr : u2.cpu.regs = s.cpu.regs := by
          obtain ⟨⟨d, hd⟩, -⟩ := memRead_kept ho
          rw [hd]; rfl
        refine ⟨.unkOpcode op (s.cpu.regs.pc + 1) u2.cpu.eng.dflt, ?_, ?_, .inl ⟨hu, op, _, hb, rfl⟩⟩
        · rw [hop]; simp only [exec, execUnk, hu, refuseUnk, ho, Res.bind_next, hr]
        · simp only [refuseUnk, ho, Res.bind_next, hr]
      | some sk =>
        obtain ⟨seq, k⟩ := sk
        left
        refine ⟨seq, k, sequenceOf_leaves hs, by rw [exec_eq_run s hs, bs], rfl, fun u hu => ?_⟩
        obtain ⟨f1, -, -, -, b', d, i, n, z, f4, f5⟩ := tick_cpu hu
        have q := sequenceOf_leaves hs 0 s.cpu.beginSequence
        have g := sequenceOf_fetches hs s.cpu.beginSequence
        obtain ⟨-, t0, -, hregs, hdb, -⟩ := s.cpu.beginSequence_leaves
        have t0 : ({ s with cpu := s.cpu.beginSequence } : State).cpu.eng.t = 0 := t0
        rw [t0] at f4 f5
        obtain ⟨u', hu'⟩ := f5 g.out
        rw [g.addr, show s.cpu.beginSequence.regs.pc = s.cpu.regs.pc by rw [hregs]] at hu'
        have hbb := memRead_same ho hdb hu'
        have hopc : u.cpu.eng.opc = b := by rw [f4]; simp [g.opc, hbb]
        have hkd : u.cpu.eng.kind = .fetch := by
          rw [f4, Row.closeCpu_kind, (q.effect _ _).2.1, Cpu.onBus_kind]; exact hkind
        rw [(State.fixed_eq.mp f1).1, hopc, hkd]
        exact hs

/-! ## Cycles without a bus access -/

theorem jamCycle_leaves {s t : State} (h : jamCycle s = .next t) (hj : s.cpu.eng.jammed = true) :
    t.fixed = s.fixed ∧ (s.MemInv → t.MemInv) ∧ (s.cpu.trk.irq ≠ .serviced → t.cpu.trk.irq ≠ .serviced) ∧
      (s.cpu.regs.p.Legal → t.cpu.regs.p.Legal) ∧
      (s.cpu.eng.presync = false → t.cpu.eng.jammed = true → t.cpu.eng.presync = false) ∧
      (t.cpu.eng.presync = true ∨ t.cpu.eng.jammed = true) := by
  unfold jamCycle at h
  have o := dots_kept h
  refine ⟨o.fixed.trans (by simp [State.fixed]), fun m => o.mem ?_, ?_, ?_, ?_, ?_⟩
  · have := m.takeDriver
    exact ⟨this.ram, this.vram, this.oam, this.pal, this.prg, this.chr, this.line, this.dot, this.ale⟩
  · rw [o.cpu]
    cases hq : s.cpu.trk.irq <;> cases hl : s.takeDriver.lines.irqN <;> simp [Cpu.pollReset, Cpu.commitReset, hq, hl, sampleIrq]
  · rw [o.cpu]; simp [Cpu.pollReset, Cpu.commitReset]
  · rw [o.cpu]; simp only [Cpu.pollReset]; intro hp; split <;> simp [Cpu.commitReset, hp]
  · rw [o.cpu]; simp only [Cpu.pollReset]; split <;> simp [Cpu.commitReset, hj]

theorem holdCycle_leaves {s t : State} (h : holdCycle s = .next t) :
    t.fixed = s.fixed ∧ (s.MemInv → t.MemInv) ∧ (s.cpu.trk.irq ≠ .serviced → t.cpu.trk.irq ≠ .serviced) ∧
      t.cpu.regs = s.cpu.regs ∧ t.cpu.eng = s.cpu.eng := by
  unfold holdCycle at h
  have o := dots_kept h
  refine ⟨o.fixed.trans (by simp [State.fixed]), fun m => o.mem ?_, ?_, by rw [o.cpu]; simp, by rw [o.cpu]; simp⟩
  · have := m.takeDriver
    exact ⟨this.ram, this.vram, this.oam, this.pal, this.prg, this.chr, this.line, this.dot, this.ale⟩
  · rw [o.cpu]
    cases hq : s.cpu.trk.irq <;> cases hl : s.takeDriver.lines.irqN <;> simp [hq, hl, sampleIrq]

/-! ## Refusals -/

/-- With devices that keep their contract, a cycle is refused only for an overlapping PPUDATA access. -/
theorem tick_refused {seq : Sequence} {k : Bool} {s : State} {e : Refusal} (hb : s.SoundBuses) (h : tick seq k s = .refused e) :
    e = .ppudataOverlap := by
  unfold tick at h
  simp only [Res.bind_eq_refused] at h
  have hc : s.takeDriver.cpuBus.without Device.misbehaves = true := by simpa using hb.cpu
  rcases h with h | ⟨⟨b, s1⟩, h1, h | ⟨u, -, h⟩⟩
  · unfold Row.access at h
    split at h
    · exact memRead_refused hc h
    · rw [Res.bind_eq_refused] at h
      rcases h with h | ⟨u, -, h⟩
      · exact memWrite_refused hc h
      · cases h
  · exfalso
    have hf : s1.fixed = s.fixed := by
      unfold Row.access at h1
      split at h1
      · simpa using (memRead_kept h1).2.1
      · rw [Res.bind_eq_next] at h1
        obtain ⟨u, h1, h2⟩ := h1
        cases h2
        simpa using (memWrite_kept h1).2.1
    have hv : ((seq s.cpu.eng.t s.cpu).finish k { s1 with cpu := (seq s.cpu.eng.t s.cpu).effect b s1.cpu }).videoBus.without
        Device.notVideo = true := by
      rw [Row.finish_videoBus]
      show s1.videoBus.without _ = true
      rw [(State.fixed_eq.mp hf).2.2.2.2.2]; exact hb.video
    obtain ⟨t, l, ht, -⟩ := dots_total (ls := s.nextDots) hv
    rw [ht] at h
    cases h
  · cases h

theorem State.SoundBuses.ofFixed {s t : State} (hf : t.fixed = s.fixed) (h : s.SoundBuses) : t.SoundBuses := by
  have f := State.fixed_eq.mp hf
  exact ⟨by rw [f.2.2.2.2.1]; exact h.cpu, by rw [f.2.2.2.2.2]; exact h.video⟩

theorem runSequence_refused {seq : Sequence} {k : Bool} {n : Nat} {s : State} {e : Refusal} (hb : s.SoundBuses)
    (h : runSequence seq k n s = .refused e) : e = .ppudataOverlap := by
  induction n generalizing s with
  | zero => cases h
  | succ n ih =>
    simp only [runSequence, Res.bind_eq_refused] at h
    rcases h with h | ⟨⟨u, en⟩, hk, h⟩
    · exact tick_refused hb h
    · cases en
      · exact ih (hb.ofFixed (tick_cpu hk).1) (by simpa using h)
      · cases h

/-- While the PPU keeps up, a run of cycles goes through. -/
theorem runSequence_running {seq : Sequence} {k : Bool} {n : Nat} {s : State} (h : s.Running) :
    ∃ t, runSequence seq k n s = .next t ∧ t.Running := by
  induction n generalizing s with
  | zero => exact ⟨s, rfl, h⟩
  | succ n ih =>
    obtain ⟨b, t, ht, hk⟩ := tick_running (seq := seq) (commits := k) h rfl
    simp only [runSequence, ht, Res.bind_next]
    split
    · exact ⟨t, rfl, hk.running⟩
    · exact ih hk.running

end Sys2Proof.Machine
end

