-- ==== Sys2Proof/Tests/Slice0.lean ====
section
/-! SUPPORT. The model's own tests: ill-formed instructions refused, words decoded, the spec's test vectors
(`95_test_vectors.md`), and a witness for each statement of Obligations.lean that has hypotheses. Expected values
come from the spec, never from the model. -/

namespace Sys2Proof.Machine

-- One theorem after another: elaborated all at once they ask for more threads than the memory limit has stacks for.
set_option Elab.async false

/-! ## WellFormed refuses -/

theorem test_lda_has_no_zpy : (Instr.lda (.mem .zpy)).wellFormed = false := by decide
theorem test_ldx_has_no_zpx : (Instr.ldx (.mem .zpx)).wellFormed = false := by decide
theorem test_ldy_has_no_absy : (Instr.ldy (.mem .absy)).wellFormed = false := by decide
theorem test_cpx_has_no_absx : (Instr.cpx (.mem .absx)).wellFormed = false := by decide
theorem test_cpy_has_no_zpx : (Instr.cpy (.mem .zpx)).wellFormed = false := by decide
theorem test_bit_has_no_indy : (Instr.bit .indy).wellFormed = false := by decide
theorem test_sta_has_no_zpy : (Instr.sta .zpy).wellFormed = false := by decide
theorem test_stx_has_no_absy : (Instr.stx .absy).wellFormed = false := by decide
theorem test_sty_has_no_absx : (Instr.sty .absx).wellFormed = false := by decide
theorem test_jam_needs_a_halting_opcode : (Instr.jam 0x03).wellFormed = false := by decide
theorem test_unk_needs_an_unknown_opcode : (Instr.unk 0x02).wellFormed = false := by decide
theorem test_jmp_needs_two_operand_bytes : (Encoded.mk (.jmp .abs) (.one 0x00)).wellFormed = false := by decide
theorem test_nop_takes_no_operand_byte : (Encoded.mk .nop (.one 0x00)).wellFormed = false := by decide

/-! ## Decoding: for every constructor one opcode, read from the encodings lines of files 41 to 45 -/

theorem test_decode_load_store_transfer : ([(0xA9, .lda .imm), (0xBE, .ldx (.mem .absy)), (0xB4, .ldy (.mem .zpx)), (0x81, .sta .indx),
    (0x96, .stx .zpy), (0x8C, .sty .abs), (0xAA, .tax), (0xA8, .tay), (0x8A, .txa), (0x98, .tya), (0xBA, .tsx), (0x9A, .txs)] :
    List (Byte × Instr)).all (fun p => decide (decodeOpcode p.1 = p.2)) = true := by decide

theorem test_decode_arith_logic : ([(0x71, .adc (.mem .indy)), (0xE5, .sbc (.mem .zp)), (0x2D, .and (.mem .abs)), (0x15, .ora (.mem .zpx)),
    (0x59, .eor (.mem .absy)), (0x24, .bit .zp), (0xDD, .cmp (.mem .absx)), (0xE0, .cpx .imm), (0xCC, .cpy (.mem .abs)), (0xF6, .inc .zpx),
    (0xCE, .dec .abs), (0xE8, .inx), (0xC8, .iny), (0xCA, .dex), (0x88, .dey)] :
    List (Byte × Instr)).all (fun p => decide (decodeOpcode p.1 = p.2)) = true := by decide

theorem test_decode_shift_rotate : ([(0x0A, .asl .acc), (0x46, .lsr (.mem .zp)), (0x3E, .rol (.mem .absx)), (0x6E, .ror (.mem .abs))] :
    List (Byte × Instr)).all (fun p => decide (decodeOpcode p.1 = p.2)) = true := by decide

theorem test_decode_control : ([(0x90, .bcc), (0xB0, .bcs), (0xF0, .beq), (0x30, .bmi), (0xD0, .bne), (0x10, .bpl), (0x50, .bvc),
    (0x70, .bvs), (0x6C, .jmp .ind), (0x20, .jsr), (0x60, .rts), (0x40, .rti), (0x00, .brk)] :
    List (Byte × Instr)).all (fun p => decide (decodeOpcode p.1 = p.2)) = true := by decide

theorem test_decode_stack_flags : ([(0x48, .pha), (0x08, .php), (0x68, .pla), (0x28, .plp), (0x18, .clc), (0x38, .sec), (0x58, .cli),
    (0x78, .sei), (0xB8, .clv), (0xD8, .cld), (0xF8, .sed), (0xEA, .nop), (0x92, .jam 0x92), (0xEB, .unk 0xEB)] :
    List (Byte × Instr)).all (fun p => decide (decodeOpcode p.1 = p.2)) = true := by decide

theorem test_decode_operands : decode [0x9D, 0x00, 0x02, 0xEA] = .ok (⟨.sta .absx, .two 0x00 0x02⟩, [0xEA]) := by rfl
theorem test_decode_empty : decode [] = .error .empty := by rfl
theorem test_decode_truncated : decode [0x4C, 0x05] = .error (.truncated (.jmp .abs)) := by rfl
theorem test_encode_jsr : encode ⟨.jsr, .two 0x10 0x80⟩ = some [0x20, 0x10, 0x80] := by rfl

/-- The bits of a table word: the first byte is the least significant. -/
theorem test_decode_table_word : decodeTableWord 24 0x80F0BD = some (.lda (.mem .absx)) := by decide +kernel

/-! ## Small states -/

/-- A, X, Y, S and the status byte, as the vectors give them. -/
structure RegBytes where
  a : Byte
  x : Byte
  y : Byte
  s : Byte
  p : Byte
deriving DecidableEq, Repr

def Regs.bytes (r : Regs) : RegBytes where
  a := r.a
  x := r.x
  y := r.y
  s := r.s
  p := r.p.pack

/-- A memory with these bytes from an address on. -/
def place (a : Nat) : List Byte → Memory → Memory
  | [], m => m
  | b :: rest, m => place (a + 1) rest (m.write a b)

/-- The three vectors of the vectors' start state. -/
def vectors : Memory := place 0x7FFA [0x00, 0xA0, 0x00, 0xB0, 0x00, 0x90] []

/-- The default start state of `95_test_vectors.md` section 0, with the code at PC. -/
def start (bcd : Bool) (pc : Word) (code : List Byte) (r : RegBytes) (ram : List (Nat × Byte)) : State :=
  { State.reset with
    config := { State.reset.config with bcd := bcd }
    cart := .nrom true true
    prg := place (pc.toNat - 0x8000) code vectors
    cpuBus := Bus.cpuConsole.set 0x8000 (some .prg)
    videoBus := Bus.videoConsole.set 0x0000 (some .chr)
    displaced := { prg := some none, chr := some none }
    ram := ram.foldl (fun m q => m.write (q.1 % 2048) q.2) []
    cpu :=
      { regs := { a := r.a, x := r.x, y := r.y, s := r.s, pc := pc, p := Flags.pulled r.p }
        eng := State.reset.cpu.eng
        trk := { irq := .clear, nmi := .clear, rst := .clear } } }

/-- The start state with A = X = Y = 0, S = $FD, P = $24 and PC = $8000. -/
def code (bytes : List Byte) : State := start false 0x8000 bytes ⟨0x00, 0x00, 0x00, 0xFD, 0x24⟩ []

/-- There is a next state, and it is so. -/
def after (r : Res State) (so : State → Bool) : Bool :=
  match r with
  | .next t => so t
  | .fault _ => false
  | .refused _ => false

/-- One step of `n` cycles (three dots each) ends with these registers and these bytes of RAM. -/
def ends (s : State) (n : Nat) (pc : Word) (r : RegBytes) (ram : List (Nat × Byte)) : Bool :=
  after (step s) fun t =>
    decide (t.ppu.dot = 3 * n) && decide (t.cpu.regs.pc = pc) && decide (t.cpu.regs.bytes = r) &&
      ram.all (fun q => decide (t.ram.read q.1 = q.2))

/-! ## Instructions: vectors V1 to V5 -/

theorem test_v1_6_lda :
    ends (start false 0x8000 [0xBD, 0xFF, 0xFF] ⟨0x00, 0x01, 0x00, 0xFD, 0x24⟩ [(0x00, 0x3C)])
      5 0x8003 ⟨0x3C, 0x01, 0x00, 0xFD, 0x24⟩ [] = true := by decide +kernel
theorem test_v1_7_lda :
    ends (start false 0x8000 [0xB1, 0xFF] ⟨0x00, 0x00, 0x10, 0xFD, 0x24⟩ [(0xFF, 0xF8), (0x00, 0x02), (0x208, 0x99), (0x308, 0x00)])
      6 0x8002 ⟨0x00, 0x00, 0x10, 0xFD, 0x26⟩ [] = true := by decide +kernel
theorem test_v1_9_ldx :
    ends (start false 0x8000 [0xB6, 0x10] ⟨0x00, 0x00, 0xF8, 0xFD, 0x24⟩ [(0x08, 0x00)])
      4 0x8002 ⟨0x00, 0x00, 0xF8, 0xFD, 0x26⟩ [] = true := by decide +kernel
theorem test_v1_10_ldy :
    ends (start false 0x8000 [0xBC, 0xFF, 0x02] ⟨0x00, 0x01, 0x00, 0xFD, 0x24⟩ [(0x300, 0x12)])
      5 0x8003 ⟨0x00, 0x01, 0x12, 0xFD, 0x24⟩ [] = true := by decide +kernel
theorem test_v1_15_sta :
    ends (start false 0x8000 [0x99, 0xFF, 0x02] ⟨0x03, 0x00, 0x01, 0xFD, 0x24⟩ [])
      5 0x8003 ⟨0x03, 0x00, 0x01, 0xFD, 0x24⟩ [(0x300, 0x03)] = true := by decide +kernel
theorem test_v1_17_sta :
    ends (start false 0x8000 [0x81, 0x10] ⟨0x04, 0x02, 0x00, 0xFD, 0x24⟩ [(0x12, 0x00), (0x13, 0x04)])
      6 0x8002 ⟨0x04, 0x02, 0x00, 0xFD, 0x24⟩ [(0x400, 0x04)] = true := by decide +kernel
theorem test_v1_18_stx :
    ends (start false 0x8000 [0x96, 0x10] ⟨0x00, 0x33, 0xF5, 0xFD, 0x24⟩ [])
      4 0x8002 ⟨0x00, 0x33, 0xF5, 0xFD, 0x24⟩ [(0x05, 0x33)] = true := by decide +kernel
theorem test_v1_19_sty :
    ends (start false 0x8000 [0x8C, 0x34, 0x02] ⟨0x00, 0x00, 0x44, 0xFD, 0x24⟩ [])
      4 0x8003 ⟨0x00, 0x00, 0x44, 0xFD, 0x24⟩ [(0x234, 0x44)] = true := by decide +kernel
theorem test_v1_20_tax :
    ends (start false 0x8000 [0xAA] ⟨0x80, 0x00, 0x00, 0xFD, 0x24⟩ [])
      2 0x8001 ⟨0x80, 0x80, 0x00, 0xFD, 0xA4⟩ [] = true := by decide +kernel
theorem test_v1_21_tay :
    ends (start false 0x8000 [0xA8] ⟨0x00, 0x00, 0x05, 0xFD, 0x24⟩ [])
      2 0x8001 ⟨0x00, 0x00, 0x00, 0xFD, 0x26⟩ [] = true := by decide +kernel
theorem test_v1_22_txa :
    ends (start false 0x8000 [0x8A] ⟨0x00, 0xFE, 0x00, 0xFD, 0x24⟩ [])
      2 0x8001 ⟨0xFE, 0xFE, 0x00, 0xFD, 0xA4⟩ [] = true := by decide +kernel
theorem test_v1_23_tya :
    ends (start false 0x8000 [0x98] ⟨0x00, 0x00, 0x01, 0xFD, 0x24⟩ [])
      2 0x8001 ⟨0x01, 0x00, 0x01, 0xFD, 0x24⟩ [] = true := by decide +kernel
theorem test_v1_24_tsx :
    ends (start false 0x8000 [0xBA] ⟨0x00, 0x00, 0x00, 0x80, 0x24⟩ [])
      2 0x8001 ⟨0x00, 0x80, 0x00, 0x80, 0xA4⟩ [] = true := by decide +kernel
theorem test_v1_25_txs :
    ends (start false 0x8000 [0x9A] ⟨0x00, 0x00, 0x00, 0xFD, 0x24⟩ [])
      2 0x8001 ⟨0x00, 0x00, 0x00, 0x00, 0x24⟩ [] = true := by decide +kernel
theorem test_v2_5_adc :
    ends (start false 0x8000 [0x69, 0x00] ⟨0x7F, 0x00, 0x00, 0xFD, 0x25⟩ [])
      2 0x8002 ⟨0x80, 0x00, 0x00, 0xFD, 0xE4⟩ [] = true := by decide +kernel
theorem test_v2_7_sbc :
    ends (start false 0x8000 [0xE9, 0xB0] ⟨0x50, 0x00, 0x00, 0xFD, 0x25⟩ [])
      2 0x8002 ⟨0xA0, 0x00, 0x00, 0xFD, 0xE4⟩ [] = true := by decide +kernel
theorem test_v2_11_and :
    ends (start false 0x8000 [0x29, 0x0F] ⟨0xF0, 0x00, 0x00, 0xFD, 0x24⟩ [])
      2 0x8002 ⟨0x00, 0x00, 0x00, 0xFD, 0x26⟩ [] = true := by decide +kernel
theorem test_v2_12_ora :
    ends (start false 0x8000 [0x09, 0x80] ⟨0x01, 0x00, 0x00, 0xFD, 0x24⟩ [])
      2 0x8002 ⟨0x81, 0x00, 0x00, 0xFD, 0xA4⟩ [] = true := by decide +kernel
theorem test_v2_13_eor :
    ends (start false 0x8000 [0x49, 0xFF] ⟨0xFF, 0x00, 0x00, 0xFD, 0x24⟩ [])
      2 0x8002 ⟨0x00, 0x00, 0x00, 0xFD, 0x26⟩ [] = true := by decide +kernel
theorem test_v2_14_bit :
    ends (start false 0x8000 [0x24, 0x10] ⟨0x00, 0x00, 0x00, 0xFD, 0x24⟩ [(0x10, 0xC0)])
      3 0x8002 ⟨0x00, 0x00, 0x00, 0xFD, 0xE6⟩ [] = true := by decide +kernel
theorem test_v2_15_bit :
    ends (start false 0x8000 [0x2C, 0x10, 0x00] ⟨0x01, 0x00, 0x00, 0xFD, 0xE4⟩ [(0x10, 0x01)])
      4 0x8003 ⟨0x01, 0x00, 0x00, 0xFD, 0x24⟩ [] = true := by decide +kernel
theorem test_v2_18_cmp :
    ends (start false 0x8000 [0xC9, 0x41] ⟨0x40, 0x00, 0x00, 0xFD, 0x24⟩ [])
      2 0x8002 ⟨0x40, 0x00, 0x00, 0xFD, 0xA4⟩ [] = true := by decide +kernel
theorem test_v2_20_cmp :
    ends (start false 0x8000 [0xC9, 0x00] ⟨0xFF, 0x00, 0x00, 0xFD, 0x24⟩ [])
      2 0x8002 ⟨0xFF, 0x00, 0x00, 0xFD, 0xA5⟩ [] = true := by decide +kernel
theorem test_v2_21_cpx :
    ends (start false 0x8000 [0xE0, 0x10] ⟨0x00, 0x20, 0x00, 0xFD, 0x24⟩ [])
      2 0x8002 ⟨0x00, 0x20, 0x00, 0xFD, 0x25⟩ [] = true := by decide +kernel
theorem test_v2_22_cpy :
    ends (start false 0x8000 [0xC4, 0x10] ⟨0x00, 0x00, 0x00, 0xFD, 0x24⟩ [(0x10, 0x01)])
      3 0x8002 ⟨0x00, 0x00, 0x00, 0xFD, 0xA4⟩ [] = true := by decide +kernel
theorem test_v2_31_adc :
    ends (start true 0x8000 [0x69, 0x46] ⟨0x58, 0x00, 0x00, 0xFD, 0x2D⟩ [])
      2 0x8002 ⟨0x05, 0x00, 0x00, 0xFD, 0xED⟩ [] = true := by decide +kernel
theorem test_v2_35_sbc :
    ends (start true 0x8000 [0xE9, 0x01] ⟨0x00, 0x00, 0x00, 0xFD, 0x2D⟩ [])
      2 0x8002 ⟨0x99, 0x00, 0x00, 0xFD, 0xAC⟩ [] = true := by decide +kernel
theorem test_v2_39_inc :
    ends (start false 0x8000 [0xFE, 0xF0, 0x02] ⟨0x00, 0x20, 0x00, 0xFD, 0x24⟩ [(0x310, 0x7F)])
      7 0x8003 ⟨0x00, 0x20, 0x00, 0xFD, 0xA4⟩ [(0x310, 0x80)] = true := by decide +kernel
theorem test_v2_38_dec :
    ends (start false 0x8000 [0xC6, 0x10] ⟨0x00, 0x00, 0x00, 0xFD, 0x24⟩ [(0x10, 0x00)])
      5 0x8002 ⟨0x00, 0x00, 0x00, 0xFD, 0xA4⟩ [(0x10, 0xFF)] = true := by decide +kernel
theorem test_v2_41_inx :
    ends (start false 0x8000 [0xE8] ⟨0x00, 0xFF, 0x00, 0xFD, 0x24⟩ [])
      2 0x8001 ⟨0x00, 0x00, 0x00, 0xFD, 0x26⟩ [] = true := by decide +kernel
theorem test_v2_42_iny :
    ends (start false 0x8000 [0xC8] ⟨0x00, 0x00, 0x7F, 0xFD, 0x24⟩ [])
      2 0x8001 ⟨0x00, 0x00, 0x80, 0xFD, 0xA4⟩ [] = true := by decide +kernel
theorem test_v2_43_dex :
    ends (start false 0x8000 [0xCA] ⟨0x00, 0x00, 0x00, 0xFD, 0x24⟩ [])
      2 0x8001 ⟨0x00, 0xFF, 0x00, 0xFD, 0xA4⟩ [] = true := by decide +kernel
theorem test_v2_44_dey :
    ends (start false 0x8000 [0x88] ⟨0x00, 0x00, 0x01, 0xFD, 0x24⟩ [])
      2 0x8001 ⟨0x00, 0x00, 0x00, 0xFD, 0x26⟩ [] = true := by decide +kernel
theorem test_v3_1_asl :
    ends (start false 0x8000 [0x0A] ⟨0x80, 0x00, 0x00, 0xFD, 0x24⟩ [])
      2 0x8001 ⟨0x00, 0x00, 0x00, 0xFD, 0x27⟩ [] = true := by decide +kernel
theorem test_v3_13_asl :
    ends (start false 0x8000 [0x1E, 0x00, 0x02] ⟨0x00, 0x01, 0x00, 0xFD, 0x24⟩ [(0x201, 0x01)])
      7 0x8003 ⟨0x00, 0x01, 0x00, 0xFD, 0x24⟩ [(0x201, 0x02)] = true := by decide +kernel
theorem test_v3_4_lsr :
    ends (start false 0x8000 [0x4A] ⟨0x80, 0x00, 0x00, 0xFD, 0xA4⟩ [])
      2 0x8001 ⟨0x40, 0x00, 0x00, 0xFD, 0x24⟩ [] = true := by decide +kernel
theorem test_v3_10_lsr :
    ends (start false 0x8000 [0x56, 0x10] ⟨0x00, 0x01, 0x00, 0xFD, 0x24⟩ [(0x11, 0x03)])
      6 0x8002 ⟨0x00, 0x01, 0x00, 0xFD, 0x25⟩ [(0x11, 0x01)] = true := by decide +kernel
theorem test_v3_5_rol :
    ends (start false 0x8000 [0x2A] ⟨0x80, 0x00, 0x00, 0xFD, 0x25⟩ [])
      2 0x8001 ⟨0x01, 0x00, 0x00, 0xFD, 0x25⟩ [] = true := by decide +kernel
theorem test_v3_11_rol :
    ends (start false 0x8000 [0x2E, 0x00, 0x02] ⟨0x00, 0x00, 0x00, 0xFD, 0x25⟩ [(0x200, 0x7F)])
      6 0x8003 ⟨0x00, 0x00, 0x00, 0xFD, 0xA4⟩ [(0x200, 0xFF)] = true := by decide +kernel
theorem test_v3_7_ror :
    ends (start false 0x8000 [0x6A] ⟨0x01, 0x00, 0x00, 0xFD, 0x25⟩ [])
      2 0x8001 ⟨0x80, 0x00, 0x00, 0xFD, 0xA5⟩ [] = true := by decide +kernel
theorem test_v3_12_ror :
    ends (start false 0x8000 [0x7E, 0xFF, 0x02] ⟨0x00, 0x01, 0x00, 0xFD, 0x25⟩ [(0x300, 0x00)])
      7 0x8003 ⟨0x00, 0x01, 0x00, 0xFD, 0xA4⟩ [(0x300, 0x80)] = true := by decide +kernel
theorem test_v4_2_bne :
    ends (start false 0x8000 [0xD0, 0x10] ⟨0x00, 0x00, 0x00, 0xFD, 0x24⟩ [])
      3 0x8012 ⟨0x00, 0x00, 0x00, 0xFD, 0x24⟩ [] = true := by decide +kernel
theorem test_v4_3_bne :
    ends (start false 0x80F0 [0xD0, 0x10] ⟨0x00, 0x00, 0x00, 0xFD, 0x24⟩ [])
      4 0x8102 ⟨0x00, 0x00, 0x00, 0xFD, 0x24⟩ [] = true := by decide +kernel
theorem test_v4_4_beq :
    ends (start false 0x8010 [0xF0, 0x80] ⟨0x00, 0x00, 0x00, 0xFD, 0x26⟩ [])
      4 0x7F92 ⟨0x00, 0x00, 0x00, 0xFD, 0x26⟩ [] = true := by decide +kernel
theorem test_v4_5_bpl :
    ends (start false 0x8000 [0x10, 0xFE] ⟨0x00, 0x00, 0x00, 0xFD, 0x24⟩ [])
      3 0x8000 ⟨0x00, 0x00, 0x00, 0xFD, 0x24⟩ [] = true := by decide +kernel
theorem test_v4_6_bmi :
    ends (start false 0x8000 [0x30, 0x02] ⟨0x00, 0x00, 0x00, 0xFD, 0xA4⟩ [])
      3 0x8004 ⟨0x00, 0x00, 0x00, 0xFD, 0xA4⟩ [] = true := by decide +kernel
theorem test_v4_7_bcc :
    ends (start false 0x8000 [0x90, 0x02] ⟨0x00, 0x00, 0x00, 0xFD, 0x24⟩ [])
      3 0x8004 ⟨0x00, 0x00, 0x00, 0xFD, 0x24⟩ [] = true := by decide +kernel
theorem test_v4_8_bcs :
    ends (start false 0x8000 [0xB0, 0x02] ⟨0x00, 0x00, 0x00, 0xFD, 0x24⟩ [])
      2 0x8002 ⟨0x00, 0x00, 0x00, 0xFD, 0x24⟩ [] = true := by decide +kernel
theorem test_v4_9_bvc :
    ends (start false 0x8000 [0x50, 0x02] ⟨0x00, 0x00, 0x00, 0xFD, 0x24⟩ [])
      3 0x8004 ⟨0x00, 0x00, 0x00, 0xFD, 0x24⟩ [] = true := by decide +kernel
theorem test_v4_10_bvs :
    ends (start false 0x8000 [0x70, 0x02] ⟨0x00, 0x00, 0x00, 0xFD, 0x64⟩ [])
      3 0x8004 ⟨0x00, 0x00, 0x00, 0xFD, 0x64⟩ [] = true := by decide +kernel
theorem test_v4_11_jmp :
    ends (start false 0x8000 [0x4C, 0x34, 0x92] ⟨0x00, 0x00, 0x00, 0xFD, 0x24⟩ [])
      3 0x9234 ⟨0x00, 0x00, 0x00, 0xFD, 0x24⟩ [] = true := by decide +kernel
theorem test_v4_15_jsr :
    ends (start false 0x8000 [0x20, 0x00, 0x90] ⟨0x00, 0x00, 0x00, 0x00, 0x24⟩ [])
      6 0x9000 ⟨0x00, 0x00, 0x00, 0xFE, 0x24⟩ [(0x100, 0x80), (0x1FF, 0x02)] = true := by decide +kernel
theorem test_v4_17_rts :
    ends (start false 0x8000 [0x60] ⟨0x00, 0x00, 0x00, 0xFE, 0x24⟩ [(0x1FF, 0xFF), (0x100, 0x8F)])
      6 0x9000 ⟨0x00, 0x00, 0x00, 0x00, 0x24⟩ [] = true := by decide +kernel
theorem test_v4_18_rti :
    ends (start false 0x8000 [0x40] ⟨0x00, 0x00, 0x00, 0xFA, 0x24⟩ [(0x1FB, 0xFF), (0x1FC, 0x34), (0x1FD, 0x12)])
      6 0x1234 ⟨0x00, 0x00, 0x00, 0xFD, 0xEF⟩ [] = true := by decide +kernel
theorem test_v4_20_brk :
    ends (start false 0x8000 [0x00, 0x42] ⟨0x00, 0x00, 0x00, 0x01, 0x20⟩ [])
      7 0x9000 ⟨0x00, 0x00, 0x00, 0xFE, 0x24⟩ [(0x101, 0x80), (0x100, 0x02), (0x1FF, 0x30)] = true := by decide +kernel
theorem test_v5_2_pha :
    ends (start false 0x8000 [0x48] ⟨0x9C, 0x00, 0x00, 0x00, 0x24⟩ [])
      3 0x8001 ⟨0x9C, 0x00, 0x00, 0xFF, 0x24⟩ [(0x100, 0x9C)] = true := by decide +kernel
theorem test_v5_3_php :
    ends (start false 0x8000 [0x08] ⟨0x00, 0x00, 0x00, 0xFD, 0xE3⟩ [])
      3 0x8001 ⟨0x00, 0x00, 0x00, 0xFC, 0xE3⟩ [(0x1FD, 0xF3)] = true := by decide +kernel
theorem test_v5_5_pla :
    ends (start false 0x8000 [0x68] ⟨0x00, 0x00, 0x00, 0xFF, 0x24⟩ [(0x100, 0x80)])
      4 0x8001 ⟨0x80, 0x00, 0x00, 0x00, 0xA4⟩ [] = true := by decide +kernel
theorem test_v5_7_plp :
    ends (start false 0x8000 [0x28] ⟨0x00, 0x00, 0x00, 0xFC, 0xFF⟩ [(0x1FD, 0x00)])
      4 0x8001 ⟨0x00, 0x00, 0x00, 0xFD, 0x20⟩ [] = true := by decide +kernel
theorem test_v5_8_clc :
    ends (start false 0x8000 [0x18] ⟨0x00, 0x00, 0x00, 0xFD, 0xFF⟩ [])
      2 0x8001 ⟨0x00, 0x00, 0x00, 0xFD, 0xEE⟩ [] = true := by decide +kernel
theorem test_v5_9_sec :
    ends (start false 0x8000 [0x38] ⟨0x00, 0x00, 0x00, 0xFD, 0x00⟩ [])
      2 0x8001 ⟨0x00, 0x00, 0x00, 0xFD, 0x21⟩ [] = true := by decide +kernel
theorem test_v5_10_cli :
    ends (start false 0x8000 [0x58] ⟨0x00, 0x00, 0x00, 0xFD, 0xFF⟩ [])
      2 0x8001 ⟨0x00, 0x00, 0x00, 0xFD, 0xEB⟩ [] = true := by decide +kernel
theorem test_v5_11_sei :
    ends (start false 0x8000 [0x78] ⟨0x00, 0x00, 0x00, 0xFD, 0x00⟩ [])
      2 0x8001 ⟨0x00, 0x00, 0x00, 0xFD, 0x24⟩ [] = true := by decide +kernel
theorem test_v5_12_clv :
    ends (start false 0x8000 [0xB8] ⟨0x00, 0x00, 0x00, 0xFD, 0xFF⟩ [])
      2 0x8001 ⟨0x00, 0x00, 0x00, 0xFD, 0xAF⟩ [] = true := by decide +kernel
theorem test_v5_13_cld :
    ends (start false 0x8000 [0xD8] ⟨0x00, 0x00, 0x00, 0xFD, 0xFF⟩ [])
      2 0x8001 ⟨0x00, 0x00, 0x00, 0xFD, 0xE7⟩ [] = true := by decide +kernel
theorem test_v5_14_sed :
    ends (start false 0x8000 [0xF8] ⟨0x00, 0x00, 0x00, 0xFD, 0x00⟩ [])
      2 0x8001 ⟨0x00, 0x00, 0x00, 0xFD, 0x28⟩ [] = true := by decide +kernel
theorem test_v5_15_nop :
    ends (start false 0x8000 [0xEA] ⟨0x00, 0x00, 0x00, 0xFD, 0x00⟩ [])
      2 0x8001 ⟨0x00, 0x00, 0x00, 0xFD, 0x20⟩ [] = true := by decide +kernel

/-! ## Halting, unknown opcodes, open bus (V5.16-V5.19, V6) -/

theorem test_v5_16_jam : ends (code [0x02]) 2 0x8001 ⟨0x00, 0x00, 0x00, 0xFD, 0x24⟩ [] = true := by decide +kernel
theorem test_v5_19_unk : step (code [0xEB]) = .refused (.unkOpcode 0xEB 0x8001 false) := by rfl

theorem test_v6_1_open_bus : after (step (code [0xAD, 0x00, 0x50])) (fun t => decide (t.cpu.regs.a = 0x50) && t.cpu.eng.dflt) = true := by
  decide +kernel
theorem test_v6_3_open_bus : after (step (code [0xEE, 0x00, 0x40])) (fun t =>
    t.cpu.eng.dflt && decide (t.cpu.eng.databus = 0x41) && decide (t.cpu.regs.p.pack = 0x24)) = true := by decide +kernel

/-! ## The source's examples (S4, S6, V7, V8) -/

theorem test_s4_indirect_jump_page_bug :
    ends ({ code [0x6C, 0xFF, 0x80] with prg := (place 0x0000 [0x6C, 0xFF, 0x80] vectors).write 0x0100 0x56 })
      5 0x6C00 ⟨0x00, 0x00, 0x00, 0xFD, 0x24⟩ [] = true := by decide +kernel

/-- The PPU after a CPU write to register `r`. -/
def ppuWrite (p : Ppu) (r : BitVec 3) (d : Byte) (so : Ppu → Bool) : Bool :=
  match p.regWrite r d with
  | .next q => so q
  | .fault _ => false
  | .refused _ => false

def ppuRead (p : Ppu) (r : BitVec 3) (so : Byte → Ppu → Bool) : Bool :=
  match p.regRead 0xFF r with
  | .next (v, q) => so v q
  | .fault _ => false
  | .refused _ => false

/-- The start state of V7: the reset gate open, everything else zero. -/
def gateOpen : Ppu := { State.reset.ppu with prst := .clear }

theorem test_v7_1_ppuctrl : ppuWrite gateOpen 0 0xFF (fun p => decide (p.ctrl.pack = 0xBF) && decide (p.t = 0x0C00)) = true := by
  decide +kernel
theorem test_v7_2_ppuctrl_gated : ppuWrite State.reset.ppu 0 0xFF (fun p =>
    decide (p.ctrl.pack = 0x00) && decide (p.t = 0) && decide (p.iolatch = 0xFF)) = true := by decide +kernel
theorem test_v7_4_ppustatus : ppuRead { gateOpen with status := { v := true, s := false, o := false }, w := true, iolatch := 0x07, line := 250, dot := 10 } 2
    (fun v p => decide (v = 0x87) && !p.status.v && !p.w) = true := by decide +kernel
theorem test_v7_5_ppuscroll : ppuWrite gateOpen 5 0x7D (fun p => decide (p.t = 0x000F) && decide (p.x = 5) && p.w) = true := by decide +kernel
theorem test_v7_6_ppuscroll : ppuWrite { gateOpen with t := 0x000F, x := 5, w := true } 5 0x5E
    (fun p => decide (p.t = 0x616F) && decide (p.x = 5) && !p.w) = true := by decide +kernel
theorem test_v7_8_ppuaddr : ppuWrite { gateOpen with t := 0x7FFF } 6 0xFF (fun p => decide (p.t = 0x3FFF) && p.w) = true := by decide +kernel
theorem test_v7_16_oamdata : ppuWrite { gateOpen with mask := { gateOpen.mask with b := true }, line := 10, oamaddr := 0xFE } 4 0x12
    (fun p => decide (p.oam = []) && decide (p.oamaddr = 0x02)) = true := by decide +kernel
theorem test_v7_12_palette_write : after (dots [true, true] { code [] with ppu := { gateOpen with v := 0x3FFF, pend := .write, pdata := 0x01 } })
    (fun t => decide (t.ppu.pal.read 27 = 0x01) && decide (t.ppu.v = 0x4000) && decide (t.ppu.pend = .none)) = true := by decide +kernel
theorem test_v7_11_buffer_under_palette : after (dots [true, true] { code [] with
    ppu := { gateOpen with v := 0x3F01, pend := .read }, vram := place 0x701 [0x66] [] })
    (fun t => decide (t.ppu.rbuf = 0x66) && decide (t.ppu.v = 0x3F02)) = true := by decide +kernel

theorem test_s6_mask_palette : [0x0F, 0x10, 0x11, 0x14, 0x1C, 0x1F].map (fun a => (maskPalette (BitVec.ofNat 5 a)).toNat)
    = [15, 0, 16, 4, 12, 27] := by decide

theorem test_v8_1_vblank : after (dots [true] { code [] with ppu := { gateOpen with line := 241, dot := 1 } }) (fun t => t.ppu.status.v) = true := by
  decide +kernel
theorem test_v8_2_prerender : after (dots [true] { code [] with
    ppu := { State.reset.ppu with line := 261, dot := 1, status := { v := true, s := true, o := true } } })
    (fun t => decide (t.ppu.status = { v := false, s := false, o := false }) && decide (t.ppu.prst = .clear)) = true := by decide +kernel
theorem test_v8_4_odd_frame : after (dots [true] { code [] with
    ppu := { gateOpen with line := 261, dot := 339, odd := true, mask := { gateOpen.mask with b := true } } })
    (fun t => decide (t.ppu.line = 0) && decide (t.ppu.dot = 0) && !t.ppu.odd) = true := by decide +kernel

/-! ## Buses (S2, S3, V7's mirroring table) -/

theorem test_s2_partitions : [0x1FFF, 0x2000, 0x3FFF, 0x4000, 0x7FFF, 0x8000].map (fun a => (code []).cpuBus.device (BitVec.ofNat 16 a))
    = [some .ram, some .ppuRegs, some .ppuRegs, none, none, some .prg] := by decide
theorem test_s2_out_of_range : (code []).videoBus.device 0x4000 = none := by decide
theorem test_s3_dma_clamps : ((code []).cpuBus.dma 0xFFF0 100 (code [])).length = 16 := by decide
theorem test_s3_dma_mirror : ((code []).cpuBus.dma 0x0F00 512 (code [])).length = 256 := by decide +kernel
theorem test_horizontal_mirroring : [0x2000, 0x2400, 0x2800, 0x2C00, 0x3EFF].map (fun a => vramIndex .horizontal (BitVec.ofNat 16 a))
    = [0x000, 0x000, 0x400, 0x400, 0x6FF] := by decide
theorem test_bad_bus : Bus.new 17 1 [] = .refused .badBusConstruction := by rfl
theorem test_unimplemented_mapper : (code []).insertCartridge (.unimplemented 4) = .refused (.unimplementedMapper 4) := by rfl

/-- R98: the bindings that stood before the cartridge come back. -/
theorem test_disconnect_swaps_back : after (State.insertCartridge (.nrom true [] (.rom []) .vertical)
    { State.reset with videoBus := Bus.videoConsole.set 0x0000 (some .vram) })
    (fun t => decide (t.videoBus.device 0x0000 = some .chr) && decide (t.removeCartridge.videoBus.device 0x0000 = some .vram) &&
      decide (t.removeCartridge.cpuBus.device 0x8000 = none)) = true := by decide +kernel

/-- R30 and D39: the windows of the CPU snapshot, and the hidden fields of the PPU's. -/
theorem test_snapshot_windows : ((code [0xEA]).cpuSnapshot.ram.length, (code [0xEA]).cpuSnapshot.cart.prg.length,
    (code [0xEA]).cpuSnapshot.cart.chr.length) = (2048, 32768, 8192) := by
  simp [State.cpuSnapshot, State.cartSnapshot, Memory.slice, code, start, CartKind.prgBytes, CartKind.chrBytes, prgSize]
theorem test_snapshot_hidden_fields : ({ code [] with ppu := { gateOpen with pdata := 0x12, iolatch := 0x34, vsupp := true } } : State).ppuSnapshot.pdata
    = 0x12 := by rfl

/-! ## Interrupts and reset (S5, V9) -/

/-- V9.2: an NMI low from the fourth cycle of a BRK takes its vector; the status it pushed keeps B. -/
theorem test_v9_2_hijack : after (step { start false 0x8000 [0x00, 0x42] ⟨0x00, 0x00, 0x00, 0xFD, 0x20⟩ [] with
    driver := [{}, {}, {}, { nmiExtN := false }] })
    (fun t => decide (t.cpu.regs.pc = 0xA000) && decide (t.ram.read 0x1FB = 0x30) && decide (t.cpu.trk.nmi = .serviced)) = true := by
  decide +kernel

/-- V9.3: one cycle later it does not. -/
theorem test_v9_3_no_hijack : after (step { start false 0x8000 [0x00, 0x42] ⟨0x00, 0x00, 0x00, 0xFD, 0x20⟩ [] with
    driver := [{}, {}, {}, {}, { nmiExtN := false }] })
    (fun t => decide (t.cpu.regs.pc = 0x9000) && decide (t.cpu.trk.nmi = .detected)) = true := by decide +kernel

/-- S5: an IRQ low at a NOP's poll commits at its end, one cycle later it is only detected. -/
theorem test_s5_at_the_poll : after (step { start false 0x8000 [0xEA] ⟨0x00, 0x00, 0x00, 0xFD, 0x20⟩ [] with driver := [{ irqN := false }] })
    (fun t => decide (t.cpu.trk.irq = .committed)) = true := by decide +kernel
theorem test_s5_after_the_poll : after (step { start false 0x8000 [0xEA] ⟨0x00, 0x00, 0x00, 0xFD, 0x20⟩ [] with
    driver := [{}, { irqN := false }] }) (fun t => decide (t.cpu.trk.irq = .detected)) = true := by decide +kernel

/-- V9.5: with the reset line low the sequence ends in the hold. -/
theorem test_v9_5_reset_held : after (step { code [0xEA] with
    cpu := { (code [0xEA]).cpu with trk := { irq := .clear, nmi := .clear, rst := .committed } }, driver := [{ rstN := false }] })
    (fun t => decide (t.cpu.regs.pc = 0xB000) && decide (t.cpu.regs.s = 0xFA) && decide (t.cpu.trk.rst = .serviced) &&
      decide (t.ram = [])) = true := by decide +kernel

/-- P_ORDER and P_LINES: a driver that begins with dots, and one that moves the reset line between the dots of one cycle. -/
theorem test_dots_before_the_first_cycle : after (step { code [0xEA] with early := [true, true, true] }) (fun t =>
    decide (t.ppu.dot = 9) && decide (t.cpu.regs.pc = 0x8001)) = true := by decide +kernel
theorem test_reset_line_moves_between_dots : after (clock { code [0xEA] with driver := [{ dots := [true, false, true] }] }) (fun t =>
    decide (t.ppu.prst = .committed) && t.lines.rstN && decide (t.cpu.trk.rst = .clear)) = true := by decide +kernel

/-- The start of the programs: the first seven cycles after power-up. -/
theorem test_power_up_runs_reset : after (step { code [] with cpu := State.reset.cpu }) (fun t =>
    decide (t.cpu.regs.pc = 0xB000) && decide (t.cpu.regs.bytes = ⟨0x00, 0x00, 0x00, 0xFD, 0x24⟩) && decide (t.ppu.dot = 21)) = true := by
  decide +kernel

/-- A word placed by the host runs as the first instruction after reset. -/
theorem test_placed_word_runs : after (step (State.reset.withFetchWord 16 0x80A9)) (fun t => decide (t.cpu.regs.a = 0x80)) = true := by
  decide +kernel

/-! ## Witnesses

For each statement with hypotheses, a state and operands that meet them; for a statement of several clauses, one for each. -/

/-- NOP at $8000 in the start state, which is at a boundary, running, within the invariant. -/
def nop : State := code [0xEA]

theorem nop_running : nop.Running := ⟨⟨by decide, by decide⟩, by decide, by decide, by decide, by decide, by decide⟩
theorem nop_nothing : nop.NothingCommitted := ⟨by decide, by decide, by decide⟩
theorem nop_inv : nop.Inv := by constructor <;> decide +kernel

theorem witness_EncodedInstructionsDecode : (Encoded.mk (.lda .imm) (.one 0x80)).wellFormed = true := by decide

theorem nop_fetches : nop.FetchesNext := ⟨by decide, by decide, by decide, nop_nothing, by decide⟩

/-- Dots before the next cycle; and an instruction that is fetched. -/
theorem witness_StepRunsDecodedInstruction :
    after ({ nop with early := [true, true] } : State).runEarly (fun u => decide (u.early = [])) = true ∧
    nop.FetchesNext ∧ nop.opcodeAt = .next 0xEA ∧ nop.peek nop.cpu.regs.pc = some 0xEA :=
  ⟨by decide +kernel, nop_fetches, by rfl, by decide +kernel⟩

theorem witness_StepIsItsClocks : nop.Inv ∧ ∃ t, step nop = .next t := ⟨nop_inv, _, rfl⟩
theorem witness_StepKeepsTheInvariant : nop.Inv ∧ ∃ t, step nop = .next t := ⟨nop_inv, _, rfl⟩
theorem witness_WiringAndRomNeverChange : ∃ t, step nop = .next t := ⟨_, rfl⟩

/-- Both refusals that are left occur: an unknown opcode, and a PPUDATA read while one is pending. -/
theorem witness_OnlyOverlapAndUnknownRefuse :
    ((code [0x03]).SoundBuses ∧ step (code [0x03]) = .refused (.unkOpcode 0x03 0x8001 false)) ∧
    ∃ s : State, s.SoundBuses ∧ step s = .refused .ppudataOverlap :=
  ⟨⟨⟨by decide, by decide⟩, rfl⟩,
    { code [0xAD, 0x07, 0x20] with
        driver := [{ dots := [] }, { dots := [] }, { dots := [] }, {}], ppu := { gateOpen with pend := .read, ale := true } },
    ⟨by decide, by decide⟩, rfl⟩

/-- NOP after a dot of the driver's. -/
def nopAfterDot : State := { nop with early := [true] }

/-- A running state, and one with dots before its next cycle. -/
theorem witness_RunningGoesOnUnlessUnknown : (nop.Running ∧ ∃ t, step nop = .next t) ∧
    { nopAfterDot with early := [] }.Running ∧ ∀ l ∈ nopAfterDot.early, l = true :=
  ⟨⟨nop_running, _, rfl⟩, ⟨⟨by decide, by decide⟩, by decide, by decide, by decide, by decide, by decide⟩, by decide⟩

/-- The statements of one instruction from every running state: running states exist, and the reset state is one. -/
theorem witness_reset_running : State.reset.Running := ⟨⟨by decide, by decide⟩, by decide, by decide, by decide, by decide, by decide⟩

/-- LDA $80F0,X with X = $20, which crosses the page: its operand bytes and the zero page are plain memory. -/
def crossing : State := start false 0x8000 [0xBD, 0xF0, 0x80] ⟨0x00, 0x20, 0x00, 0xFD, 0x24⟩ []

theorem crossing_running : crossing.Running := ⟨⟨by decide, by decide⟩, by decide, by decide, by decide, by decide, by decide⟩

theorem crossing_operands : crossing.Operands 2 0xF0 0x80 (fun _ => 0x00) :=
  ⟨fun _ => by decide +kernel, fun _ => by decide +kernel, by decide +kernel⟩

/-- Every clause on an operand's address, and the clause on the byte there. -/
theorem witness_LoadsGiveTheByteRead : crossing.Running ∧ crossing.Operands 2 0xF0 0x80 (fun _ => 0x00) ∧ crossing.peek 0x8110 = some 0x00 :=
  ⟨crossing_running, crossing_operands, by decide +kernel⟩

/-- The clauses on what the end of an instruction commits: an NMI and a RESET seen; an IRQ with the mask open and the line low; an IRQ
with the mask set. -/
theorem witness_committed_clauses :
    ({ nop with cpu := { nop.cpu with trk := { irq := .clear, nmi := .pending, rst := .detected } } } : State).Running ∧
    ({ start false 0x8000 [0xEA] ⟨0x00, 0x00, 0x00, 0xFD, 0x20⟩ [] with lines := { irqN := false, nmiExtN := true, rstN := true } } : State).IrqLow ∧
    (start false 0x8000 [0xEA] ⟨0x00, 0x00, 0x00, 0xFD, 0x20⟩ []).cpu.regs.p.i = false ∧
    nop.cpu.regs.p.i = true ∧ nop.cpu.trk.irq ≠ .committed ∧ nop.cpu.trk.irq ≠ .serviced :=
  ⟨⟨⟨by decide, by decide⟩, by decide, by decide, by decide, by decide, by decide⟩, ⟨by decide, by decide⟩, by decide, by decide, by decide, by decide⟩

/-- The clauses of the frame: RAM in canonical form, an address outside the stored byte, no video device behind the store. -/
theorem witness_StoresReachTheirAddress : crossing.Running ∧ crossing.Operands 2 0xF0 0x80 (fun _ => 0x00) ∧
    crossing.ram.wf 2048 = true ∧ crossing.sameCell 0x0010 0x0011 = false ∧ crossing.plainTarget 0x0010 = true :=
  ⟨crossing_running, crossing_operands, by decide, by decide, by decide⟩

theorem witness_TransfersCopyTheRegister : (code [0xAA]).Running := ⟨⟨by decide, by decide⟩, by decide, by decide, by decide, by decide, by decide⟩

/-- P_BCD false with D set, and P_BCD true with D clear. -/
theorem witness_AddAndSubtractInBinary :
    ((start false 0x8000 [0x69, 0x01] ⟨0x09, 0x00, 0x00, 0xFD, 0x2C⟩ []).Running ∧
      (start false 0x8000 [0x69, 0x01] ⟨0x09, 0x00, 0x00, 0xFD, 0x2C⟩ []).config.bcd = false) ∧
    (start true 0x8000 [0x69, 0x01] ⟨0x09, 0x00, 0x00, 0xFD, 0x24⟩ []).Running ∧
    (start true 0x8000 [0x69, 0x01] ⟨0x09, 0x00, 0x00, 0xFD, 0x24⟩ []).cpu.regs.p.d = false :=
  ⟨⟨⟨⟨by decide, by decide⟩, by decide, by decide, by decide, by decide, by decide⟩, by decide⟩,
    ⟨⟨by decide, by decide⟩, by decide, by decide, by decide, by decide, by decide⟩, by decide⟩

theorem witness_DecimalModeFormulas :
    (start true 0x8000 [0x69, 0x01] ⟨0x09, 0x00, 0x00, 0xFD, 0x2C⟩ []).Running ∧
    (start true 0x8000 [0x69, 0x01] ⟨0x09, 0x00, 0x00, 0xFD, 0x2C⟩ []).config.bcd = true ∧
    (start true 0x8000 [0x69, 0x01] ⟨0x09, 0x00, 0x00, 0xFD, 0x2C⟩ []).cpu.regs.p.d = true :=
  ⟨⟨⟨by decide, by decide⟩, by decide, by decide, by decide, by decide, by decide⟩, by decide, by decide⟩

theorem witness_DecimalArithmeticOnDigits : (0 < 100 ∧ 99 < 100) ∧ (99 < 100 ∧ 0 < 100) := by decide

theorem witness_LogicWritesOnlyItsResult : crossing.Running := crossing_running
theorem witness_CompareSetsCarryZeroSign : crossing.Running := crossing_running

theorem witness_IncrementAndDecrement : crossing.Running ∧ crossing.Operands 2 0xF0 0x80 (fun _ => 0x00) ∧
    crossing.peek 0x0010 = some 0x00 ∧ crossing.plainTarget 0x0010 = true :=
  ⟨crossing_running, crossing_operands, by decide +kernel, by decide⟩

theorem witness_ShiftsAndRotates : crossing.Running ∧ crossing.Operands 2 0xF0 0x80 (fun _ => 0x00) := ⟨crossing_running, crossing_operands⟩

theorem witness_BranchesFollowTheirFlag : (code [0xD0, 0xFC]).Running ∧ (code [0xD0, 0xFC]).peek 0x8001 = some 0xFC :=
  ⟨⟨⟨by decide, by decide⟩, by decide, by decide, by decide, by decide, by decide⟩, by decide +kernel⟩

/-- The pointer at the end of a page: its high byte at the start of the same page. -/
theorem witness_JumpsLoadTheProgramCounter : (code [0x6C, 0xFF, 0x80]).Running ∧
    (code [0x6C, 0xFF, 0x80]).peek 0x8001 = some 0xFF ∧ (code [0x6C, 0xFF, 0x80]).peek 0x8002 = some 0x80 ∧
    (code [0x6C, 0xFF, 0x80]).peek 0x80FF = some 0x00 ∧ (code [0x6C, 0xFF, 0x80]).peek 0x8000 = some 0x6C :=
  ⟨⟨⟨by decide, by decide⟩, by decide, by decide, by decide, by decide, by decide⟩, by decide +kernel, by decide +kernel, by decide +kernel,
    by decide +kernel⟩

theorem witness_JsrPushesItsLastByteAddress : (code [0x20, 0x00, 0x90]).Running ∧ (code [0x20, 0x00, 0x90]).peek 0x8001 = some 0x00 ∧
    after (exec .jsr (code [0x20, 0x00, 0x90])) (fun t => decide (t.peek 0x8002 = some 0x90)) = true :=
  ⟨⟨⟨by decide, by decide⟩, by decide, by decide, by decide, by decide, by decide⟩, by decide +kernel, by decide +kernel⟩

/-- A stack that wraps: with S = $FD the three pulled bytes are at $01FE, $01FF and $0100. -/
theorem witness_ReturnsPullWhatWasPushed : (code [0x40]).Running ∧ (code [0x40]).peek 0x01FE = some 0x00 ∧
    (code [0x40]).peek 0x01FF = some 0x00 ∧ (code [0x40]).peek 0x0100 = some 0x00 :=
  ⟨⟨⟨by decide, by decide⟩, by decide, by decide, by decide, by decide, by decide⟩, by decide +kernel, by decide +kernel, by decide +kernel⟩

theorem witness_PushesStoreOneByte : (code [0x48]).Running := ⟨⟨by decide, by decide⟩, by decide, by decide, by decide, by decide, by decide⟩

theorem witness_PullsLoadOneByte : (code [0x68]).Running ∧ (code [0x68]).peek 0x01FE = some 0x00 :=
  ⟨⟨⟨by decide, by decide⟩, by decide, by decide, by decide, by decide, by decide⟩, by decide +kernel⟩

theorem witness_FlagInstructionsWriteOneFlag : (code [0x58]).Running := ⟨⟨by decide, by decide⟩, by decide, by decide, by decide, by decide, by decide⟩
theorem witness_NopOnlyAdvances : nop.Running := nop_running

/-- Running, and jammed. -/
theorem witness_JamHaltsUntilReset : (code [0x02]).Running ∧
    after (step (code [0x02])) (fun t => t.cpu.eng.jammed && t.videoBus.without Device.notVideo) = true :=
  ⟨⟨⟨by decide, by decide⟩, by decide, by decide, by decide, by decide, by decide⟩, by decide +kernel⟩

/-- An unknown opcode at PC, with P_UNK at this value. -/
def unknown (u : UnkParam) : State := { code [0x03] with config := { unk := u } }

theorem unknown_running (u : UnkParam) : (unknown u).Running := by
  cases u <;> exact ⟨⟨by decide, by decide⟩, by decide, by decide, by decide, by decide, by decide⟩

/-- Within its sequence, before the cycle of this index. -/
def unknownWithin (t : Nat) : State :=
  { unknown .supplied with cpu := { (unknown .supplied).cpu with
      regs := { (unknown .supplied).cpu.regs with pc := 0x8001 }
      eng := { (unknown .supplied).cpu.eng with presync := false, kind := .fetch, opc := 0x03, t := t } } }

theorem unknownWithin_running (t : Nat) : (unknownWithin t).Running :=
  have h := unknown_running .supplied
  ⟨⟨h.buses.cpu, h.buses.video⟩, h.idle, h.released, h.rstN, h.early, h.driver⟩

/-- A supplied sequence may be past the seventh cycle. -/
theorem witness_StepKeepsTheInvariant_supplied : (unknownWithin 7).Inv ∧ (unknownWithin 7).cpu.eng.presync = false := by
  refine ⟨?_, by decide⟩; constructor <;> decide +kernel

/-- P_UNK at its default, the opcode byte in plain memory and at an address where no device is bound; P_UNK supplied, at the fetch and
within the sequence, at any index. -/
theorem witness_UnknownOpcodesFollowTheirParameter :
    ((0x03 : Byte).toNat ∈ unkOpcodes ∧ (unknown .refuse).Running ∧ (unknown .refuse).config.unk = .refuse ∧
      (unknown .refuse).peek (unknown .refuse).cpu.regs.pc = some 0x03 ∧ (start false 0x5000 [] ⟨0, 0, 0, 0, 0⟩ []).Running ∧
      (start false 0x5000 [] ⟨0, 0, 0, 0, 0⟩ []).config.unk = .refuse ∧
      (start false 0x5000 [] ⟨0, 0, 0, 0, 0⟩ []).cpuBus.device (start false 0x5000 [] ⟨0, 0, 0, 0, 0⟩ []).cpu.regs.pc = none) ∧
    ((unknown .supplied).Running ∧ (unknown .supplied).config.unk = .supplied ∧ (unknown .supplied).FetchesNext ∧
      (unknown .supplied).peek (unknown .supplied).cpu.regs.pc = some 0x03) ∧
    ∀ t, 1 ≤ t → (unknownWithin t).Running ∧ (unknownWithin t).config.unk = .supplied ∧ (unknownWithin t).cpu.eng.presync = false ∧
      (unknownWithin t).cpu.eng.jammed = false ∧ (unknownWithin t).cpu.eng.kind = .fetch ∧
      (unknownWithin t).cpu.eng.opc.toNat ∈ unkOpcodes ∧ 1 ≤ (unknownWithin t).cpu.eng.t :=
  ⟨⟨by decide, unknown_running _, by decide, by decide +kernel, ⟨⟨by decide, by decide⟩, by decide, by decide, by decide, by decide, by decide⟩,
      by decide, by decide⟩,
    ⟨unknown_running _, by decide, ⟨by decide, by decide, by decide, ⟨by decide, by decide, by decide⟩, by decide⟩, by decide +kernel⟩,
    fun t ht => ⟨unknownWithin_running t, rfl, rfl, rfl, rfl, by show (0x03 : Byte).toNat ∈ unkOpcodes; decide, ht⟩⟩

/-- NOP with these trackers. -/
def tracked (irq nmi rst : Tracker) : State := { nop with cpu := { nop.cpu with trk := { irq := irq, nmi := nmi, rst := rst } } }

theorem tracked_running (irq nmi rst : Tracker) : (tracked irq nmi rst).Running :=
  ⟨⟨nop_running.buses.cpu, nop_running.buses.video⟩, nop_running.idle, nop_running.released, nop_running.rstN, nop_running.early, nop_running.driver⟩

/-- With nothing committed; with an NMI seen; with none, the stack plain and the line high. -/
theorem witness_BrkEntersThroughItsVector :
    (code [0x00]).Running ∧ (code [0x00]).NothingCommitted ∧ (code [0x00]).plainStack = true ∧ (code [0x00]).NmiHigh ∧ ¬ (code [0x00]).nmiSeen ∧
    (tracked .clear .detected .clear).Running ∧ (tracked .clear .detected .clear).nmiSeen :=
  ⟨⟨⟨by decide, by decide⟩, by decide, by decide, by decide, by decide, by decide⟩, ⟨by decide, by decide, by decide⟩, by decide,
    ⟨by decide, by decide, by decide⟩, by unfold State.nmiSeen; decide, tracked_running _ _ _, .inl rfl⟩

theorem witness_NmiEntersThroughItsVector : (tracked .committed .committed .clear).Running ∧
    (tracked .committed .committed .clear).cpu.eng.jammed = false ∧ (tracked .committed .committed .clear).cpu.eng.presync = true ∧
    (tracked .committed .committed .clear).cpu.trk.rst ≠ .serviced ∧ (tracked .committed .committed .clear).cpu.trk.rst ≠ .committed ∧
    (tracked .committed .committed .clear).cpu.trk.nmi = .committed :=
  ⟨tracked_running _ _ _, by decide, by decide, by decide, by decide, by decide⟩

/-- With an NMI seen, and with none, the stack plain and the line high. -/
theorem witness_IrqEntersThroughItsVector :
    ((tracked .committed .clear .clear).Running ∧ (tracked .committed .clear .clear).cpu.eng.presync = true ∧
      (tracked .committed .clear .clear).cpu.eng.jammed = false ∧
      (tracked .committed .clear .clear).cpu.trk.irq = .committed ∧ (tracked .committed .clear .clear).plainStack = true ∧
      (tracked .committed .clear .clear).NmiHigh ∧ ¬ (tracked .committed .clear .clear).nmiSeen) ∧
    (tracked .committed .pending .clear).Running ∧ (tracked .committed .pending .clear).nmiSeen :=
  ⟨⟨tracked_running _ _ _, by decide, by decide, by decide, by decide, ⟨by decide, by decide, by decide⟩,
    by unfold State.nmiSeen; decide⟩, tracked_running _ _ _, .inr rfl⟩

/-- V9.5: RESET committed, the line low all along, and the PPU held by it. -/
def resetLow : State :=
  { tracked .clear .clear .committed with
    lines := { irqN := true, nmiExtN := true, rstN := false }, ppu := { gateOpen with prst := .detected } }

theorem resetLow_sound : resetLow.SoundBuses := ⟨by decide, by decide⟩
theorem resetLow_low : resetLow.RstLow := ⟨by decide, by decide⟩
theorem resetLow_not_running : ¬ resetLow.Running := fun h => absurd h.rstN (by decide)
theorem resetLow_addresses : ∀ a ∈ [resetLow.cpu.regs.pc, stackAddr resetLow.cpu.regs.s, stackAddr (resetLow.cpu.regs.s - 1),
    stackAddr (resetLow.cpu.regs.s - 2), 0xFFFC, 0xFFFD], resetLow.cpuBus.device a ≠ some .ppuRegs := by
  simp only [List.forall_mem_cons]
  exact ⟨by decide, by decide, by decide, by decide, by decide, by decide, by simp⟩

/-- RESET committed in a running state, and with the line low; and the hold. -/
theorem witness_ResetEntryAndHold :
    ((tracked .clear .clear .committed).Running ∧ (tracked .clear .clear .committed).cpu.trk.rst = .committed) ∧
    (resetLow.SoundBuses ∧ resetLow.early = [] ∧ resetLow.cpu.eng.jammed = false ∧ resetLow.cpu.eng.presync = true ∧
      resetLow.cpu.trk.rst = .committed ∧ resetLow.RstLow ∧ ¬ resetLow.Running ∧
      ∀ a ∈ [resetLow.cpu.regs.pc, stackAddr resetLow.cpu.regs.s, stackAddr (resetLow.cpu.regs.s - 1),
        stackAddr (resetLow.cpu.regs.s - 2), 0xFFFC, 0xFFFD], resetLow.cpuBus.device a ≠ some .ppuRegs) ∧
    (tracked .clear .clear .serviced).videoBus.without Device.notVideo = true ∧
    (tracked .clear .clear .serviced).cpu.trk.rst = .serviced ∧ (tracked .clear .clear .serviced).cpu.eng.presync = true ∧
    (tracked .clear .clear .serviced).cpu.eng.jammed = false :=
  ⟨⟨tracked_running _ _ _, by decide⟩,
    ⟨resetLow_sound, by decide, by decide, by decide, by decide, resetLow_low, resetLow_not_running, resetLow_addresses⟩,
    by decide, by decide, by decide, by decide⟩

/-- Each of the four orders of commitment. -/
theorem witness_PriorityAndVectorChoice :
    (tracked .committed .committed .committed).cpu.beginSequence.eng.kind = .rst ∧
    (tracked .committed .committed .pending).cpu.beginSequence.eng.kind = .nmi ∧
    (tracked .committed .pending .clear).cpu.beginSequence.eng.kind = .irq ∧
    (tracked .pending .serviced .clear).cpu.beginSequence.eng.kind = .fetch := by decide

/-- An instruction `$80F0` with X = Y = $20 or 0, or `($F0),Y`, whose operand bytes and zero page are plain memory. -/
def indexed (op i : Byte) : State := start false 0x8000 [op, 0xF0, 0x80] ⟨0x00, i, i, 0xFD, 0x24⟩ []

/-- The hypotheses of the clauses of UncorrectedAddressIsReadFirst that all share. -/
def Indexed (op i : Byte) : Prop :=
  (indexed op i).Running ∧ (indexed op i).FetchesNext ∧ (indexed op i).peek (indexed op i).cpu.regs.pc = some op ∧
    (indexed op i).Operands 2 0xF0 0x80 (fun _ => 0x00)

/-- A read that crosses the page and one that does not, `LDA ($F0),Y`, a store, a read-modify-write. -/
theorem witness_UncorrectedAddressIsReadFirst :
    (Indexed 0xBD 0x20 ∧ Instr.readMode (decodeOpcode 0xBD) = some .absx ∧
      MemMode.uncorrected .absx (indexed 0xBD 0x20).cpu.regs (fun _ => 0x00) 0xF0 0x80 = some 0x8010 ∧
      MemMode.crosses .absx (indexed 0xBD 0x20).cpu.regs (fun _ => 0x00) 0xF0 = true) ∧
    (Indexed 0xB9 0x00 ∧ Instr.readMode (decodeOpcode 0xB9) = some .absy ∧
      MemMode.uncorrected .absy (indexed 0xB9 0x00).cpu.regs (fun _ => 0x00) 0xF0 0x80 = some 0x80F0 ∧
      MemMode.crosses .absy (indexed 0xB9 0x00).cpu.regs (fun _ => 0x00) 0xF0 = false) ∧
    (Indexed 0xB1 0x20 ∧ Instr.readMode (decodeOpcode 0xB1) = some .indy ∧
      MemMode.uncorrected .indy (indexed 0xB1 0x20).cpu.regs (fun _ => 0x00) 0xF0 0x80 = some 0x0020) ∧
    (Indexed 0x9D 0x20 ∧ Instr.storeMode (decodeOpcode 0x9D) = some .absx ∧
      MemMode.uncorrected .absx (indexed 0x9D 0x20).cpu.regs (fun _ => 0x00) 0xF0 0x80 = some 0x8010) ∧
    (Indexed 0xFE 0x20 ∧ Instr.modifyMode (decodeOpcode 0xFE) = some .absx ∧
      MemMode.uncorrected RmwMode.absx.toMem (indexed 0xFE 0x20).cpu.regs (fun _ => 0x00) 0xF0 0x80 = some 0x8010) := by
  refine ⟨⟨?_, by decide, by decide, by decide⟩, ⟨?_, by decide, by decide, by decide⟩, ⟨?_, by decide, by decide⟩,
    ⟨?_, by decide, by decide⟩, ⟨?_, by decide, by decide⟩⟩ <;>
  exact ⟨⟨⟨by decide, by decide⟩, by decide, by decide, by decide, by decide, by decide⟩,
    ⟨by decide, by decide, by decide, ⟨by decide, by decide, by decide⟩, by decide⟩, by decide +kernel,
    ⟨fun _ => by decide +kernel, fun _ => by decide +kernel, by decide +kernel⟩⟩

/-- V1.4: the two addresses on the bus. -/
theorem test_v1_4_page_crossing : after (clocks 4 crossing) (fun u => decide (u.cpu.eng.addrbus = 0x8010) &&
    after (clock u) (fun t => decide (t.cpu.eng.addrbus = 0x8110))) = true := by decide +kernel

/-! ### The PPU's registers: each register at an end of the window, the gate closed and open -/

theorem witness_ControlMaskOamaddrWrites :
    nop.cpuBus.device 0x2000 = some .ppuRegs ∧ (0x2000 : Word).toNat % 8 = 0 ∧ nop.ppu.prst ≠ .clear ∧
    nop.cpuBus.device 0x3FF9 = some .ppuRegs ∧ (0x3FF9 : Word).toNat % 8 = 1 ∧
    nop.cpuBus.device 0x3FFB = some .ppuRegs ∧ (0x3FFB : Word).toNat % 8 = 3 ∧
    ({ nop with ppu := gateOpen } : State).ppu.prst = .clear := by decide

theorem witness_ScrollAndAddressWrites :
    nop.cpuBus.device 0x2005 = some .ppuRegs ∧ (0x2005 : Word).toNat % 8 = 5 ∧ nop.ppu.prst ≠ .clear ∧
    nop.cpuBus.device 0x3FFE = some .ppuRegs ∧ (0x3FFE : Word).toNat % 8 = 6 ∧
    gateOpen.prst = .clear ∧ gateOpen.w = false ∧ ({ gateOpen with w := true } : Ppu).w = true := by decide

/-- OAMDATA at the first and the last line where rendering is active, and at the first where it is not. -/
theorem witness_StatusReadAndOamdata :
    nop.cpuBus.device 0x2002 = some .ppuRegs ∧ (0x2002 : Word).toNat % 8 = 2 ∧
    nop.cpuBus.device 0x3FFC = some .ppuRegs ∧ (0x3FFC : Word).toNat % 8 = 4 ∧
    ({ gateOpen with mask := { gateOpen.mask with s := true }, line := 239 } : Ppu).renderingActive = true ∧
    ({ gateOpen with mask := { gateOpen.mask with s := true }, line := 261 } : Ppu).renderingActive = true ∧
    ({ gateOpen with mask := { gateOpen.mask with s := true }, line := 240 } : Ppu).renderingActive = false := by decide

theorem witness_PpudataStartsADeferredAccess :
    nop.cpuBus.device 0x3FFF = some .ppuRegs ∧ (0x3FFF : Word).toNat % 8 = 7 ∧ nop.ppu.pend = .none ∧
    ({ gateOpen with pend := .write } : Ppu).pend ≠ .none := by decide

theorem witness_WriteOnlyRegistersReadTheLatch :
    nop.cpuBus.device 0x2006 = some .ppuRegs ∧ (0x2006 : Word).toNat % 8 ≠ 2 ∧ (0x2006 : Word).toNat % 8 ≠ 4 ∧ (0x2006 : Word).toNat % 8 ≠ 7 ∧
    nop.cpuBus.device 0x3FFA = some .ppuRegs ∧ (0x3FFA : Word).toNat % 8 = (0x2002 : Word).toNat % 8 ∧
    after (memWrite 0x3FFA 0x5A nop) (fun t => decide (t.ppu.iolatch = 0x5A)) = true := by decide +kernel

/-! ### The PPU's dots -/

/-- The first dot; the second of a palette write, of a VRAM write at $3EFF, and of a read. -/
theorem witness_DeferredAccessTakesTwoDots :
    nop.lines.rstN = true ∧ nop.ppu.prst.holdsPpu = false ∧ nop.videoBus.without Device.notVideo = true ∧
    ({ gateOpen with pend := .read } : Ppu).pend ≠ .none ∧ ({ gateOpen with pend := .read } : Ppu).ale = false ∧
    (0x3F00 : BitVec 14).toNat / 256 = 63 ∧ (0x3EFF : BitVec 14).toNat / 256 ≠ 63 ∧
    after (ppuCycle { nop with ppu := { gateOpen with pend := .write, ale := true, vaddr := 0x3EFF, pdata := 0x01 } })
      (fun t => decide (t.vram.read 0x6FF = 0x01)) = true ∧
    after (ppuCycle { nop with ppu := { gateOpen with pend := .read, ale := true, vaddr := 0x2000 } })
      (fun t => !t.ppu.bflt) = true := by decide +kernel

theorem witness_PaletteAliasesToCells :
    (0x0F : BitVec 5).toNat < 16 ∧ (16 ≤ (0x10 : BitVec 5).toNat ∧ (0x10 : BitVec 5).toNat % 4 = 0) ∧
    (16 ≤ (0x1F : BitVec 5).toNat ∧ (0x1F : BitVec 5).toNat % 4 ≠ 0) := by decide

/-- An odd frame with rendering, an odd one without, an even one. -/
theorem witness_FrameIsAlmostAlways89342Dots :
    gateOpen.line = 0 ∧ gateOpen.dot = 0 ∧ gateOpen.odd = false ∧ gateOpen.renderingEnabled = false ∧
    ({ gateOpen with odd := true, mask := { gateOpen.mask with b := true } } : Ppu).renderingEnabled = true := by decide

/-- (241, 1), (261, 1), the skip, the end of a line and of a frame: a dot runs at each. -/
theorem witness_DotsSetAndClearVblank :
    [(241, 1), (261, 1), (261, 339), (0, 340), (261, 340)].all (fun q =>
      after (ppuCycle { nop with ppu := { gateOpen with line := q.1, dot := q.2, odd := true, mask := { gateOpen.mask with b := true } } })
        (fun _ => true)) = true ∧
    nop.lines.rstN = true ∧ gateOpen.prst.holdsPpu = false ∧ nop.videoBus.without Device.notVideo = true := by decide +kernel

/-- The tracker COMMITTED and not, the line low and high. -/
theorem witness_PpuResetTrackerAndActions :
    ({ gateOpen with prst := .committed } : Ppu).prst = .committed ∧ gateOpen.prst ≠ .committed ∧
    (gateOpen.prstStep false).prst = .detected ∧ (({ gateOpen with prst := .detected } : Ppu).prstStep true).prst = .committed := by decide

theorem witness_OnlyTheRegisterWindowReachesThePpu : nop.cpuBus.device 0x1FFF ≠ some .ppuRegs ∧
    after (memWrite 0x1FFF 0x01 nop) (fun _ => true) = true ∧
    (match memRead 0x4000 nop with | .next _ => true | .fault _ => false | .refused _ => false) = true := by decide +kernel

/-- A clock of an opcode fetch, with no PPUDATA access pending and with one. -/
theorem witness_OnlyTheRegisterWindowReachesThePpu_clock :
    [gateOpen, { gateOpen with pend := .read }].all (fun p =>
      after (clock { nop with ppu := p }) (fun t => nop.cpuBus.device t.cpu.eng.addrbus != some .ppuRegs)) = true ∧
    nop.videoBus.without Device.notVideo = true ∧ gateOpen.prst.holdsPpu = false ∧ nop.early = [] ∧ nop.takeDriver.lines.rstN = true ∧
    ∀ l ∈ nop.nextDots, l = true := by
  decide +kernel

/-! ### Buses -/

/-- Legal at the ends of the ranges, and not legal. -/
theorem witness_BusConstructionRules : (0 < 16 ∧ 16 ≤ 16 ∧ 2 = [65535].length + 1 ∧ ∀ b ∈ [65535], 1 ≤ b ∧ b < 2 ^ 16) ∧ ¬ (17 ≤ 16) := by decide

theorem witness_EveryAddressHasOnePartition : Bus.new 14 2 [0x2000] = .next { bitwidth := 14, starts := [0, 0x2000], bindings := [none, none] } ∧
    Bus.videoConsole.bitwidth = 14 ∧ Bus.videoConsole.starts = [0, 0x2000] ∧ 2 ^ 14 ≤ (0x4000 : Word).toNat ∧ (0x3FFF : Word).toNat < 2 ^ 14 :=
  ⟨by rfl, by decide, by decide, by decide, by decide⟩

theorem witness_SwapRebindsOnePartition : Bus.new 16 4 [0x2000, 0x4000, 0x8000] =
      .next { bitwidth := 16, starts := [0, 0x2000, 0x4000, 0x8000], bindings := [none, none, none, none] } ∧
    Bus.cpuConsole.bitwidth = 16 ∧ Bus.cpuConsole.starts = [0, 0x2000, 0x4000, 0x8000] ∧ Bus.cpuConsole.bindings.length = 4 ∧
    (0x5000 : Word).toNat < 2 ^ 16 :=
  ⟨by rfl, by decide, by decide, by decide, by decide⟩

/-- With a cartridge, and without one. -/
theorem witness_ConsoleMemoryMap : nop.Wired ∧ State.reset.Wired :=
  ⟨⟨.inr (by decide), .inr (by decide)⟩, ⟨.inl (by decide), .inl (by decide)⟩⟩

theorem witness_UnservedAccessesSetTheFaultFlag : nop.cpuBus.device 0x4000 = none ∧ nop.cpuBus.device 0x8000 = some .prg ∧
    nop.peek 0x8000 = some 0xEA ∧
    (match memRead 0x2000 nop with | .next _ => true | .fault _ => false | .refused _ => false) = true := by decide +kernel

theorem witness_RamReadsBackAtEveryMirror : nop.ram.wf 2048 = true ∧ nop.cpuBus.device 0x0000 = some .ram ∧
    nop.cpuBus.device 0x1FFF = some .ram := by decide

theorem witness_NametablesMirror : nop.vram.wf 2048 = true ∧
    nop.videoBus.device ((0x2000 : BitVec 14).setWidth 16) = some .vram ∧
    nop.videoBus.device ((0x3FFF : BitVec 14).setWidth 16) = some .vram := by decide

/-- Each device, with an NROM and with a raw image. -/
theorem witness_DmaClampsAtTheBank : nop.cpuBus.device 0x4000 = none ∧ nop.cpuBus.device 0x3FFF = some .ppuRegs ∧
    nop.videoBus.device 0x2000 = some .vram ∧ nop.cpuBus.device 0x1FFF = some .ram ∧ nop.cart = .nrom true true ∧
    nop.cpuBus.device 0xFFFF = some .prg ∧ nop.videoBus.device 0x1FFF = some .chr ∧
    ({ nop with cart := .rawImage 1 } : State).cart = .rawImage 1 := by decide

/-- A 16 KiB NROM with CHR RAM, and the smallest and the largest raw image; an insertion over an NROM, and one where none was. -/
theorem witness_CartridgesServeTheirRanges : nop.Wired ∧ (Cartridge.nrom false [(0x3FFF, 0x01)] (.ram []) .horizontal).fits = true ∧
    (Cartridge.rawImage 1 [(0, 0x01)]).fits = true ∧ (Cartridge.rawImage 32768 [(32767, 0x01)]).fits = true ∧
    (∃ t, nop.insertCartridge (.rawImage 1 [(0, 0x01)]) = .next t) ∧
    State.reset.displaced = { prg := none, chr := none } ∧ ∃ t, State.reset.insertCartridge (.rawImage 1 [(0, 0x01)]) = .next t :=
  ⟨witness_ConsoleMemoryMap.1, by decide, by decide, by decide, ⟨_, rfl⟩, by decide, _, rfl⟩

end Sys2Proof.Machine
end

section
/-! PROOFS of the scope statements. Why a step can be refused when the devices keep their contract (`00_scope.md` R8, R11): dots are never refused, a cycle
only for an overlapping PPUDATA access, and the choice of a sequence only for an unknown opcode. -/

namespace Sys2Proof.Machine

/-- The two reasons a step is refused with sound devices: PPUDATA_OVERLAP (`46_ppu.md` R315), and UNK_OPCODE of an opcode of R125 with
P_UNK at its default (`45_stack_flags_misc.md` R297). -/
def MayRefuse (g : Config) (e : Refusal) : Prop :=
  e = .ppudataOverlap ∨ (g.unk = .refuse ∧ ∃ op pc d, op.toNat ∈ unkOpcodes ∧ e = .unkOpcode op pc d)

/-! ## Dots, and the cycles that are only dots -/

theorem dots_ne_refused {ls : List Bool} {s : State} (hb : s.videoBus.without Device.notVideo = true) (e : Refusal) :
    dots ls s ≠ .refused e := by
  obtain ⟨t, -, ht, -⟩ := dots_total (ls := ls) hb
  simp [ht]

theorem jamCycle_ne_refused {s : State} (hb : s.SoundBuses) (e : Refusal) : jamCycle s ≠ .refused e :=
  dots_ne_refused (by simpa using hb.video) e

theorem holdCycle_ne_refused {s : State} (hb : s.SoundBuses) (e : Refusal) : holdCycle s ≠ .refused e :=
  dots_ne_refused (by simpa using hb.video) e

/-- The dots before the next CPU cycle go through. -/
theorem State.SoundBuses.runEarly_next {s : State} (hb : s.SoundBuses) :
    ∃ u, s.runEarly = .next u ∧ u.early = [] ∧ u.config = s.config ∧ u.SoundBuses := by
  obtain ⟨u, -, hu, -⟩ := dots_total (ls := s.early) (s := { s with early := [] }) hb.video
  obtain ⟨-, hf, he, -⟩ := State.runEarly_kept hu
  exact ⟨u, hu, he, (State.fixed_eq.mp hf).1, hb.ofFixed hf⟩

/-- A step whose early dots have run is the step from where they led. -/
theorem step_eq_of_runEarly {s u : State} (h : s.runEarly = .next u) (he : u.early = []) : step s = step u := by
  simp [step, h, State.runEarly_nil he]

/-! ## Sequences -/

/-- Within a sequence: there is none of that opcode, or one of its cycles is refused. -/
theorem resume_refused {s : State} {e : Refusal} (hb : s.SoundBuses) (h : resume s = .refused e) : MayRefuse s.config e := by
  unfold resume at h
  split at h
  case h_1 => exact .inl (runSequence_refused hb h)
  case h_2 hnone =>
    cases h
    obtain ⟨op, hop, hu⟩ := currentSequence_none hnone
    exact .inr ⟨hu, _, _, _, (decodeOpcode_unk hop).2, rfl⟩

/-- From a boundary: a cycle of the sequence that begins is refused, or the opcode is unknown, or its fetch is refused. -/
theorem step_refused_of_boundary {s : State} {e : Refusal} (hb : s.SoundBuses) (he : s.early = []) (hj : s.cpu.eng.jammed = false)
    (hp : s.cpu.eng.presync = true) (hh : s.cpu.trk.rst ≠ .serviced) (h : step s = .refused e) : MayRefuse s.config e := by
  rcases step_from_boundary he hj hp hh with ⟨seq, k, -, hs, -⟩ | ⟨e', hs, -, hwhy⟩
  · have hbegin : { s with cpu := s.cpu.beginSequence }.SoundBuses := ⟨hb.cpu, hb.video⟩
    exact .inl (runSequence_refused hbegin (hs ▸ h))
  · obtain rfl : e' = e := by simpa [hs] using h
    rcases hwhy with ⟨hu, op, d, hop, rfl⟩ | hread
    · exact .inr ⟨hu, op, _, d, hop, rfl⟩
    · exact .inl (memRead_refused hb.cpu hread)

/-- With no dots to run first: jammed or held in reset the step is only dots, else it goes on from a boundary or within a sequence. -/
theorem step_refused_of_early_nil {s : State} {e : Refusal} (hb : s.SoundBuses) (he : s.early = []) (h : step s = .refused e) :
    MayRefuse s.config e := by
  have hnow : stepNow s = .refused e := by simpa [step, State.runEarly_nil he] using h
  unfold stepNow at hnow
  split at hnow
  case isTrue => exact absurd hnow (jamCycle_ne_refused hb e)
  case isFalse hj =>
    split at hnow
    case isTrue hp =>
      split at hnow
      case isTrue => exact absurd hnow (holdCycle_ne_refused hb e)
      case isFalse hh => exact step_refused_of_boundary hb he (by simpa using hj) hp hh h
    case isFalse => exact resume_refused hb hnow

theorem step_refused {s : State} {e : Refusal} (hb : s.SoundBuses) (h : step s = .refused e) : MayRefuse s.config e := by
  obtain ⟨u, hu, he, hg, hbu⟩ := hb.runEarly_next
  exact hg ▸ step_refused_of_early_nil hbu he (step_eq_of_runEarly hu he ▸ h)

/-- Settles O9: the dots before the step go through, and from there each place the CPU can be in is refused for one of the two
reasons or not at all. -/
theorem onlyOverlapAndUnknownRefuse : Obligations.OnlyOverlapAndUnknownRefuse :=
  fun s hb => ⟨fun _ h => step_refused hb h, Res.not_fault (step s)⟩

end Sys2Proof.Machine
end

section
/-! PROOFS of the state's statements. The status byte bit by bit (`10_state.md` R23), the values of power-up (`10_state.md` R48-R50), and what every
step keeps: a step is the early dots and one of four things, each of which keeps the fixed parts and the invariant. -/

namespace Sys2Proof.Machine

/-! ## The ways a step goes on -/

/-- How a step leads from `u`, where its early dots have run, to `t` (log 1): a jammed cycle, a cycle of the reset hold, a sequence begun at
the boundary, or the rest of the sequence the CPU is in. -/
inductive StepFrom (u t : State) : Prop where
  | jam (hj : u.cpu.eng.jammed = true) (h : jamCycle u = .next t)
  | hold (hj : u.cpu.eng.jammed = false) (hp : u.cpu.eng.presync = true) (h : holdCycle u = .next t)
  | start {seq : Sequence} {k : Bool} (hj : u.cpu.eng.jammed = false) (hl : RowsLeave seq)
      (hc : ∀ v, tick seq k { u with cpu := u.cpu.beginSequence } = .next (v, false) →
        currentSequence v.config v.cpu.eng.kind (decodeOpcode v.cpu.eng.opc) = some (seq, k))
      (h : runSequence seq k maxCycles { u with cpu := u.cpu.beginSequence } = .next t)
  | within {seq : Sequence} {k : Bool} (hj : u.cpu.eng.jammed = false) (hp : u.cpu.eng.presync = false)
      (hc : currentSequence u.config u.cpu.eng.kind (decodeOpcode u.cpu.eng.opc) = some (seq, k))
      (h : runSequence seq k maxCycles u = .next t)

/-- Every step that has a next state is one of these, after its early dots. -/
theorem step_next {s t : State} (h : step s = .next t) : ∃ u, s.runEarly = .next u ∧ StepFrom u t := by
  obtain ⟨u, hu, hnow⟩ := Res.bind_eq_next.mp h
  refine ⟨u, hu, ?_⟩
  have he : u.early = [] := (State.runEarly_kept hu).2.2.1
  unfold stepNow at hnow
  split at hnow
  case isTrue hj => exact .jam hj hnow
  case isFalse hj =>
    rw [Bool.not_eq_true] at hj
    split at hnow
    case isTrue hp =>
      split at hnow
      case isTrue => exact .hold hj hp hnow
      case isFalse hh =>
        have hstep : step u = .next t := step_eq_of_runEarly hu he ▸ h
        rcases step_from_boundary he hj hp hh with ⟨seq, k, hl, hrun, -, hc⟩ | ⟨e, href, -⟩
        · exact .start hj hl hc (hrun ▸ hstep)
        · simp [href] at hstep
    case isFalse hp =>
      rw [Bool.not_eq_true] at hp
      unfold resume at hnow
      split at hnow
      case h_1 hc => exact .within hj hp hc hnow
      case h_2 => cases hnow

/-! ## What a step keeps -/

/-- What every step keeps, whatever the devices and wherever the CPU is. -/
structure State.KeptByStep (s t : State) : Prop where
  fixed : t.fixed = s.fixed
  mem : s.MemInv → t.MemInv
  irq : s.cpu.trk.irq ≠ .serviced → t.cpu.trk.irq ≠ .serviced
  legal : s.cpu.regs.p.Legal → t.cpu.regs.p.Legal
  jam : (s.cpu.eng.jammed = true → s.cpu.eng.presync = false) → t.cpu.eng.jammed = true → t.cpu.eng.presync = false

theorem State.KeptByStep.trans {s t u : State} (h : s.KeptByStep t) (k : t.KeptByStep u) : s.KeptByStep u :=
  ⟨k.fixed.trans h.fixed, k.mem ∘ h.mem, k.irq ∘ h.irq, k.legal ∘ h.legal, k.jam ∘ h.jam⟩

theorem State.runEarly_keptByStep {s u : State} (h : s.runEarly = .next u) : s.KeptByStep u := by
  obtain ⟨hcpu, hf, -, -, hm⟩ := State.runEarly_kept h
  exact ⟨hf, hm, by rw [hcpu]; exact id, by rw [hcpu]; exact id, by rw [hcpu]; exact id⟩

theorem State.beginSequence_keptByStep (s : State) : s.KeptByStep { s with cpu := s.cpu.beginSequence } := by
  obtain ⟨hp, -, -, hr, -, hi⟩ := s.cpu.beginSequence_leaves
  exact ⟨rfl, State.MemInv.withCpu, hi, fun hb => by rw [hr]; exact hb, fun _ _ => hp⟩

theorem runSequence_keptByStep {seq : Sequence} {k : Bool} {n : Nat} {s t : State} (hl : RowsLeave seq)
    (hp : s.cpu.eng.presync = false) (hj : s.cpu.eng.jammed = false) (h : runSequence seq k n s = .next t) : s.KeptByStep t := by
  obtain ⟨hf, hm, hi, hb, hjam, -⟩ := runSequence_leaves hl hp hj h
  exact ⟨hf, hm, hi, hb, fun _ => hjam⟩

theorem StepFrom.kept {u t : State} (h : StepFrom u t) : u.KeptByStep t := by
  cases h with
  | jam hj h =>
    obtain ⟨hf, hm, hi, hb, hjam, -⟩ := jamCycle_leaves h hj
    exact ⟨hf, hm, hi, hb, fun hp => hjam (hp hj)⟩
  | hold hj hp h =>
    obtain ⟨hf, hm, hi, hr, he⟩ := holdCycle_leaves h
    exact ⟨hf, hm, hi, by rw [hr]; exact id, by rw [he]; exact id⟩
  | start hj hl hc h =>
    obtain ⟨hp, -, hj', -⟩ := u.cpu.beginSequence_leaves
    exact u.beginSequence_keptByStep.trans (runSequence_keptByStep hl hp (hj'.trans hj) h)
  | within hj hp hc h => exact runSequence_keptByStep (currentSequence_leaves hc) hp hj h

theorem step_kept {s t : State} (h : step s = .next t) : s.KeptByStep t := by
  obtain ⟨u, hu, hstep⟩ := step_next h
  exact (State.runEarly_keptByStep hu).trans hstep.kept

/-! ## Where a step ends -/

/-- The CPU is at a boundary or jammed, or within the sequence of a supplied cycle function, past its T0 (`10_state.md` R28, log 10). -/
def State.AtStepEnd (s : State) : Prop :=
  s.cpu.eng.presync = true ∨ s.cpu.eng.jammed = true ∨ (1 ≤ s.cpu.eng.t ∧ s.runsSupplied)

/-- Cycles enough to reach the seventh end every sequence but a supplied one. -/
theorem runSequence_atStepEnd {seq : Sequence} {k : Bool} {n : Nat} {s t : State} (hp : s.cpu.eng.presync = false)
    (hj : s.cpu.eng.jammed = false) (ht : 1 ≤ s.cpu.eng.t) (hn : 1 ≤ n) (h7 : 7 ≤ n + s.cpu.eng.t)
    (hc : currentSequence s.config s.cpu.eng.kind (decodeOpcode s.cpu.eng.opc) = some (seq, k))
    (h : runSequence seq k n s = .next t) : t.AtStepEnd := by
  obtain ⟨hf, -, -, -, -, hends, hcount, hkind, hopc⟩ := runSequence_leaves (currentSequence_leaves hc) hp hj h
  rcases currentSequence_ends hc with hr | ⟨hu, hk, ho⟩
  · exact (hends hr h7 hn).imp_right .inl
  · have hsup : t.runsSupplied := ⟨(State.fixed_eq.mp hf).1 ▸ hu, hkind.trans hk, hopc ht ▸ ho⟩
    exact hcount.imp_right (.imp_right fun hidx => ⟨by omega, hsup⟩)

/-- A sequence begun at a boundary: its T0 ends it, or leads to within it. -/
theorem runSequence_start_atStepEnd {seq : Sequence} {k : Bool} {s t : State} (hl : RowsLeave seq) (hp : s.cpu.eng.presync = false)
    (hj : s.cpu.eng.jammed = false)
    (hc : ∀ v, tick seq k s = .next (v, false) → currentSequence v.config v.cpu.eng.kind (decodeOpcode v.cpu.eng.opc) = some (seq, k))
    (h : runSequence seq k maxCycles s = .next t) : t.AtStepEnd := by
  obtain ⟨⟨v, ended⟩, hk, hrest⟩ := Res.bind_eq_next.mp h
  obtain ⟨f, q, -⟩ := tick_leaves hl hk
  have hiff := q.ended_iff hp hj
  cases ended with
  | true =>
    cases hrest
    exact (by simpa using hiff : _ ∨ _).imp_right .inl
  | false =>
    obtain ⟨hpv, hjv⟩ := Bool.or_eq_false_iff.mp hiff
    have hidx := q.index q.final_false
    exact runSequence_atStepEnd (n := 7) hpv hjv (by omega) (by omega) (by omega) (hc v hk) hrest

theorem StepFrom.atStepEnd {u t : State} (h : StepFrom u t)
    (hi : u.cpu.eng.presync = false → u.cpu.eng.jammed = false → 1 ≤ u.cpu.eng.t) : t.AtStepEnd := by
  cases h with
  | jam hj h =>
    obtain ⟨-, -, -, -, -, hend⟩ := jamCycle_leaves h hj
    exact hend.imp_right .inl
  | hold hj hp h =>
    obtain ⟨-, -, -, -, he⟩ := holdCycle_leaves h
    exact .inl (he ▸ hp)
  | start hj hl hc h =>
    obtain ⟨hp, -, hj', -⟩ := u.cpu.beginSequence_leaves
    exact runSequence_start_atStepEnd hl hp (hj'.trans hj) hc h
  | within hj hp hc h =>
    exact runSequence_atStepEnd hp hj (hi hp hj) (by decide) (Nat.le_add_right_of_le (by decide)) hc h

theorem step_atStepEnd {s t : State} (hi : s.Inv) (h : step s = .next t) : t.AtStepEnd := by
  obtain ⟨u, hu, hstep⟩ := step_next h
  obtain ⟨hcpu, -⟩ := State.runEarly_kept hu
  exact hstep.atStepEnd (by rw [hcpu]; exact fun hp hj => (hi.index hp hj).1)

/-! ## The invariant -/

/-- A state that a step has led to from one of the invariant meets it: what the step keeps, and where it ends. -/
theorem State.Inv.ofStep {s t : State} (hi : s.Inv) (hk : s.KeptByStep t) (he : t.AtStepEnd) : t.Inv := by
  have m := hk.mem hi.mem
  obtain ⟨hb, hu⟩ := hk.legal ⟨hi.b, hi.u⟩
  refine ⟨m.ram, m.vram, m.oam, m.pal, m.prg, m.chr, m.line, m.dot, hk.irq hi.irq, hb, hu, m.ale, fun hp hj => ?_, hk.jam hi.jam⟩
  rcases he with h | h | ⟨ht, hsup⟩
  · simp [hp] at h
  · simp [hj] at h
  · exact ⟨ht, .inr hsup⟩

/-- Settles O7: each way a step goes on keeps every clause but the index's, and it ends where that clause holds. -/
theorem stepKeepsTheInvariant : Obligations.StepKeepsTheInvariant :=
  fun _ _ hi h => hi.ofStep (step_kept h) (step_atStepEnd hi h)

/-- Settles O8: bus accesses, dots and the ends of cycles all keep the fixed parts. -/
theorem wiringAndRomNeverChange : Obligations.WiringAndRomNeverChange := fun _ _ h => (step_kept h).fixed

/-- Settles O6: reset is at a boundary, not jammed, with canonical memories. -/
theorem resetMeetsTheInvariant : Obligations.ResetMeetsTheInvariant := by
  obtain ⟨hram, hvram, hoam, hpal, hprg, hchr⟩ := State.reset_memories
  have hboundary : State.reset.cpu.eng.presync = true := rfl
  have hrunning : State.reset.cpu.eng.jammed = false := rfl
  exact {
    ram := hram, vram := hvram, oam := hoam, pal := hpal, prg := hprg, chr := hchr
    line := by decide
    dot := by decide
    irq := by decide
    b := rfl
    u := rfl
    ale := by decide
    index := by simp [hboundary]
    jam := by simp [hrunning] }

/-! ## The status byte -/

/-- A one-bit field holds its bit at its position and nothing elsewhere. -/
theorem getElem_bitAt {i j : Nat} (hj : j < 8) (v : Bool) : (bitAt i v)[j] = (decide (i = j) && v) := by
  cases v
  · simp [bitAt]
  · have htwo : bitAt i true = BitVec.twoPow 8 i := by simp [bitAt, BitVec.twoPow]
    simp [htwo, BitVec.getElem_twoPow, eq_comm]

/-- The bits of the packed status byte, each flag at its position (`10_state.md` R23). -/
theorem Flags.getLsbD_pack (p : Flags) :
    p.pack.getLsbD 0 = p.c ∧ p.pack.getLsbD 1 = p.z ∧ p.pack.getLsbD 2 = p.i ∧ p.pack.getLsbD 3 = p.d ∧
      p.pack.getLsbD 4 = p.b ∧ p.pack.getLsbD 5 = p.u ∧ p.pack.getLsbD 6 = p.v ∧ p.pack.getLsbD 7 = p.n := by
  simp [Flags.pack, getElem_bitAt]

theorem Flags.unpack_pack (p : Flags) : Flags.unpack p.pack = p := by
  obtain ⟨hc, hz, hi, hd, hb, hu, hv, hn⟩ := p.getLsbD_pack
  simp only [Flags.unpack, bit, hc, hz, hi, hd, hb, hu, hv, hn]

theorem Flags.pack_unpack (b : Byte) : (Flags.unpack b).pack = b := by
  obtain ⟨hc, hz, hi, hd, hb, hu, hv, hn⟩ := (Flags.unpack b).getLsbD_pack
  refine BitVec.eq_of_getLsbD_eq fun i hi8 => ?_
  match i, hi8 with
  | 0, _ => exact hc
  | 1, _ => exact hz
  | 2, _ => exact hi
  | 3, _ => exact hd
  | 4, _ => exact hb
  | 5, _ => exact hu
  | 6, _ => exact hv
  | 7, _ => exact hn

/-- Settles O59: the bits of the packed byte, read back in either direction. -/
theorem statusByteRoundTrip : Obligations.StatusByteRoundTrip := by
  refine ⟨fun p => ?_, Flags.pack_unpack⟩
  obtain ⟨hc, hz, hi, hd, hb, hu, hv, hn⟩ := p.getLsbD_pack
  exact ⟨hc, hz, hi, hd, hb, hu, hv, hn, p.unpack_pack⟩

/-! ## Power-up -/

/-- Settles O60: no draw enters a field that power-up gives a value to. -/
theorem powerUpValues : Obligations.PowerUpValues := by
  intro d
  have hcpu : (State.powerUp d).cpu = Cpu.powerUp d := rfl
  have hppu : (State.powerUp d).ppu = Ppu.powerUp d := rfl
  simp [hcpu, hppu, Cpu.powerUp, Ppu.powerUp, PpuCtrl.pack, PpuMask.pack, bitAt]

end Sys2Proof.Machine
end

section
/-! PROOFS of the buses' statements (`20_memory.md` R70-R74, R90-R95). The partitions of a bus depend on its width and its boundaries only, which no
binding changes; `swap` and `set` are said once, through the partition of the address. -/

namespace Sys2Proof.Machine

/-! ## What `new` builds -/

/-- The precondition of `new` (`20_memory.md` R71). -/
def LegalConstruction (w n : Nat) (bs : List Nat) : Prop :=
  0 < w ∧ w ≤ 16 ∧ n = bs.length + 1 ∧ bs.Pairwise (· < ·) ∧ ∀ b ∈ bs, 1 ≤ b ∧ b < 2 ^ w

theorem boundariesOk_iff {top low : Nat} {bs : List Nat} :
    boundariesOk top low bs = true ↔ bs.Pairwise (· < ·) ∧ ∀ b ∈ bs, low ≤ b ∧ b < top := by
  induction bs generalizing low with
  | nil => simp [boundariesOk]
  | cons b rest ih =>
    simp only [boundariesOk, Bool.and_eq_true, decide_eq_true_eq, ih, List.pairwise_cons, List.forall_mem_cons]
    constructor
    · rintro ⟨hb, hp, hr⟩
      exact ⟨⟨fun x hx => (hr x hx).1, hp⟩, hb, fun x hx => ⟨by have := (hr x hx).1; omega, (hr x hx).2⟩⟩
    · rintro ⟨⟨hlt, hp⟩, hb, hr⟩
      exact ⟨hb, hp, fun x hx => ⟨hlt x hx, (hr x hx).2⟩⟩

theorem Bus.new_of_legal {w n : Nat} {bs : List Nat} (h : LegalConstruction w n bs) :
    Bus.new w n bs = .next { bitwidth := w, starts := 0 :: bs, bindings := List.replicate n none } := by
  obtain ⟨hw, hw16, hn, hbs⟩ := h
  exact if_pos ⟨hw, hw16, hn, boundariesOk_iff.mpr hbs⟩

theorem Bus.new_of_not_legal {w n : Nat} {bs : List Nat} (h : ¬ LegalConstruction w n bs) :
    Bus.new w n bs = .refused .badBusConstruction :=
  if_neg fun ⟨hw, hw16, hn, hbs⟩ => h ⟨hw, hw16, hn, boundariesOk_iff.mp hbs⟩

theorem Bus.new_eq_next {w n : Nat} {bs : List Nat} {b : Bus} (h : Bus.new w n bs = .next b) :
    LegalConstruction w n bs ∧ b = { bitwidth := w, starts := 0 :: bs, bindings := List.replicate n none } := by
  by_cases hl : LegalConstruction w n bs
  · rw [Bus.new_of_legal hl] at h; cases h; exact ⟨hl, rfl⟩
  · rw [Bus.new_of_not_legal hl] at h; cases h

/-! ## Bindings by partition -/

theorem Bus.device_of_part {b : Bus} {a : Word} {i : Nat} (h : b.part a = some i) : b.device a = b.bindings.getD i none := by
  simp only [Bus.device, h]

theorem Bus.device_of_no_part {b : Bus} {a : Word} (h : b.part a = none) : b.device a = none := by
  simp only [Bus.device, h]

theorem Bus.device_unbound {w n : Nat} {starts : List Nat} (a : Word) :
    Bus.device { bitwidth := w, starts := starts, bindings := List.replicate n none } a = none := by
  unfold Bus.device
  split
  · simp [List.getD_eq_getElem?_getD, List.getElem?_replicate]; split <;> rfl
  · rfl

/-- Settles O50: the boundary check is the rule's precondition, and partition `i + 1` starts at boundary `i`. -/
theorem busConstructionRules : Obligations.BusConstructionRules := by
  intro w n bs
  refine ⟨Bus.new_of_not_legal, fun hl => ⟨_, Bus.new_of_legal hl, rfl, rfl, fun i hi => ?_, ?_, Bus.device_unbound⟩⟩
  · obtain ⟨-, -, rfl, -⟩ := hl
    have hlt : i < bs.length := by omega
    simp [Bus.partStart, Bus.partEnd, hlt]
  · obtain ⟨-, -, rfl, -⟩ := hl
    simp [Bus.partEnd]

/-! ## Partitions -/

/-- The width and the partitions of a bus that `new` built with `n` partitions, whatever has been bound since (`20_memory.md` R70). -/
structure Bus.Built (b : Bus) (w n : Nat) : Prop where
  width : b.bitwidth = w
  first : ∃ rest, b.starts = 0 :: rest
  rising : b.starts.Pairwise (· < ·)
  count : b.starts.length = n

theorem Bus.Built.of_new {w n : Nat} {bs : List Nat} {b0 b : Bus} (h : Bus.new w n bs = .next b0) (hw : b.bitwidth = b0.bitwidth)
    (hs : b.starts = b0.starts) : b.Built w n := by
  obtain ⟨⟨-, -, hn, hp, hr⟩, rfl⟩ := Bus.new_eq_next h
  refine ⟨hw, ⟨bs, hs⟩, ?_, by rw [hs, hn]; rfl⟩
  rw [hs]
  exact List.pairwise_cons.mpr ⟨fun x hx => (hr x hx).1, hp⟩

/-- The partition found starts at or below the address, and ends above it. -/
theorem partIndex_spec {x a top : Nat} {rest : List Nat} (hx : x ≤ a) (ha : a < top) :
    partIndex (x :: rest) a < (x :: rest).length ∧ (x :: rest).getD (partIndex (x :: rest) a) 0 ≤ a ∧
      a < (x :: rest).getD (partIndex (x :: rest) a + 1) top := by
  induction rest generalizing x with
  | nil => simp [partIndex, hx, ha]
  | cons y rest ih =>
    rw [partIndex]
    split
    · next h => simpa [hx] using h
    · next h =>
      obtain ⟨hlt, hle, hgt⟩ := ih (Nat.le_of_not_lt h)
      exact ⟨Nat.succ_lt_succ hlt, hle, hgt⟩

theorem Bus.Built.part_eq_none {b : Bus} {w n : Nat} (h : b.Built w n) {a : Word} (ha : 2 ^ w ≤ a.toNat) : b.part a = none :=
  if_neg (by rw [h.width]; omega)

theorem Bus.Built.part_spec {b : Bus} {w n : Nat} (h : b.Built w n) {a : Word} (ha : a.toNat < 2 ^ w) :
    ∃ i, b.part a = some i ∧ i < n ∧ b.partStart i ≤ a.toNat ∧ a.toNat < b.partEnd i := by
  obtain ⟨rest, hs⟩ := h.first
  obtain ⟨hlt, hle, hgt⟩ := partIndex_spec (rest := rest) (Nat.zero_le a.toNat) ha
  rw [← hs] at hlt hle hgt
  rw [← h.width] at ha hgt
  exact ⟨_, if_pos ha, h.count ▸ hlt, hle, hgt⟩

/-- A later partition starts no earlier than an earlier one ends. -/
theorem Bus.Built.partEnd_le_partStart {b : Bus} {w n : Nat} (h : b.Built w n) {i j : Nat} (hij : i < j) (hj : j < n) :
    b.partEnd i ≤ b.partStart j := by
  have hj' : j < b.starts.length := h.count ▸ hj
  have hi' : i + 1 < b.starts.length := by omega
  simp only [Bus.partEnd, Bus.partStart, List.getD_eq_getElem?_getD, List.getElem?_eq_getElem hi', List.getElem?_eq_getElem hj',
    Option.getD_some]
  rcases Nat.eq_or_lt_of_le hij with rfl | hlt
  · exact Nat.le_refl _
  · exact Nat.le_of_lt (List.pairwise_iff_getElem.mp h.rising _ _ hi' hj' hlt)

theorem Bus.Built.part_unique {b : Bus} {w n : Nat} (h : b.Built w n) {a i j : Nat} (hi : i < n) (hj : j < n)
    (hsi : b.partStart i ≤ a) (hei : a < b.partEnd i) (hsj : b.partStart j ≤ a) (hej : a < b.partEnd j) : j = i := by
  rcases Nat.lt_trichotomy j i with hlt | rfl | hgt
  · have := h.partEnd_le_partStart hlt hi; omega
  · rfl
  · have := h.partEnd_le_partStart hgt hj; omega

/-- Settles O51: the partition found holds the address, and no two partitions overlap. -/
theorem everyAddressHasOnePartition : Obligations.EveryAddressHasOnePartition := by
  intro w n bs b0 b hnew hw hs a
  have hb := Bus.Built.of_new hnew hw hs
  refine ⟨fun ha => ?_, fun ha => ?_, fun s v => ⟨rfl, rfl⟩⟩
  · have hp := hb.part_eq_none ha
    exact ⟨hp, Bus.device_of_no_part hp⟩
  · obtain ⟨i, hp, hi, hsi, hei⟩ := hb.part_spec ha
    exact ⟨i, hp, hi, hsi, hei, fun j hj hsj hej => hb.part_unique hi hj hsi hei hsj hej, Bus.device_of_part hp⟩

/-! ## Rebinding -/

/-- The bus with `d` bound to partition `i`. -/
def Bus.rebind (i : Nat) (d : Option Device) (b : Bus) : Bus := { b with bindings := b.bindings.set i d }

@[simp] theorem Bus.rebind_part (i : Nat) (d : Option Device) (b : Bus) (a : Word) : (b.rebind i d).part a = b.part a := rfl

theorem Bus.swap_of_part {b : Bus} {a : Word} {i : Nat} (d : Option Device) (h : b.part a = some i) :
    b.swap a d = some (b.device a, b.rebind i d) := by
  simp only [Bus.swap, Bus.device, h, Bus.rebind]

theorem Bus.swap_of_no_part {b : Bus} {a : Word} (d : Option Device) (h : b.part a = none) : b.swap a d = none := by
  simp only [Bus.swap, h]

theorem Bus.set_of_swap {b b' : Bus} {a : Word} {d old : Option Device} (h : b.swap a d = some (old, b')) : b.set a d = b' := by
  simp only [Bus.set, h]

theorem Bus.set_of_part {b : Bus} {a : Word} {i : Nat} (d : Option Device) (h : b.part a = some i) : b.set a d = b.rebind i d :=
  Bus.set_of_swap (Bus.swap_of_part d h)

theorem Bus.set_of_no_part {b : Bus} {a : Word} (d : Option Device) (h : b.part a = none) : b.set a d = b := by
  simp only [Bus.set, Bus.swap_of_no_part d h]

theorem Bus.rebind_device {b : Bus} {a : Word} {i : Nat} (d : Option Device) (h : b.part a = some i) (hi : i < b.bindings.length)
    (x : Word) : (b.rebind i d).device x = if b.part x = b.part a then d else b.device x := by
  rw [h]
  cases hx : b.part x with
  | none => simp [Bus.device_of_no_part hx, Bus.device_of_no_part (b := b.rebind i d) hx]
  | some j =>
    rw [Bus.device_of_part hx, Bus.device_of_part (b := b.rebind i d) hx]
    simp only [Bus.rebind, List.getD_eq_getElem?_getD, List.getElem?_set, Option.some.injEq, eq_comm (a := j)]
    split <;> rfl

/-- Swapping the old binding back leaves the bus as it was (`20_memory.md` R74, R98). -/
theorem Bus.set_old_of_swap {b b' : Bus} {a : Word} {d old : Option Device} (h : b.swap a d = some (old, b')) : b'.set a old = b := by
  cases hp : b.part a with
  | none => rw [Bus.swap_of_no_part d hp] at h; cases h
  | some i =>
    rw [Bus.swap_of_part d hp] at h
    cases h
    rw [Bus.set_of_part (b := b.rebind i d) _ hp, Bus.device_of_part hp]
    obtain ⟨w, starts, bindings⟩ := b
    simp only [Bus.rebind, List.set_set, Bus.mk.injEq, true_and]
    refine List.ext_getElem? fun j => ?_
    rw [List.getElem?_set]
    split
    · next hij => subst hij; split <;> simp_all
    · rfl

/-- Settles O52: with a partition at the address, `swap` rebinds that one; with none, it does nothing. -/
theorem swapRebindsOnePartition : Obligations.SwapRebindsOnePartition := by
  intro w n bs b0 b hnew hw hs hlen a d
  have hb := Bus.Built.of_new hnew hw hs
  refine ⟨fun ha => ?_, fun ha => ?_⟩
  · have hp := hb.part_eq_none ha
    exact ⟨Bus.swap_of_no_part d hp, Bus.set_of_no_part d hp⟩
  · obtain ⟨i, hp, hi, -, -⟩ := hb.part_spec ha
    exact ⟨b.rebind i d, Bus.swap_of_part d hp, Bus.set_of_part d hp, rfl, rfl, by simp [Bus.rebind, hlen],
      Bus.rebind_device d hp (hlen ▸ hi)⟩

/-! ## The console's wiring -/

/-- The CPU bus as the console wires it, with `d` bound to partition 3 (`20_memory.md` R90, R92, R94). -/
theorem Bus.cpuConsole_set_device (d : Option Device) (a : Word) :
    (Bus.cpuConsole.set 0x8000#16 d).device a =
      if a.toNat < 0x2000 then some .ram else if a.toNat < 0x4000 then some .ppuRegs else if a.toNat < 0x8000 then none else d := by
  have hset : Bus.cpuConsole.set 0x8000#16 d = Bus.cpuConsole.rebind 3 d := Bus.set_of_part d (by decide)
  have ha : a.toNat < 65536 := a.isLt
  rw [hset]
  simp only [Bus.rebind, Bus.device, Bus.part, Bus.cpuConsole, partIndex, Nat.reducePow, ha, if_true]
  split
  · rfl
  · split
    · rfl
    · split <;> rfl

/-- The video bus as the console wires it, with `d` bound to partition 0 (`20_memory.md` R95, R92). -/
theorem Bus.videoConsole_set_device (d : Option Device) (a : Word) :
    (Bus.videoConsole.set 0x0000#16 d).device a =
      if a.toNat < 0x2000 then d else if a.toNat < 0x4000 then some .vram else none := by
  have hset : Bus.videoConsole.set 0x0000#16 d = Bus.videoConsole.rebind 0 d := Bus.set_of_part d (by decide)
  rw [hset]
  simp only [Bus.rebind, Bus.device, Bus.part, Bus.videoConsole, partIndex, Nat.reducePow]
  by_cases ha : a.toNat < 0x4000
  · simp only [ha, if_true]
    split <;> rfl
  · simp [ha, show ¬ a.toNat < 0x2000 by omega]

/-- Binding nothing where nothing is bound leaves the console's buses as they are. -/
theorem Bus.cpuConsole_set_none : Bus.cpuConsole.set 0x8000#16 none = Bus.cpuConsole := by decide
theorem Bus.videoConsole_set_none : Bus.videoConsole.set 0x0000#16 none = Bus.videoConsole := by decide

theorem State.Wired.cpuBus_eq {s : State} (h : s.Wired) :
    ∃ d, (d = none ∨ d = some .prg) ∧ s.cpuBus = Bus.cpuConsole.set 0x8000#16 d := by
  rcases h.cpu with ⟨hb, -⟩ | ⟨hb, -⟩
  · exact ⟨none, .inl rfl, hb.trans Bus.cpuConsole_set_none.symm⟩
  · exact ⟨some .prg, .inr rfl, hb⟩

theorem State.Wired.videoBus_eq {s : State} (h : s.Wired) :
    ∃ d, (d = none ∨ d = some .chr) ∧ s.videoBus = Bus.videoConsole.set 0x0000#16 d := by
  rcases h.video with ⟨hb, -⟩ | ⟨hb, -⟩
  · exact ⟨none, .inl rfl, hb.trans Bus.videoConsole_set_none.symm⟩
  · exact ⟨some .chr, .inr rfl, hb⟩

/-- Settles O53: the ranges are the partitions, and only the cartridge's two vary. -/
theorem consoleMemoryMap : Obligations.ConsoleMemoryMap := by
  refine ⟨⟨_, rfl, by decide⟩, ⟨_, rfl, by decide⟩, fun s hw a => ?_⟩
  obtain ⟨p, hp, hcpu⟩ := hw.cpuBus_eq
  obtain ⟨c, hc, hvideo⟩ := hw.videoBus_eq
  rw [hcpu, hvideo, Bus.cpuConsole_set_device, Bus.videoConsole_set_device]
  refine ⟨fun h => if_pos h, fun h1 h2 => ?_, fun h1 h2 => ?_, fun h => ?_, fun h => ?_, fun h1 h2 => ?_, fun h => ?_⟩
  · rw [if_neg (by omega), if_pos h2]
  · rw [if_neg (by omega), if_neg (by omega), if_pos h2]
  · rwa [if_neg (by omega), if_neg (by omega), if_neg (by omega)]
  · rwa [if_pos h]
  · rw [if_neg (by omega), if_pos h2]
  · rw [if_neg (by omega), if_neg (by omega)]

end Sys2Proof.Machine
end

section
/-! PROOFS about the devices and the CPU's accesses (`20_memory.md` R75-R86, R91-R97, R105): what an access to each device gives, said once, and what an
access away from the PPU's registers leaves. -/

namespace Sys2Proof.Machine

/-! ## Accesses that no device serves, and plain memory -/

theorem memWrite_unserved {a : Word} {v : Byte} {s : State} (h : s.cpuBus.device a = none ∨ s.cpuBus.device a = some .prg) :
    memWrite a v s = .next { s with cpu := s.cpu.onBus a v true } := by
  rcases h with h | h <;> simp [memWrite, Bus.write, h, Device.write]

/-- What any read leaves of the CPU: the address and the byte on the bus, the byte being the old one where nothing served it. -/
theorem memRead_onBus {a : Word} {s t : State} {b : Byte} (h : memRead a s = .next (b, t)) :
    ∃ d, t.cpu = s.cpu.onBus a b d ∧ (d = true → b = s.cpu.eng.databus) := by
  unfold memRead at h
  split at h
  · next hr => cases h; exact ⟨false, by rw [(Bus.read_kept hr).cpu], nofun⟩
  · next hr => cases h; exact ⟨true, by rw [(Bus.read_kept hr).cpu], fun _ => rfl⟩
  · cases h
  · cases h

/-- Settles O54: the device behind the address decides what an access gives, and every read ends with the byte on the bus. -/
theorem unservedAccessesSetTheFaultFlag : Obligations.UnservedAccessesSetTheFaultFlag := by
  intro s a v
  refine ⟨fun h => ⟨memRead_unbound h, memWrite_unserved (.inl h)⟩, fun h => memWrite_unserved (.inr h), fun _ => memRead_peek,
    fun b t h => ?_⟩
  obtain ⟨d, hc, hd⟩ := memRead_onBus h
  rw [hc]
  exact ⟨rfl, rfl, hd⟩

/-! ## RAM (`20_memory.md` R91) -/

theorem ramIndex_eq (a : Word) : ramIndex a = a.toNat % 2048 := by
  rw [ramIndex, BitVec.toNat_and]
  exact Nat.and_two_pow_sub_one_eq_mod a.toNat 11

theorem memWrite_ram {a : Word} {v : Byte} {s : State} (h : s.cpuBus.device a = some .ram) :
    memWrite a v s = .next { s with ram := s.ram.write (ramIndex a) v, cpu := s.cpu.onBus a v false } := by
  simp [memWrite, Bus.write, h, Device.write]

theorem State.peek_ram {a : Word} {s : State} (h : s.cpuBus.device a = some .ram) : s.peek a = some (s.ram.read (ramIndex a)) := by
  simp only [State.peek, h]

/-- Settles O55: two addresses reach one cell of RAM exactly when they are equal modulo 2048. -/
theorem ramReadsBackAtEveryMirror : Obligations.RamReadsBackAtEveryMirror := by
  intro s a b v hwf ha hb
  refine ⟨_, memWrite_ram ha, rfl, Memory.wf_write hwf (ramIndex_lt a), rfl, rfl, rfl, memRead_peek ?_⟩
  rw [State.peek_ram (by exact hb), Memory.read_write hwf, ramIndex_eq, ramIndex_eq]

/-! ## Nametables (`20_memory.md` R96, R97) -/

/-- The transform bit by bit. -/
theorem hmirrorAddr_getLsbD (a : Word) {k : Nat} (hk : k < 16) :
    (hmirrorAddr a).getLsbD k = if k = 10 then a.getLsbD 11 else if k = 11 then false else a.getLsbD k := by
  have hcleared : ∀ k < 16, (0x0C00#16).getLsbD k = decide (k = 10 ∨ k = 11) := by decide
  have hmoved : ∀ k < 16, (0x0800#16).getLsbD (1 + k) = decide (k = 10) := by decide
  simp only [hmirrorAddr, BitVec.getLsbD_or, BitVec.getLsbD_and, BitVec.getLsbD_not, BitVec.getLsbD_ushiftRight, hk, hcleared k hk,
    hmoved k hk]
  by_cases h10 : k = 10
  · simp [h10]
  · by_cases h11 : k = 11 <;> simp [h10, h11]

/-- Within VRAM the transform puts bit 11 above the ten low bits. -/
theorem hmirrorAddr_mod (a : Word) : (hmirrorAddr a).toNat % 2048 = a.toNat / 2048 % 2 * 1024 + a.toNat % 1024 := by
  rw [Nat.mul_comm]
  refine Nat.eq_of_testBit_eq fun j => ?_
  have hbit : ∀ k < 16, (hmirrorAddr a).toNat.testBit k =
      if k = 10 then a.toNat.testBit 11 else if k = 11 then false else a.toNat.testBit k := fun _ => hmirrorAddr_getLsbD a
  have hleft : ((hmirrorAddr a).toNat % 2048).testBit j = (decide (j < 11) && (hmirrorAddr a).toNat.testBit j) :=
    Nat.testBit_mod_two_pow _ 11 j
  have hlow : (a.toNat % 1024).testBit j = (decide (j < 10) && a.toNat.testBit j) := Nat.testBit_mod_two_pow _ 10 j
  have hhigh : ∀ i, (a.toNat / 2048 % 2).testBit i = (decide (i < 1) && a.toNat.testBit (i + 11)) := fun i =>
    (Nat.testBit_mod_two_pow _ 1 i).trans (congrArg (decide (i < 1) && ·) (Nat.testBit_div_two_pow (n := 11) _ i))
  rw [hleft, Nat.testBit_two_pow_mul_add (i := 10) _ (Nat.mod_lt _ (by decide)), hlow, hhigh]
  rcases Nat.lt_trichotomy j 10 with hj | rfl | hj
  · simp [hbit j (by omega), hj, show j < 11 by omega, show j ≠ 10 by omega, show j ≠ 11 by omega]
  · simp [hbit 10]
  · simp [show ¬ j < 10 by omega, show ¬ j < 11 by omega, show ¬ j - 10 < 1 by omega]

/-- The VRAM cell of a nametable address (`20_memory.md` R96). -/
def vramCell (m : Mirroring) (a : Nat) : Nat :=
  match m with
  | .vertical => a % 2048
  | .horizontal => a / 2048 % 2 * 1024 + a % 1024

theorem vramCell_lt (m : Mirroring) (a : Nat) : vramCell m a < 2048 := by
  cases m <;> simp only [vramCell] <;> omega

theorem vramIndex_eq (m : Mirroring) (a : Word) : vramIndex m a = vramCell m a.toNat := by
  unfold vramIndex
  rw [BitVec.toNat_and]
  refine (Nat.and_two_pow_sub_one_eq_mod _ 11).trans ?_
  cases m with
  | vertical => rfl
  | horizontal => exact hmirrorAddr_mod a

theorem vWrite_vram {a : BitVec 14} {v : Byte} {s : State} (h : s.videoBus.device (a.setWidth 16) = some .vram) :
    vWrite a v s = .next { s with
      vram := s.vram.write (vramCell s.mirroring a.toNat) v, ppu := { s.ppu with bflt := false } } := by
  have ha : (a.setWidth 16).toNat = a.toNat := BitVec.toNat_setWidth_of_le (by decide)
  simp [vWrite, Bus.write, h, Device.write, vramIndex_eq, ha]

theorem vRead_vram {a : BitVec 14} {s : State} (h : s.videoBus.device (a.setWidth 16) = some .vram) :
    vRead a s = .next (some (s.vram.read (vramCell s.mirroring a.toNat)), { s with ppu := { s.ppu with bflt := false } }) := by
  have ha : (a.setWidth 16).toNat = a.toNat := BitVec.toNat_setWidth_of_le (by decide)
  simp [vRead, Bus.read, h, Device.read, vramIndex_eq, ha]

/-- Settles O56: the transform bit by bit, and VRAM read after a write at the cells the addresses fold to. -/
theorem nametablesMirror : Obligations.NametablesMirror := by
  refine ⟨fun a k => hmirrorAddr_getLsbD a, fun s a b v hwf ha hb => ?_⟩
  refine ⟨_, vWrite_vram ha, rfl, Memory.wf_write hwf (vramCell_lt _ _), ?_⟩
  rw [vRead_vram (by exact hb), Memory.read_write hwf]
  rfl

/-! ## DMA (`20_memory.md` R79, R80) -/

@[simp] theorem Memory.slice_length (m : Memory) (off k : Nat) : (m.slice off k).length = k := by simp [Memory.slice]

theorem Memory.slice_getElem? (m : Memory) (off : Nat) {k j : Nat} (h : j < k) : (m.slice off k)[j]? = some (m.read (off + j)) := by
  simp [Memory.slice, h]

/-- A transfer from a device that offers no bank, or from none, copies nothing. -/
theorem Bus.dma_of_no_bank {b : Bus} {a : Word} {s : State} (count : Nat) (h : ∀ d, b.device a = some d → d.bank s = none) :
    b.dma a count s = [] := by
  have hn : (b.device a).bind (·.bank s) = none := Option.bind_eq_none_iff.mpr h
  simp only [Bus.dma, hn]

/-- What a transfer from a bank of `held` of `size` bytes copies. -/
theorem Bus.dma_of_bank {b : Bus} {a : Word} {s : State} {d : Device} {size held : Nat} {m : Memory} (count : Nat) (hd : b.device a = some d)
    (hbank : d.bank s = some (size, held, m)) :
    (b.dma a count s).length = min count (min size held - a.toNat % size) ∧
      ∀ j < (b.dma a count s).length, (b.dma a count s)[j]? = some (m.read (a.toNat % size + j)) := by
  have hslice : b.dma a count s = m.slice (a.toNat % size) (min count (min size held - a.toNat % size)) := by
    simp only [Bus.dma, hd, Option.bind_some, hbank]
  rw [hslice, Memory.slice_length]
  exact ⟨rfl, fun j => Memory.slice_getElem? m _⟩

/-- Settles O57: the bank of each device. -/
theorem dmaClampsAtTheBank : Obligations.DmaClampsAtTheBank := by
  intro s b a count
  refine ⟨fun h => Bus.dma_of_no_bank count fun d hd => ?_, fun h => Bus.dma_of_bank count h rfl,
    fun prg32 chrRam hcart => ⟨fun h => Bus.dma_of_bank count h ?_, fun h => Bus.dma_of_bank count h ?_⟩,
    fun size hcart h => Bus.dma_of_bank count h ?_⟩
  · rcases h with h | h | h <;> rw [hd] at h <;> cases h <;> rfl
  · simp only [Device.bank, hcart, prgSize]
  · simp only [Device.bank, hcart]
  · simp only [Device.bank, hcart]

/-! ## Accesses away from the PPU's registers (`20_memory.md` R93, R105) -/

theorem memRead_off_ppu {a : Word} {s t : State} {b : Byte} (h : memRead a s = .next (b, t)) (hd : s.cpuBus.device a ≠ some .ppuRegs) :
    ∃ d, t = { s with cpu := s.cpu.onBus a b d } := by
  obtain ⟨d, p, rfl, rfl | ⟨hp, -⟩⟩ := memRead_frame h
  · exact ⟨d, rfl⟩
  · exact absurd hp hd

theorem memWrite_off_ppu {a : Word} {v : Byte} {s t : State} (h : memWrite a v s = .next t) (hd : s.cpuBus.device a ≠ some .ppuRegs) :
    t.ppu = s.ppu ∧ t.fixed = s.fixed ∧ t.lines = s.lines := by
  obtain ⟨d, -, hf, hl, -, -, -, -, hp | ⟨hp, -⟩, -⟩ := memWrite_frame h
  · exact ⟨hp, hf, hl⟩
  · exact absurd hp hd

/-- The access of a row that does not reach the register window. -/
theorem Row.access_off_ppu {r : Row} {s t : State} {b : Byte} (h : r.access s = .next (b, t))
    (hd : s.cpuBus.device r.addr ≠ some .ppuRegs) : t.ppu = s.ppu ∧ t.fixed = s.fixed ∧ t.lines = s.lines := by
  unfold Row.access at h
  split at h
  · obtain ⟨d, rfl⟩ := memRead_off_ppu h hd
    exact ⟨rfl, rfl, rfl⟩
  · obtain ⟨u, hu, h⟩ := Res.bind_eq_next.mp h
    cases h
    exact memWrite_off_ppu hu hd

/-- The dots after the next cycle find the PPU released and its reset line high, on a video bus of video devices. -/
structure State.ReleasedDots (s : State) : Prop where
  video : s.videoBus.without Device.notVideo = true
  released : s.ppu.prst.holdsPpu = false
  rstN : s.takeDriver.lines.rstN = true
  dots : ∀ l ∈ s.nextDots, l = true

theorem State.ReleasedDots.withCpu {s : State} (hs : s.ReleasedDots) (c : Cpu) : { s with cpu := c }.ReleasedDots := by
  have hlines : ({ s with cpu := c } : State).takeDriver.lines = s.takeDriver.lines := by
    simp only [State.takeDriver]; split <;> rfl
  exact ⟨hs.video, hs.released, hlines ▸ hs.rstN, hs.dots⟩

/-- The dots after a cycle that left the PPU as it was. -/
theorem State.ReleasedDots.sameRegisters {s u t : State} (hs : s.ReleasedDots) (hp : u.ppu = s.ppu) (hf : u.fixed = s.fixed)
    (hl : u.lines = s.takeDriver.lines) (h : Machine.dots s.nextDots u = .next t) : s.ppu.SameRegisters t.ppu := by
  obtain ⟨-, -, -, -, -, hvideo⟩ := State.fixed_eq.mp hf
  exact hp ▸ dots_sameRegisters (hvideo ▸ hs.video) (hl ▸ hs.rstN) (hp ▸ hs.released) hs.dots h

/-- The address on the bus after a cycle is that of its row. -/
theorem tick_addrbus {seq : Sequence} {k e : Bool} {s t : State} (hl : RowsLeave seq) (h : tick seq k s = .next (t, e)) :
    t.cpu.eng.addrbus = (seq s.cpu.eng.t s.cpu).addr := by
  obtain ⟨-, -, -, -, b, d, i, n, z, hc, -⟩ := tick_cpu h
  obtain ⟨-, -, -, haddr, -⟩ := (hl s.cpu.eng.t s.cpu).effect b (s.cpu.onBus (seq s.cpu.eng.t s.cpu).addr b d)
  rw [hc, Row.closeCpu_addrbus, haddr, Cpu.onBus_addrbus]

theorem tick_sameRegisters {seq : Sequence} {k e : Bool} {s t : State} (hl : RowsLeave seq) (hs : s.ReleasedDots)
    (h : tick seq k s = .next (t, e)) (hd : s.cpuBus.device t.cpu.eng.addrbus ≠ some .ppuRegs) : s.ppu.SameRegisters t.ppu := by
  rw [tick_addrbus hl h] at hd
  obtain ⟨⟨b, s1⟩, haccess, hrest⟩ := Res.bind_eq_next.mp h
  obtain ⟨u, hdots, hu⟩ := Res.bind_eq_next.mp hrest
  cases hu
  obtain ⟨hp, hf, hlines⟩ := Row.access_off_ppu haccess (by simpa using hd)
  refine hs.sameRegisters ?_ ?_ ?_ hdots
  · simpa using hp
  · exact (Row.finish_fixed ..).trans (hf.trans s.takeDriver_fixed)
  · simpa using hlines

theorem clock_sameRegisters {s t : State} (hs : s.ReleasedDots) (he : s.early = []) (h : clock s = .next t)
    (hd : s.cpuBus.device t.cpu.eng.addrbus ≠ some .ppuRegs) : s.ppu.SameRegisters t.ppu := by
  have hnow : clockNow s = .next t := by simpa [clock, State.runEarly_nil he] using h
  unfold clockNow at hnow
  split at hnow
  case isTrue => exact hs.sameRegisters (by simp) (by simp [State.fixed]) (by simp) hnow
  case isFalse hj =>
    split at hnow
    case isTrue hp =>
      split at hnow
      case isTrue => exact hs.sameRegisters (by simp) (by simp) (by simp) hnow
      case isFalse hh =>
        rcases step_from_boundary he (by simpa using hj) hp hh with ⟨seq, k, hl, -, hclock, -⟩ | ⟨e, -, hclock, -⟩
        · obtain ⟨⟨u, e⟩, htick, hu⟩ := Res.bind_eq_next.mp (hclock ▸ h)
          cases hu
          exact tick_sameRegisters (s := { s with cpu := s.cpu.beginSequence }) hl (hs.withCpu _) htick hd
        · rw [hclock] at h; cases h
    case isFalse hp =>
      unfold tickCurrent at hnow
      split at hnow
      case h_1 hc =>
        obtain ⟨⟨u, e⟩, htick, hu⟩ := Res.bind_eq_next.mp hnow
        cases hu
        exact tick_sameRegisters (currentSequence_leaves hc) hs htick hd
      case h_2 => cases hnow

/-- Settles O49: an access away from the window leaves the PPU, and the dots keep its registers. -/
theorem onlyTheRegisterWindowReachesThePpu : Obligations.OnlyTheRegisterWindowReachesThePpu := by
  refine ⟨fun s a v hd => ⟨fun b t h => ?_, fun t h => ?_⟩, fun s t hv hh he hr hl => clock_sameRegisters ⟨hv, hh, hr, hl⟩ he⟩
  · obtain ⟨d, rfl⟩ := memRead_off_ppu h hd
    exact ⟨rfl, rfl, rfl, rfl, rfl⟩
  · obtain ⟨hp, hf, -⟩ := memWrite_off_ppu h hd
    exact ⟨hp, hf⟩

end Sys2Proof.Machine
end

section
/-! PROOFS about the cartridges (`20_memory.md` R98-R102). What connecting displaced comes back at a removal, and on the console's wiring an inserted
cartridge answers in its own ranges. -/

namespace Sys2Proof.Machine

/-! ## Connecting and disconnecting -/

section
variable (s : State)
@[simp] theorem State.connectPrg_videoBus : s.connectPrg.videoBus = s.videoBus := by unfold State.connectPrg; split <;> rfl
@[simp] theorem State.connectPrg_displaced_chr : s.connectPrg.displaced.chr = s.displaced.chr := by unfold State.connectPrg; split <;> rfl
@[simp] theorem State.connectChr_cpuBus : s.connectChr.cpuBus = s.cpuBus := by unfold State.connectChr; split <;> rfl
@[simp] theorem State.connectChr_displaced_prg : s.connectChr.displaced.prg = s.displaced.prg := by unfold State.connectChr; split <;> rfl
end

theorem State.removeCartridge_cpuBus_of_none {s : State} (h : s.displaced.prg = none) : s.removeCartridge.cpuBus = s.cpuBus := by
  simp only [State.removeCartridge, h]

theorem State.removeCartridge_videoBus_of_none {s : State} (h : s.displaced.chr = none) : s.removeCartridge.videoBus = s.videoBus := by
  simp only [State.removeCartridge, h]

/-- What a removal leaves of the CPU bus depends on that bus and on what was displaced there. -/
theorem State.removeCartridge_cpuBus_congr {s t : State} (hb : t.cpuBus = s.cpuBus) (hd : t.displaced.prg = s.displaced.prg) :
    t.removeCartridge.cpuBus = s.removeCartridge.cpuBus := by
  simp only [State.removeCartridge, hb, hd]

/-- What connecting PRG displaced is swapped back at the removal (`20_memory.md` R98). -/
theorem State.connectPrg_removeCartridge_cpuBus {s : State} (h : s.displaced.prg = none) :
    s.connectPrg.removeCartridge.cpuBus = s.cpuBus := by
  unfold State.connectPrg
  split
  · next hswap => exact Bus.set_old_of_swap hswap
  · exact State.removeCartridge_cpuBus_of_none h

theorem State.connectChr_removeCartridge_videoBus {s : State} (h : s.displaced.chr = none) :
    s.connectChr.removeCartridge.videoBus = s.videoBus := by
  unfold State.connectChr
  split
  · next hswap => exact Bus.set_old_of_swap hswap
  · exact State.removeCartridge_videoBus_of_none h

theorem State.removeCartridge_removeCartridge (s : State) : s.removeCartridge.removeCartridge = s.removeCartridge := rfl

/-! ## Insertion -/

/-- The emptied console with the contents of a cartridge, not yet connected. -/
def State.loaded (kind : CartKind) (mir : Mirroring) (prg chr : Memory) (s : State) : State :=
  { s.removeCartridge with cart := kind, mirroring := mir, prg := prg, chr := chr }

theorem State.insertCartridge_rawImage {size : Nat} {m : Memory} (h : (Cartridge.rawImage size m).fits = true) (s : State) :
    s.insertCartridge (.rawImage size m) = .next (s.loaded (.rawImage size) .vertical m []).connectPrg := if_pos h

theorem State.insertCartridge_nrom {prg32 : Bool} {prg : Memory} {chr : ChrKind} {mir : Mirroring}
    (h : (Cartridge.nrom prg32 prg chr mir).fits = true) (s : State) :
    s.insertCartridge (.nrom prg32 prg chr mir) =
      .next (s.loaded (.nrom prg32 chr.isRam) mir prg chr.contents).connectPrg.connectChr := if_pos h

theorem State.insertCartridge_unimplemented (n : Nat) (s : State) :
    s.insertCartridge (.unimplemented n) = .refused (.unimplementedMapper n) := rfl

theorem State.insertCartridge_of_not_fits {c : Cartridge} (h : ¬ c.fits = true) (s : State) :
    s.insertCartridge c = .refused .badCartridgeImage := if_neg h

/-- An insertion that goes through connects PRG, and for an NROM CHR, on the emptied console. -/
theorem State.insertCartridge_next {c : Cartridge} {s t : State} (h : s.insertCartridge c = .next t) :
    ∃ kind mir prg chr, t = (s.loaded kind mir prg chr).connectPrg ∨ t = (s.loaded kind mir prg chr).connectPrg.connectChr := by
  by_cases hf : c.fits = true
  · cases c with
    | rawImage size m => rw [State.insertCartridge_rawImage hf] at h; cases h; exact ⟨_, _, _, _, .inl rfl⟩
    | nrom prg32 prg chr mir => rw [State.insertCartridge_nrom hf] at h; cases h; exact ⟨_, _, _, _, .inr rfl⟩
    | unimplemented n => rw [State.insertCartridge_unimplemented] at h; cases h
  · rw [State.insertCartridge_of_not_fits hf] at h; cases h

/-- Removing what was inserted leaves the buses that removing what stood there before left. -/
theorem State.insertCartridge_removeCartridge {c : Cartridge} {s t : State} (h : s.insertCartridge c = .next t) :
    t.removeCartridge.cpuBus = s.removeCartridge.cpuBus ∧ t.removeCartridge.videoBus = s.removeCartridge.videoBus := by
  obtain ⟨kind, mir, prg, chr, ht⟩ := State.insertCartridge_next h
  have hcpu : (s.loaded kind mir prg chr).connectPrg.removeCartridge.cpuBus = s.removeCartridge.cpuBus :=
    State.connectPrg_removeCartridge_cpuBus rfl
  have hchr : (s.loaded kind mir prg chr).connectPrg.displaced.chr = none := by rw [State.connectPrg_displaced_chr]; rfl
  have hvideo : (s.loaded kind mir prg chr).connectPrg.videoBus = s.removeCartridge.videoBus := by rw [State.connectPrg_videoBus]; rfl
  rcases ht with rfl | rfl
  · exact ⟨hcpu, (State.removeCartridge_videoBus_of_none hchr).trans hvideo⟩
  · exact ⟨(State.removeCartridge_cpuBus_congr (by simp) (by simp)).trans hcpu, (State.connectChr_removeCartridge_videoBus hchr).trans hvideo⟩

/-! ## What the devices answer -/

theorem State.peek_prg {s : State} {a : Word} (h : s.cpuBus.device a = some .prg) : s.peek a = s.prgRead a := by
  simp only [State.peek, h]

/-- The PRG of an NROM repeats (`20_memory.md` R99). -/
theorem State.prgRead_nrom {s : State} {prg32 ram : Bool} (h : s.cart = .nrom prg32 ram) (a : Word) :
    s.prgRead a = some (s.prg.read (a.toNat % prgSize prg32)) := by
  simp only [State.prgRead, h]

/-- A raw image ends where its bytes end (`20_memory.md` R102). -/
theorem State.prgRead_rawImage {s : State} {a : Word} {size : Nat} (h : s.cart = .rawImage size) (ha : 0x8000 ≤ a.toNat) :
    s.prgRead a = if a.toNat - 0x8000 < size then some (s.prg.read (a.toNat - 0x8000)) else none := by
  simp only [State.prgRead, h, ha, true_and]

theorem chrIndex_eq (a : Word) : chrIndex a = a.toNat % 8192 := by
  rw [chrIndex, BitVec.toNat_and]
  exact Nat.and_two_pow_sub_one_eq_mod a.toNat 13

/-- The CHR of an NROM answers every read. -/
theorem Bus.read_chr {b : Bus} {a : Word} {s : State} {prg32 ram : Bool} (h : b.device a = some .chr) (hc : s.cart = .nrom prg32 ram) :
    b.read a s = .next (some (s.chr.read (a.toNat % 8192)), s) := by
  simp only [Bus.read, h, Device.read, State.chrRead, hc, chrIndex_eq]

/-- It takes a write if it is RAM. -/
theorem Bus.write_chr {b : Bus} {a : Word} {v : Byte} {s : State} {prg32 ram : Bool} (h : b.device a = some .chr)
    (hc : s.cart = .nrom prg32 ram) :
    b.write a v s = .next (ram, if ram then { s with chr := s.chr.write (a.toNat % 8192) v } else s) := by
  cases ram <;> simp [Bus.write, h, Device.write, State.chrWrite, hc, chrIndex_eq]

/-! ## The console's wiring -/

theorem State.Wired.removeCartridge_cpuBus {s : State} (h : s.Wired) : s.removeCartridge.cpuBus = Bus.cpuConsole := by
  rcases h.cpu with ⟨hb, hd⟩ | ⟨hb, hd⟩
  · rw [State.removeCartridge_cpuBus_of_none hd, hb]
  · simp only [State.removeCartridge, hd, hb]; decide

theorem State.Wired.removeCartridge_videoBus {s : State} (h : s.Wired) : s.removeCartridge.videoBus = Bus.videoConsole := by
  rcases h.video with ⟨hb, hd⟩ | ⟨hb, hd⟩
  · rw [State.removeCartridge_videoBus_of_none hd, hb]
  · simp only [State.removeCartridge, hd, hb]; decide

/-- A state whose buses are the console's own and which displaced nothing. -/
structure State.Unplugged (s : State) : Prop where
  cpu : s.cpuBus = Bus.cpuConsole
  video : s.videoBus = Bus.videoConsole
  displaced : s.displaced = { prg := none, chr := none }

theorem State.Unplugged.wired {s : State} (h : s.Unplugged) : s.Wired :=
  ⟨.inl ⟨h.cpu, by rw [h.displaced]⟩, .inl ⟨h.video, by rw [h.displaced]⟩⟩

theorem State.Wired.removeCartridge {s : State} (h : s.Wired) : s.removeCartridge.Unplugged :=
  ⟨h.removeCartridge_cpuBus, h.removeCartridge_videoBus, rfl⟩

theorem State.Wired.loaded {s : State} (h : s.Wired) (kind : CartKind) (mir : Mirroring) (prg chr : Memory) :
    (s.loaded kind mir prg chr).Unplugged := ⟨h.removeCartridge_cpuBus, h.removeCartridge_videoBus, rfl⟩

/-- The console with PRG connected. -/
theorem State.Unplugged.connectPrg {s : State} (h : s.Unplugged) :
    s.connectPrg = { s with cpuBus := Bus.cpuConsole.set 0x8000#16 (some .prg), displaced := { prg := some none, chr := none } } := by
  have hswap : Bus.cpuConsole.swap 0x8000#16 (some .prg) = some (none, Bus.cpuConsole.set 0x8000#16 (some .prg)) := by decide
  simp only [State.connectPrg, h.cpu, hswap, h.displaced]

/-- The console with PRG and CHR connected. -/
theorem State.Unplugged.connectChr {s : State} (h : s.Unplugged) :
    s.connectPrg.connectChr = { s with
      cpuBus := Bus.cpuConsole.set 0x8000#16 (some .prg), videoBus := Bus.videoConsole.set 0x0000#16 (some .chr)
      displaced := { prg := some none, chr := some none } } := by
  have hswap : Bus.videoConsole.swap 0x0000#16 (some .chr) = some (none, Bus.videoConsole.set 0x0000#16 (some .chr)) := by decide
  simp only [h.connectPrg, State.connectChr, h.video, hswap]

theorem Bus.cpuConsole_set_device_high {d : Option Device} {a : Word} (ha : 0x8000 ≤ a.toNat) :
    (Bus.cpuConsole.set 0x8000#16 d).device a = d := by
  rw [Bus.cpuConsole_set_device, if_neg (by omega), if_neg (by omega), if_neg (by omega)]

/-- What an inserted NROM serves (`20_memory.md` R99, R101). -/
theorem State.Wired.insert_nrom {s : State} (h : s.Wired) {prg32 : Bool} {prg : Memory} {chr : ChrKind} {mir : Mirroring}
    (hfits : (Cartridge.nrom prg32 prg chr mir).fits = true) :
    ∃ t, s.insertCartridge (.nrom prg32 prg chr mir) = .next t ∧ t.Wired ∧ t.mirroring = mir ∧ t.ram = s.ram ∧ t.cpu = s.cpu ∧
      (∀ a : Word, 0x8000 ≤ a.toNat → t.peek a = some (prg.read (a.toNat % (if prg32 then 32768 else 16384)))) ∧
      ∀ (a : BitVec 14) (v : Byte), a.toNat < 8192 →
        t.videoBus.read (a.setWidth 16) t = .next (some (chr.contents.read a.toNat), t) ∧
        t.videoBus.write (a.setWidth 16) v t =
          .next (chr.isRam, if chr.isRam then { t with chr := t.chr.write a.toNat v } else t) := by
  have hu := h.loaded (.nrom prg32 chr.isRam) mir prg chr.contents
  rw [State.insertCartridge_nrom hfits, hu.connectChr]
  refine ⟨_, rfl, ⟨.inr ⟨rfl, rfl⟩, .inr ⟨rfl, rfl⟩⟩, rfl, rfl, rfl, fun a ha => ?_, fun a v ha => ?_⟩
  · exact (State.peek_prg (Bus.cpuConsole_set_device_high ha)).trans (State.prgRead_nrom rfl a)
  · have ha16 : (a.setWidth 16).toNat = a.toNat := BitVec.toNat_setWidth_of_le (by decide)
    have hcell : (a.setWidth 16).toNat % 8192 = a.toNat := by rw [ha16, Nat.mod_eq_of_lt ha]
    have hdev : (Bus.videoConsole.set 0x0000#16 (some .chr)).device (a.setWidth 16) = some .chr := by
      rw [Bus.videoConsole_set_device, ha16, if_pos ha]
    exact ⟨hcell ▸ Bus.read_chr hdev rfl, hcell ▸ Bus.write_chr hdev rfl⟩

/-- What an inserted raw image serves (`20_memory.md` R102). -/
theorem State.Wired.insert_rawImage {s : State} (h : s.Wired) {size : Nat} {m : Memory} (hfits : (Cartridge.rawImage size m).fits = true) :
    ∃ t, s.insertCartridge (.rawImage size m) = .next t ∧ t.Wired ∧ t.mirroring = .vertical ∧ t.ram = s.ram ∧ t.cpu = s.cpu ∧
      t.videoBus = Bus.videoConsole ∧
      ∀ a : Word, 0x8000 ≤ a.toNat →
        t.peek a = if a.toNat - 0x8000 < size then some (m.read (a.toNat - 0x8000)) else none := by
  have hu := h.loaded (.rawImage size) .vertical m []
  rw [State.insertCartridge_rawImage hfits, hu.connectPrg]
  refine ⟨_, rfl, ⟨.inr ⟨rfl, rfl⟩, .inl ⟨hu.video, rfl⟩⟩, rfl, rfl, rfl, hu.video, fun a ha => ?_⟩
  exact (State.peek_prg (Bus.cpuConsole_set_device_high ha)).trans (State.prgRead_rawImage rfl ha)

/-- Settles O58: on the console's wiring each cartridge by itself; and whatever the wiring, a removal undoes an insertion. -/
theorem cartridgesServeTheirRanges : Obligations.CartridgesServeTheirRanges := by
  refine ⟨fun s h => ⟨h.removeCartridge_cpuBus, h.removeCartridge_videoBus, h.removeCartridge.wired, fun n => s.insertCartridge_unimplemented n,
    fun prg32 prg chr mir => h.insert_nrom, fun size m => h.insert_rawImage⟩, fun s t c h => ?_⟩
  obtain ⟨hcpu, hvideo⟩ := State.insertCartridge_removeCartridge h
  refine ⟨by simpa only [State.insertCartridge, State.removeCartridge_removeCartridge] using h, hcpu, hvideo, rfl, fun hd => ?_⟩
  rw [hcpu, hvideo]
  exact ⟨State.removeCartridge_cpuBus_of_none (by rw [hd]), State.removeCartridge_videoBus_of_none (by rw [hd])⟩

end Sys2Proof.Machine
end

section
/-! PROOFS about decoding and encoding (`30_encoding.md`). An opcode byte is an entry of the map, a JAM or an UNK, and in each of the three the encoder, which is
written apart from the map, gives the byte back; around the opcode stand as many operand bytes as the instruction takes, never more than two. -/

namespace Sys2Proof

/-! ## The opcode map (`30_encoding.md` R123-R126) -/

theorem mem_of_lookupOpcode {op : Nat} {i : Instr} {l : List (Nat × Instr)} (h : lookupOpcode op l = some i) : (op, i) ∈ l := by
  induction l with
  | nil => cases h
  | cons p l ih =>
    obtain ⟨o, j⟩ := p
    simp only [lookupOpcode] at h
    split at h
    · next ho => cases h; exact ho ▸ .head l
    · exact .tail _ (ih h)

/-- The map of R123 against the encodings lines of files 41 to 45. -/
theorem officialOpcodes_encode : ∀ p ∈ officialOpcodes, p.2.wellFormed = true ∧ p.2.opcodeNat = some p.1 := by
  decide +kernel

theorem jam_or_unk_of_not_official :
    ∀ op : Byte, lookupOpcode op.toNat officialOpcodes = none → op.toNat ∈ jamOpcodes ∨ op.toNat ∈ unkOpcodes := by decide +kernel

/-- Every byte is official, JAM or UNK (`30_encoding.md` R126). -/
theorem decodeOpcode_cases (op : Byte) :
    (∃ i, (op.toNat, i) ∈ officialOpcodes ∧ decodeOpcode op = i) ∨
      (op.toNat ∈ jamOpcodes ∧ decodeOpcode op = .jam op) ∨ (op.toNat ∈ unkOpcodes ∧ decodeOpcode op = .unk op) := by
  cases h : lookupOpcode op.toNat officialOpcodes with
  | some i => exact .inl ⟨i, mem_of_lookupOpcode h, by simp only [decodeOpcode, h]⟩
  | none =>
    by_cases hj : op.toNat ∈ jamOpcodes
    · exact .inr (.inl ⟨hj, by simp only [decodeOpcode, h, if_pos hj]⟩)
    · exact .inr (.inr ⟨(jam_or_unk_of_not_official op h).resolve_left hj, by simp only [decodeOpcode, h, if_neg hj]⟩)

theorem encodeOpcode_of_opcodeNat {i : Instr} {op : Byte} (h : i.opcodeNat = some op.toNat) : encodeOpcode i = some op := by
  simp only [encodeOpcode, h, Option.map_some, BitVec.ofNat_toNat, BitVec.setWidth_eq]

theorem decodeOpcode_wellFormed (op : Byte) : (decodeOpcode op).wellFormed = true := by
  obtain ⟨i, hi, h⟩ | ⟨hj, h⟩ | ⟨hu, h⟩ := decodeOpcode_cases op <;> rw [h]
  · exact (officialOpcodes_encode _ hi).1
  · exact decide_eq_true hj
  · exact decide_eq_true hu

theorem encodeOpcode_decodeOpcode (op : Byte) : encodeOpcode (decodeOpcode op) = some op := by
  obtain ⟨i, hi, h⟩ | ⟨hj, h⟩ | ⟨hu, h⟩ := decodeOpcode_cases op <;> rw [h]
  · exact encodeOpcode_of_opcodeNat (officialOpcodes_encode _ hi).2
  · exact encodeOpcode_of_opcodeNat (if_pos hj)
  · exact encodeOpcode_of_opcodeNat (if_pos hu)

/-- Settles O3: the byte is an entry of the map, a JAM or an UNK. -/
theorem everyOpcodeByteDecodes : Obligations.EveryOpcodeByteDecodes :=
  ⟨fun op => ⟨decodeOpcode_wellFormed op, encodeOpcode_decodeOpcode op, decodeOpcode_cases op⟩,
    rfl, rfl, rfl, rfl, rfl, rfl, rfl, rfl, rfl, rfl, rfl, rfl, rfl, rfl⟩

open Laws.EncodeDecode in
/-- Each instruction by its own lemma of Laws/PerInstr.lean. -/
theorem encodes_and_decodes : ∀ i : Instr, Statement i
  | .lda m => lda m | .ldx m => ldx m | .ldy m => ldy m
  | .sta m => sta m | .stx m => stx m | .sty m => sty m
  | .tax => tax | .tay => tay | .txa => txa | .tya => tya | .tsx => tsx | .txs => txs
  | .adc m => adc m | .sbc m => sbc m
  | .and m => Laws.EncodeDecode.and m | .ora m => ora m | .eor m => eor m | .bit m => bit m
  | .cmp m => cmp m | .cpx m => cpx m | .cpy m => cpy m
  | .inc m => inc m | .dec m => dec m | .inx => inx | .iny => iny | .dex => dex | .dey => dey
  | .asl m => asl m | .lsr m => lsr m | .rol m => rol m | .ror m => ror m
  | .bcc => bcc | .bcs => bcs | .beq => beq | .bmi => bmi | .bne => bne | .bpl => bpl | .bvc => bvc | .bvs => bvs
  | .jmp m => jmp m | .jsr => jsr | .rts => rts | .rti => rti | .brk => brk
  | .pha => pha | .php => php | .pla => pla | .plp => plp
  | .clc => clc | .sec => sec | .cli => cli | .sei => sei | .clv => clv | .cld => cld | .sed => sed
  | .nop => nop | .jam op => jam op | .unk op => unk op

/-! ## Operand bytes (`30_encoding.md` R111, R127) -/

theorem MemMode.operandBytes_le_two (m : MemMode) : m.operandBytes ≤ 2 := by
  cases m <;> decide

theorem ReadMode.operandBytes_le_two : ∀ m : ReadMode, m.operandBytes ≤ 2
  | .imm => by decide
  | .mem m => m.operandBytes_le_two

theorem ShiftMode.operandBytes_le_two : ∀ m : ShiftMode, m.operandBytes ≤ 2
  | .acc => by decide
  | .mem m => m.toMem.operandBytes_le_two

theorem Instr.operandBytes_le_two (i : Instr) : i.operandBytes ≤ 2 := by
  cases i <;>
    simp only [Instr.operandBytes, MemMode.operandBytes_le_two, ReadMode.operandBytes_le_two, ShiftMode.operandBytes_le_two,
      Nat.zero_le, Nat.le_refl, Nat.le_succ]

theorem Operand.exists_bytes_append {n : Nat} (hn : n ≤ 2) {l : List Byte} (hl : n ≤ l.length) :
    ∃ (o : Operand) (rest : List Byte), l = o.bytes ++ rest ∧ o.bytes.length = n :=
  match n, l with
  | 0, l => ⟨.none, l, rfl, rfl⟩
  | 1, b1 :: rest => ⟨.one b1, rest, rfl, rfl⟩
  | 2, b1 :: b2 :: rest => ⟨.two b1 b2, rest, rfl, rfl⟩

/-! ## Decoding -/

theorem decode_cons {op : Byte} {o : Operand} (h : o.bytes.length = (decodeOpcode op).operandBytes) (rest : List Byte) :
    decode (op :: (o.bytes ++ rest)) = .ok (⟨decodeOpcode op, o⟩, rest) := by
  cases o <;> simp only [decode, ← h, Operand.bytes, List.length_nil, List.length_cons, List.nil_append, List.cons_append, Nat.zero_add,
    Nat.reduceAdd]

theorem decode_cons_of_short {op : Byte} {rest : List Byte} (h : rest.length < (decodeOpcode op).operandBytes) :
    decode (op :: rest) = .error (.truncated (decodeOpcode op)) := by
  simp only [decode]
  split
  · omega
  · rw [List.length_cons] at h
    omega
  · rw [List.length_cons, List.length_cons] at h
    omega
  · rfl

theorem encode_cons {i : Instr} {op : Byte} (h : encodeOpcode i = some op) (o : Operand) :
    encode ⟨i, o⟩ = some (op :: o.bytes) := by
  simp only [encode, h, Option.map_some]

theorem Encoded.wellFormed_iff {e : Encoded} :
    e.wellFormed = true ↔ e.instr.wellFormed = true ∧ e.operand.bytes.length = e.instr.operandBytes := by
  simp only [Encoded.wellFormed, Bool.and_eq_true, decide_eq_true_eq]

/-- Settles O1: the encoder's opcode decodes to the instruction, and the operand bytes after it are as many as the decoder then takes. -/
theorem encodedInstructionsDecode : Obligations.EncodedInstructionsDecode := by
  rintro ⟨i, o⟩ h
  obtain ⟨hi, ho⟩ := Encoded.wellFormed_iff.mp h
  obtain ⟨op, henc, rfl⟩ := encodes_and_decodes i hi
  refine ⟨op :: o.bytes, encode_cons henc o, ?_, decode_cons ho⟩
  rw [List.length_cons, ho, Instr.length, Nat.add_comm]

/-- Settles O2: a list with enough bytes after its opcode begins with that opcode's operand, and any other list is refused. -/
theorem decodedBytesEncodeBack : Obligations.DecodedBytesEncodeBack := by
  rintro (_ | ⟨op, l⟩)
  · exact ⟨fun _ _ h => (nomatch h), fun err h => .inl ⟨rfl, by cases h; rfl⟩⟩
  by_cases hl : (decodeOpcode op).operandBytes ≤ l.length
  · obtain ⟨o, rest, rfl, ho⟩ := Operand.exists_bytes_append (decodeOpcode op).operandBytes_le_two hl
    rw [decode_cons ho]
    refine ⟨fun e rest' h => ?_, fun _ h => (nomatch h)⟩
    cases h
    exact ⟨Encoded.wellFormed_iff.mpr ⟨decodeOpcode_wellFormed op, ho⟩, _, encode_cons (encodeOpcode_decodeOpcode op) o, rfl⟩
  · rw [decode_cons_of_short (Nat.lt_of_not_le hl)]
    refine ⟨fun _ _ h => (nomatch h), fun err h => .inr ⟨op, l, rfl, ?_, Nat.lt_of_not_le hl⟩⟩
    cases h
    rfl

end Sys2Proof
end

section
/-! PROOFS about the size of a step (`40_cycle_engine.md` R130, R132, R160, log 1). The dots before a step come first and are then used up; at a boundary
that fetches the step is `exec` of the opcode at PC; and from each place the CPU can be in the step is its clocks up to the next boundary. -/

namespace Sys2Proof.Machine

/-! ## The dots before a step (`00_scope.md` R8, log 16) -/

/-- Once the early dots have run there are none left to run. -/
theorem State.runEarly_bind_again {α : Type} (s : State) (k : State → Res α) :
    s.runEarly.bind k = s.runEarly.bind fun u => u.runEarly.bind k := by
  cases hu : s.runEarly with
  | next u =>
    obtain ⟨-, -, he, -⟩ := State.runEarly_kept hu
    simp [State.runEarly_nil he]
  | refused e => rfl
  | fault e => nomatch e

/-- A clock whose early dots have run is the clock from where they led. -/
theorem clock_eq_of_runEarly {s u : State} (h : s.runEarly = .next u) (he : u.early = []) : clock s = clock u := by
  simp [clock, h, State.runEarly_nil he]

/-! ## The instruction at PC -/

theorem State.FetchesNext.beginSequence {s : State} (h : s.FetchesNext) : s.cpu.beginSequence = s.cpu.start .fetch := by
  simp [Cpu.beginSequence, h.nothing.rst, h.nothing.nmi, h.nothing.irq]

theorem State.FetchesNext.step_eq {s : State} (h : s.FetchesNext) : step s = runNext s := by
  simp [step, State.runEarly_nil h.early, stepNow, h.jammed, h.presync, h.hold, runFromBoundary, h.beginSequence]

theorem State.FetchesNext.step_eq_exec {s : State} {b : Byte} (h : s.FetchesNext) (hb : s.opcodeAt = .next b) :
    step s = exec (decodeOpcode b) s := by
  rw [h.step_eq, runNext, hb, Res.bind_next]

/-- Where plain memory stands at PC, the opcode fetched is the byte it holds (`20_memory.md` R85). -/
theorem State.opcodeAt_of_peek {s : State} {b : Byte} (h : s.peek s.cpu.regs.pc = some b) : s.opcodeAt = .next b := by
  rw [State.opcodeAt, memRead_peek h, Res.bind_next]

/-- Settles O4: the early dots run once, and what follows them at such a boundary is `exec` of what the fetch at PC reads. -/
theorem stepRunsDecodedInstruction : Obligations.StepRunsDecodedInstruction := by
  refine ⟨fun s => ⟨s.runEarly_bind_again stepNow, s.runEarly_bind_again clockNow, fun u hu => ?_⟩, fun s hs => ⟨fun b hb => ?_, fun b hb => ?_⟩⟩
  · obtain ⟨-, -, he, -⟩ := State.runEarly_kept hu
    exact he
  · exact hs.step_eq_exec hb
  · exact hs.step_eq_exec (State.opcodeAt_of_peek hb)

/-! ## Clocks to the next boundary -/

theorem clocksToBoundary_of_refused {n : Nat} {s : State} {e : Refusal} (h : clock s = .refused e) :
    clocksToBoundary (n + 1) s = .refused e := by
  simp [clocksToBoundary, h]

/-- A clock that leads to a boundary or into the jam is the last. -/
theorem clocksToBoundary_last {n : Nat} {s t : State} (h : clock s = .next t)
    (ht : (t.cpu.eng.presync || t.cpu.eng.jammed) = true) : clocksToBoundary (n + 1) s = .next t := by
  simp only [clocksToBoundary, h, Res.bind_next, ht, if_true]

/-- After any other clock the clocks go on. -/
theorem clocksToBoundary_go {n : Nat} {s t : State} (h : clock s = .next t)
    (ht : (t.cpu.eng.presync || t.cpu.eng.jammed) = false) : clocksToBoundary (n + 1) s = clocksToBoundary n t := by
  simp only [clocksToBoundary, h, Res.bind_next, ht, Bool.false_eq_true, if_false]

/-- Where every clock leads to a boundary or into the jam, the first is all. -/
theorem clocksToBoundary_eq_clock {n : Nat} {s : State}
    (h : ∀ t, clock s = .next t → t.cpu.eng.presync = true ∨ t.cpu.eng.jammed = true) : clocksToBoundary (n + 1) s = clock s := by
  rcases (clock s).next_or_refused with ⟨t, ht⟩ | ⟨e, he⟩
  · rw [ht]; exact clocksToBoundary_last ht (by simpa using h t ht)
  · rw [he]; exact clocksToBoundary_of_refused he

/-! ## A step and its clocks, from each place the CPU can be in -/

/-- From a boundary: the sequence's first cycle is the first clock, and within the sequence its run is the clocks that are left. -/
theorem step_eq_clocks_of_boundary {s : State} (he : s.early = []) (hj : s.cpu.eng.jammed = false) (hp : s.cpu.eng.presync = true)
    (hh : s.cpu.trk.rst ≠ .serviced) : step s = clocksToBoundary maxCycles s := by
  rcases step_from_boundary he hj hp hh with ⟨seq, k, hl, hstep, hclock, hc⟩ | ⟨e, hstep, hclock, -⟩
  · obtain ⟨hpb, -, hjb, -⟩ := s.cpu.beginSequence_leaves
    rw [hstep]
    rcases (tick seq k { s with cpu := s.cpu.beginSequence }).next_or_refused with ⟨⟨u, ended⟩, hk⟩ | ⟨e, hk⟩
    · have hu : clock s = .next u := by rw [hclock, hk, Res.bind_next]
      obtain ⟨f, q, -⟩ := tick_leaves hl hk
      have hend := q.ended_iff hpb (hjb.trans hj)
      cases ended with
      | true => exact (runSequence_end hk).trans (clocksToBoundary_last hu hend).symm
      | false =>
        obtain ⟨hpu, hju⟩ := Bool.or_eq_false_iff.mp hend
        have hidx := q.index q.final_false
        calc runSequence seq k maxCycles { s with cpu := s.cpu.beginSequence }
          _ = runSequence seq k 7 u := runSequence_go hk
          _ = clocksToBoundary 7 u := runSequence_eq_clocks (q.early.trans he) hpu hju (by omega) (hc u hk)
          _ = clocksToBoundary maxCycles s := (clocksToBoundary_go hu hend).symm
    · have hs : clock s = .refused e := by rw [hclock, hk, Res.bind_refused]
      exact (by simp [runSequence, maxCycles, hk] : _ = Host.Outcome.refused e).trans (clocksToBoundary_of_refused hs).symm
  · rw [hstep]; exact (clocksToBoundary_of_refused hclock).symm

/-- From within a sequence: the rest of it is the clocks that are left, or there is none of that opcode and both are refused. -/
theorem step_eq_clocks_within {s : State} (he : s.early = []) (hj : s.cpu.eng.jammed = false) (hp : s.cpu.eng.presync = false)
    (ht : 1 ≤ s.cpu.eng.t) : step s = clocksToBoundary maxCycles s := by
  have hstep : step s = resume s := by simp [step, State.runEarly_nil he, stepNow, hj, hp]
  rw [hstep]
  unfold resume
  split
  case h_1 seq k hc => exact runSequence_eq_clocks he hp hj ht hc
  case h_2 hc =>
    refine (clocksToBoundary_of_refused ?_).symm
    simp [clock, State.runEarly_nil he, clockNow, hj, hp, tickCurrent, hc]

/-- With no dots to run first: jammed or held in reset the step is one clock, else it goes on from a boundary or within a sequence. -/
theorem step_eq_clocks_of_early_nil {s : State} (he : s.early = [])
    (hi : s.cpu.eng.presync = false → s.cpu.eng.jammed = false → 1 ≤ s.cpu.eng.t) : step s = clocksToBoundary maxCycles s := by
  cases hj : s.cpu.eng.jammed with
  | true =>
    have hstep : step s = jamCycle s := by simp [step, State.runEarly_nil he, stepNow, hj]
    have hclock : clock s = jamCycle s := by simp [clock, State.runEarly_nil he, clockNow, hj]
    rw [hstep, ← hclock]
    refine (clocksToBoundary_eq_clock fun t ht => ?_).symm
    obtain ⟨-, -, -, -, -, hend⟩ := jamCycle_leaves (hclock ▸ ht) hj
    exact hend
  | false =>
    cases hp : s.cpu.eng.presync with
    | false => exact step_eq_clocks_within he hj hp (hi hp hj)
    | true =>
      by_cases hh : s.cpu.trk.rst = .serviced
      · have hstep : step s = holdCycle s := by simp [step, State.runEarly_nil he, stepNow, hj, hp, hh]
        have hclock : clock s = holdCycle s := by simp [clock, State.runEarly_nil he, clockNow, hj, hp, hh]
        rw [hstep, ← hclock]
        refine (clocksToBoundary_eq_clock fun t ht => .inl ?_).symm
        obtain ⟨-, -, -, -, heng⟩ := holdCycle_leaves (hclock ▸ ht)
        rw [heng, hp]
      · exact step_eq_clocks_of_boundary he hj hp hh

theorem step_eq_clocks {s : State} (hi : s.cpu.eng.presync = false → s.cpu.eng.jammed = false → 1 ≤ s.cpu.eng.t) :
    step s = clocksToBoundary maxCycles s := by
  rcases s.runEarly.next_or_refused with ⟨u, hu⟩ | ⟨e, hu⟩
  · obtain ⟨hcpu, -, he, -⟩ := State.runEarly_kept hu
    have hclock := clock_eq_of_runEarly hu he
    calc step s
      _ = step u := step_eq_of_runEarly hu he
      _ = clocksToBoundary maxCycles u := step_eq_clocks_of_early_nil he (by rw [hcpu]; exact hi)
      _ = clocksToBoundary maxCycles s := by simp only [maxCycles, clocksToBoundary, hclock]
  · have hstep : step s = .refused e := by simp [step, hu]
    have hclock : clock s = .refused e := by simp [clock, hu]
    rw [hstep]; exact (clocksToBoundary_of_refused hclock).symm

/-- Settles O5: from each place the CPU can be in the step is its clocks, and a step of the invariant ends at a boundary, jammed, or within a
supplied sequence. -/
theorem stepIsItsClocks : Obligations.StepIsItsClocks := fun _ hi =>
  ⟨step_eq_clocks fun hp hj => (hi.index hp hj).1, fun _ h => (step_atStepEnd hi h).imp_right (.imp_right And.right)⟩

end Sys2Proof.Machine
end

section
/-! PROOFS about the clocks within an instruction, one CPU cycle each, and the address that an indexed mode reads before the carry of the index has reached
its high byte (`40_cycle_engine.md` R146, R148, R163). -/

namespace Sys2Proof.Machine

/-! ## Clocks within an instruction -/

theorem clocks_succ (n : Nat) (s : State) : clocks (n + 1) s = (clocks n s).bind clock := by
  induction n generalizing s with
  | zero => simp only [clocks, Res.bind_next]; cases clock s <;> rfl
  | succ n ih =>
    rw [clocks]
    cases h : clock s with
    | next t => rw [Res.bind_next, ih, clocks, h, Res.bind_next]
    | refused e => rw [Res.bind_refused, clocks, h, Res.bind_refused, Res.bind_refused]
    | fault e => nomatch e

/-- The CPU is within this sequence, past its first cycle. -/
structure State.Within (seq : Sequence) (k : Bool) (s : State) : Prop where
  early : s.early = []
  presync : s.cpu.eng.presync = false
  jammed : s.cpu.eng.jammed = false
  index : 1 ≤ s.cpu.eng.t
  current : currentSequence s.config s.cpu.eng.kind (decodeOpcode s.cpu.eng.opc) = some (seq, k)

theorem State.Within.clock_eq {seq : Sequence} {k e : Bool} {s t : State} (h : s.Within seq k) (ht : tick seq k s = .next (t, e)) :
    clock s = .next t := by
  simp [clock, State.runEarly_nil h.early, clockNow, h.jammed, h.presync, tickCurrent, h.current, ht]

theorem State.Within.go {seq : Sequence} {k : Bool} {s t : State} (h : s.Within seq k) (ht : tick seq k s = .next (t, false)) :
    t.Within seq k := by
  obtain ⟨f, q, -⟩ := tick_leaves (currentSequence_leaves h.current) ht
  have hf := q.final_false
  exact ⟨q.early.trans h.early, by rw [q.presync, hf, h.presync]; rfl, by rw [q.jammed, h.jammed]; rfl, by rw [q.index hf]; omega,
    by rw [(State.fixed_eq.mp q.fixed).1, q.kind, q.opc h.index]; exact h.current⟩

/-- The first `n` clocks of the instruction at PC, whose sequence is `seq`, only read; they led to `t`, and the step goes on from there. -/
structure Reached (seq : Sequence) (k : Bool) (n : Nat) (s t : State) : Prop where
  quiet : Quiet n s t
  within : t.Within seq k
  run : clocks n s = .next t
  rest : ∀ m, n + m = maxCycles → step s = runSequence seq k m t

/-- The opcode fetch is the first of them (`40_cycle_engine.md` R132). -/
theorem State.FetchesNext.reached {seq : Sequence} {k p : Bool} {s : State} {op : Byte} (hr : s.Running) (hs : s.FetchesNext)
    (hop : s.peek s.cpu.regs.pc = some op) (hseq : sequenceOf s.config (decodeOpcode op) = some (seq, k))
    (h0 : seq 0 (s.cpu.start .fetch) = fetchRow p (s.cpu.start .fetch)) :
    ∃ t, Reached seq k 1 s t ∧ t.cpu.eng.t = 1 ∧ t.cpu.regs = { s.cpu.regs with pc := s.cpu.regs.pc + 1 } := by
  have hpc := State.opcodeAt_of_peek hop
  obtain ⟨b, t, d, m, hk, hq, hc, hb⟩ := (Quiet.refl (hr.withCpu (s.cpu.start .fetch))).next (seq := seq) (k := k) h0 rfl
  obtain rfl : b = op := hb op (by rw [State.peek_withCpu]; exact hop)
  have hcfg : t.config = s.config := (State.fixed_eq.mp hq.fixed).1
  have hclock : clock s = .next t := by
    simp only [clock, State.runEarly_nil hs.early, Res.bind_next, clockNow, hs.jammed, hs.presync, hs.hold, if_true, if_false,
      Bool.false_eq_true, tickFirst, hs.beginSequence, Cpu.start_kind, hpc, hseq, hk]
  have hstep : step s = runSequence seq k maxCycles { s with cpu := s.cpu.start .fetch } :=
    (hs.step_eq_exec hpc).trans (exec_eq_run s hseq)
  refine ⟨t, ⟨hq.ofCpu, ⟨hq.running.early, by simp [hc, fetchRow], by simp [hc, fetchRow, hs.jammed], by simp [hc, fetchRow], ?_⟩, ?_, ?_⟩,
    by simp [hc, fetchRow], by simp [hc, fetchRow]⟩
  · simpa [hcfg, hc, fetchRow, currentSequence] using hseq
  · simp [clocks, hclock]
  · intro n hn
    rw [hstep, ← hn, Nat.add_comm, runSequence_go hk]

/-- One more read cycle, with row `r`. -/
theorem Reached.next {seq : Sequence} {k : Bool} {n : Nat} {s t : State} {r : Row} (h : Reached seq k n s t)
    (hr : seq t.cpu.eng.t t.cpu = r) (ho : r.out = none) (hf : r.final = false) (hh : r.halt = false) :
    ∃ b u d m, clock t = .next u ∧ Reached seq k (n + 1) s u ∧
      u.cpu = r.closeCpu k u.lines.irqN m true (r.effect b (t.cpu.onBus r.addr b d)) ∧ ∀ v, s.peek r.addr = some v → b = v := by
  obtain ⟨b, u, d, m, hk, hq, hc, hb⟩ := h.quiet.next (seq := seq) (k := k) hr ho
  rw [hf, hh] at hk
  have hu := h.within.clock_eq hk
  refine ⟨b, u, d, m, hu, ⟨hq, h.within.go hk, by rw [clocks_succ, h.run, Res.bind_next, hu], fun j hj => ?_⟩, hc, hb⟩
  rw [h.rest (j + 1) (by omega), runSequence_go hk]

/-- The final cycle, with row `r`: it is the last of the step. -/
theorem Reached.last {seq : Sequence} {k : Bool} {n : Nat} {s t : State} {r : Row} (h : Reached seq k n s t) (hn : n < maxCycles)
    (hr : seq t.cpu.eng.t t.cpu = r) (hf : r.final = true) :
    ∃ u, clock t = .next u ∧ clocks (n + 1) s = .next u ∧ step s = .next u ∧ u.cpu.eng.addrbus = r.addr ∧ u.cpu.eng.presync = true := by
  obtain ⟨b, u, hk, htick⟩ := tick_running (seq := seq) (commits := k) h.quiet.running hr
  rw [hf, Bool.true_or] at hk
  obtain ⟨d, m, hc, -⟩ := htick.cpu
  have hu := h.within.clock_eq hk
  obtain ⟨-, -, -, haddr, -⟩ := (hr ▸ currentSequence_leaves h.within.current t.cpu.eng.t t.cpu).effect b (t.cpu.onBus r.addr b d)
  refine ⟨u, hu, by rw [clocks_succ, h.run, Res.bind_next, hu], ?_, by simp [hc, haddr], by simp [hc, hf]⟩
  obtain ⟨j, hj⟩ : ∃ j, n + (j + 1) = maxCycles := ⟨maxCycles - n - 1, by omega⟩
  rw [h.rest _ hj, runSequence_end hk]

/-! ## Up to the uncorrected address -/

/-- The next cycle of an instruction of mode `m` is at the uncorrected address: the index is added to the low byte, `adc` holds its carry, and with the
carry the address is that of the operand. -/
structure AtUncorrected (seq : Sequence) (k : Bool) (m : MemMode) (zp : Byte → Byte) (b1 b2 : Byte) (s t : State) : Prop where
  reached : Reached seq k t.cpu.eng.t s t
  index : t.cpu.eng.t + 1 = MemMode.uncorrectedCycles m
  ea : MemMode.uncorrected m s.cpu.regs zp b1 b2 = some t.cpu.ea
  carry : t.cpu.eng.adc = MemMode.crosses m s.cpu.regs zp b1
  corrected : join (if t.cpu.eng.adc then t.cpu.eng.adh + 1#8 else t.cpu.eng.adh) t.cpu.eng.adl =
    MemMode.effectiveAddress m s.cpu.regs zp b1 b2

/-- With the base `h:l` and the index `i`. -/
theorem AtUncorrected.of {seq : Sequence} {k : Bool} {m : MemMode} {n : Nat} {zp : Byte → Byte} {b1 b2 h l i : Byte} {s t : State}
    (hreach : Reached seq k n s t) (hn : t.cpu.eng.t = n) (hcycles : n + 1 = MemMode.uncorrectedCycles m)
    (hh : t.cpu.eng.adh = h) (hl : t.cpu.eng.adl = l + i) (hc : t.cpu.eng.adc = carryOut l i)
    (hbefore : MemMode.uncorrected m s.cpu.regs zp b1 b2 = some (join h (l + i)))
    (hcross : MemMode.crosses m s.cpu.regs zp b1 = carryOut l i)
    (hafter : MemMode.effectiveAddress m s.cpu.regs zp b1 b2 = join h l + zext16 i) : AtUncorrected seq k m zp b1 b2 s t where
  reached := by rw [hn]; exact hreach
  index := by rw [hn, hcycles]
  ea := by rw [Cpu.ea, hh, hl, hbefore]
  carry := by rw [hc, hcross]
  corrected := by rw [hc, hh, hl, join_fix, hafter]

/-- The first three rows of `$nnnn,X` and `$nnnn,Y`, whichever of them polls (`40_cycle_engine.md` R146). -/
structure AbsIndexed (seq : Sequence) (index : Regs → Byte) : Prop where
  fetch : ∀ c, ∃ p, seq 0 c = fetchRow p c
  lo : ∀ c, ∃ p, seq 1 c = adlRow p c
  hi : ∀ c, ∃ p, seq 2 c = absIndexRow (index c.regs) p c

theorem absIndexSequence_absIndexed (index : Regs → Byte) (d : DataOp) : AbsIndexed (absIndexSequence index d) index :=
  ⟨fun _ => ⟨_, rfl⟩, fun _ => ⟨_, rfl⟩, fun _ => ⟨_, rfl⟩⟩

theorem rmwSequence_absIndexed (rmw : RmwOp) : AbsIndexed (rmwSequence .absx rmw) Regs.x :=
  ⟨fun _ => ⟨_, rfl⟩, fun _ => ⟨_, rfl⟩, fun _ => ⟨_, rfl⟩⟩

section
variable {seq : Sequence} {k : Bool} {s : State} {op b1 b2 : Byte} {zp : Byte → Byte}

/-- Three cycles of `$nnnn,X` or `$nnnn,Y` add the index to the low byte (`40_cycle_engine.md` R146). -/
theorem AbsIndexed.reached {index : Regs → Byte} (hrows : AbsIndexed seq index)
    (hindex : ∀ (r : Regs) pc, index { r with pc := pc } = index r) (hr : s.Running) (hs : s.FetchesNext)
    (hop : s.peek s.cpu.regs.pc = some op) (hseq : sequenceOf s.config (decodeOpcode op) = some (seq, k)) (ho : s.Operands 2 b1 b2 zp) :
    ∃ t, Reached seq k 3 s t ∧ t.cpu.eng.t = 3 ∧ t.cpu.eng.adh = b2 ∧ t.cpu.eng.adl = b1 + index s.cpu.regs ∧
      t.cpu.eng.adc = carryOut b1 (index s.cpu.regs) := by
  obtain ⟨p0, h0⟩ := hrows.fetch (s.cpu.start .fetch)
  obtain ⟨t1, r1, i1, g1⟩ := hs.reached hr hop hseq h0
  obtain ⟨p1, h1⟩ := hrows.lo t1.cpu
  obtain ⟨x1, t2, d2, m2, -, r2, c2, v1⟩ := r1.next (r := adlRow p1 t1.cpu) (by rw [i1]; exact h1) rfl rfl rfl
  obtain ⟨p2, h2⟩ := hrows.hi t2.cpu
  obtain ⟨x2, t3, d3, m3, -, r3, c3, v2⟩ := r2.next (r := absIndexRow (index t2.cpu.regs) p2 t2.cpu)
    (by rw [show t2.cpu.eng.t = 2 by simp [c2, adlRow, i1]]; exact h2) rfl rfl rfl
  have w1 : x1 = b1 := v1 b1 (by simpa [adlRow, g1] using ho.b1 (by decide))
  have w2 : x2 = b2 := v2 b2 (by simpa [absIndexRow, adlRow, c2, g1, BitVec.add_assoc] using ho.b2 (by decide))
  refine ⟨t3, r3, ?_, ?_, ?_, ?_⟩ <;> simp [c3, c2, absIndexRow, adlRow, g1, i1, hindex, w1, w2]

/-- `$nnnn,X` and `$nnnn,Y` (`40_cycle_engine.md` R146). -/
theorem AbsIndexed.atUncorrected {m : MemMode} {index : Regs → Byte} (hrows : AbsIndexed seq index)
    (hm : m = .absx ∧ index = Regs.x ∨ m = .absy ∧ index = Regs.y) (hr : s.Running) (hs : s.FetchesNext)
    (hop : s.peek s.cpu.regs.pc = some op) (hseq : sequenceOf s.config (decodeOpcode op) = some (seq, k)) (ho : s.Operands 2 b1 b2 zp) :
    ∃ t, AtUncorrected seq k m zp b1 b2 s t := by
  have hindex : ∀ (r : Regs) pc, index { r with pc := pc } = index r := by
    rcases hm with ⟨-, rfl⟩ | ⟨-, rfl⟩ <;> exact fun _ _ => rfl
  obtain ⟨t, hreach, hi, hh, hl, hc⟩ := hrows.reached hindex hr hs hop hseq ho
  rcases hm with ⟨rfl, rfl⟩ | ⟨rfl, rfl⟩ <;> exact ⟨t, .of hreach hi rfl hh hl hc rfl rfl rfl⟩

/-- `($nn),Y` (`40_cycle_engine.md` R148). -/
theorem indySequence_atUncorrected {d : DataOp} (hr : s.Running) (hs : s.FetchesNext) (hop : s.peek s.cpu.regs.pc = some op)
    (hseq : sequenceOf s.config (decodeOpcode op) = some (indySequence d, k)) (ho : s.Operands 1 b1 b2 zp) :
    ∃ t, AtUncorrected (indySequence d) k .indy zp b1 b2 s t := by
  obtain ⟨t1, r1, i1, g1⟩ := hs.reached (p := false) hr hop hseq rfl
  obtain ⟨x1, t2, d2, m2, -, r2, c2, v1⟩ := r1.next (r := ptrRow t1.cpu) (by rw [i1]; rfl) rfl rfl rfl
  simp only [ptrRow] at c2 v1
  have i2 : t2.cpu.eng.t = 2 := by simp [c2, i1]
  obtain ⟨x2, t3, d3, m3, -, r3, c3, v2⟩ := r2.next (r := ptrLoRow t2.cpu) (by rw [i2]; rfl) rfl rfl rfl
  simp only [ptrLoRow] at c3 v2
  have i3 : t3.cpu.eng.t = 3 := by simp [c3, i2]
  obtain ⟨x3, t4, d4, m4, -, r4, c4, v3⟩ := r3.next (r := indySequence d 3 t3.cpu) (by rw [i3]) rfl rfl rfl
  simp only [indySequence] at c4 v3
  have i4 : t4.cpu.eng.t = 4 := by simp [c4, i3]
  have w1 : x1 = b1 := v1 b1 (by simpa [g1] using ho.b1 (by decide))
  have w2 : x2 = zp b1 := v2 _ (by simpa [c2, w1] using ho.zp b1)
  have w3 : x3 = zp (b1 + 1#8) := v3 _ (by simpa [c3, c2, w1] using ho.zp (b1 + 1#8))
  have hh : t4.cpu.eng.adh = zp (b1 + 1#8) := by simp [c4, w3]
  have hl : t4.cpu.eng.adl = zp b1 + s.cpu.regs.y := by simp [c4, c3, c2, g1, w2]
  have hc : t4.cpu.eng.adc = carryOut (zp b1) s.cpu.regs.y := by simp [c4, c3, c2, g1, w2]
  exact ⟨t4, .of r4 i4 rfl hh hl hc rfl rfl rfl⟩

/-- The modes that have an uncorrected address. -/
theorem MemMode.uncorrected_eq_some {m : MemMode} {r : Regs} {a : Word} (h : MemMode.uncorrected m r zp b1 b2 = some a) :
    m = .absx ∨ m = .absy ∨ m = .indy := by
  cases m <;> simp_all [MemMode.uncorrected]

/-- A read or a store. -/
theorem memSequence_atUncorrected {m : MemMode} {d : DataOp} (hm : m = .absx ∨ m = .absy ∨ m = .indy) (hr : s.Running)
    (hs : s.FetchesNext) (hop : s.peek s.cpu.regs.pc = some op)
    (hseq : sequenceOf s.config (decodeOpcode op) = some (memSequence m d, k)) (ho : s.Operands m.operandBytes b1 b2 zp) :
    ∃ t, AtUncorrected (memSequence m d) k m zp b1 b2 s t := by
  rcases hm with rfl | rfl | rfl
  · exact (absIndexSequence_absIndexed Regs.x d).atUncorrected (.inl ⟨rfl, rfl⟩) hr hs hop hseq ho
  · exact (absIndexSequence_absIndexed Regs.y d).atUncorrected (.inr ⟨rfl, rfl⟩) hr hs hop hseq ho
  · exact indySequence_atUncorrected hr hs hop hseq ho

/-! ## At the uncorrected address and after it -/

/-- The row at the uncorrected address: a read that did not carry is at its operand, and any other fixes the high byte. -/
theorem memSequence_row_uncorrected {m : MemMode} {d : DataOp} (hm : m = .absx ∨ m = .absy ∨ m = .indy) {n : Nat} {c : Cpu}
    (hn : n + 1 = MemMode.uncorrectedCycles m) :
    memSequence m d n c = (if d.isRead && !c.eng.adc then d.row c.ea c else fixRow true c) := by
  rcases hm with rfl | rfl | rfl <;> cases hn <;> rfl

/-- The row after it is at the operand. -/
theorem memSequence_row_corrected {m : MemMode} {d : DataOp} (hm : m = .absx ∨ m = .absy ∨ m = .indy) {n : Nat} {c : Cpu}
    (hn : n = MemMode.uncorrectedCycles m) : memSequence m d n c = d.row c.ea c := by
  rcases hm with rfl | rfl | rfl <;> cases hn <;> rfl

/-- The cycle that fixes the high byte reads the uncorrected address, and the next is at the corrected one. -/
theorem AtUncorrected.fix {m : MemMode} {t : State} {p : Bool} (h : AtUncorrected seq k m zp b1 b2 s t)
    (hrow : seq t.cpu.eng.t t.cpu = fixRow p t.cpu) :
    ∃ u, Reached seq k (MemMode.uncorrectedCycles m) s u ∧ u.cpu.eng.t = MemMode.uncorrectedCycles m ∧ u.cpu.eng.addrbus = t.cpu.ea ∧
      u.cpu.ea = MemMode.effectiveAddress m s.cpu.regs zp b1 b2 := by
  obtain ⟨x, u, d, n, -, hreach, hc, -⟩ := h.reached.next hrow rfl rfl rfl
  simp only [fixRow] at hc
  refine ⟨u, h.index ▸ hreach, by simp [hc, h.index], by simp [hc], ?_⟩
  rw [← h.corrected]
  cases hcarry : t.cpu.eng.adc <;> simp [hc, Cpu.ea, hcarry]

end

theorem MemMode.uncorrectedCycles_lt (m : MemMode) : MemMode.uncorrectedCycles m < maxCycles := by cases m <;> decide

/-! ## The sequences of the three classes (`30_encoding.md` R122) -/

theorem sequenceOf_of_readMode {i : Instr} {m : MemMode} (g : Config) (h : Instr.readMode i = some m) :
    ∃ f, sequenceOf g i = some (memSequence m (.read f), true) := by
  unfold Instr.readMode at h
  split at h <;> cases h
  all_goals exact ⟨_, rfl⟩

theorem sequenceOf_of_storeMode {i : Instr} {m : MemMode} (g : Config) (h : Instr.storeMode i = some m) :
    ∃ sv, sequenceOf g i = some (memSequence m (.write sv), true) := by
  unfold Instr.storeMode at h
  split at h <;> cases h
  all_goals exact ⟨_, rfl⟩

theorem sequenceOf_of_modifyMode {i : Instr} {m : RmwMode} (g : Config) (h : Instr.modifyMode i = some m) :
    ∃ rmw, sequenceOf g i = some (rmwSequence m rmw, true) := by
  unfold Instr.modifyMode at h
  split at h <;> cases h
  all_goals exact ⟨_, rfl⟩

/-! ## Reads, stores and read-modify-writes -/

section
variable {s : State} {op b1 b2 : Byte} {zp : Byte → Byte} {a : Word}

/-- A read reads the uncorrected address, and the operand one clock later if the index carries; if not, that address is the operand's. -/
theorem read_uncorrected {m : MemMode} (hr : s.Running) (hs : s.FetchesNext) (hop : s.peek s.cpu.regs.pc = some op)
    (hm : Instr.readMode (decodeOpcode op) = some m) (ho : s.Operands m.operandBytes b1 b2 zp)
    (ha : MemMode.uncorrected m s.cpu.regs zp b1 b2 = some a) :
    ∃ u, clocks (MemMode.uncorrectedCycles m) s = .next u ∧ u.cpu.eng.addrbus = a ∧
      if MemMode.crosses m s.cpu.regs zp b1 then
        u.cpu.eng.presync = false ∧
        ∃ t, clock u = .next t ∧ t.cpu.eng.addrbus = MemMode.effectiveAddress m s.cpu.regs zp b1 b2 ∧ t.cpu.eng.presync = true ∧
          step s = .next t
      else a = MemMode.effectiveAddress m s.cpu.regs zp b1 b2 ∧ u.cpu.eng.presync = true ∧ step s = .next u := by
  obtain ⟨f, hseq⟩ := sequenceOf_of_readMode s.config hm
  have hmode := MemMode.uncorrected_eq_some ha
  obtain ⟨v, hv⟩ := memSequence_atUncorrected hmode hr hs hop hseq ho
  obtain rfl : a = v.cpu.ea := Option.some.inj (ha.symm.trans hv.ea)
  have hrow := memSequence_row_uncorrected (d := .read f) (c := v.cpu) hmode hv.index
  split
  case isTrue hcross =>
    obtain ⟨u, hreach, hi, haddr, hea⟩ := hv.fix (p := true) (by rw [hrow, hv.carry, hcross]; rfl)
    obtain ⟨t, hclock, -, hstep, htaddr, hend⟩ :=
      hreach.last (MemMode.uncorrectedCycles_lt m) (memSequence_row_corrected (d := .read f) hmode hi) rfl
    exact ⟨u, hreach.run, haddr, hreach.within.presync, t, hclock, htaddr.trans hea, hend, hstep⟩
  case isFalse hcross =>
    have hcarry : v.cpu.eng.adc = false := by rw [hv.carry]; simpa using hcross
    have hlt : v.cpu.eng.t + 1 < maxCycles := hv.index ▸ MemMode.uncorrectedCycles_lt m
    obtain ⟨u, -, hrun, hstep, haddr, hend⟩ :=
      hv.reached.last (r := (DataOp.read f).row v.cpu.ea v.cpu) (by omega) (hrow.trans (by rw [hcarry]; rfl)) rfl
    refine ⟨u, hv.index ▸ hrun, haddr, ?_, hend, hstep⟩
    rw [← hv.corrected, hcarry]; rfl

/-- A store reads the uncorrected address first, and its one write is at the corrected one. -/
theorem store_uncorrected {m : MemMode} (hr : s.Running) (hs : s.FetchesNext) (hop : s.peek s.cpu.regs.pc = some op)
    (hm : Instr.storeMode (decodeOpcode op) = some m) (ho : s.Operands m.operandBytes b1 b2 zp)
    (ha : MemMode.uncorrected m s.cpu.regs zp b1 b2 = some a) :
    ∃ u t, clocks (MemMode.uncorrectedCycles m) s = .next u ∧ u.cpu.eng.addrbus = a ∧ u.ram = s.ram ∧ u.cpu.eng.presync = false ∧
      clock u = .next t ∧ t.cpu.eng.addrbus = MemMode.effectiveAddress m s.cpu.regs zp b1 b2 ∧ t.cpu.eng.presync = true ∧
      step s = .next t := by
  obtain ⟨sv, hseq⟩ := sequenceOf_of_storeMode s.config hm
  have hmode := MemMode.uncorrected_eq_some ha
  obtain ⟨v, hv⟩ := memSequence_atUncorrected hmode hr hs hop hseq ho
  obtain rfl : a = v.cpu.ea := Option.some.inj (ha.symm.trans hv.ea)
  obtain ⟨u, hreach, hi, haddr, hea⟩ := hv.fix (memSequence_row_uncorrected (d := .write sv) hmode hv.index)
  obtain ⟨t, hclock, -, hstep, htaddr, hend⟩ :=
    hreach.last (MemMode.uncorrectedCycles_lt m) (memSequence_row_corrected (d := .write sv) hmode hi) rfl
  exact ⟨u, t, hreach.run, haddr, hreach.quiet.ram, hreach.within.presync, hclock, htaddr.trans hea, hend, hstep⟩

/-- A read-modify-write, which has the one mode `$nnnn,X`, reads the uncorrected address and then the corrected one, and goes on. -/
theorem modify_uncorrected {m : RmwMode} (hr : s.Running) (hs : s.FetchesNext) (hop : s.peek s.cpu.regs.pc = some op)
    (hm : Instr.modifyMode (decodeOpcode op) = some m) (ho : s.Operands m.toMem.operandBytes b1 b2 zp)
    (ha : MemMode.uncorrected m.toMem s.cpu.regs zp b1 b2 = some a) :
    ∃ u t, clocks (MemMode.uncorrectedCycles m.toMem) s = .next u ∧ u.cpu.eng.addrbus = a ∧ u.cpu.eng.presync = false ∧
      clock u = .next t ∧ t.cpu.eng.addrbus = MemMode.effectiveAddress m.toMem s.cpu.regs zp b1 b2 ∧ t.ram = s.ram ∧
      t.cpu.eng.presync = false := by
  obtain ⟨rmw, hseq⟩ := sequenceOf_of_modifyMode s.config hm
  obtain rfl : m = .absx := by cases m <;> simp_all [RmwMode.toMem, MemMode.uncorrected]
  obtain ⟨v, hv⟩ := (rmwSequence_absIndexed rmw).atUncorrected (.inl ⟨rfl, rfl⟩) hr hs hop hseq ho
  obtain rfl : a = v.cpu.ea := Option.some.inj (ha.symm.trans hv.ea)
  have hi3 : v.cpu.eng.t = 3 := Nat.succ.inj hv.index
  obtain ⟨u, hreach, hi, haddr, hea⟩ := hv.fix (p := false) (by rw [hi3]; rfl)
  obtain ⟨x, t, d, n, hclock, hreach', hc, -⟩ := hreach.next (r := rmwRows rmw u.cpu.ea 0 u.cpu) (by rw [hi]; rfl) rfl rfl rfl
  refine ⟨u, t, hreach.run, haddr, hreach.within.presync, hclock, ?_, hreach'.quiet.ram, hreach'.within.presync⟩
  have htaddr : t.cpu.eng.addrbus = u.cpu.ea := by simp [hc, rmwRows]
  exact htaddr.trans hea

end

/-- Settles O38: up to the uncorrected address the modes only read; a fixing cycle follows there, or a read that did not carry is at its
operand already. -/
theorem uncorrectedAddressIsReadFirst : Obligations.UncorrectedAddressIsReadFirst := fun _ _ _ _ _ _ hr hs hop =>
  ⟨fun _ hm ho ha => read_uncorrected hr hs hop hm ho ha, fun _ hm ho ha => store_uncorrected hr hs hop hm ho ha,
    fun _ hm ho ha => modify_uncorrected hr hs hop hm ho ha⟩

end Sys2Proof.Machine
end

section
/-! PROOFS about the loads, the stores and the transfers (`41_load_store_transfer.md`). Each of them is the sequence of its operand class with its own
compute step or stored byte, so what a run of that class leaves (Laws/Shapes.lean) gives its shape: what remains is that the compute step does not look at PC
and leaves it alone. -/

namespace Sys2Proof.Machine

/-- A list of encodings holds when each of its bytes, looked up in the opcode map, is found to be the instruction beside it. -/
theorem encodings_of_all {l : List (Byte × Instr)} (h : l.all (fun p => decide (decodeOpcode p.1 = p.2)) = true) : Encodings l := fun p hp =>
  of_decide_eq_true (List.all_eq_true.mp h p hp)

/-! ## Loads (`41_load_store_transfer.md` R201-R203) -/

section
variable {s : State} (h : s.Running)
include h

theorem State.Running.reads_lda (m : ReadMode) : s.Reads (.lda m) m opLda := State.reads_of (op := opLda) h rfl fun _ _ _ => rfl
theorem State.Running.reads_ldx (m : ReadMode) : s.Reads (.ldx m) m opLdx := State.reads_of (op := opLdx) h rfl fun _ _ _ => rfl
theorem State.Running.reads_ldy (m : ReadMode) : s.Reads (.ldy m) m opLdy := State.reads_of (op := opLdy) h rfl fun _ _ _ => rfl

/-! ## Stores (`41_load_store_transfer.md` R204-R206) -/

theorem State.Running.stores_sta (m : MemMode) : s.Stores (.sta m) m s.cpu.regs.a := State.stores_of (sv := Regs.a) h rfl fun _ _ => rfl
theorem State.Running.stores_stx (m : MemMode) : s.Stores (.stx m) m s.cpu.regs.x := State.stores_of (sv := Regs.x) h rfl fun _ _ => rfl
theorem State.Running.stores_sty (m : MemMode) : s.Stores (.sty m) m s.cpu.regs.y := State.stores_of (sv := Regs.y) h rfl fun _ _ => rfl

/-! ## Transfers (`41_load_store_transfer.md` R207-R212) -/

theorem State.Running.implies_tax : s.Implies .tax opTax := State.implies_of (op := opTax) h rfl fun _ _ => rfl
theorem State.Running.implies_tay : s.Implies .tay opTay := State.implies_of (op := opTay) h rfl fun _ _ => rfl
theorem State.Running.implies_txa : s.Implies .txa opTxa := State.implies_of (op := opTxa) h rfl fun _ _ => rfl
theorem State.Running.implies_tya : s.Implies .tya opTya := State.implies_of (op := opTya) h rfl fun _ _ => rfl
theorem State.Running.implies_tsx : s.Implies .tsx opTsx := State.implies_of (op := opTsx) h rfl fun _ _ => rfl
theorem State.Running.implies_txs : s.Implies .txs opTxs := State.implies_of (op := opTxs) h rfl fun _ _ => rfl

end

/-! ## The statements -/

/-- Settles O11: a load is the read sequence of its mode, whose last cycle hands the byte it read to the load's compute step. -/
theorem loadsGiveTheByteRead : Obligations.LoadsGiveTheByteRead :=
  ⟨encodings_of_all (by decide), encodings_of_all (by decide), fun m _ h => ⟨h.reads_lda m, h.reads_ldx m, h.reads_ldy m⟩⟩

/-- Settles O12: a store is the write sequence of its mode, which reads up to its last cycle and writes the register in it. -/
theorem storesReachTheirAddress : Obligations.StoresReachTheirAddress :=
  ⟨encodings_of_all (by decide), encodings_of_all (by decide), fun m _ h => ⟨h.stores_sta m, h.stores_stx m, h.stores_sty m⟩⟩

/-- Settles O13: a transfer is the implied sequence with its copy as the compute step of the second cycle. -/
theorem transfersCopyTheRegister : Obligations.TransfersCopyTheRegister :=
  ⟨encodings_of_all (by decide), fun _ h =>
    ⟨h.implies_tax, h.implies_tay, h.implies_txa, h.implies_tya, h.implies_tsx, h.implies_txs⟩⟩

end Sys2Proof.Machine
end

section
/-! PROOFS about the numbers that ADC and SBC compute, in binary and in decimal (`42_arith_logic.md` R220, R221, R226). The model computes with bytes; each
sum, difference and nibble is brought to the natural number or the integer it stands for. -/

namespace Sys2Proof.Machine

/-! ## Bits and nibbles of a byte as numbers -/

theorem bit_eq_decide (x : Byte) (i : Nat) : bit x i = decide (x.toNat / 2 ^ i % 2 = 1) := Nat.testBit_eq_decide_div_mod_eq

/-- Bit 7 is the sign. -/
theorem bit_seven (x : Byte) : bit x 7 = decide (128 ≤ x.toNat) := BitVec.getLsbD_last x

theorem bit_four_ofInt (k : Int) : bit (BitVec.ofInt 8 k) 4 = decide (k / 16 % 2 = 1) := by
  rw [bit_eq_decide, BitVec.toNat_ofInt]
  exact decide_eq_decide.mpr (by omega)

theorem nibbleLo_toNat (x : Byte) : (nibbleLo x).toNat = x.toNat % 16 := by
  rw [nibbleLo, BitVec.toNat_and]; exact Nat.and_two_pow_sub_one_eq_mod x.toNat 4

theorem nibbleHi_toNat (x : Byte) : (nibbleHi x).toNat = x.toNat / 16 := by
  rw [nibbleHi, BitVec.toNat_ushiftRight]; exact Nat.shiftRight_eq_div_pow x.toNat 4

theorem nibbleLo_eq (x : Byte) : nibbleLo x = BitVec.ofNat 8 (x.toNat % 16) := by
  rw [← nibbleLo_toNat, BitVec.ofNat_toNat, BitVec.setWidth_eq]

theorem nibbleHi_eq (x : Byte) : nibbleHi x = BitVec.ofNat 8 (x.toNat / 16) := by
  rw [← nibbleHi_toNat, BitVec.ofNat_toNat, BitVec.setWidth_eq]

/-- A high nibble above the low nibble of a byte. -/
theorem nibbles_toNat (h l : Byte) : ((h <<< 4) ||| nibbleLo l).toNat = h.toNat % 16 * 16 + l.toNat % 16 := by
  have hl : l.toNat % 16 < 2 ^ 4 := Nat.mod_lt _ (by decide)
  have hh : h.toNat <<< 4 % 2 ^ 8 = (h.toNat % 16) <<< 4 := by simp only [Nat.shiftLeft_eq]; omega
  rw [BitVec.toNat_or, BitVec.toNat_shiftLeft, nibbleLo_toNat, hh, ← Nat.shiftLeft_add_eq_or_of_lt hl, Nat.shiftLeft_eq]

theorem nibbles_ofInt (h l : Int) :
    (BitVec.ofInt 8 h <<< 4) ||| nibbleLo (BitVec.ofInt 8 l) = BitVec.ofInt 8 (h * 16 + l % 16) := by
  apply BitVec.eq_of_toNat_eq
  simp only [nibbles_toNat, BitVec.toNat_ofInt]
  omega

theorem nibbles_ofNat (h l : Nat) :
    (BitVec.ofNat 8 h <<< 4) ||| nibbleLo (BitVec.ofNat 8 l) = BitVec.ofNat 8 (h * 16 + l % 16) := by
  have hcast := nibbles_ofInt h l
  rw [BitVec.ofInt_natCast, BitVec.ofInt_natCast] at hcast
  exact hcast.trans (BitVec.ofInt_natCast 8 (h * 16 + l % 16))

/-! ## Binary addition and subtraction (`42_arith_logic.md` R220, R221) -/

/-- The sum with carry. -/
def binarySum (a v : Byte) (p : Flags) : Nat := a.toNat + v.toNat + p.c.toNat

/-- The nine bits of the model's sum hold it whole. -/
theorem nineBitSum_toNat (a v : Byte) (p : Flags) :
    (a.setWidth 9 + v.setWidth 9 + (if p.c then 1#9 else 0#9)).toNat = binarySum a v p := by
  have ha := a.isLt
  have hv := v.isLt
  cases hc : p.c <;> simp [binarySum, hc] <;> omega

theorem adcBinary_fst (a v : Byte) (p : Flags) : (adcBinary a v p).1 = BitVec.ofNat 8 (binarySum a v p) := by
  rw [← nineBitSum_toNat, BitVec.ofNat_toNat]; rfl

/-- C after ADC is the ninth bit. -/
theorem adcBinary_carry (a v : Byte) (p : Flags) : (adcBinary a v p).2.c = decide (256 ≤ binarySum a v p) := by
  rw [← nineBitSum_toNat]; exact BitVec.getLsbD_last _

/-- ADC over the sum as a number. -/
theorem adcBinary_eq (a v : Byte) (p : Flags) :
    adcBinary a v p = (BitVec.ofNat 8 (binarySum a v p), setNZ (BitVec.ofNat 8 (binarySum a v p)) { p with
      c := decide (256 ≤ binarySum a v p)
      v := bit (~~~(a ^^^ v) &&& (a ^^^ BitVec.ofNat 8 (binarySum a v p))) 7 }) := by
  rw [← adcBinary_carry, ← adcBinary_fst]; rfl

theorem complement_eq_not (v : Byte) : v ^^^ 0xFF#8 = ~~~v := BitVec.xor_allOnes

/-- "In binary mode SBC v is exactly ADC (v ^ $FF)" (`42_arith_logic.md` R221). -/
theorem sbcBinary_eq_adcBinary (a v : Byte) (p : Flags) : sbcBinary a v p = adcBinary a (v ^^^ 0xFF#8) p := by
  have hsign : ~~~(a ^^^ (v ^^^ 0xFF#8)) = a ^^^ v := by
    rw [← BitVec.xor_assoc, complement_eq_not, BitVec.not_not]
  simp only [sbcBinary, adcBinary, hsign]

theorem complement_toNat (v : Byte) : (v ^^^ 0xFF#8).toNat = 255 - v.toNat := by
  rw [complement_eq_not, BitVec.toNat_not]

theorem complement_toInt (v : Byte) : (v ^^^ 0xFF#8).toInt = -v.toInt - 1 := by
  have hv := v.isLt
  simp only [BitVec.toInt_eq_toNat_cond, complement_toNat]
  split <;> split <;> omega

/-- C after SBC says that nothing was borrowed. -/
theorem sbcBinary_carry (a v : Byte) (p : Flags) :
    (sbcBinary a v p).2.c = decide (v.toNat + (1 - p.c.toNat) ≤ a.toNat) := by
  have hv := v.isLt
  have hc := Bool.toNat_le p.c
  rw [sbcBinary_eq_adcBinary, adcBinary_carry, binarySum, complement_toNat]
  exact decide_eq_decide.mpr (by omega)

/-- SBC over the sum with the complement as a number. -/
theorem sbcBinary_eq (a v : Byte) (p : Flags) :
    sbcBinary a v p =
      (BitVec.ofNat 8 (binarySum a (v ^^^ 0xFF#8) p), setNZ (BitVec.ofNat 8 (binarySum a (v ^^^ 0xFF#8) p)) { p with
        c := decide (v.toNat + (1 - p.c.toNat) ≤ a.toNat)
        v := bit ((a ^^^ v) &&& (a ^^^ BitVec.ofNat 8 (binarySum a (v ^^^ 0xFF#8) p))) 7 }) := by
  rw [← sbcBinary_carry, ← adcBinary_fst, ← sbcBinary_eq_adcBinary]; rfl

/-- Binary is chosen with `P_BCD` false and with D clear. -/
theorem not_decimal {bcd : Bool} {p : Flags} (h : bcd = false ∨ p.d = false) : ¬ (bcd && p.d) = true := by
  rcases h with h | h <;> simp [h]

theorem adcResult_binary {bcd : Bool} {p : Flags} (h : bcd = false ∨ p.d = false) (a v : Byte) :
    adcResult bcd a v p = adcBinary a v p := if_neg (not_decimal h)

theorem sbcResult_binary {bcd : Bool} {p : Flags} (h : bcd = false ∨ p.d = false) (a v : Byte) :
    sbcResult bcd a v p = sbcBinary a v p := if_neg (not_decimal h)

/-! ## Overflow (`42_arith_logic.md` R220: "operands alike in sign, result differs") -/

theorem overflowBit_iff (a v r : Byte) : bit (~~~(a ^^^ v) &&& (a ^^^ r)) 7 = true ↔ bit a 7 = bit v 7 ∧ bit a 7 ≠ bit r 7 := by
  simp only [bit, BitVec.getLsbD_and, BitVec.getLsbD_not, BitVec.getLsbD_xor]
  cases a.getLsbD 7 <;> cases v.getLsbD 7 <;> simp

theorem adcBinary_overflow (a v : Byte) (p : Flags) :
    (adcBinary a v p).2.v = true ↔ a.toInt + v.toInt + p.c.toNat < -128 ∨ 127 < a.toInt + v.toInt + p.c.toNat := by
  have ha := a.isLt
  have hv := v.isLt
  have hc := Bool.toNat_le p.c
  rw [adcBinary_eq, setNZ, overflowBit_iff]
  simp only [bit_seven, BitVec.toNat_ofNat, binarySum, BitVec.toInt_eq_toNat_cond, ne_eq, decide_eq_decide]
  split <;> split <;> omega

/-- The sum of the signed values is that of the unsigned ones modulo 256. -/
theorem adcBinary_fst_signed (a v : Byte) (p : Flags) : (adcBinary a v p).1 = BitVec.ofInt 8 (a.toInt + v.toInt + p.c.toNat) := by
  simp only [adcBinary_fst, binarySum, BitVec.ofInt_add, BitVec.ofInt_toInt, BitVec.ofInt_natCast, BitVec.ofNat_add, BitVec.ofNat_toNat,
    BitVec.setWidth_eq]

/-- The exact difference with borrow is the exact sum with the complement. -/
theorem sub_borrow_eq (a v : Byte) (p : Flags) :
    a.toInt - v.toInt - (1 - (p.c.toNat : Int)) = a.toInt + (v ^^^ 0xFF#8).toInt + p.c.toNat := by
  rw [complement_toInt]; omega

/-- Settles O15: SBC is ADC of the complement, whose signed value is one less than the negative, so one lemma answers for both. -/
theorem overflowIsSignedOverflow : Obligations.OverflowIsSignedOverflow := fun a v p =>
  ⟨adcBinary_overflow a v p, by rw [sub_borrow_eq, sbcBinary_eq_adcBinary]; exact adcBinary_overflow _ _ p, adcBinary_fst_signed a v p, by
    rw [sub_borrow_eq, sbcBinary_eq_adcBinary]; exact adcBinary_fst_signed _ _ p⟩

/-! ## Decimal addition (`42_arith_logic.md` R226) -/

/-- A nibble's sum above 9, put right by 6. -/
def decimalAdjust (k : Nat) : Nat := if 9 < k then k + 6 else k

/-- The sum of the low nibbles. -/
def adcLow (a v : Byte) (p : Flags) : Nat := a.toNat % 16 + v.toNat % 16 + p.c.toNat

/-- The sum of the high nibbles, with the carry of the low ones. -/
def adcHigh (a v : Byte) (p : Flags) : Nat :=
  a.toNat / 16 + v.toNat / 16 + (if 15 < decimalAdjust (adcLow a v p) then 1 else 0)

theorem adcLow_le (a v : Byte) (p : Flags) : adcLow a v p ≤ 31 := by
  have hc := Bool.toNat_le p.c
  unfold adcLow; omega

theorem adcHigh_le (a v : Byte) (p : Flags) : adcHigh a v p ≤ 31 := by
  have ha := a.isLt
  have hv := v.isLt
  unfold adcHigh; split <;> omega

theorem decimalAdjust_le (k : Nat) : decimalAdjust k ≤ k + 6 := by
  unfold decimalAdjust; split <;> omega

theorem ofNat_lt_ofNat_iff {n k : Nat} (hn : n < 256) (hk : k < 256) : BitVec.ofNat 8 n < BitVec.ofNat 8 k ↔ n < k := by
  rw [BitVec.lt_def, BitVec.toNat_ofNat, BitVec.toNat_ofNat, Nat.mod_eq_of_lt hn, Nat.mod_eq_of_lt hk]

theorem byte_decimalAdjust {k : Nat} (hk : k ≤ 31) :
    (if 9#8 < BitVec.ofNat 8 k then BitVec.ofNat 8 k + 6#8 else BitVec.ofNat 8 k) = BitVec.ofNat 8 (decimalAdjust k) := by
  simp only [ofNat_lt_ofNat_iff (show 9 < 256 by decide) (show k < 256 by omega), decimalAdjust, ← BitVec.ofNat_add]
  split <;> rfl

theorem byte_adcLow (a v : Byte) (p : Flags) :
    nibbleLo a + nibbleLo v + (if p.c then 1#8 else 0#8) = BitVec.ofNat 8 (adcLow a v p) := by
  simp only [adcLow, nibbleLo_eq, BitVec.ofNat_add]
  cases p.c <;> rfl

theorem byte_adcHigh (a v : Byte) (p : Flags) :
    nibbleHi a + nibbleHi v + (if 0x0F#8 < BitVec.ofNat 8 (decimalAdjust (adcLow a v p)) then 1#8 else 0#8) =
      BitVec.ofNat 8 (adcHigh a v p) := by
  have hle := decimalAdjust_le (adcLow a v p)
  have hlow := adcLow_le a v p
  simp only [adcHigh, nibbleHi_eq, BitVec.ofNat_add,
    ofNat_lt_ofNat_iff (show 15 < 256 by decide) (show decimalAdjust (adcLow a v p) < 256 by omega)]
  split <;> rfl

theorem byte_shiftLeft_four (k : Nat) : BitVec.ofNat 8 k <<< 4 = BitVec.ofNat 8 (k * 16) := by
  apply BitVec.eq_of_toNat_eq
  rw [BitVec.toNat_shiftLeft, BitVec.toNat_ofNat, BitVec.toNat_ofNat, Nat.shiftLeft_eq, Nat.mod_mul_mod]

theorem byte_sum_eq_zero (a v : Byte) (p : Flags) :
    a + v + (if p.c then 1#8 else 0#8) = 0#8 ↔ binarySum a v p % 256 = 0 := by
  rw [← BitVec.toNat_inj]
  cases hc : p.c <;> simp [binarySum, hc]

/-- Decimal ADC over the numbers of R226's formulas. -/
theorem adcDecimal_eq (a v : Byte) (p : Flags) :
    adcDecimal a v p = (BitVec.ofNat 8 (decimalAdjust (adcHigh a v p) * 16 + decimalAdjust (adcLow a v p) % 16), { p with
      z := decide (binarySum a v p % 256 = 0)
      n := bit (BitVec.ofNat 8 (adcHigh a v p * 16)) 7
      v := bit (~~~(a ^^^ v) &&& (a ^^^ BitVec.ofNat 8 (adcHigh a v p * 16))) 7
      c := decide (15 < decimalAdjust (adcHigh a v p)) }) := by
  have hle := decimalAdjust_le (adcHigh a v p)
  have hhigh := adcHigh_le a v p
  simp only [adcDecimal, byte_adcLow, byte_decimalAdjust (adcLow_le a v p), byte_adcHigh, byte_decimalAdjust hhigh, nibbles_ofNat, byte_sum_eq_zero,
    ofNat_lt_ofNat_iff (show 15 < 256 by decide) (show decimalAdjust (adcHigh a v p) < 256 by omega)]
  rw [byte_shiftLeft_four]

/-! ## Decimal subtraction (`42_arith_logic.md` R226) -/

/-- A nibble's difference that borrowed, put right by 6: bit 4 of its two's complement says so. -/
def decimalUnadjust (k : Int) : Int := if k / 16 % 2 = 1 then k - 6 else k

/-- The difference of the low nibbles. -/
def sbcLow (a v : Byte) (p : Flags) : Int := (a.toNat % 16 : Int) - (v.toNat % 16 : Int) - (1 - (p.c.toNat : Int))

/-- The difference of the high nibbles, with the borrow of the low ones. -/
def sbcHigh (a v : Byte) (p : Flags) : Int :=
  (a.toNat / 16 : Int) - (v.toNat / 16 : Int) - (if sbcLow a v p / 16 % 2 = 1 then 1 else 0)

theorem ofInt_sub {w : Nat} (x y : Int) : BitVec.ofInt w (x - y) = BitVec.ofInt w x - BitVec.ofInt w y := by
  rw [Int.sub_eq_add_neg, BitVec.ofInt_add, BitVec.ofInt_neg, BitVec.sub_eq_add_neg]

theorem byte_decimalUnadjust (k : Int) :
    (if bit (BitVec.ofInt 8 k) 4 then BitVec.ofInt 8 k - 6#8 else BitVec.ofInt 8 k) = BitVec.ofInt 8 (decimalUnadjust k) := by
  simp only [bit_four_ofInt, decide_eq_true_eq, decimalUnadjust]
  split
  · rw [ofInt_sub]; rfl
  · rfl

theorem byte_sbcLow (a v : Byte) (p : Flags) :
    nibbleLo a - nibbleLo v - (if p.c then 0#8 else 1#8) = BitVec.ofInt 8 (sbcLow a v p) := by
  have hnat (x : Byte) : BitVec.ofInt 8 (x.toNat % 16 : Int) = BitVec.ofNat 8 (x.toNat % 16) := BitVec.ofInt_natCast 8 (x.toNat % 16)
  rw [sbcLow, ofInt_sub, ofInt_sub, hnat, hnat, nibbleLo_eq, nibbleLo_eq]
  cases p.c <;> rfl

theorem byte_sbcHigh (a v : Byte) (p : Flags) :
    (if bit (BitVec.ofInt 8 (sbcLow a v p)) 4 then nibbleHi a - nibbleHi v - 1#8 else nibbleHi a - nibbleHi v) =
      BitVec.ofInt 8 (sbcHigh a v p) := by
  have hnat (x : Byte) : BitVec.ofInt 8 (x.toNat / 16 : Int) = BitVec.ofNat 8 (x.toNat / 16) := BitVec.ofInt_natCast 8 (x.toNat / 16)
  simp only [bit_four_ofInt, decide_eq_true_eq, sbcHigh, ofInt_sub, hnat, nibbleHi_eq]
  split
  · rfl
  · exact (BitVec.sub_zero _).symm

/-- Decimal SBC over the integers of R226's formulas. -/
theorem sbcDecimal_eq (a v : Byte) (p : Flags) :
    sbcDecimal a v p =
      (BitVec.ofInt 8 (decimalUnadjust (sbcHigh a v p) * 16 + decimalUnadjust (sbcLow a v p) % 16), (sbcBinary a v p).2) := by
  simp only [sbcDecimal, byte_sbcLow, byte_sbcHigh, byte_decimalUnadjust, nibbles_ofInt]

/-! ## Two decimal digits -/

/-- A number below 100 in binary-coded decimal. -/
def bcdByte (k : Nat) : Byte := BitVec.ofNat 8 (k / 10 * 16 + k % 10)

theorem bcdByte_toNat {k : Nat} (hk : k < 100) : (bcdByte k).toNat = k / 10 * 16 + k % 10 := by
  rw [bcdByte, BitVec.toNat_ofNat]; omega

theorem bcdByte_low {k : Nat} (hk : k < 100) : (bcdByte k).toNat % 16 = k % 10 := by
  rw [bcdByte_toNat hk]; omega

theorem bcdByte_high {k : Nat} (hk : k < 100) : (bcdByte k).toNat / 16 = k / 10 := by
  rw [bcdByte_toNat hk]; omega

theorem lt_decimalAdjust_iff (k : Nat) : 15 < decimalAdjust k ↔ 9 < k := by
  unfold decimalAdjust; split <;> omega

/-- A sum of two digits and a carry, put right, has its last digit as its low nibble. -/
theorem decimalAdjust_mod {k : Nat} (hk : k < 20) : decimalAdjust k % 16 = k % 10 := by
  unfold decimalAdjust; split <;> omega

/-- So has a difference of two digits and a borrow. -/
theorem decimalUnadjust_mod {k : Int} (hk : -10 ≤ k ∧ k ≤ 9) : decimalUnadjust k % 16 = k % 10 := by
  unfold decimalUnadjust; split <;> omega

/-- Two sums of digits `h` and `l`, put right, are the last two digits of the number they stand for. -/
theorem decimalAdjust_digits {h l n : Nat} (hh : h < 20) (hl : l < 20) (hn : 10 * h + l % 10 = n) :
    BitVec.ofNat 8 (decimalAdjust h * 16 + decimalAdjust l % 16) = bcdByte (n % 100) := by
  have htens : n % 100 / 10 = h % 10 := by omega
  have hones : n % 100 % 10 = l % 10 := by omega
  have hhigh := decimalAdjust_mod hh
  apply BitVec.eq_of_toNat_eq
  rw [BitVec.toNat_ofNat, bcdByte_toNat (Nat.mod_lt _ (by decide)), htens, hones, decimalAdjust_mod hl]
  omega

/-- So are two differences, where `n` is 100 more so that it is not negative. -/
theorem decimalUnadjust_digits {h l : Int} {n : Nat} (hh : -10 ≤ h ∧ h ≤ 9) (hl : -10 ≤ l ∧ l ≤ 9) (hn : 10 * h + l % 10 + 100 = n) :
    BitVec.ofInt 8 (decimalUnadjust h * 16 + decimalUnadjust l % 16) = bcdByte (n % 100) := by
  have htens : (n % 100 / 10 : Nat) = h % 10 := by omega
  have hones : (n % 100 % 10 : Nat) = l % 10 := by omega
  have hhigh := decimalUnadjust_mod hh
  apply BitVec.eq_of_toNat_eq
  rw [BitVec.toNat_ofInt, bcdByte_toNat (Nat.mod_lt _ (by decide)), decimalUnadjust_mod hl]
  omega

section
variable {x y : Nat} (p : Flags) (hx : x < 100) (hy : y < 100)
include hx hy

/-- The sums of the digits, with the carry of the low ones, stand for the sum of the numbers. -/
theorem adc_digits : adcHigh (bcdByte x) (bcdByte y) p < 20 ∧ adcLow (bcdByte x) (bcdByte y) p < 20 ∧
    10 * adcHigh (bcdByte x) (bcdByte y) p + adcLow (bcdByte x) (bcdByte y) p % 10 = x + y + p.c.toNat := by
  have hc := Bool.toNat_le p.c
  simp only [adcHigh, lt_decimalAdjust_iff, adcLow, bcdByte_low hx, bcdByte_low hy, bcdByte_high hx, bcdByte_high hy]
  split <;> omega

theorem adcDecimal_bcdByte : (adcDecimal (bcdByte x) (bcdByte y) p).1 = bcdByte ((x + y + p.c.toNat) % 100) := by
  obtain ⟨hh, hl, hn⟩ := adc_digits p hx hy
  rw [adcDecimal_eq]; exact decimalAdjust_digits hh hl hn

theorem adcDecimal_bcdByte_carry : (adcDecimal (bcdByte x) (bcdByte y) p).2.c = true ↔ 100 ≤ x + y + p.c.toNat := by
  obtain ⟨-, -, hn⟩ := adc_digits p hx hy
  rw [adcDecimal_eq, decide_eq_true_eq, lt_decimalAdjust_iff]; omega

/-- The differences of the digits, with the borrow of the low ones, stand for the difference of the numbers. -/
theorem sbc_digits :
    (-10 ≤ sbcHigh (bcdByte x) (bcdByte y) p ∧ sbcHigh (bcdByte x) (bcdByte y) p ≤ 9) ∧
    (-10 ≤ sbcLow (bcdByte x) (bcdByte y) p ∧ sbcLow (bcdByte x) (bcdByte y) p ≤ 9) ∧
    10 * sbcHigh (bcdByte x) (bcdByte y) p + sbcLow (bcdByte x) (bcdByte y) p % 10 + 100 = (x + 99 - y + p.c.toNat : Nat) := by
  have hc := Bool.toNat_le p.c
  have hxlow := bcdByte_low hx
  have hylow := bcdByte_low hy
  have hxhigh := bcdByte_high hx
  have hyhigh := bcdByte_high hy
  unfold sbcHigh sbcLow
  split <;> omega

theorem sbcDecimal_bcdByte : (sbcDecimal (bcdByte x) (bcdByte y) p).1 = bcdByte ((x + 99 - y + p.c.toNat) % 100) := by
  obtain ⟨hh, hl, hn⟩ := sbc_digits p hx hy
  rw [sbcDecimal_eq]; exact decimalUnadjust_digits hh hl hn

/-- Binary-coded decimals are in the order of their numbers, so the borrow of the binary subtraction is the decimal one. -/
theorem sbcDecimal_bcdByte_carry : (sbcDecimal (bcdByte x) (bcdByte y) p).2.c = true ↔ y + (1 - p.c.toNat) ≤ x := by
  have hc := Bool.toNat_le p.c
  rw [sbcDecimal_eq, sbcBinary_carry, decide_eq_true_eq, bcdByte_toNat hx, bcdByte_toNat hy]
  omega

end

/-- Settles O17: the digits' sums and differences, put right, are the digits of the sum and of the difference. -/
theorem decimalArithmeticOnDigits : Obligations.DecimalArithmeticOnDigits := fun _ _ p hx hy =>
  ⟨adcDecimal_bcdByte p hx hy, adcDecimal_bcdByte_carry p hx hy, sbcDecimal_bcdByte p hx hy, sbcDecimal_bcdByte_carry p hx hy⟩

end Sys2Proof.Machine
end

section
/-! PROOFS about the arithmetic and logic instructions (`42_arith_logic.md`). Each is the sequence of its operand class with its own compute step, as the loads
are, so what remains is what that step computes. -/

namespace Sys2Proof.Machine

/-- A read instruction may be described by any function that agrees with its compute step on the registers it starts from. -/
theorem State.Reads.congr {i : Instr} {m : ReadMode} {f g : Byte → Regs → Regs} {s : State} (h : s.Reads i m f)
    (hfg : ∀ v, f v s.cpu.regs = g v s.cpu.regs) : s.Reads i m g := by
  obtain ⟨n, t, he, ha, hc, hd, hregs⟩ := h
  exact ⟨n, t, he, ha, hc, hd, hregs.trans (by rw [hfg])⟩

/-! ## The compute step of each instruction -/

section
variable {s : State} (h : s.Running)
include h

theorem State.Running.reads_adc (m : ReadMode) : s.Reads (.adc m) m (opAdc s.config.bcd) :=
  State.reads_of (op := opAdc s.config.bcd) h rfl fun _ _ _ => rfl
theorem State.Running.reads_sbc (m : ReadMode) : s.Reads (.sbc m) m (opSbc s.config.bcd) :=
  State.reads_of (op := opSbc s.config.bcd) h rfl fun _ _ _ => rfl
theorem State.Running.reads_and (m : ReadMode) : s.Reads (.and m) m opAnd := State.reads_of (op := opAnd) h rfl fun _ _ _ => rfl
theorem State.Running.reads_ora (m : ReadMode) : s.Reads (.ora m) m opOra := State.reads_of (op := opOra) h rfl fun _ _ _ => rfl
theorem State.Running.reads_eor (m : ReadMode) : s.Reads (.eor m) m opEor := State.reads_of (op := opEor) h rfl fun _ _ _ => rfl
theorem State.Running.reads_bit (m : MemMode) : s.Reads (.bit m) (.mem m) opBit :=
  State.reads_of (op := opBit) h rfl fun _ _ _ => rfl
theorem State.Running.reads_cmp (m : ReadMode) : s.Reads (.cmp m) m opCmp := State.reads_of (op := opCmp) h rfl fun _ _ _ => rfl
theorem State.Running.reads_cpx (m : ReadMode) : s.Reads (.cpx m) m opCpx := State.reads_of (op := opCpx) h rfl fun _ _ _ => rfl
theorem State.Running.reads_cpy (m : ReadMode) : s.Reads (.cpy m) m opCpy := State.reads_of (op := opCpy) h rfl fun _ _ _ => rfl
theorem State.Running.modifies_inc (m : RmwMode) : s.Modifies (.inc m) m incResult :=
  State.modifies_of (rmw := incResult) h rfl (fun _ _ => rfl) rfl
theorem State.Running.modifies_dec (m : RmwMode) : s.Modifies (.dec m) m decResult :=
  State.modifies_of (rmw := decResult) h rfl (fun _ _ => rfl) rfl
theorem State.Running.implies_inx : s.Implies .inx opInx := State.implies_of (op := opInx) h rfl fun _ _ => rfl
theorem State.Running.implies_iny : s.Implies .iny opIny := State.implies_of (op := opIny) h rfl fun _ _ => rfl
theorem State.Running.implies_dex : s.Implies .dex opDex := State.implies_of (op := opDex) h rfl fun _ _ => rfl
theorem State.Running.implies_dey : s.Implies .dey opDey := State.implies_of (op := opDey) h rfl fun _ _ => rfl

end

/-! ## The statements -/

/-- Settles O14: the compute step is the binary one with `P_BCD` false and with D clear, and its nine-bit sum is the sum of the numbers. -/
theorem addAndSubtractInBinary : Obligations.AddAndSubtractInBinary :=
  ⟨encodings_of_all (by decide), encodings_of_all (by decide), fun m s h hb =>
    ⟨(h.reads_adc m).congr fun v => by simp only [opAdc, adcResult_binary hb, adcBinary_eq]; rfl,
     (h.reads_sbc m).congr fun v => by simp only [opSbc, sbcResult_binary hb, sbcBinary_eq]; rfl⟩⟩

/-- Settles O16: the compute step is the decimal one, whose bytes hold the numbers of the formulas. -/
theorem decimalModeFormulas : Obligations.DecimalModeFormulas :=
  ⟨fun m s h hbcd hd =>
    ⟨(h.reads_adc m).congr fun v => by simp only [opAdc, adcResult, hbcd, hd, Bool.and_self, if_true, adcDecimal_eq]; rfl,
     (h.reads_sbc m).congr fun v => by simp only [opSbc, sbcResult, hbcd, hd, Bool.and_self, if_true, sbcDecimal_eq]; rfl⟩,
    fun a v _ => ⟨adcResult_binary (.inl rfl) a v, sbcResult_binary (.inl rfl) a v⟩⟩

/-- Settles O18: the compute steps are the bitwise results themselves. -/
theorem logicWritesOnlyItsResult : Obligations.LogicWritesOnlyItsResult :=
  ⟨encodings_of_all (by decide), encodings_of_all (by decide), encodings_of_all (by decide), encodings_of_all (by decide), fun m _ h =>
    ⟨h.reads_and m, h.reads_ora m, h.reads_eor m, h.reads_bit⟩⟩

/-- Settles O19: the flags are those of `compare`, whatever D is. -/
theorem compareSetsCarryZeroSign : Obligations.CompareSetsCarryZeroSign :=
  ⟨encodings_of_all (by decide), encodings_of_all (by decide), fun m _ h => ⟨h.reads_cmp m, h.reads_cpx m, h.reads_cpy m⟩⟩

/-- Settles O20: INC and DEC are the read-modify-write sequence of their mode, and the register forms the implied one. -/
theorem incrementAndDecrement : Obligations.IncrementAndDecrement :=
  ⟨encodings_of_all (by decide), encodings_of_all (by decide), fun _ h =>
    ⟨fun m => ⟨h.modifies_inc m, h.modifies_dec m⟩, h.implies_inx, h.implies_iny, h.implies_dex, h.implies_dey⟩⟩

end Sys2Proof.Machine
end

section
/-! PROOFS about the shifts and rotates (`43_shift_rotate.md`). Each is the sequence of its mode with its own compute step, the implied one on the accumulator
and the read-modify-write one on memory; what remains is the number that the shifted byte stands for. -/

namespace Sys2Proof.Machine

/-! ## Shifted bytes as numbers -/

theorem bitAt_toNat {i : Nat} (hi : i < 8) (c : Bool) : (bitAt i c).toNat = c.toNat <<< i := by
  have hlt : 2 ^ i < 2 ^ 8 := Nat.pow_lt_pow_right (by decide) hi
  cases c
  · simp [bitAt]
  · simp only [bitAt, if_true, BitVec.toNat_shiftLeft, Bool.toNat_true, Nat.shiftLeft_eq, Nat.one_mul]
    simpa using hlt

/-- A byte shifted left with `c` in the freed bit. -/
theorem shiftLeft_or_bitAt (x : Byte) (c : Bool) : (x <<< 1) ||| bitAt 0 c = BitVec.ofNat 8 (x.toNat * 2 + c.toNat) := by
  have hkept : x.toNat <<< 1 % 2 ^ 8 = (x.toNat % 128) <<< 1 := by simp only [Nat.shiftLeft_eq]; omega
  have hbit : c.toNat < 2 ^ 1 := c.toNat_lt
  apply BitVec.eq_of_toNat_eq
  rw [BitVec.toNat_or, BitVec.toNat_shiftLeft, bitAt_toNat (by decide), Nat.shiftLeft_zero, hkept,
    ← Nat.shiftLeft_add_eq_or_of_lt hbit, Nat.shiftLeft_eq, BitVec.toNat_ofNat]
  omega

/-- A byte shifted right with `c` in the freed bit. -/
theorem shiftRight_or_bitAt (x : Byte) (c : Bool) : (x >>> 1) ||| bitAt 7 c = BitVec.ofNat 8 (x.toNat / 2 + c.toNat * 128) := by
  have hkept : x.toNat >>> 1 < 2 ^ 7 := by have := x.isLt; rw [Nat.shiftRight_eq_div_pow]; omega
  have hbit : c.toNat < 2 := c.toNat_lt
  apply BitVec.eq_of_toNat_eq
  rw [BitVec.toNat_or, BitVec.toNat_ushiftRight, bitAt_toNat (by decide), Nat.or_comm, ← Nat.shiftLeft_add_eq_or_of_lt hkept,
    Nat.shiftLeft_eq, Nat.shiftRight_eq_div_pow, BitVec.toNat_ofNat]
  omega

/-! ## The compute steps (`43_shift_rotate.md` R250-R253) -/

/-- A result with the flags every shift and rotate sets: the bit shifted out, and N and Z. -/
def shiftedOut (r : Byte) (out : Bool) (p : Flags) : Byte × Flags := (r, setNZ r { p with c := out })

theorem rolResult_eq (x : Byte) (p : Flags) :
    rolResult x p = shiftedOut (BitVec.ofNat 8 (x.toNat * 2 + p.c.toNat)) (x.getLsbD 7) p := by
  rw [← shiftLeft_or_bitAt]; rfl

theorem rorResult_eq (x : Byte) (p : Flags) :
    rorResult x p = shiftedOut (BitVec.ofNat 8 (x.toNat / 2 + p.c.toNat * 128)) (x.getLsbD 0) p := by
  rw [← shiftRight_or_bitAt]; rfl

theorem aslResult_eq (x : Byte) (p : Flags) : aslResult x p = shiftedOut (BitVec.ofNat 8 (x.toNat * 2)) (x.getLsbD 7) p := by
  have hzero : x <<< 1 = BitVec.ofNat 8 (x.toNat * 2) := by simpa [bitAt] using shiftLeft_or_bitAt x false
  rw [← hzero]; rfl

theorem lsrResult_eq (x : Byte) (p : Flags) : lsrResult x p = shiftedOut (BitVec.ofNat 8 (x.toNat / 2)) (x.getLsbD 0) p := by
  have hzero : x >>> 1 = BitVec.ofNat 8 (x.toNat / 2) := by simpa [bitAt] using shiftRight_or_bitAt x false
  rw [← hzero]; rfl

/-! ## The shapes -/

/-- A shift or rotate on the accumulator and on memory, from its compute step. -/
theorem State.Running.shifts {i : ShiftMode → Instr} {rmw rmw' : RmwOp} {s : State} (h : s.Running)
    (he : ∀ m, exec (i m) s = runInstr (shiftSequence m rmw) s) (hi : ∀ v p, (rmw v p).2.i = p.i) (hr : ∀ x p, rmw x p = rmw' x p) :
    s.Implies (i .acc) (rmwAcc rmw') ∧ ∀ m, s.Modifies (i (.mem m)) m rmw' := by
  obtain rfl : rmw = rmw' := funext fun x => funext (hr x)
  exact ⟨State.implies_of h (he .acc) fun _ _ => rfl, fun m => State.modifies_of h (he (.mem m)) hi rfl⟩

/-- Settles O21: the compute step of each is the shift of the number, on the accumulator and on memory alike. -/
theorem shiftsAndRotates : Obligations.ShiftsAndRotates := by
  refine ⟨encodings_of_all (by decide), encodings_of_all (by decide), encodings_of_all (by decide), encodings_of_all (by decide), fun s h => ?_⟩
  obtain ⟨aslA, aslMem⟩ := h.shifts (i := .asl) (fun _ => rfl) (fun _ _ => rfl) aslResult_eq
  obtain ⟨lsrA, lsrMem⟩ := h.shifts (i := .lsr) (fun _ => rfl) (fun _ _ => rfl) lsrResult_eq
  obtain ⟨rolA, rolMem⟩ := h.shifts (i := .rol) (fun _ => rfl) (fun _ _ => rfl) rolResult_eq
  obtain ⟨rorA, rorMem⟩ := h.shifts (i := .ror) (fun _ => rfl) (fun _ _ => rfl) rorResult_eq
  exact ⟨⟨aslA, lsrA, rolA, rorA⟩, fun m => ⟨aslMem m, lsrMem m, rolMem m, rorMem m⟩⟩

end Sys2Proof.Machine
end

section
/-! PROOFS about the branches, the jumps, the subroutines, the returns and BRK (`44_control.md`). The run of each is a lemma of Laws/Flow.lean or
Laws/Entry.lean; what remains is to read the statement off the engine's latches, and for BRK, which shares its cycles with the interrupts, to
say once what an entry that pushes leaves. -/

namespace Sys2Proof.Machine

/-! ## Branches (`44_control.md` R270-R277) -/

section
variable {s : State} (h : s.Running)
include h

theorem State.Running.branches_bcc : s.Branches .bcc (!s.cpu.regs.p.c) := State.branches_of (cond := fun p => !p.c) h rfl
theorem State.Running.branches_bcs : s.Branches .bcs s.cpu.regs.p.c := State.branches_of (cond := Flags.c) h rfl
theorem State.Running.branches_bne : s.Branches .bne (!s.cpu.regs.p.z) := State.branches_of (cond := fun p => !p.z) h rfl
theorem State.Running.branches_beq : s.Branches .beq s.cpu.regs.p.z := State.branches_of (cond := Flags.z) h rfl
theorem State.Running.branches_bpl : s.Branches .bpl (!s.cpu.regs.p.n) := State.branches_of (cond := fun p => !p.n) h rfl
theorem State.Running.branches_bmi : s.Branches .bmi s.cpu.regs.p.n := State.branches_of (cond := Flags.n) h rfl
theorem State.Running.branches_bvc : s.Branches .bvc (!s.cpu.regs.p.v) := State.branches_of (cond := fun p => !p.v) h rfl
theorem State.Running.branches_bvs : s.Branches .bvs s.cpu.regs.p.v := State.branches_of (cond := Flags.v) h rfl

end

/-- Settles O22: a branch is the relative sequence on its flag. -/
theorem branchesFollowTheirFlag : Obligations.BranchesFollowTheirFlag :=
  ⟨encodings_of_all (by decide), fun _ h =>
    ⟨h.branches_bcc, h.branches_bcs, h.branches_bne, h.branches_beq, h.branches_bpl, h.branches_bmi, h.branches_bvc, h.branches_bvs⟩⟩

/-! ## Jumps, subroutines and returns (`44_control.md` R262-R266) -/

/-- Settles O23: absolute, PC is `adh:adl`, the operand bytes; indirect, those latches hold the pointer, and the byte after it is read at
`adh:(adl + 1)`, on the pointer's own page. -/
theorem jumpsLoadTheProgramCounter : Obligations.JumpsLoadTheProgramCounter := by
  refine ⟨encodings_of_all (by decide), fun s h => ⟨?_, ?_⟩⟩
  · obtain ⟨t, hrun, hquiet, hcommitted, hsync, hjam, hregs, hadl, hadh⟩ := run_jmp_abs h
    refine ⟨t, hrun, hquiet.afterReads hsync hjam, hcommitted, by rw [hregs], fun b1 b2 h1 h2 => ?_⟩
    rw [hregs, Cpu.ea, hadl b1 h1, hadh b2 h2]
  · obtain ⟨t, hrun, hquiet, hcommitted, hsync, hjam, hregs, hadl, hadh, hlat, -, hdata⟩ := run_jmp_ind h
    refine ⟨t, hrun, hquiet.afterReads hsync hjam, hcommitted, by rw [hregs], fun b1 b2 l k h1 h2 hl hk => ?_⟩
    rw [hadl b1 h1, hadh b2 h2] at hlat hdata
    rw [hregs, hlat l hl, hdata k hk]

/-- Settles O24: the high operand byte is read once both pushes are in RAM, which nothing after it changes. -/
theorem jsrPushesItsLastByteAddress : Obligations.JsrPushesItsLastByteAddress := by
  refine ⟨encodings_of_all (by decide), fun s h => ?_⟩
  obtain ⟨t, hrun, hwent, hcommitted, hsync, hjam, hregs, hadl, hadh⟩ := run_jsr h
  refine ⟨t, hrun, hwent.afterStores rfl (fun hplain => ?_) hsync hjam, hcommitted, by rw [hregs], fun b1 b2 h1 h2 => ?_⟩
  · simpa using hplain
  · rw [State.peek_congr (s := { s with ram := t.ram }) hwent.fixed rfl] at h2
    rw [hregs, Cpu.ea, hadl b1 h1, hadh b2 h2]

/-- Settles O25: RTS goes to one past the pulled `adh:adl`; RTI has pulled the status before its poll, so the mask latched there is the
I it restored. -/
theorem returnsPullWhatWasPushed : Obligations.ReturnsPullWhatWasPushed := by
  refine ⟨encodings_of_all (by decide), fun s h => ⟨?_, ?_⟩⟩
  · obtain ⟨t, hrun, hquiet, hcommitted, hsync, hjam, hregs, hadl, hadh⟩ := run_rts h
    refine ⟨t, hrun, hquiet.afterReads hsync hjam, hcommitted, by rw [hregs], fun l k hl hk => ?_⟩
    rw [hregs, Cpu.ea, hadl l hl, hadh k hk]
  · obtain ⟨t, hrun, hquiet, hcommitted, hsync, hjam, p, hregs, hp, hadl, hadh⟩ := run_rti h
    refine ⟨t, hrun, hquiet.afterReads hsync hjam, hcommitted, by rw [hregs], by rw [hregs]; rfl, by rw [hregs]; rfl,
      fun b l k hb hl hk => ?_⟩
    rw [hregs, Cpu.ea, hp b hb, hadl l hl, hadh k hk]
    exact ⟨rfl, rfl⟩

/-! ## Entries that push (`40_cycle_engine.md` R157, R158, `60_exceptions.md` R366, R368) -/

/-- The pushes of an entry as the list of stores that `State.Entered` names. -/
theorem State.pushEntry_ram (s : State) (pc : Word) (status : Byte) :
    (s.pushEntry pc status).ram = s.ramAfterAll [(stackAddr s.cpu.regs.s, hi pc), (stackAddr (s.cpu.regs.s - 1), lo pc),
      (stackAddr (s.cpu.regs.s - 2), status)] := by
  simp only [State.pushEntry, State.push_ram, State.push_s, BitVec.sub_sub]
  rfl

/-- What BRK, IRQ and NMI leave from T2 on: the entry, and PC at the vector for the NMI tracker `x` of T5, which is PENDING when an NMI has
been seen by T2, and is not when none had and the NMI line stays high. -/
theorem entry_enters {k : EntryKind} {s s2 : State} {pc : Word} (hk : k ≠ .rst) (hwent : Went 2 true s.ram s s2)
    (ht : s2.cpu.eng.t = 2) (hregs : s2.cpu.regs = { s.cpu.regs with pc := pc }) (hjam : s2.cpu.eng.jammed = s.cpu.eng.jammed) :
    ∃ t x, runSequence (entrySequence k) false 6 s2 = .next t ∧ s.Entered pc (k.statusByte s.cpu.regs.p) t ∧
      t.AtVector (k.vector x) ∧ t.cpu.eng.kind = s2.cpu.eng.kind ∧ (s2.NothingCommitted → t.NothingCommitted) ∧
      (s2.nmiSeen → x = .pending) ∧ (s.plainStack = true → s.NmiHigh → ¬ s2.nmiSeen → x ≠ .pending) := by
  obtain ⟨t, x, hrun, hwent7, hregs7, -, -, hsync, hjam7, hkind, -, hadl, hadh, hseen, hunseen, -, hirq, hnmi, hrst⟩ :=
    entry_tail hk hwent ht hregs
  have hpeek : t.peek = { s with ram := t.ram }.peek := State.peek_congr hwent7.fixed rfl
  refine ⟨t, x, hrun, ⟨hwent7.afterStores (s.pushEntry_ram _ _) (fun hplain => ?_) hsync (hjam7.trans hjam), by rw [hregs7]⟩,
    fun l h hl hh => ?_, hkind, fun hn => ⟨hirq hn.irq, hnmi hn.nmi, hrst hn.rst⟩, hseen,
    fun hplain hhigh hn => hunseen hplain hhigh (fun hd => hn (.inl hd)) (fun hp => hn (.inr hp))⟩
  · simpa [State.plainStack, and_assoc] using hplain
  · rw [hpeek] at hl hh
    rw [hregs7, Cpu.ea, hadl l hl, hadh h hh]

theorem EntryKind.vector_of_not_pending {k : EntryKind} (hk : k = .brk ∨ k = .irq) {x : Tracker} (hx : x ≠ .pending) :
    k.vector x = 0xFFFE#16 := by
  rcases hk with rfl | rfl <;> simp [EntryKind.vector, EntryKind.hijacked, hx]

/-- Settles O32: T0 and T1 pass BRK's two bytes and leave the trackers unpolled, so an NMI seen before them is still seen at T2; from there on it
is an entry, which never commits and does not look at I. -/
theorem brkEntersThroughItsVector : Obligations.BrkEntersThroughItsVector := by
  refine ⟨encodings_of_all (by decide), fun s h => ?_⟩
  obtain ⟨s1, s2, e0, e1, hwent, ht, hregs, hjam, -, hunpolled, hnmi, hrst, hirq, hunseen⟩ := brk_head (h.withCpu (s.cpu.start .fetch)) rfl
  obtain ⟨t, x, hrun, hentered, hvector, -, hnothing, hpending, hclear⟩ :=
    entry_enters (k := .brk) (s := s) (by decide) hwent.ofCpu ht hregs hjam
  refine ⟨t, entry_run e0 e1 hrun, hentered, fun hn => hnothing ⟨hirq hn.irq, hnmi hn.nmi, hrst hn.rst⟩, fun hseen => ?_,
    fun hplain hhigh hn => ?_⟩
  · have hseen2 : s2.nmiSeen := by unfold State.nmiSeen; rw [hunpolled.nmi hseen]; exact hseen
    rw [hpending hseen2, EntryKind.vector_hijacked (.inl rfl)] at hvector
    exact hvector
  · have hunseen2 : ¬ s2.nmiSeen := not_or.mpr
      (hunseen ⟨hhigh.ppu, hhigh.now, hhigh.later⟩ (fun hd => hn (.inl hd)) (fun hp => hn (.inr hp)))
    rw [EntryKind.vector_of_not_pending (.inl rfl) (hclear hplain hhigh hunseen2)] at hvector
    exact hvector

end Sys2Proof.Machine
end

section
/-! PROOFS about the stack, flag and NOP instructions and the JAM (`45_stack_flags_misc.md` R280-R296). Each of the first is the sequence of its class
with its own pushed byte or compute step, so the run of that class (Laws/Shapes.lean) gives its shape; a jammed cycle is its tracker steps and the dots after
it, which leave the CPU alone. -/

namespace Sys2Proof.Machine

section
variable {s : State} (h : s.Running)
include h

/-! ## Stack (`45_stack_flags_misc.md` R280-R284) -/

theorem State.Running.pushes_pha : s.Pushes .pha s.cpu.regs.a := State.pushes_of (v := Regs.a) h rfl fun _ _ => rfl
theorem State.Running.pushes_php : s.Pushes .php (s.cpu.regs.p.pack ||| 0x30) :=
  State.pushes_of (v := fun r => r.p.pushedByInstruction) h rfl fun _ _ => rfl

theorem State.Running.pulls_pla : s.Pulls .pla opPla := State.pulls_of (op := opPla) h rfl fun _ _ _ _ => rfl
theorem State.Running.pulls_plp : s.Pulls .plp opPlp := State.pulls_of (op := opPlp) h rfl fun _ _ _ _ => rfl

/-! ## Flags and NOP (`45_stack_flags_misc.md` R285-R292) -/

theorem State.Running.implies_clc : s.Implies .clc opClc := State.implies_of (op := opClc) h rfl fun _ _ => rfl
theorem State.Running.implies_sec : s.Implies .sec opSec := State.implies_of (op := opSec) h rfl fun _ _ => rfl
theorem State.Running.implies_cli : s.Implies .cli opCli := State.implies_of (op := opCli) h rfl fun _ _ => rfl
theorem State.Running.implies_sei : s.Implies .sei opSei := State.implies_of (op := opSei) h rfl fun _ _ => rfl
theorem State.Running.implies_clv : s.Implies .clv opClv := State.implies_of (op := opClv) h rfl fun _ _ => rfl
theorem State.Running.implies_cld : s.Implies .cld opCld := State.implies_of (op := opCld) h rfl fun _ _ => rfl
theorem State.Running.implies_sed : s.Implies .sed opSed := State.implies_of (op := opSed) h rfl fun _ _ => rfl
theorem State.Running.implies_nop : s.Implies .nop opNop := State.implies_of (op := opNop) h rfl fun _ _ => rfl

end

/-- A pulled status packs to its byte with bit 4 clear and bit 5 set: those are the flags that this byte unpacks to. -/
theorem Flags.pack_pulled (b : Byte) : (Flags.pulled b).pack = (b &&& 0xCF) ||| 0x20 := by
  have hbits : Flags.pulled b = Flags.unpack ((b &&& 0xCF) ||| 0x20) := by simp [Flags.pulled, Flags.unpack, bit]
  rw [hbits, Flags.pack_unpack]

/-- Settles O26: PHA and PHP are the push sequence with their own byte. -/
theorem pushesStoreOneByte : Obligations.PushesStoreOneByte :=
  ⟨encodings_of_all (by decide), fun _ h => ⟨h.pushes_pha, h.pushes_php⟩⟩

/-- Settles O27: PLA and PLP are the pull sequence, whose poll comes before its last cycle, where PLP writes I. -/
theorem pullsLoadOneByte : Obligations.PullsLoadOneByte :=
  ⟨encodings_of_all (by decide), fun _ h => ⟨h.pulls_pla, h.pulls_plp⟩, fun b => ⟨rfl, Flags.pack_pulled b⟩⟩

/-- Settles O28: each is the implied sequence, whose poll comes before its last cycle, where the flag is written. -/
theorem flagInstructionsWriteOneFlag : Obligations.FlagInstructionsWriteOneFlag :=
  ⟨encodings_of_all (by decide), fun _ h =>
    ⟨h.implies_clc, h.implies_sec, h.implies_cli, h.implies_sei, h.implies_clv, h.implies_cld, h.implies_sed⟩⟩

/-- Settles O29: an opcode that decodes to NOP is the encoding of NOP, which is $EA. -/
theorem nopOnlyAdvances : Obligations.NopOnlyAdvances := by
  refine ⟨fun op => ⟨fun h => ?_, fun h => h ▸ rfl⟩, fun _ h => h.implies_nop⟩
  have henc := encodeOpcode_decodeOpcode op
  rw [h] at henc
  exact (Option.some.inj henc).symm

/-! ## JAM (`45_stack_flags_misc.md` R296) -/

/-- A jammed cycle goes through whatever the reset line does, and leaves the CPU as its tracker steps do, and all RAM. -/
theorem jamCycle_next {s : State} (hb : s.videoBus.without Device.notVideo = true) :
    ∃ t, jamCycle s = .next t ∧ t.ram = s.ram ∧
      t.cpu = ({ s.takeDriver with cpu := s.cpu.commitReset }.sampleLines).cpu.pollReset := by
  obtain ⟨t, l, ht, hs⟩ := dots_total (ls := s.nextDots)
    (s := { { s.takeDriver with cpu := s.cpu.commitReset }.sampleLines with
      cpu := ({ s.takeDriver with cpu := s.cpu.commitReset }.sampleLines).cpu.pollReset }) (by simpa using hb)
  exact ⟨t, by simpa only [jamCycle, State.takeDriver_cpu] using ht, hs.ram.trans (by simp), hs.cpu⟩

theorem step_eq_jamCycle {s : State} (hj : s.cpu.eng.jammed = true) (he : s.early = []) : step s = jamCycle s := by
  simp [step, State.runEarly_nil he, stepNow, hj]

/-- Settles O30: JAM's two cycles only read; the jammed cycle after them moves RESET alone towards its commit, and that alone ends the jam. -/
theorem jamHaltsUntilReset : Obligations.JamHaltsUntilReset := by
  refine ⟨encodings_of_all (by decide), fun op s h => ?_, fun s hj he hb => ?_⟩
  · obtain ⟨t, hrun, hquiet, hregs, hjam, hsync, haddr⟩ := run_jam h
    exact ⟨t, hrun, hquiet.running, hquiet.fixed, hquiet.driver, hquiet.ram, hquiet.video, hjam, hsync, haddr, hregs⟩
  · obtain ⟨t, ht, hram, hcpu⟩ := jamCycle_next hb
    rw [← step_eq_jamCycle hj he] at ht
    refine ⟨t, ht, ?_, hram, ?_, ?_, ?_, ?_⟩ <;> rw [hcpu] <;> rfl

end Sys2Proof.Machine
end

section
/-! PROOFS about the unknown opcodes (`45_stack_flags_misc.md` R297, `40_cycle_engine.md` R130-R134, `00_scope.md` R8, R11). A cycle of a supplied sequence is
said once, as a tick whose end is `closeSupplied`; the run of a step follows by induction on its cycles, and a clock is one of them. -/

namespace Sys2Proof.Machine

/-! ## Decoding and the refusal -/

/-- The encoder gives an unknown instruction its own opcode, and an encoded instruction decodes. -/
theorem decodeOpcode_of_mem_unkOpcodes {op : Byte} (h : op.toNat ∈ unkOpcodes) : decodeOpcode op = .unk op := by
  obtain ⟨op', henc, hdec⟩ := encodes_and_decodes (.unk op) (decide_eq_true h)
  have hop : encodeOpcode (.unk op) = some op := encodeOpcode_of_opcodeNat (if_pos h)
  obtain rfl : op = op' := Option.some.inj (hop.symm.trans henc)
  exact hdec

/-- With P_UNK at its default: the fetch is a read, and `dflt` is the one it left. -/
theorem exec_unk_refused {s : State} (op : Byte) (h : s.Running) (hu : s.config.unk = .refuse) :
    ∃ d, exec (.unk op) s = .refused (.unkOpcode op (s.cpu.regs.pc + 1) d) ∧
      (∀ b, s.peek s.cpu.regs.pc = some b → d = false) ∧ (s.cpuBus.device s.cpu.regs.pc = none → d = true) := by
  obtain ⟨b, t, ht⟩ := memRead_next (a := s.cpu.regs.pc) h.buses.cpu h.idle
  have hregs : t.cpu.regs = s.cpu.regs := by
    obtain ⟨d, p, rfl, -⟩ := memRead_frame ht
    rfl
  refine ⟨t.cpu.eng.dflt, ?_, fun v hv => ?_, fun hd => ?_⟩
  · simp only [exec, execUnk, hu, refuseUnk, ht, Res.bind_next, hregs]
  · rw [memRead_peek hv] at ht
    cases ht
    rfl
  · rw [memRead_unbound hd] at ht
    cases ht
    rfl

/-! ## One cycle of a supplied sequence -/

/-- What the row of a supplied sequence makes of B and U: nothing (`10_state.md` R24). -/
theorem seqUnk_effect_p (op : Byte) (t : Nat) (c c' : Cpu) (b : Byte) :
    ((seqUnk op t c).effect b c').regs.p.b = c'.regs.p.b ∧ ((seqUnk op t c).effect b c').regs.p.u = c'.regs.p.u := by
  cases t <;> exact ⟨rfl, rfl⟩

/-- `n` cycles of a supplied sequence led from `s` to `t`. -/
structure State.RanSupplied (n : Nat) (s t : State) : Prop where
  running : t.Running
  fixed : t.fixed = s.fixed
  driver : t.driver = s.driver.drop n
  b : t.cpu.regs.p.b = s.cpu.regs.p.b
  u : t.cpu.regs.p.u = s.cpu.regs.p.u

theorem State.RanSupplied.refl {s : State} (h : s.Running) : s.RanSupplied 0 s := ⟨h, rfl, rfl, rfl, rfl⟩

theorem State.RanSupplied.trans {m n : Nat} {s t u : State} (h : s.RanSupplied m t) (k : t.RanSupplied n u) : s.RanSupplied (n + m) u :=
  ⟨k.running, k.fixed.trans h.fixed, by rw [k.driver, h.driver, List.drop_drop, Nat.add_comm], k.b.trans h.b, k.u.trans h.u⟩

theorem Ticked.ranSupplied {op : Byte} {s t : State} {b : Byte} (h : Ticked (seqUnk op s.cpu.eng.t s.cpu) true s b t) :
    s.RanSupplied 1 t := by
  obtain ⟨d, z, hc, -⟩ := h.cpu
  obtain ⟨hb, hu⟩ := seqUnk_effect_p op s.cpu.eng.t s.cpu (s.cpu.onBus (seqUnk op s.cpu.eng.t s.cpu).addr b d) b
  exact ⟨h.running, h.fixed, h.driver.trans List.drop_one.symm, by rw [hc, Row.closeCpu_regs]; exact hb,
    by rw [hc, Row.closeCpu_regs]; exact hu⟩

/-! ## A step of a supplied sequence -/

/-- From within the sequence at most `m` cycles run: to a final one, into the jam, or all of them. -/
theorem runSequence_unk {op : Byte} {m : Nat} {s : State} (h : s.Running) (hp : s.cpu.eng.presync = false) :
    ∃ n t, runSequence (seqUnk op) true m s = .next t ∧ n ≤ m ∧ (1 ≤ m → 1 ≤ n) ∧ s.RanSupplied n t ∧
      ((t.cpu.eng.presync = true ∧ t.cpu.eng.jammed = s.cpu.eng.jammed) ∨ (t.cpu.eng.presync = false ∧ t.cpu.eng.jammed = true) ∨
        (n = m ∧ t.cpu.eng.t = s.cpu.eng.t + m ∧ t.cpu.eng.presync = false ∧ t.cpu.eng.jammed = s.cpu.eng.jammed)) := by
  induction m generalizing s with
  | zero => exact ⟨0, s, rfl, Nat.le_refl 0, id, .refl h, .inr (.inr ⟨rfl, rfl, hp, rfl⟩)⟩
  | succ m ih =>
    obtain ⟨b, v, hv, htick⟩ := tick_running (seq := seqUnk op) (commits := true) h rfl
    have hran := htick.ranSupplied
    generalize ((seqUnk op s.cpu.eng.t s.cpu).final || (seqUnk op s.cpu.eng.t s.cpu).halt) = ended at hv
    obtain ⟨final, q, -⟩ := tick_leaves unk_leaves hv
    have hpv := q.presync
    have hjv := q.jammed
    cases ended with
    | true =>
      refine ⟨1, v, runSequence_end hv, by omega, fun _ => Nat.le_refl 1, hran, ?_⟩
      cases final with
      | true => exact .inl ⟨hpv, hjv⟩
      | false => exact .inr (.inl ⟨hpv.trans hp, hjv⟩)
    | false =>
      obtain rfl := q.final_false
      have hidx := q.index rfl
      have hjv : v.cpu.eng.jammed = s.cpu.eng.jammed := hjv
      obtain ⟨n, t, hrun, hn, -, hrest, hend⟩ := ih htick.running (hpv.trans hp)
      refine ⟨n + 1, t, (runSequence_go hv).trans hrun, by omega, fun _ => by omega, hran.trans hrest, ?_⟩
      rw [hjv, hidx] at hend
      exact hend.imp_right (.imp_right fun ⟨hnm, ht, hpt, hjt⟩ => ⟨by omega, by omega, hpt, hjt⟩)

/-! ## Clocks of a supplied sequence -/

/-- The lines of a cycle are the driver's, whatever the CPU. -/
theorem State.takeDriver_lines_withCpu (s : State) (c : Cpu) : { s with cpu := c }.takeDriver.lines = s.takeDriver.lines := by
  unfold State.takeDriver
  cases s.driver <;> rfl

/-- The clock at a boundary is the T0 of the sequence at PC. -/
theorem State.FetchesNext.clock_eq {seq : Sequence} {k e : Bool} {s t : State} {op : Byte} (hs : s.FetchesNext)
    (hop : s.peek s.cpu.regs.pc = some op) (hseq : sequenceOf s.config (decodeOpcode op) = some (seq, k))
    (ht : tick seq k { s with cpu := s.cpu.start .fetch } = .next (t, e)) : clock s = .next t := by
  simp only [clock, State.runEarly_nil hs.early, Res.bind_next, clockNow, hs.jammed, hs.presync, hs.hold, if_true, if_false,
    Bool.false_eq_true, tickFirst, hs.beginSequence, Cpu.start_kind, State.opcodeAt_of_peek hop, hseq, ht]

theorem sequenceOf_unk {g : Config} {op : Byte} (hu : g.unk = .supplied) (hop : op.toNat ∈ unkOpcodes) :
    sequenceOf g (decodeOpcode op) = some (seqUnk op, true) := by
  simp only [decodeOpcode_of_mem_unkOpcodes hop, sequenceOf, hu]

/-- What T0 makes of the CPU: the fetch, and the end of a supplied cycle. -/
theorem Ticked.cpu_unk_fetch {op : Byte} {s t : State} {b : Byte} (h : Ticked (seqUnk op 0 s.cpu) true s b t) :
    ∃ nmiN, t.cpu = closeSupplied (Config.unkCycle op 0 s.cpu) s.takeDriver.lines.irqN nmiN true
      ((fetchRow false s.cpu).effect b (s.cpu.onBus s.cpu.regs.pc b t.cpu.eng.dflt)) := by
  obtain ⟨d, z, hc, -⟩ := h.cpu
  obtain rfl : t.cpu.eng.dflt = d := by rw [hc, Row.closeCpu_dflt]; rfl
  exact ⟨z, hc.trans (Row.closeCpu_supplied rfl rfl ..)⟩

/-- What a later cycle makes of it: what the function makes of the CPU that its access leaves, and the end of a supplied cycle. -/
theorem Ticked.cpu_unk_within {op : Byte} {s t : State} {b : Byte} (h : Ticked (seqUnk op s.cpu.eng.t s.cpu) true s b t)
    (ht : 1 ≤ s.cpu.eng.t) :
    let k := Config.unkCycle op s.cpu.eng.t s.cpu
    let c := s.cpu.onBus k.addr b t.cpu.eng.dflt
    t.cpu.eng.databus = b ∧ ∃ nmiN, t.cpu = closeSupplied k s.takeDriver.lines.irqN nmiN true
      ((Config.unkEffect op s.cpu.eng.t c).suppliedBy c) := by
  rw [seqUnk_within ht] at h
  obtain ⟨d, z, hc, -⟩ := h.cpu
  obtain rfl : t.cpu.eng.dflt = d := by rw [hc, Row.closeCpu_dflt]; rfl
  exact ⟨by rw [hc, Row.closeCpu_databus]; rfl, z, hc.trans (Row.closeCpu_supplied rfl rfl ..)⟩

/-! ## The statement -/

/-- Settles O31: the refusal follows the fetch; a supplied sequence runs as its function says, cycle by cycle, and a step runs eight of them at most. -/
theorem unknownOpcodesFollowTheirParameter : Obligations.UnknownOpcodesFollowTheirParameter := by
  refine ⟨fun _ => decodeOpcode_of_mem_unkOpcodes, rfl, fun op _ h hu => exec_unk_refused op h hu, fun op s h hu => ?_,
    fun op s h hu hs hop hpc => ?_, fun s h hu hp hj hk hop ht => ?_⟩
  · obtain ⟨n, t, hrun, hn, hpos, hran, hend⟩ :=
      runSequence_unk (op := op) (m := maxCycles) (h.withCpu (s.cpu.start .fetch)) rfl
    have hexec : exec (.unk op) s = .next t := by simpa only [exec, execUnk, hu, runInstr] using hrun
    exact ⟨n, t, hexec, hpos (by decide), hn, hran.running, hran.fixed, hran.driver, hran.b, hran.u,
      hend.imp_right (.imp_right fun ⟨hm, hidx, hpj⟩ => ⟨hm, hidx.trans (Nat.zero_add _), hpj⟩)⟩
  · obtain ⟨b, t, htick, hticked⟩ := tick_running (seq := seqUnk op) (commits := true) (h.withCpu (s.cpu.start .fetch)) rfl
    obtain ⟨hram, hvideo⟩ := hticked.read rfl
    obtain rfl : b = op := hticked.readByte rfl op (by rw [State.peek_withCpu]; exact hpc)
    obtain ⟨nmiN, hcpu⟩ := hticked.cpu_unk_fetch
    rw [State.takeDriver_lines_withCpu] at hcpu
    exact ⟨t, nmiN, hs.clock_eq hpc (sequenceOf_unk hu hop) htick, hticked.running, hticked.fixed, hram, hvideo, hcpu⟩
  · intro k
    have hw : s.Within (seqUnk s.cpu.eng.opc) true := ⟨h.early, hp, hj, ht, by rw [hk]; exact sequenceOf_unk hu hop⟩
    obtain ⟨b, t, htick, hticked⟩ := tick_running (seq := seqUnk s.cpu.eng.opc) (commits := true) h rfl
    have hran := hticked.ranSupplied
    obtain ⟨hdata, nmiN, hcpu⟩ := hticked.cpu_unk_within ht
    rw [← hdata] at hcpu
    rw [seqUnk_within ht] at hticked
    refine ⟨t, nmiN, hw.clock_eq htick, hticked.running, hticked.fixed, hcpu, hran.b, hran.u, fun ho => ?_, fun v ho => ?_⟩
    · obtain ⟨hram, hvideo⟩ := hticked.read ho
      exact ⟨hram, hvideo, fun v hv => hdata.trans (hticked.readByte ho v hv)⟩
    · obtain ⟨hv, hram, hvideo⟩ := hticked.write v ho
      exact ⟨hdata.trans hv, hram, hvideo⟩

end Sys2Proof.Machine
end

section
/-! PROOFS about running states (`46_ppu.md` R310, R315, `45_stack_flags_misc.md` R297, `00_scope.md` R8). Dots alone keep a state running, and so does a cycle
of a sequence with the two dots after it; a step is one or the other, wherever the CPU is, unless the opcode it meets is refused. -/

namespace Sys2Proof.Machine

/-! ## Dots and the driver -/

/-- Dots with the reset line high keep a running state running; with no access pending they change no memory. -/
theorem State.Running.dots_next {s : State} {ls : List Bool} (h : s.Running) (hl : ∀ l ∈ ls, l = true) :
    ∃ t, dots ls s = .next t ∧ t.Running ∧ s.SameOutsidePpu t ∧ t.videoMemory = s.videoMemory := by
  obtain ⟨t, ht, hs, hheld, -, -, hvideo, hleft⟩ := Machine.dots_next h.buses.video h.rstN h.released hl
  have hidle : t.ppu.pend = .none := Ppu.dotsLeft_zero.mp (by rw [hleft, Ppu.dotsLeft_zero.mpr h.idle, Nat.zero_sub])
  exact ⟨t, ht, ⟨h.buses.ofFixed hs.fixed, hidle, hheld, hs.lines ▸ h.rstN, hs.early.trans h.early, hs.driver ▸ h.driver⟩, hs,
    hvideo (by simp [h.idle])⟩

theorem State.Running.takeDriver {s : State} (h : s.Running) : s.takeDriver.Running :=
  ⟨h.buses.ofFixed s.takeDriver_fixed, by simpa using h.idle, by simpa using h.released, State.takeDriver_rstN h, by simpa using h.early,
    fun d hd => h.driver d (List.mem_of_mem_tail (by simpa using hd))⟩

/-! ## The ways a step goes on -/

/-- What the outcome of a step from a running state may be. -/
def State.RunsOn (s : State) (r : Res State) : Prop :=
  (∃ t, r = .next t ∧ t.Running) ∨
    (s.config.unk = .refuse ∧ ∃ op pc d, op.toNat ∈ unkOpcodes ∧ r = .refused (.unkOpcode op pc d))

/-- A cycle without a bus access: whatever it makes of the CPU, the dots after it run on. -/
theorem State.Running.runsOn_dots {s : State} (h : s.Running) (c : Cpu) : s.RunsOn (dots s.nextDots { s.takeDriver with cpu := c }) := by
  obtain ⟨t, ht, hrun, -⟩ := (h.takeDriver.withCpu c).dots_next (State.nextDots_running h).1
  exact .inl ⟨t, ht, hrun⟩

/-- From a boundary: the sequence that begins runs, or the opcode fetched is unknown; the fetch itself goes through. -/
theorem State.Running.runsOn_boundary {s : State} (h : s.Running) (hj : s.cpu.eng.jammed = false) (hp : s.cpu.eng.presync = true)
    (hh : s.cpu.trk.rst ≠ .serviced) : s.RunsOn (step s) := by
  rcases step_from_boundary h.early hj hp hh with ⟨seq, k, -, hstep, -⟩ | ⟨e, hstep, -, ⟨hu, op, d, hop, rfl⟩ | hfetch⟩
  · rw [hstep]
    exact .inl (runSequence_running (h.withCpu _))
  · exact .inr ⟨hu, op, _, d, hop, hstep⟩
  · obtain ⟨b, t, ht⟩ := memRead_next (a := s.cpu.regs.pc) h.buses.cpu h.idle
    rw [ht] at hfetch
    cases hfetch

/-- Within a sequence: the rest of it runs, or its opcode is unknown. -/
theorem State.Running.runsOn_resume {s : State} (h : s.Running) : s.RunsOn (resume s) := by
  unfold resume
  split
  case h_1 => exact .inl (runSequence_running h)
  case h_2 hnone =>
    obtain ⟨op, hop, hu⟩ := currentSequence_none hnone
    exact .inr ⟨hu, _, _, _, (decodeOpcode_unk hop).2, rfl⟩

/-- Jammed or held in reset, at a boundary or within a sequence. -/
theorem State.Running.runsOn_step {s : State} (h : s.Running) : s.RunsOn (step s) := by
  have hnow : step s = stepNow s := by simp only [step, State.runEarly_nil h.early, Res.bind_next]
  by_cases hj : s.cpu.eng.jammed = true
  · rw [step_eq_jamCycle hj h.early]
    exact h.runsOn_dots _
  · by_cases hp : s.cpu.eng.presync = true
    · by_cases hh : s.cpu.trk.rst = .serviced
      · have hhold : step s = holdCycle s := by simp [hnow, stepNow, hj, hp, hh]
        rw [hhold]
        exact h.runsOn_dots _
      · exact h.runsOn_boundary (by simpa using hj) hp hh
    · have hwithin : step s = resume s := by simp [hnow, stepNow, hj, hp]
      rw [hwithin]
      exact h.runsOn_resume

/-- Settles O10: each way a step goes on keeps a running state running or meets an unknown opcode, and dots alone keep it. -/
theorem runningGoesOnUnlessUnknown : Obligations.RunningGoesOnUnlessUnknown := by
  refine ⟨fun s h => h.runsOn_step, fun s h hl => ?_⟩
  obtain ⟨u, hu, hrun, hs, hvideo⟩ := h.dots_next hl
  exact ⟨u, hu, hrun, hs.cpu, hs.fixed, hs.lines, hs.driver, hs.ram, hvideo⟩

end Sys2Proof.Machine
end

section
/-! PROOFS about the PPU's registers (`46_ppu.md` R301-R309, R315, R320, R321, R340). A CPU access to the window is the register access of its address modulo 8
and nothing else; what each register does is then read off bit by bit. -/

namespace Sys2Proof.Machine

/-! ## The window (`20_memory.md` R93) -/

theorem ppuReg_toNat (a : Word) : (ppuReg a).toNat = a.toNat % 8 := by simp [ppuReg]

theorem ppuReg_congr {a b : Word} (h : a.toNat % 8 = b.toNat % 8) : ppuReg a = ppuReg b :=
  BitVec.eq_of_toNat_eq (by rw [ppuReg_toNat, ppuReg_toNat, h])

section
variable {s : State} {a : Word} (ha : s.cpuBus.device a = some .ppuRegs)
include ha

theorem memWrite_ppuRegs (d : Byte) :
    memWrite a d s = (s.ppu.regWrite (ppuReg a) d).bind fun q => .next { s with cpu := s.cpu.onBus a d false, ppu := q } := by
  simp only [memWrite, Bus.write, ha, Device.write]
  cases s.ppu.regWrite (ppuReg a) d <;> rfl

theorem memRead_ppuRegs :
    memRead a s = (s.ppu.regRead s.config.paletteReadMask (ppuReg a)).bind fun (r, q) =>
      .next (r, { s with cpu := s.cpu.onBus a r false, ppu := q }) := by
  simp only [memRead, Bus.read, ha, Device.read]
  cases s.ppu.regRead s.config.paletteReadMask (ppuReg a) <;> rfl

/-- A register write that goes through. -/
theorem memWrite_of_regWrite {d : Byte} {q : Ppu} (h : s.ppu.regWrite (ppuReg a) d = .next q) :
    memWrite a d s = .next { s with cpu := s.cpu.onBus a d false, ppu := q } := by
  rw [memWrite_ppuRegs ha, h, Res.bind_next]

/-- A register read that goes through. -/
theorem memRead_of_regRead {r : Byte} {q : Ppu} (h : s.ppu.regRead s.config.paletteReadMask (ppuReg a) = .next (r, q)) :
    memRead a s = .next (r, { s with cpu := s.cpu.onBus a r false, ppu := q }) := by
  rw [memRead_ppuRegs ha, h, Res.bind_next]

end

/-! ## Which register an access reaches (`46_ppu.md` R301-R309) -/

section
variable {a : Word} (d mask : Byte) (p : Ppu)

theorem Ppu.regWrite_ctrl (h : a.toNat % 8 = 0) : p.regWrite (ppuReg a) d = .next (writeCtrl d { p with iolatch := d }) := by
  simp only [Ppu.regWrite, ppuReg_toNat, h]

theorem Ppu.regWrite_mask (h : a.toNat % 8 = 1) : p.regWrite (ppuReg a) d = .next (writeMask d { p with iolatch := d }) := by
  simp only [Ppu.regWrite, ppuReg_toNat, h]

theorem Ppu.regWrite_status (h : a.toNat % 8 = 2) : p.regWrite (ppuReg a) d = .next { p with iolatch := d } := by
  simp only [Ppu.regWrite, ppuReg_toNat, h]

theorem Ppu.regWrite_oamAddr (h : a.toNat % 8 = 3) : p.regWrite (ppuReg a) d = .next { p with iolatch := d, oamaddr := d } := by
  simp only [Ppu.regWrite, ppuReg_toNat, h, Ppu.writeOamAddr]

theorem Ppu.regWrite_oamData (h : a.toNat % 8 = 4) : p.regWrite (ppuReg a) d = .next (writeOamData d { p with iolatch := d }) := by
  simp only [Ppu.regWrite, ppuReg_toNat, h]

theorem Ppu.regWrite_scroll (h : a.toNat % 8 = 5) : p.regWrite (ppuReg a) d = .next (writeScroll d { p with iolatch := d }) := by
  simp only [Ppu.regWrite, ppuReg_toNat, h]

theorem Ppu.regWrite_addr (h : a.toNat % 8 = 6) : p.regWrite (ppuReg a) d = .next (writeAddr d { p with iolatch := d }) := by
  simp only [Ppu.regWrite, ppuReg_toNat, h]

theorem Ppu.regWrite_data (h : a.toNat % 8 = 7) : p.regWrite (ppuReg a) d = writeData d { p with iolatch := d } := by
  simp only [Ppu.regWrite, ppuReg_toNat, h]

theorem Ppu.regRead_status (h : a.toNat % 8 = 2) : p.regRead mask (ppuReg a) = .next p.readStatus := by
  simp only [Ppu.regRead, ppuReg_toNat, h]

theorem Ppu.regRead_oamData (h : a.toNat % 8 = 4) : p.regRead mask (ppuReg a) = .next p.readOamData := by
  simp only [Ppu.regRead, ppuReg_toNat, h]

theorem Ppu.regRead_data (h : a.toNat % 8 = 7) : p.regRead mask (ppuReg a) = p.readData mask := by
  simp only [Ppu.regRead, ppuReg_toNat, h]

theorem Ppu.regRead_writeOnly (h2 : a.toNat % 8 ≠ 2) (h4 : a.toNat % 8 ≠ 4) (h7 : a.toNat % 8 ≠ 7) :
    p.regRead mask (ppuReg a) = .next (p.iolatch, p) := by
  unfold Ppu.regRead
  split <;> simp_all [ppuReg_toNat]

end

/-! ## The fields of `t`, bit by bit (`46_ppu.md` R302, R307, R308) -/

section
variable (t : BitVec 15) (d : Byte) {k : Nat} (hk : k < 15)
include hk

theorem setNametable_getLsbD :
    (setNametable t d).getLsbD k = if k = 10 then d.getLsbD 0 else if k = 11 then d.getLsbD 1 else t.getLsbD k := by
  revert k
  simp only [Nat.forall_lt_succ_right]
  simp [setNametable]

theorem setCoarseX_getLsbD : (setCoarseX t d).getLsbD k = if k < 5 then d.getLsbD (k + 3) else t.getLsbD k := by
  revert k
  simp only [Nat.forall_lt_succ_right]
  simp [setCoarseX]

theorem setFineCoarseY_getLsbD : (setFineCoarseY t d).getLsbD k =
    if 12 ≤ k then d.getLsbD (k - 12) else if 5 ≤ k ∧ k ≤ 9 then d.getLsbD (k - 2) else t.getLsbD k := by
  revert k
  simp only [Nat.forall_lt_succ_right]
  simp [setFineCoarseY]

theorem setAddrHigh_getLsbD :
    (setAddrHigh t d).getLsbD k = if k = 14 then false else if 8 ≤ k then d.getLsbD (k - 8) else t.getLsbD k := by
  revert k
  simp only [Nat.forall_lt_succ_right]
  simp [setAddrHigh]

theorem setAddrLow_getLsbD : (setAddrLow t d).getLsbD k = if k < 8 then d.getLsbD k else t.getLsbD k := by
  revert k
  simp only [Nat.forall_lt_succ_right]
  simp [setAddrLow]

end

/-! ## Writes: control, mask, scroll, address (`46_ppu.md` R302, R303, R305, R307, R308, R340) -/

/-- While the reset gate is closed the four gated writes leave the latch alone changed. -/
theorem Ppu.writes_of_gate_closed {p : Ppu} (d : Byte) (h : p.prst ≠ .clear) :
    p.writeCtrl d = p ∧ p.writeMask d = p ∧ p.writeScroll d = p ∧ p.writeAddr d = p := by
  simp [Ppu.writeCtrl, Ppu.writeMask, Ppu.writeScroll, Ppu.writeAddr, Ppu.gateOpen, h]

theorem PpuCtrl.unpack_eq (d : Byte) : PpuCtrl.unpack d =
    { nn := d.extractLsb' 0 2, i := d.getLsbD 2, s := d.getLsbD 3, b := d.getLsbD 4, h := d.getLsbD 5, v := d.getLsbD 7 } := by
  rw [← BitVec.setWidth_eq_extractLsb' (by decide)]
  rfl

/-- Settles O39: the write to each of the three registers, with the gate open or closed. -/
theorem controlMaskOamaddrWrites : Obligations.ControlMaskOamaddrWrites := by
  intro s a d ha
  refine ⟨fun h => ⟨setNametable s.ppu.t d, ?_, fun k hk => setNametable_getLsbD _ _ hk⟩, fun h => ?_,
    fun h => memWrite_of_regWrite ha (Ppu.regWrite_oamAddr d _ h)⟩
  · rw [memWrite_of_regWrite ha (Ppu.regWrite_ctrl d _ h), ← PpuCtrl.unpack_eq]
    simp only [Ppu.writeCtrl, Ppu.gateOpen, decide_eq_true_eq]
  · rw [memWrite_of_regWrite ha (Ppu.regWrite_mask d _ h)]
    simp only [Ppu.writeMask, Ppu.gateOpen, decide_eq_true_eq]
    rfl

/-- Settles O40: the gate and the toggle choose the write, and the setter of each says where its bits go. -/
theorem scrollAndAddressWrites : Obligations.ScrollAndAddressWrites := by
  intro s a d ha
  refine ⟨fun h hgate => ?_, fun h hgate hw => ⟨setCoarseX s.ppu.t d, ?_, fun k hk => setCoarseX_getLsbD _ _ hk⟩,
    fun h hgate hw => ⟨setFineCoarseY s.ppu.t d, ?_, fun k hk => setFineCoarseY_getLsbD _ _ hk⟩,
    fun h hgate hw => ⟨setAddrHigh s.ppu.t d, ?_, fun k hk => setAddrHigh_getLsbD _ _ hk⟩,
    fun h hgate hw => ⟨setAddrLow s.ppu.t d, ?_, fun k hk => setAddrLow_getLsbD _ _ hk⟩⟩
  · obtain ⟨-, -, hscroll, haddr⟩ := Ppu.writes_of_gate_closed (p := { s.ppu with iolatch := d }) d hgate
    rcases h with h | h
    · rw [memWrite_of_regWrite ha (Ppu.regWrite_scroll d _ h), hscroll]
    · rw [memWrite_of_regWrite ha (Ppu.regWrite_addr d _ h), haddr]
  · rw [memWrite_of_regWrite ha (Ppu.regWrite_scroll d _ h), ← BitVec.setWidth_eq_extractLsb' (by decide)]
    simp [Ppu.writeScroll, Ppu.gateOpen, hgate, hw]
  · rw [memWrite_of_regWrite ha (Ppu.regWrite_scroll d _ h)]
    simp [Ppu.writeScroll, Ppu.gateOpen, hgate, hw]
  · rw [memWrite_of_regWrite ha (Ppu.regWrite_addr d _ h)]
    simp [Ppu.writeAddr, Ppu.gateOpen, hgate, hw]
  · rw [memWrite_of_regWrite ha (Ppu.regWrite_addr d _ h)]
    simp [Ppu.writeAddr, Ppu.gateOpen, hgate, hw]

/-! ## Status and object memory (`46_ppu.md` R304, R306, R332) -/

theorem PpuStatus.pack_getLsbD (s : PpuStatus) :
    s.pack.getLsbD 7 = s.v ∧ s.pack.getLsbD 6 = s.s ∧ s.pack.getLsbD 5 = s.o ∧ ∀ k < 5, s.pack.getLsbD k = false := by
  obtain ⟨v, sprite, overflow⟩ := s
  revert v sprite overflow
  decide

theorem latchBits_getLsbD (b : Byte) {k : Nat} (hk : k < 8) : (b &&& 0x1F#8).getLsbD k = (b.getLsbD k && decide (k < 5)) := by
  revert k
  simp only [Nat.forall_lt_succ_right]
  simp

/-- The three flags over the low bits of the I/O latch. -/
theorem Ppu.statusByte_getLsbD (p : Ppu) :
    p.statusByte.getLsbD 7 = p.status.v ∧ p.statusByte.getLsbD 6 = p.status.s ∧ p.statusByte.getLsbD 5 = p.status.o ∧
      ∀ k < 5, p.statusByte.getLsbD k = p.iolatch.getLsbD k := by
  obtain ⟨hv, hs, ho, hlow⟩ := p.status.pack_getLsbD
  have hhigh : ∀ k < 8, ¬ k < 5 → p.statusByte.getLsbD k = p.status.pack.getLsbD k := fun k hk h => by
    simp only [Ppu.statusByte, BitVec.getLsbD_or, latchBits_getLsbD _ hk, h, decide_false, Bool.and_false, Bool.or_false]
  refine ⟨(hhigh 7 (by decide) (by decide)).trans hv, (hhigh 6 (by decide) (by decide)).trans hs,
    (hhigh 5 (by decide) (by decide)).trans ho, fun k hk => ?_⟩
  simp only [Ppu.statusByte, BitVec.getLsbD_or, latchBits_getLsbD p.iolatch (k := k) (by omega), hlow k hk, hk, decide_true,
    Bool.and_true, Bool.false_or]

theorem Ppu.renderingActive_iff (p : Ppu) :
    p.renderingActive = true ↔ (p.mask.b = true ∨ p.mask.s = true) ∧ (p.line ≤ 239 ∨ p.line = 261) := by
  simp [Ppu.renderingActive, Ppu.renderingEnabled]

theorem Ppu.writeOamData_active {d : Byte} {p : Ppu} (h : p.renderingActive = true) :
    p.writeOamData d = { p with oamaddr := p.oamaddr + 4 } := if_pos h

theorem Ppu.writeOamData_inactive {d : Byte} {p : Ppu} (h : ¬ p.renderingActive = true) :
    p.writeOamData d = { p with oam := p.oam.write p.oamaddr.toNat d, oamaddr := p.oamaddr + 1 } := if_neg h

/-- Settles O41: the status read, and the object memory's write by whether rendering is active. -/
theorem statusReadAndOamdata : Obligations.StatusReadAndOamdata := by
  refine ⟨fun s a ha h => ⟨s.ppu.statusByte, ?_, s.ppu.statusByte_getLsbD⟩, fun s a d ha h => ⟨fun hr => ?_, fun hr => ?_, ?_⟩⟩
  · rw [Bool.decide_and]
    exact memRead_of_regRead ha (Ppu.regRead_status _ _ h)
  · rw [memWrite_of_regWrite ha (Ppu.regWrite_oamData d _ h), Ppu.writeOamData_active ((Ppu.renderingActive_iff { s.ppu with iolatch := d }).mpr hr)]
  · rw [memWrite_of_regWrite ha (Ppu.regWrite_oamData d _ h), Ppu.writeOamData_inactive (mt (Ppu.renderingActive_iff { s.ppu with iolatch := d }).mp hr)]
  · exact memRead_of_regRead ha (Ppu.regRead_oamData _ _ h)

/-! ## PPUDATA (`46_ppu.md` R309, R315, R321) -/

theorem inPalette_iff (v : BitVec 15) : inPalette v = true ↔ v.toNat / 256 % 64 = 63 := by
  have hbits : ((v >>> 8) &&& 0x3F#15).toNat = v.toNat / 256 % 64 := by
    rw [BitVec.toNat_and, BitVec.toNat_ushiftRight, Nat.shiftRight_eq_div_pow]
    exact Nat.and_two_pow_sub_one_eq_mod _ 6
  rw [inPalette, decide_eq_true_eq, ← BitVec.toNat_inj, hbits]
  rfl

theorem paletteCell_eq (v : BitVec 15) : paletteCell v = (maskPalette (v.extractLsb' 0 5)).toNat := by
  rw [paletteCell, BitVec.setWidth_eq_extractLsb' (by decide)]

/-- While an access is pending another is refused. -/
theorem Ppu.data_overlap {p : Ppu} (d mask : Byte) (h : p.pend ≠ .none) :
    p.writeData d = .refused .ppudataOverlap ∧ p.readData mask = .refused .ppudataOverlap := by
  cases hp : p.pend <;> simp_all [Ppu.writeData, Ppu.readData]

/-- Settles O42: an access starts when none is pending, and a read's byte comes from the palette or the read buffer. -/
theorem ppudataStartsADeferredAccess : Obligations.PpudataStartsADeferredAccess := by
  intro s a d ha h
  refine ⟨fun hp => ⟨?_, ?_⟩, fun hp => ⟨?_, s.ppu.dataByte s.config.paletteReadMask, ?_, ?_⟩⟩
  · rw [memWrite_ppuRegs ha, Ppu.regWrite_data d _ h, (Ppu.data_overlap d 0 (by exact hp)).1, Res.bind_refused]
  · rw [memRead_ppuRegs ha, Ppu.regRead_data _ _ h, (Ppu.data_overlap 0 _ hp).2, Res.bind_refused]
  · rw [memWrite_of_regWrite ha ((Ppu.regWrite_data d _ h).trans (Ppu.writeData_idle (by exact hp)))]
  · rw [memRead_of_regRead ha ((Ppu.regRead_data _ _ h).trans (Ppu.readData_idle hp))]
  · simp only [Ppu.dataByte, inPalette_iff, paletteCell_eq]

/-! ## The window and the write-only registers (`46_ppu.md` R301, `20_memory.md` R93) -/

/-- Settles O43: a write-only register reads as the latch, and an access depends on its address modulo 8 alone. -/
theorem writeOnlyRegistersReadTheLatch : Obligations.WriteOnlyRegistersReadTheLatch := by
  intro s a ha
  refine ⟨fun h2 h4 h7 => memRead_of_regRead ha (Ppu.regRead_writeOnly _ _ h2 h4 h7),
    fun d h => memWrite_of_regWrite ha (Ppu.regWrite_status d _ h), fun b d hb hab p hp => ?_⟩
  obtain ⟨t, ht, rfl⟩ := hp
  rw [memWrite_ppuRegs ha, Res.bind_eq_next] at ht
  obtain ⟨q, hq, ht⟩ := ht
  cases ht
  exact ⟨_, memWrite_of_regWrite hb (ppuReg_congr hab ▸ hq), rfl⟩

/-! ## The palette (`46_ppu.md` R320) -/

/-- Where each address goes, and which of them meet. -/
theorem maskPalette_cases (a b : BitVec 5) :
    ((a.toNat < 16 → maskPalette a = a) ∧
      (16 ≤ a.toNat → a.toNat % 4 = 0 → (maskPalette a).toNat = a.toNat - 16) ∧
      (16 ≤ a.toNat → a.toNat % 4 ≠ 0 →
        (maskPalette a).toNat = a.toNat - (a.toNat / 4 % 4 + 1) ∧ 16 ≤ (maskPalette a).toNat)) ∧
    (maskPalette a = maskPalette b ↔ a = b ∨ (a.toNat % 4 = 0 ∧ b.toNat % 4 = 0 ∧ a.toNat % 16 = b.toNat % 16)) := by
  revert a b
  decide

/-- Settles O45: the addresses are few enough to go through them all. -/
theorem paletteAliasesToCells : Obligations.PaletteAliasesToCells := fun a =>
  have ⟨hlow, hbackdrop, hcolour⟩ := (maskPalette_cases a a).1
  ⟨maskPalette_lt a, hlow, hbackdrop, hcolour, fun b => (maskPalette_cases a b).2⟩

end Sys2Proof.Machine
end

section
/-! PROOFS about the PPU's dots (`46_ppu.md` R310-R313, R330, R333-R336). With no reset under way a dot is its events, one step of the deferred access and the
advance: what the access leaves alone is said once, what each of its two dots does is an equation, and the position is counted through a frame. -/

namespace Sys2Proof.Machine

/-! ## The parts of a dot (`46_ppu.md` R330) -/

theorem ppuCycle_released {s : State} (hr : s.lines.rstN = true) (hh : s.ppu.prst.holdsPpu = false) :
    ppuCycle s = (accessStep { s with ppu := s.ppu.dotEvents }).bind fun u => .next { u with ppu := u.ppu.advance } := by
  simp only [ppuCycle, hr, Ppu.prstStep_quiet hh, hh, Bool.false_eq_true, if_false]

/-- What an access leaves of the PPU beside its registers. -/
structure Ppu.SameCounter (p q : Ppu) : Prop where
  status : q.status = p.status
  vsupp : q.vsupp = p.vsupp
  prst : q.prst = p.prst
  line : q.line = p.line
  dot : q.dot = p.dot
  odd : q.odd = p.odd

theorem accessStep_sameCounter {s t : State} (hb : s.videoBus.without Device.notVideo = true) (h : accessStep s = .next t) :
    s.ppu.SameCounter t.ppu := by
  unfold accessStep at h
  split at h
  · cases h; exact ⟨rfl, rfl, rfl, rfl, rfl, rfl⟩
  · cases h; exact ⟨rfl, rfl, rfl, rfl, rfl, rfl⟩
  · unfold accessWrite at h
    split at h
    · cases h; exact ⟨rfl, rfl, rfl, rfl, rfl, rfl⟩
    · obtain ⟨u, hu, -, f, hf⟩ := vWrite_next (a := s.ppu.vaddr) (v := s.ppu.pdata) hb
      rw [hu] at h; cases h
      constructor <;> simp [Ppu.endAccess, hf]
  · unfold accessRead at h
    obtain ⟨o, ho⟩ := vRead_next (a := s.ppu.vaddr) hb
    rw [ho] at h
    cases o <;> cases h <;> exact ⟨rfl, rfl, rfl, rfl, rfl, rfl⟩

/-- A dot with no reset under way: the access comes between the events and the advance. -/
theorem ppuCycle_parts {s : State} (hr : s.lines.rstN = true) (hh : s.ppu.prst.holdsPpu = false)
    (hb : s.videoBus.without Device.notVideo = true) :
    ∃ t q, ppuCycle s = .next t ∧ s.ppu.dotEvents.SameCounter q ∧ s.ppu.dotEvents.SameRegisters q ∧ t.ppu = q.advance := by
  obtain ⟨u, hu, -⟩ := accessStep_next (s := { s with ppu := s.ppu.dotEvents }) hb
  exact ⟨{ u with ppu := u.ppu.advance }, u.ppu, by rw [ppuCycle_released hr hh, hu, Res.bind_next],
    accessStep_sameCounter (by exact hb) hu, accessStep_sameRegisters (by exact hb) hu, rfl⟩

/-! ## Events and position (`46_ppu.md` R333, R334) -/

theorem Ppu.dotEvents_at_vblank {p : Ppu} (h : p.line = 241 ∧ p.dot = 1) :
    p.dotEvents.vsupp = false ∧ p.dotEvents.prst = p.prst ∧ p.dotEvents.status = { p.status with v := !p.vsupp || p.status.v } := by
  rw [Ppu.dotEvents, if_pos h, Ppu.vblankSet]
  cases p.vsupp <;> simp

theorem Ppu.dotEvents_at_prerender {p : Ppu} (h : p.line = 261 ∧ p.dot = 1) (hh : p.prst.holdsPpu = false) :
    p.dotEvents.status = { v := false, s := false, o := false } ∧ p.dotEvents.prst = .clear ∧ p.dotEvents.vsupp = p.vsupp := by
  rw [Ppu.dotEvents, if_neg (by omega), if_pos h, Ppu.prerenderClear]
  cases hp : p.prst <;> simp_all [Tracker.holdsPpu]

theorem Ppu.dotEvents_elsewhere {p : Ppu} (hv : ¬ (p.line = 241 ∧ p.dot = 1)) (hc : ¬ (p.line = 261 ∧ p.dot = 1)) :
    p.dotEvents = p := by
  rw [Ppu.dotEvents, if_neg hv, if_neg hc]

theorem Ppu.renderingEnabled_iff (p : Ppu) : p.renderingEnabled = true ↔ p.mask.b = true ∨ p.mask.s = true := by
  simp [Ppu.renderingEnabled]

/-- The skip of an odd frame's last dot. -/
theorem Ppu.advance_skip {p : Ppu} (hl : p.line = 261) (hd : p.dot = 339) (ho : p.odd = true) (hr : p.renderingEnabled = true) :
    p.advance = { p with line := 0, dot := 0, odd := false } := by
  rw [Ppu.advance, if_pos ⟨hl, hd, ho, hr⟩, ho]
  rfl

theorem Ppu.advance_within_line {p : Ppu} (h : ¬ (p.line = 261 ∧ p.dot = 339 ∧ p.odd = true ∧ p.renderingEnabled = true))
    (hd : p.dot ≠ 340) : p.advance = { p with
      dot := p.dot + 1, line := if p.line = 262 then 0 else p.line, odd := if p.line = 262 then !p.odd else p.odd } := by
  have hd : ¬ p.dot + 1 = 341 := by omega
  simp only [Ppu.advance, if_neg h, Ppu.nextLine, if_neg hd]

theorem Ppu.advance_line_end {p : Ppu} (hd : p.dot = 340) : p.advance = { p with
    dot := 0, line := if p.line = 261 then 0 else p.line + 1, odd := if p.line = 261 then !p.odd else p.odd } := by
  have h : ¬ (p.line = 261 ∧ p.dot = 339 ∧ p.odd = true ∧ p.renderingEnabled = true) := by omega
  rw [Ppu.advance, if_neg h]
  simp only [Ppu.nextLine, hd, Nat.reduceAdd, if_true, Nat.reduceEqDiff]

/-- Settles O47: the events set and clear the flags, the access keeps them, and the advance moves the position alone. -/
theorem dotsSetAndClearVblank : Obligations.DotsSetAndClearVblank := by
  intro s hr hh hb
  obtain ⟨t, q, ht, hc, hs, hq⟩ := ppuCycle_parts hr hh hb
  have hline : q.line = s.ppu.line := by rw [hc.line, Ppu.dotEvents_line]
  have hdot : q.dot = s.ppu.dot := by rw [hc.dot, Ppu.dotEvents_dot]
  have hodd : q.odd = s.ppu.odd := by rw [hc.odd, Ppu.dotEvents_odd]
  have hskip : (q.line = 261 ∧ q.dot = 339 ∧ q.odd = true ∧ q.renderingEnabled = true) ↔
      (q.line = 261 ∧ q.dot = 339 ∧ q.odd = true ∧ (s.ppu.mask.b = true ∨ s.ppu.mask.s = true)) := by
    rw [Ppu.renderingEnabled_iff, hs.mask, Ppu.dotEvents_mask]
  refine ⟨t, ht, ?_⟩
  rw [hq]
  simp only [Ppu.advance_status, Ppu.advance_vsupp, Ppu.advance_prst, Ppu.advance_ctrl, Ppu.advance_mask, Ppu.advance_t,
    Ppu.advance_x, Ppu.advance_w, Ppu.advance_oamaddr, Ppu.advance_oam, Ppu.advance_iolatch, hc.status, hc.vsupp, hc.prst]
  refine ⟨Ppu.dotEvents_at_vblank, fun h => Ppu.dotEvents_at_prerender h hh, fun hv hp => ?_, ?_, ?_⟩
  · rw [Ppu.dotEvents_elsewhere hv hp]
    exact ⟨rfl, rfl, rfl⟩
  · rw [← hline, ← hdot, ← hodd]
    split
    case isTrue h =>
      obtain ⟨hl, hd, ho, hr⟩ := hskip.mpr h
      rw [Ppu.advance_skip hl hd ho hr]
      exact ⟨rfl, rfl, rfl⟩
    case isFalse h =>
      split
      case isTrue hd =>
        rw [Ppu.advance_line_end hd]
        refine ⟨rfl, ?_⟩
        split
        case isTrue => exact ⟨rfl, rfl⟩
        case isFalse => exact ⟨rfl, fun _ => rfl⟩
      case isFalse hd =>
        rw [Ppu.advance_within_line (mt hskip.mp h) hd]
        refine ⟨rfl, fun hl => ?_⟩
        have hl : ¬ q.line = 262 := by omega
        exact ⟨if_neg hl, if_neg hl⟩
  · simp [hs.ctrl, hs.mask, hs.t, hs.x, hs.w, hs.oamaddr, hs.oam, hs.iolatch, Ppu.nmiN, hc.status]

/-! ## A frame (`46_ppu.md` R333, R335) -/

/-- The position after `k` dots of a frame. -/
def Ppu.atDot (k : Nat) (p : Ppu) : Ppu := { p with line := k / 341, dot := k % 341 }

/-- Up to dot (261, 339) the position counts the dots. -/
theorem Ppu.advance_atDot {k : Nat} (p : Ppu) (hk : k < 89340) : (p.atDot k).advance = p.atDot (k + 1) := by
  by_cases hd : k % 341 = 340
  · rw [Ppu.advance_line_end (show (p.atDot k).dot = 340 from hd)]
    have hl : ¬ k / 341 = 261 := by omega
    simp only [Ppu.atDot, hl, if_false, show (k + 1) / 341 = k / 341 + 1 by omega, show (k + 1) % 341 = 0 by omega]
  · have hskip : ¬ (k / 341 = 261 ∧ k % 341 = 339 ∧ p.odd = true ∧ p.renderingEnabled = true) := by omega
    rw [Ppu.advance_within_line (show ¬ _ from hskip) (show (p.atDot k).dot ≠ 340 from hd)]
    have hl : ¬ k / 341 = 262 := by omega
    simp only [Ppu.atDot, hl, if_false, show (k + 1) / 341 = k / 341 by omega, show (k + 1) % 341 = k % 341 + 1 by omega]

theorem Ppu.atDot_zero {p : Ppu} (hl : p.line = 0) (hd : p.dot = 0) : p.atDot 0 = p := by
  simp only [Ppu.atDot, Nat.zero_div, Nat.zero_mod]
  cases p
  cases hl
  cases hd
  rfl

theorem Ppu.repeat_advance {p : Ppu} (hl : p.line = 0) (hd : p.dot = 0) {k : Nat} (hk : k ≤ 89340) :
    Nat.repeat Ppu.advance k p = p.atDot k := by
  induction k with
  | zero => exact (Ppu.atDot_zero hl hd).symm
  | succ k ih => rw [Nat.repeat, ih (by omega), Ppu.advance_atDot p (by omega)]

/-- From dot (261, 339) the odd frame with rendering enabled is over in one dot. -/
theorem Ppu.advance_atDot_skip {p : Ppu} (ho : p.odd = true) (hr : p.renderingEnabled = true) :
    (p.atDot 89340).advance = { p.atDot 0 with odd := false } :=
  Ppu.advance_skip (p := p.atDot 89340) rfl rfl ho hr

/-- Any other frame is over in two. -/
theorem Ppu.advance_advance_atDot {p : Ppu} (h : p.odd = false ∨ p.renderingEnabled = false) :
    (p.atDot 89340).advance.advance = { p.atDot 0 with odd := !p.odd } := by
  have hskip : ¬ (p.odd = true ∧ p.renderingEnabled = true) := by
    rintro ⟨ho, hr⟩
    simp [ho, hr] at h
  rw [Ppu.advance_within_line (p := p.atDot 89340) (fun ⟨_, _, hs⟩ => hskip hs) (show 89340 % 341 ≠ 340 by decide), Ppu.advance_line_end rfl]
  rfl

/-- Settles O46: the count runs to dot (261, 339), and from there the frame ends in one dot or in two. -/
theorem frameIsAlmostAlways89342Dots : Obligations.FrameIsAlmostAlways89342Dots := by
  intro p hl hd
  refine ⟨fun k hk => ?_, fun ho hr => ?_, fun h => ?_⟩
  · rw [Ppu.repeat_advance hl hd (by omega)]
    exact ⟨by simp only [Ppu.atDot]; omega, by simp only [Ppu.atDot]; omega, rfl⟩
  · rw [Nat.repeat, Ppu.repeat_advance hl hd (by omega), Ppu.advance_atDot_skip ho hr, Ppu.atDot_zero hl hd]
  · rw [Nat.repeat, Nat.repeat, Ppu.repeat_advance hl hd (by omega), Ppu.advance_advance_atDot h, Ppu.atDot_zero hl hd]

end Sys2Proof.Machine
end

section
/-! PROOFS about the two dots of a deferred PPUDATA access (`46_ppu.md` R310-R313). What each kind of second dot leads to is an equation: the memories as the
video bus leaves them, and the PPU after its events with the access ended. -/

namespace Sys2Proof.Machine

/-! ## Addresses -/

/-- Below the palette: bit 12 is cleared, so `$3Fxx` becomes `$2Fxx` (`46_ppu.md` R313). -/
theorem and_2FFF_toNat {v : BitVec 15} (h : v.toNat / 256 % 64 = 63) :
    (v.setWidth 14 &&& 0x2FFF#14).toNat = v.toNat % 16384 - 4096 := by
  have hv : (v.setWidth 14).toNat = v.toNat % 16384 := BitVec.toNat_setWidth ..
  have hhigh : (v.toNat % 16384 &&& 0x2FFF) / 2 ^ 8 = 47 := by
    rw [Nat.and_div_two_pow, show v.toNat % 16384 / 2 ^ 8 = 63 by omega]
    rfl
  have hlow : (v.toNat % 16384 &&& 0x2FFF) % 2 ^ 8 = v.toNat % 256 := by
    rw [Nat.and_mod_two_pow, show v.toNat % 16384 % 2 ^ 8 = v.toNat % 256 by omega]
    exact (Nat.and_two_pow_sub_one_eq_mod _ 8).trans (Nat.mod_mod _ _)
  rw [BitVec.toNat_and, hv]
  show v.toNat % 16384 &&& 0x2FFF = _
  omega

theorem Ppu.latchAddr_toNat (p : Ppu) : p.latchAddr.toNat =
    if p.pend = .read ∧ p.v.toNat / 256 % 64 = 63 then p.v.toNat % 16384 - 4096 else p.v.toNat % 16384 := by
  simp only [Ppu.latchAddr, inPalette_iff]
  split
  case isTrue h => exact and_2FFF_toNat h.2
  case isFalse => exact BitVec.toNat_setWidth ..

theorem inPalette_vaddr (a : BitVec 14) : inPalette (a.setWidth 15) = true ↔ a.toNat / 256 = 63 := by
  have := a.isLt
  rw [inPalette_iff, BitVec.toNat_setWidth_of_le (by decide)]
  omega

theorem paletteCell_vaddr (a : BitVec 14) : paletteCell (a.setWidth 15) = (maskPalette (a.extractLsb' 0 5)).toNat := by
  rw [paletteCell, BitVec.setWidth_setWidth_of_le _ (by decide), BitVec.setWidth_eq_extractLsb' (by decide)]

/-! ## The end of an access -/

@[simp] theorem Ppu.endAccess_pend (p : Ppu) : p.endAccess.pend = .none := rfl
@[simp] theorem Ppu.endAccess_ale (p : Ppu) : p.endAccess.ale = false := rfl
@[simp] theorem Ppu.endAccess_oam (p : Ppu) : p.endAccess.oam = p.oam := rfl
@[simp] theorem Ppu.endAccess_pal (p : Ppu) : p.endAccess.pal = p.pal := rfl
@[simp] theorem Ppu.endAccess_rbuf (p : Ppu) : p.endAccess.rbuf = p.rbuf := rfl
@[simp] theorem Ppu.endAccess_bflt (p : Ppu) : p.endAccess.bflt = p.bflt := rfl

theorem Ppu.endAccess_v_toNat (p : Ppu) : p.endAccess.v.toNat = (p.v.toNat + (if p.ctrl.i then 32 else 1)) % 32768 := by
  rw [Ppu.endAccess, BitVec.toNat_add]
  cases p.ctrl.i <;> rfl

/-! ## The video bus, whatever the PPU holds (`20_memory.md` R88) -/

theorem Bus.write_video {b : Bus} (a : Word) (v : Byte) (s : State) (hb : b.without Device.notVideo = true) :
    ∃ ok vram chr, ∀ p, b.write a v { s with ppu := p } = .next (ok, { s with ppu := p, vram := vram, chr := chr }) := by
  unfold Bus.write
  cases hd : b.device a with
  | none => exact ⟨false, s.vram, s.chr, fun _ => rfl⟩
  | some d =>
    have hvideo := Bus.device_of_without hb hd
    cases d
    case vram => exact ⟨true, s.vram.write (vramIndex s.mirroring a) v, s.chr, fun _ => rfl⟩
    case chr =>
      refine ⟨(s.chrWrite a v).1, s.vram, (s.chrWrite a v).2.chr, fun p => ?_⟩
      simp only [Device.write, State.chrWrite]
      split <;> rfl
    all_goals simp [Device.notVideo] at hvideo

theorem Bus.read_video {b : Bus} (a : Word) (s : State) (hb : b.without Device.notVideo = true) :
    ∃ o, ∀ p, b.read a { s with ppu := p } = .next (o, { s with ppu := p }) := by
  unfold Bus.read
  cases hd : b.device a with
  | none => exact ⟨none, fun _ => rfl⟩
  | some d =>
    have hvideo := Bus.device_of_without hb hd
    cases d
    case vram => exact ⟨some (s.vram.read (vramIndex s.mirroring a)), fun _ => rfl⟩
    case chr => exact ⟨s.chrRead a, fun _ => rfl⟩
    all_goals simp [Device.notVideo] at hvideo

/-! ## The two dots -/

section
variable {s : State} (hr : s.lines.rstN = true) (hh : s.ppu.prst.holdsPpu = false)
include hr hh

theorem ppuCycle_latches (hp : s.ppu.pend ≠ .none) (ha : s.ppu.ale = false) :
    ppuCycle s = .next { s with ppu := Ppu.advance { s.ppu.dotEvents with ale := true, vaddr := s.ppu.latchAddr } } := by
  have hlatch : s.ppu.dotEvents.latchAddr = s.ppu.latchAddr := by simp only [Ppu.latchAddr, Ppu.dotEvents_pend, Ppu.dotEvents_v]
  rw [ppuCycle_released hr hh, ← hlatch]
  cases hk : s.ppu.pend <;> simp_all [accessStep]

theorem ppuCycle_writes_palette (hp : s.ppu.pend = .write) (ha : s.ppu.ale = true) (hv : s.ppu.vaddr.toNat / 256 = 63) :
    ppuCycle s = .next { s with ppu := Ppu.advance (Ppu.endAccess { s.ppu.dotEvents with
      pal := s.ppu.pal.write (maskPalette (s.ppu.vaddr.extractLsb' 0 5)).toNat s.ppu.pdata }) } := by
  rw [ppuCycle_released hr hh]
  simp [accessStep, hp, ha, accessWrite, (inPalette_vaddr _).mpr hv, paletteCell_vaddr]

theorem ppuCycle_writes_video (hb : s.videoBus.without Device.notVideo = true) (hp : s.ppu.pend = .write) (ha : s.ppu.ale = true)
    (hv : s.ppu.vaddr.toNat / 256 ≠ 63) :
    ∃ ok u, s.videoBus.write (s.ppu.vaddr.setWidth 16) s.ppu.pdata s = .next (ok, u) ∧ ppuCycle s = .next { s with
      vram := u.vram, chr := u.chr, ppu := Ppu.advance (Ppu.endAccess { s.ppu.dotEvents with bflt := !ok }) } := by
  obtain ⟨ok, vram, chr, h⟩ := Bus.write_video (s.ppu.vaddr.setWidth 16) s.ppu.pdata s hb
  refine ⟨ok, _, h s.ppu, ?_⟩
  rw [ppuCycle_released hr hh]
  simp [accessStep, hp, ha, accessWrite, mt (inPalette_vaddr _).mp hv, vWrite, h]

theorem ppuCycle_reads (hb : s.videoBus.without Device.notVideo = true) (hp : s.ppu.pend = .read) (ha : s.ppu.ale = true) :
    ∃ o u, s.videoBus.read (s.ppu.vaddr.setWidth 16) s = .next (o, u) ∧ ppuCycle s = .next { s with
      ppu := Ppu.advance (Ppu.endAccess { s.ppu.dotEvents with bflt := o.isNone, rbuf := o.getD s.ppu.rbuf }) } := by
  obtain ⟨o, h⟩ := Bus.read_video (s.ppu.vaddr.setWidth 16) s hb
  refine ⟨o, _, h s.ppu, ?_⟩
  rw [ppuCycle_released hr hh]
  cases o <;> simp [accessStep, hp, ha, accessRead, vRead, h]

end

/-- Settles O44: the first dot only latches; the second is a write to the palette or the video bus, or a read, and ends the access. -/
theorem deferredAccessTakesTwoDots : Obligations.DeferredAccessTakesTwoDots := by
  intro s hr hh hb hp
  refine ⟨fun ha => ⟨_, ppuCycle_latches hr hh hp ha, ?_⟩, fun ha => ?_⟩
  · simp [State.videoMemory, Ppu.latchAddr_toNat]
  · cases hk : s.ppu.pend with
    | none => exact absurd hk hp
    | write =>
      by_cases hv : s.ppu.vaddr.toNat / 256 = 63
      · exact ⟨_, ppuCycle_writes_palette hr hh hk ha hv, by simp, by simp, rfl, by simp, by simp [Ppu.endAccess_v_toNat],
          fun _ _ => ⟨by simp, by simp, rfl, rfl, by simp⟩, fun _ h => absurd hv h, nofun⟩
      · obtain ⟨ok, u, hu, ht⟩ := ppuCycle_writes_video hr hh hb hk ha hv
        exact ⟨_, ht, by simp, by simp, rfl, by simp, by simp [Ppu.endAccess_v_toNat], fun _ h => absurd h hv,
          fun _ _ => ⟨by simp, by simp, ok, u, hu, rfl, rfl, by simp⟩, nofun⟩
    | read =>
      obtain ⟨o, u, hu, ht⟩ := ppuCycle_reads hr hh hb hk ha
      exact ⟨_, ht, by simp, by simp, rfl, by simp, by simp [Ppu.endAccess_v_toNat], nofun, nofun,
        fun _ => ⟨by simp [State.videoMemory], o, u, hu, by simp, by simp⟩⟩

end Sys2Proof.Machine
end

section
/-! PROOFS about the interrupt trackers, the order of the interrupts and the entries through `step` (`60_exceptions.md` R352-R368). What each tracker
function does is one equation; an entry at a boundary is the run of Laws/Entry.lean from the trackers that `beginSequence` leaves. -/

namespace Sys2Proof.Machine

/-! ## Trackers (`60_exceptions.md` R352, R354, R355) -/

theorem sampleIrq_eq (n : Bool) (k : Tracker) : sampleIrq n k =
    if n then (if k = .detected ∨ k = .pending then .clear else k) else (if k = .clear then .detected else k) := by
  cases n <;> cases k <;> rfl

theorem sampleEdge_eq (n : Bool) (k : Tracker) : sampleEdge n k =
    if n then (if k = .serviced then .clear else k) else (if k = .clear then .detected else k) := by
  cases n <;> cases k <;> rfl

theorem Tracker.promoted_eq (k : Tracker) : k.promoted = if k = .detected then .pending else k := by cases k <;> rfl

theorem Tracker.committedFrom_eq (k : Tracker) : k.committedFrom = if k = .pending then .committed else k := by cases k <;> rfl

/-- Settles O36: sampling, poll and commit apply one function to each tracker; the commit skips a masked IRQ. -/
theorem trackersSamplePollCommit : Obligations.TrackersSamplePollCommit := by
  refine ⟨fun s => ⟨rfl, sampleIrq_eq .., sampleEdge_eq .., sampleEdge_eq ..⟩, fun c => ⟨?_, ?_⟩⟩
  · simp only [Cpu.promote, Tracker.promoted_eq]
  · simp only [Cpu.commit, Tracker.committedFrom_eq]

/-! ## Which sequence begins, and its vector (`60_exceptions.md` R360, R366, R368) -/

theorem Cpu.beginSequence_of_rst {c : Cpu} (hr : c.trk.rst = .committed) : c.beginSequence =
    { c.start .rst with trk := { irq := .clear, nmi := if c.trk.nmi = .clear then .clear else .serviced, rst := .serviced } } := by
  simp only [Cpu.beginSequence, hr, if_true]

theorem Cpu.beginSequence_of_nmi {c : Cpu} (hr : c.trk.rst ≠ .committed) (hn : c.trk.nmi = .committed) :
    c.beginSequence = { c.start .nmi with trk := { c.trk with nmi := .serviced, irq := .clear } } := by
  simp only [Cpu.beginSequence, hr, hn, if_true, if_false]

theorem Cpu.beginSequence_of_irq {c : Cpu} (hr : c.trk.rst ≠ .committed) (hn : c.trk.nmi ≠ .committed) (hi : c.trk.irq = .committed) :
    c.beginSequence = { c.start .irq with trk := { c.trk with irq := .clear } } := by
  simp only [Cpu.beginSequence, hr, hn, hi, if_true, if_false]

theorem Cpu.beginSequence_of_nothing {c : Cpu} (hr : c.trk.rst ≠ .committed) (hn : c.trk.nmi ≠ .committed) (hi : c.trk.irq ≠ .committed) :
    c.beginSequence = c.start .fetch := by
  simp only [Cpu.beginSequence, hr, hn, hi, if_false]

theorem EntryKind.hijacked_eq (k : EntryKind) (nmi : Tracker) :
    k.hijacked nmi = match k with
      | .brk | .irq => decide (nmi = .pending)
      | .rst | .nmi => false := by
  cases k <;> rfl

theorem EntryKind.vector_eq (k : EntryKind) (nmi : Tracker) :
    k.vector nmi = match k with
      | .rst => 0xFFFC#16
      | .nmi => 0xFFFA#16
      | .brk | .irq => if nmi = .pending then 0xFFFA#16 else 0xFFFE#16 := by
  cases k <;> simp [EntryKind.vector, EntryKind.hijacked]

/-- Settles O37: RESET is asked for first, then NMI, then IRQ; at T5 the vector is that of the kind, but for a BRK or IRQ that a PENDING NMI hijacks, and
what T4 pushes does not look at the trackers. -/
theorem priorityAndVectorChoice : Obligations.PriorityAndVectorChoice := by
  refine ⟨fun c => ⟨fun hr => ?_, fun hr hn => ?_, fun hr hn hi => ?_, fun hr hn hi => ?_, c.beginSequence_regs, c.beginSequence_presync,
    c.beginSequence_t⟩, fun k c b => ?_⟩
  · rw [Cpu.beginSequence_of_rst hr]; exact ⟨rfl, rfl, rfl, rfl⟩
  · rw [Cpu.beginSequence_of_nmi hr hn]; exact ⟨rfl, rfl⟩
  · rw [Cpu.beginSequence_of_irq hr hn hi]; exact ⟨rfl, rfl⟩
  · rw [Cpu.beginSequence_of_nothing hr hn hi]; exact ⟨rfl, rfl⟩
  · have hv := k.vector_eq c.trk.nmi
    refine ⟨hv, rfl, hv, rfl, ?_, ?_⟩
    · show (if k.hijacked c.trk.nmi then Tracker.serviced else c.trk.nmi) = _
      rw [EntryKind.hijacked_eq]
      cases k <;> simp
    · cases k <;> rfl

/-! ## Entries at a boundary (`40_cycle_engine.md` R158, `60_exceptions.md` R360) -/

theorem step_eq_runFromBoundary {s : State} (he : s.early = []) (hj : s.cpu.eng.jammed = false) (hp : s.cpu.eng.presync = true)
    (hh : s.cpu.trk.rst ≠ .serviced) : step s = runFromBoundary s := by
  simp [step, State.runEarly_nil he, stepNow, hj, hp, hh]

/-- An NMI or IRQ entry, from the trackers that its begin leaves. -/
theorem takeInterrupt_enters {k : EntryKind} {s : State} (hb : k ≠ .brk) (hr : k ≠ .rst) (h : s.Running) :
    ∃ t x, takeInterrupt k s = .next t ∧ s.Entered s.cpu.regs.pc (k.statusByte s.cpu.regs.p) t ∧ t.AtVector (k.vector x) ∧
      t.cpu.eng.kind = s.cpu.beginSequence.eng.kind ∧ ({ s with cpu := s.cpu.beginSequence }.NothingCommitted → t.NothingCommitted) ∧
      ({ s with cpu := s.cpu.beginSequence }.nmiSeen → x = .pending) ∧
      (s.plainStack = true → s.NmiHigh → ¬ { s with cpu := s.cpu.beginSequence }.nmiSeen → x ≠ .pending) := by
  obtain ⟨s1, s2, e0, e1, hwent, ht, hregs, hjam, hkind, hunpolled, hnmi, hrst, hirq, hunseen⟩ :=
    interrupt_head hb (h.withCpu s.cpu.beginSequence) s.cpu.beginSequence_t
  obtain ⟨t, x, hrun, hentered, hvector, hkind2, hnothing, hpending, hclear⟩ :=
    entry_enters (s := s) (pc := s.cpu.regs.pc) hr hwent.ofCpu ht (by simpa using hregs) (by simpa using hjam)
  refine ⟨t, x, entry_run e0 e1 hrun, hentered, hvector, hkind2.trans hkind, fun hn => hnothing ⟨hirq hn.irq, hnmi hn.nmi, hrst hn.rst⟩,
    fun hseen => hpending ?_, fun hplain hhigh hn => hclear hplain hhigh (not_or.mpr ?_)⟩
  · unfold State.nmiSeen
    rw [hunpolled.nmi hseen]
    exact hseen
  · exact hunseen ⟨hhigh.ppu, hhigh.now, hhigh.later⟩ (fun hd => hn (.inl hd)) (fun hp => hn (.inr hp))

/-- Settles O33: the NMI's begin leaves it SERVICED and the IRQ CLEAR, so nothing is committed, and its vector does not depend on the trackers. -/
theorem nmiEntersThroughItsVector : Obligations.NmiEntersThroughItsVector := by
  intro s h hj hp hh hr hn
  have hbegin := Cpu.beginSequence_of_nmi hr hn
  obtain ⟨t, x, hrun, hentered, hvector, hkind, hnothing, -⟩ := takeInterrupt_enters (k := .nmi) (by decide) (by decide) h
  rw [hbegin] at hkind hnothing
  refine ⟨t, ?_, hentered, hnothing ⟨nofun, nofun, hr⟩, hkind, hvector⟩
  rw [step_eq_runFromBoundary h.early hj hp hh, runFromBoundary, hbegin]
  exact hrun

/-- Settles O34: the IRQ's begin leaves the NMI tracker alone, so an NMI seen before it is the one that hijacks its vector. -/
theorem irqEntersThroughItsVector : Obligations.IrqEntersThroughItsVector := by
  intro s h hj hp hh hr hn hi
  have hbegin := Cpu.beginSequence_of_irq hr hn hi
  obtain ⟨t, x, hrun, hentered, hvector, hkind, hnothing, hpending, hclear⟩ := takeInterrupt_enters (k := .irq) (by decide) (by decide) h
  rw [hbegin] at hkind hnothing hpending hclear
  refine ⟨t, ?_, hentered, hnothing ⟨nofun, hn, hr⟩, hkind, fun hseen => ?_, fun hplain hhigh hunseen => ?_⟩
  · rw [step_eq_runFromBoundary h.early hj hp hh, runFromBoundary, hbegin]
    exact hrun
  · rw [hpending hseen, EntryKind.vector_hijacked (.inr rfl)] at hvector
    exact hvector
  · rw [EntryKind.vector_of_not_pending (.inr rfl) (hclear hplain hhigh hunseen)] at hvector
    exact hvector

end Sys2Proof.Machine
end

section
/-! PROOFS about RESET (`70_reset_and_hazards.md` R391-R398). The PPU's tracker moves by one function, after the reset actions. The CPU's reset sequence
only reads, so whatever the reset line and the PPU do meanwhile is said once, as what a cycle that reads keeps. -/

namespace Sys2Proof.Machine

/-! ## The PPU's reset tracker (`70_reset_and_hazards.md` R395, R396) -/

theorem Ppu.prstStep_of_not_committed {p : Ppu} (rstN : Bool) (h : p.prst ≠ .committed) :
    p.prstStep rstN = { p with prst := prstNext rstN p.prst } := by
  simp only [Ppu.prstStep, h, if_false]

theorem Ppu.prstStep_of_committed {p : Ppu} (rstN : Bool) (h : p.prst = .committed) :
    p.prstStep rstN = { p.resetActions with prst := if rstN then .serviced else .detected } := by
  simp only [Ppu.prstStep, h, if_true]
  cases rstN <;> rfl

theorem prstNext_low {k : Tracker} (h : k ≠ .committed) :
    prstNext false k = if k = .clear ∨ k = .serviced then .detected else .pending := by
  cases k
  case committed => exact absurd rfl h
  all_goals rfl

theorem prstNext_high (k : Tracker) : prstNext true k = if k = .detected ∨ k = .pending then .committed else k := by
  cases k <;> rfl

theorem Tracker.holdsPpu_iff (k : Tracker) : k.holdsPpu = true ↔ k = .detected ∨ k = .pending ∨ k = .committed := by
  cases k <;> decide

/-- Settles O48: from COMMITTED the reset actions come first and the tracker moves on from SERVICED; else the tracker alone moves. -/
theorem ppuResetTrackerAndActions : Obligations.PpuResetTrackerAndActions := by
  intro rstN p
  refine ⟨fun h => ?_, fun h => ?_, fun hl h => ?_, fun hl h => ?_, fun s hs hl hk => ?_⟩
  · rw [Ppu.prstStep_of_not_committed rstN h]
  · rw [Ppu.prstStep_of_committed rstN h]
    exact ⟨rfl, rfl⟩
  · rw [Ppu.prstStep_of_not_committed rstN h, hl]
    exact prstNext_low h
  · rw [Ppu.prstStep_of_not_committed rstN h, hl]
    exact prstNext_high p.prst
  · have hheld := (Tracker.holdsPpu_iff _).mpr hk
    simp only [ppuCycle, hs, hl, hheld, if_true]

/-! ## Dots whatever the reset line -/

/-- With no PPUDATA write pending a dot changes no memory and starts none. -/
theorem ppuCycle_keeps_videoMemory {s t : State} (hb : s.videoBus.without Device.notVideo = true) (hw : s.ppu.pend ≠ .write)
    (h : ppuCycle s = .next t) : t.ppu.pend ≠ .write ∧ t.videoMemory = s.videoMemory := by
  have hstep : (s.ppu.prstStep s.lines.rstN).pend ≠ .write ∧
      { s with ppu := s.ppu.prstStep s.lines.rstN }.videoMemory = s.videoMemory := by
    by_cases hc : s.ppu.prst = .committed
    · rw [Ppu.prstStep_of_committed _ hc]; exact ⟨nofun, rfl⟩
    · rw [Ppu.prstStep_of_not_committed _ hc]; exact ⟨hw, rfl⟩
  obtain ⟨hpend, hmem⟩ := hstep
  simp only [ppuCycle] at h
  split at h
  · cases h; exact ⟨hpend, hmem⟩
  · obtain ⟨u, hu, -, -, -, -, hv, hnone, hale, hkeep⟩ :=
      accessStep_next (s := { s with ppu := (s.ppu.prstStep s.lines.rstN).dotEvents }) hb
    rw [hu] at h
    cases h
    simp only [Ppu.dotEvents_pend, Ppu.dotEvents_ale] at hv hnone hale hkeep
    refine ⟨?_, ?_⟩
    · rw [Ppu.advance_pend]
      by_cases hn : (s.ppu.prstStep s.lines.rstN).pend = .none
      · rw [hnone hn]; nofun
      · cases ha : (s.ppu.prstStep s.lines.rstN).ale with
        | true => rw [hale ha]; nofun
        | false => rw [(hkeep hn ha).1]; exact hpend
    · rw [← hmem]
      simpa [State.videoMemory] using hv hpend

theorem dots_keep_videoMemory {ls : List Bool} {s t : State} (hb : s.videoBus.without Device.notVideo = true) (hw : s.ppu.pend ≠ .write)
    (h : dots ls s = .next t) : t.ppu.pend ≠ .write ∧ t.videoMemory = s.videoMemory := by
  induction ls generalizing s with
  | nil => cases h; exact ⟨hw, rfl⟩
  | cons l ls ih =>
    obtain ⟨u, hu, hrest⟩ := Res.bind_eq_next.mp h
    obtain ⟨hwu, hmu⟩ := ppuCycle_keeps_videoMemory (s := s.withRst l) hb hw hu
    obtain ⟨hwt, hmt⟩ := ih (by rw [(State.fixed_eq.mp (ppuCycle_kept hu).fixed).2.2.2.2.2]; exact hb) hwu hrest
    exact ⟨hwt, hmt.trans hmu⟩

theorem ppuCycle_lines {s t : State} (hb : s.videoBus.without Device.notVideo = true) (h : ppuCycle s = .next t) : t.lines = s.lines := by
  obtain ⟨u, hu, hs⟩ := ppuCycle_total hb
  rw [h] at hu
  cases hu
  exact hs.lines

/-- A reset line that is low all along is low after the dots. -/
theorem dots_rstN_low {ls : List Bool} {s t : State} (hb : s.videoBus.without Device.notVideo = true) (hl : ∀ l ∈ ls, l = false)
    (hr : s.lines.rstN = false) (h : dots ls s = .next t) : t.lines.rstN = false := by
  induction ls generalizing s with
  | nil => cases h; exact hr
  | cons l ls ih =>
    obtain ⟨u, hu, hrest⟩ := Res.bind_eq_next.mp h
    refine ih (by rw [(State.fixed_eq.mp (ppuCycle_kept hu).fixed).2.2.2.2.2]; exact hb) (fun m hm => hl m (by simp [hm])) ?_ hrest
    rw [ppuCycle_lines (s := s.withRst l) hb hu]
    exact hl l (by simp)

/-! ## The driver with the line low -/

theorem State.RstLow.takeDriver_rstN {s : State} (h : s.RstLow) : s.takeDriver.lines.rstN = false := by
  unfold State.takeDriver
  cases hd : s.driver with
  | nil => exact h.now
  | cons d rest => exact (h.later d (by simp [hd])).1

theorem State.RstLow.nextDots {s : State} (h : s.RstLow) : ∀ l ∈ s.nextDots, l = false := by
  unfold State.nextDots
  cases hd : s.driver with
  | nil => simp [h.now]
  | cons d rest => exact (h.later d (by simp [hd])).2

/-! ## Reads whatever the reset line (`20_memory.md` R85) -/

/-- A read where no PPU register stands goes through whatever the PPU holds. -/
theorem memRead_next_off_ppu {a : Word} {s : State} (hb : s.cpuBus.without Device.misbehaves = true) (h : s.cpuBus.device a ≠ some .ppuRegs) :
    ∃ b u, memRead a s = .next (b, u) := by
  have hread : ∃ o, s.cpuBus.read a s = .next (o, s) := by
    unfold Bus.read
    cases hd : s.cpuBus.device a with
    | none => exact ⟨none, rfl⟩
    | some d =>
      have hgood := Bus.device_of_without hb hd
      cases d
      case ppuRegs => exact absurd hd h
      case reentrant | rebinder => exact absurd hgood (by decide)
      all_goals exact ⟨_, rfl⟩
  obtain ⟨o, ho⟩ := hread
  cases o <;> exact ⟨_, _, by simp only [memRead, ho]; rfl⟩

/-- A read that meets no pending PPUDATA access goes through: the PPU is idle, or no register of it stands behind the address. It starts no write. -/
theorem memRead_through {a : Word} {s : State} (hb : s.cpuBus.without Device.misbehaves = true)
    (h : s.ppu.pend = .none ∨ s.cpuBus.device a ≠ some .ppuRegs) :
    ∃ b d p, memRead a s = .next (b, { s with cpu := s.cpu.onBus a b d, ppu := p }) ∧ p.oam = s.ppu.oam ∧ p.pal = s.ppu.pal ∧
      (s.ppu.pend ≠ .write → p.pend ≠ .write) ∧ ∀ v, s.peek a = some v → b = v := by
  obtain ⟨b, u, hu⟩ := h.elim (memRead_next hb) (memRead_next_off_ppu hb)
  obtain ⟨d, p, rfl, hp⟩ := memRead_frame hu
  have hpeek : ∀ v, s.peek a = some v → b = v := fun v hv => by
    rw [memRead_peek hv] at hu
    cases hu
    rfl
  rcases hp with rfl | ⟨-, -, hreg⟩
  · exact ⟨b, d, s.ppu, hu, rfl, rfl, id, hpeek⟩
  · obtain ⟨hoam, hpal, -, -, -, -, -, -, -, -, -, -, -, -, -, -, hpend⟩ := Ppu.regRead_frame hreg
    refine ⟨b, d, p, hu, hoam, hpal, fun hw => ?_, hpeek⟩
    rcases hpend with ⟨hsame, -⟩ | ⟨-, hread, -⟩
    · rw [hsame]; exact hw
    · rw [hread]; nofun

/-! ## Cycles that only read -/

/-- `n` cycles that only read led from `s` to `t`, whatever the reset line did. -/
structure ReadOn (n : Nat) (s t : State) : Prop where
  fixed : t.fixed = s.fixed
  driver : t.driver = s.driver.drop n
  ram : t.ram = s.ram
  video : s.ppu.pend ≠ .write → t.ppu.pend ≠ .write ∧ t.videoMemory = s.videoMemory
  low : s.RstLow → t.RstLow
  running : s.Running → t.Running

theorem ReadOn.refl (s : State) : ReadOn 0 s s := ⟨rfl, rfl, rfl, fun hw => ⟨hw, rfl⟩, id, id⟩

theorem ReadOn.ofCpu {n : Nat} {s t : State} {c : Cpu} (h : ReadOn n { s with cpu := c } t) : ReadOn n s t :=
  ⟨h.fixed, h.driver, h.ram, h.video, fun hl => h.low ⟨hl.now, hl.later⟩, fun hr => h.running (hr.withCpu c)⟩

theorem ReadOn.peek {n : Nat} {s t : State} (h : ReadOn n s t) : t.peek = s.peek := State.peek_congr h.fixed h.ram

/-- One more cycle that reads. -/
theorem ReadOn.read {n : Nat} {s t : State} {seq : Sequence} {k : Bool} {r : Row} (h : ReadOn n s t) (hb : s.SoundBuses)
    (hr : seq t.cpu.eng.t t.cpu = r) (ho : r.out = none) (ha : s.Running ∨ s.cpuBus.device r.addr ≠ some .ppuRegs) :
    ∃ b u d i z, tick seq k t = .next (u, r.final || r.halt) ∧ ReadOn (n + 1) s u ∧
      u.cpu = r.closeCpu k i z t.takeDriver.lines.rstN (r.effect b (t.cpu.onBus r.addr b d)) ∧ ∀ v, s.peek r.addr = some v → b = v := by
  have hbt := hb.ofFixed h.fixed
  obtain ⟨b, d, p, hread, hoam, hpal, hwrite, hbyte⟩ := memRead_through (a := r.addr) (s := t.takeDriver) (by simpa using hbt.cpu)
    (by simpa [(State.fixed_eq.mp h.fixed).2.2.2.2.1] using ha.imp_left fun hs => (h.running hs).idle)
  obtain ⟨u, l, hdots, hs⟩ := dots_total (ls := t.nextDots) (s := r.finish k
    { t.takeDriver with cpu := r.effect b (t.takeDriver.cpu.onBus r.addr b d), ppu := p }) (by simpa using hbt.video)
  have htick : tick seq k t = .next (u, r.final || r.halt) := by
    simp only [tick, hr, Row.access, ho, hread, Res.bind_next, hdots]
  have hdriver : u.driver = t.driver.tail := by simpa using hs.driver
  refine ⟨b, u, d, t.takeDriver.lines.irqN, p.nmiN && t.takeDriver.lines.nmiExtN, htick,
    ⟨?_, ?_, ?_, fun hw => ?_, fun hl => ⟨?_, ?_⟩, fun hrun => ?_⟩, ?_, ?_⟩
  · exact hs.fixed.trans (by simpa [State.fixed] using h.fixed)
  · rw [hdriver, h.driver, List.tail_drop]
  · exact hs.ram.trans (by simpa using h.ram)
  · obtain ⟨hwt, hmt⟩ := h.video hw
    obtain ⟨hwu, hmu⟩ := dots_keep_videoMemory (by simpa using hbt.video) (by simpa using hwrite (by simpa using hwt)) hdots
    refine ⟨hwu, hmu.trans (Eq.trans ?_ hmt)⟩
    simp [State.videoMemory, hoam, hpal]
  · exact dots_rstN_low (by simpa using hbt.video) (h.low hl).nextDots (by simpa using (h.low hl).takeDriver_rstN) hdots
  · rw [hdriver]
    exact fun d hd => (h.low hl).later d (List.mem_of_mem_tail hd)
  · obtain ⟨b', u', hu', hticked⟩ := tick_running (seq := seq) (commits := k) (h.running hrun) hr
    rw [htick] at hu'
    cases hu'
    exact hticked.running
  · rw [hs.cpu]
    exact (Row.finish_cpu ..).trans (by simp [State.nmiN])
  · intro v hv
    rw [← h.peek] at hv
    exact hbyte v (by rw [State.peek_congr t.takeDriver_fixed t.takeDriver_ram]; exact hv)

/-! ## The reset sequence (`40_cycle_engine.md` R158, `70_reset_and_hazards.md` R391) -/

/-- No PPU register stands behind the addresses that the reset sequence reads. -/
def State.ResetReadsOffPpu (s : State) : Prop :=
  ∀ a ∈ [s.cpu.regs.pc, stackAddr s.cpu.regs.s, stackAddr (s.cpu.regs.s - 1), stackAddr (s.cpu.regs.s - 2), 0xFFFC, 0xFFFD],
    s.cpuBus.device a ≠ some .ppuRegs

/-- The seven cycles of RST from its T0. Only the tracker looks at the reset line: SERVICED stays so while the line is low and is cleared by a high one
(`60_exceptions.md` R352). -/
theorem rst_run {s : State} (hb : s.SoundBuses) (ha : s.Running ∨ s.ResetReadsOffPpu) (ht : s.cpu.eng.t = 0) :
    ∃ t, runSequence (entrySequence .rst) false maxCycles s = .next t ∧ ReadOn 7 s t ∧
      t.cpu.regs = { s.cpu.regs with pc := t.cpu.ea, s := s.cpu.regs.s - 3, p := { s.cpu.regs.p with i := true } } ∧
      t.cpu.eng.addrbus = 0xFFFD#16 ∧ t.cpu.eng.presync = true ∧ t.cpu.eng.jammed = s.cpu.eng.jammed ∧ t.cpu.eng.kind = s.cpu.eng.kind ∧
      (∀ v, s.peek 0xFFFC#16 = some v → t.cpu.eng.adl = v) ∧ (∀ v, s.peek 0xFFFD#16 = some v → t.cpu.eng.adh = v) ∧
      (s.cpu.trk.rst = .serviced → (s.RstLow → t.cpu.trk.rst = .serviced) ∧ (s.Running → t.cpu.trk.rst = .clear)) := by
  have hoff : ∀ a, a ∈ [s.cpu.regs.pc, stackAddr s.cpu.regs.s, stackAddr (s.cpu.regs.s - 1), stackAddr (s.cpu.regs.s - 2), 0xFFFC, 0xFFFD] →
      s.Running ∨ s.cpuBus.device a ≠ some .ppuRegs := fun a hm => ha.imp_right fun h => h a hm
  obtain ⟨b0, s1, d0, i0, z0, e0, q1, c1, -⟩ := (ReadOn.refl s).read (seq := entrySequence .rst) (k := false)
    (r := { addr := s.cpu.regs.pc, effect := fun _ c => { c with eng.opc := 0#8 } }) hb (by rw [ht]; rfl) rfl (hoff _ (by simp))
  obtain ⟨b1, s2, d1, i1, z1, e1, q2, c2, -⟩ := q1.read (seq := entrySequence .rst) (k := false)
    (r := { addr := s.cpu.regs.pc }) hb (by simp [entrySequence, idleRow, c1, ht]) rfl (hoff _ (by simp))
  obtain ⟨b2, s3, d2, i2, z2, e2, q3, c3, -⟩ := q2.read (seq := entrySequence .rst) (k := false)
    (r := { addr := stackAddr s.cpu.regs.s, effect := fun _ c => { c with regs.s := c.regs.s - 1 } }) hb
    (by simp [entrySequence, entryStackRow, pushRow, c2, c1, ht]) rfl (hoff _ (by simp))
  obtain ⟨b3, s4, d3, i3, z3, e3, q4, c4, -⟩ := q3.read (seq := entrySequence .rst) (k := false)
    (r := { addr := stackAddr (s.cpu.regs.s - 1), effect := fun _ c => { c with regs.s := c.regs.s - 1 }, poll := true }) hb
    (by simp [entrySequence, entryStackRow, pushRow, c3, c2, c1, ht]) rfl (hoff _ (by simp))
  obtain ⟨b4, s5, d4, i4, z4, e4, q5, c5, -⟩ := q4.read (seq := entrySequence .rst) (k := false)
    (r := { addr := stackAddr (s.cpu.regs.s - 2), effect := fun _ c => { c with regs.s := c.regs.s - 1 } }) hb
    (by simp [entrySequence, entryStackRow, pushRow, BitVec.sub_sub, c4, c3, c2, c1, ht]) rfl (hoff _ (by simp))
  obtain ⟨b5, s6, d5, i5, z5, e5, q6, c6, v5⟩ := q5.read (seq := entrySequence .rst) (k := false)
    (r := { addr := 0xFFFC#16, effect := fun b c => { c with eng.vec := 0xFFFC#16, eng.adl := b } }) hb
    (by simp [entrySequence, EntryKind.vector, EntryKind.hijacked, c5, c4, c3, c2, c1, ht]) rfl (hoff _ (by simp))
  obtain ⟨b6, s7, d6, i6, z6, e6, q7, c7, v6⟩ := q6.read (seq := entrySequence .rst) (k := false)
    (r := { addr := 0xFFFD#16, effect := fun b c => { c with eng.adh := b, regs.pc := join b c.eng.adl, regs.p.i := true }, final := true })
    hb (by simp [entrySequence, c6, c5, c4, c3, c2, c1, ht]) rfl (hoff _ (by simp))
  refine ⟨s7, ?_, q7, ?_, ?_, ?_, ?_, ?_, fun v hv => ?_, fun v hv => ?_, fun hr => ⟨fun hl => ?_, fun hrun => ?_⟩⟩
  · refine entry_run e0 e1 ?_
    rw [runSequence_go e2, runSequence_go e3, runSequence_go e4, runSequence_go e5, runSequence_end e6]
  · simp [c1, c2, c3, c4, c5, c6, c7, Cpu.ea, BitVec.sub_sub]
  · simp [c7]
  · simp [c7]
  · simp [c1, c2, c3, c4, c5, c6, c7]
  · simp [c1, c2, c3, c4, c5, c6, c7]
  · simpa [c6, c7] using v5 v hv
  · simpa [c7] using v6 v hv
  · have hline {n u} (q : ReadOn n s u) : u.takeDriver.lines.rstN = false := (q.low hl).takeDriver_rstN
    simp [c1, c2, c3, c4, c5, c6, c7, hr, hline (.refl s), hline q1, hline q2, hline q3, hline q4, hline q5, hline q6, sampleEdge,
      Tracker.promoted]
  · have hline {n u} (q : ReadOn n s u) : u.takeDriver.lines.rstN = true := State.takeDriver_rstN (q.running hrun)
    simp [c1, c2, c3, c4, c5, c6, c7, hr, hline (.refl s), hline q1, hline q2, hline q3, hline q4, hline q5, hline q6, sampleEdge]

/-! ## The reset hold (`70_reset_and_hazards.md` R391) -/

theorem step_eq_holdCycle {s : State} (he : s.early = []) (hj : s.cpu.eng.jammed = false) (hp : s.cpu.eng.presync = true)
    (hh : s.cpu.trk.rst = .serviced) : step s = holdCycle s := by
  simp [step, State.runEarly_nil he, stepNow, hj, hp, hh]

/-- A cycle of the hold goes through whatever the reset line does; it samples the lines and leaves all RAM. -/
theorem holdCycle_next {s : State} (hb : s.videoBus.without Device.notVideo = true) :
    ∃ t, holdCycle s = .next t ∧ t.cpu = s.takeDriver.sampleLines.cpu ∧ t.ram = s.ram ∧ t.driver = s.driver.tail := by
  obtain ⟨t, l, ht, hs⟩ := dots_total (ls := s.nextDots) (s := s.takeDriver.sampleLines) (by simpa using hb)
  exact ⟨t, ht, hs.cpu, hs.ram.trans (by simp), hs.driver.trans (by simp)⟩

/-- Settles O35: RESET's begin leaves its tracker SERVICED, where a low line keeps it and a high one clears it; the seven cycles only read. The hold is
that of the same tracker. -/
theorem resetEntryAndHold : Obligations.ResetEntryAndHold := by
  refine ⟨fun s hb he hj hp hr ha => ?_, fun s hb he hj hp hr => ?_⟩
  · have hbegin := Cpu.beginSequence_of_rst hr
    obtain ⟨t, hrun, hread, hregs, haddr, hsync, hjam, hkind, hadl, hadh, hrst⟩ := rst_run (s := { s with cpu := s.cpu.beginSequence })
      ⟨hb.cpu, hb.video⟩ (ha.imp (fun h => h.withCpu _) fun h => by simpa [State.ResetReadsOffPpu] using h) s.cpu.beginSequence_t
    have hs : ReadOn 7 s t := hread.ofCpu
    rw [State.peek_withCpu, ← hs.peek] at hadl hadh
    simp only [Cpu.beginSequence_regs, Cpu.beginSequence_jammed] at hregs hjam
    obtain ⟨hlow, hhigh⟩ := hrst (by rw [hbegin])
    refine ⟨t, ?_, hs.fixed, hs.driver, hs.ram, fun hw => (hs.video hw).2, hsync, hjam.trans hj, hkind.trans (by rw [hbegin]; rfl), haddr,
      fun l h hl hh => ?_, by rw [hregs], fun hl => hlow ⟨hl.now, hl.later⟩, fun h => ⟨hhigh (h.withCpu _), ?_⟩⟩
    · rw [step_eq_runFromBoundary he hj hp (by rw [hr]; nofun), runFromBoundary, hbegin]
      exact hrun
    · rw [hregs, Cpu.ea, hadl l hl, hadh h hh]
    · exact .of (hs.running h) hs.fixed hs.driver hsync hjam hs.ram fun _ => (hs.video (by rw [h.idle]; nofun)).2
  · obtain ⟨t, ht, hcpu, hram, hdriver⟩ := holdCycle_next hb
    refine ⟨t, (step_eq_holdCycle he hj hp hr).trans ht, by simp [hcpu], by simp [hcpu], hram, hdriver, ?_⟩
    rw [hcpu, State.sampleLines_rst, State.takeDriver_cpu, hr]
    exact sampleEdge_eq ..

end Sys2Proof.Machine
end
